-- ==== Sys2Proof/Word.lean ====
section
/-!
DEFINITION. The words of the machine and the two containers its state is made of: a sparse table keyed by a number and
a sparse byte memory, both plain lists with strictly rising keys; the memory lists no byte equal to what an unlisted
address reads as. What a byte of memory that nothing has written reads as is 0 (log 2).
-/
namespace Sys2Proof

/-- A byte (00 R4). -/
abbrev Byte := BitVec 8

/-- A 64-bit register value (01 R10). -/
abbrev Word := BitVec 64

/-- A sparse table: pairs of key and value, keys strictly rising. What an unlisted key reads as is given by each use: it
is the reset value of the object the table holds. -/
structure Tab (α : Type) where
  l : List (Nat × α)
  deriving DecidableEq, Repr

/-- The table with nothing listed: every key reads as the default. -/
def Tab.empty {α : Type} : Tab α := ⟨[]⟩

/-- A sparse byte memory: cells in strictly rising address order, none holding 0. -/
structure Mem where
  cells : List Host.Cell
  deriving DecidableEq, Repr

/-- The memory with nothing listed: every byte reads 0 (log 2). -/
def Mem.empty : Mem := ⟨[]⟩

end Sys2Proof
end

