-- ==== Sys2Proof/Syntax.lean ====
section
/-!
DEFINITION. The syntax of the machine: the named causes, the operand forms of 03 R68 and R70, the element types and
format codes of 02 R34, and Instr, one constructor per row of the opcode table: the slot instructions, the microwords
of 06 R155, and the events (completions, engine steps, inputs from the host and from peers) with the data that names
their object.
-/
namespace Sys2Proof

/-- The named causes of 14 R326. -/
inductive Cause where
  | illegalBundle
  | illegalLiteral
  | illegalOpcode
  | illegalOperand
  | illegalFormat
  | illegalWriteConflict
  | illegalLoopOverflow
  | illegalLoopEnd
  | illegalQueueUnderrun
  | illegalQueueOverflow
  | illegalEret
  | privInstruction
  | privCsr
  | alignScalar
  | alignVector
  | alignAtomic
  | alignSync
  | alignCopy
  | alignFxcell
  | alignMxload
  | alignMxpark
  | alignXlatinv
  | memRange
  | memFetchRange
  | memTeamWindow
  | memVectorTarget
  | memMxTarget
  | memAtomicTarget
  | memSyncTarget
  | memAsidInvalid
  | memPageNotPresent
  | memXlatFormat
  | memPermission
  | memClass
  | memUncorrectable
  | memHomeReset
  | memHomeOff
  | arithDivZero
  | assistSubnormal
  | mxNotParked
  | mxNotLoaded
  | mxBadMicroword
  | mxStoreFull
  | mxBankFormat
  | mxRingSlot
  | mxRingUndefined
  | mxBadImage
  | mxParkOpen
  | geoNonfinite
  | fxcellUninit
  | fxcellNonfinite
  | fxcellOverflow
  | regionClobber
  | regionNested
  | regionNotOpen
  | regionIllegalOp
  | taskNoTask
  | taskNoRename
  | taskBadItem
  | taskBadGranule
  | taskUndeclaredWrite
  | taskHaltInRegion
  | phaseConflict
  | detAtomicOrder
  | syncNoMonitor
  | syncSemOverflow
  | syncBarrierUninit
  | syncBarrierOverrun
  | syncTeamExit
  | syncQueueRange
  | syncQueuePerm
  | syncQueueError
  | syncQueueItem
  | syncQueueClosed
  | syncQueueState
  | syncQueueBusy
  | syncSqRecord
  | engBadRecord
  | engCopyError
  | engStreamUnbound
  | engStreamBusy
  | engRingUndefined
  | engRingRole
  | engRingOverrun
  | engRingBusy
  | engSubBusy
  | engMouldError
  | engPressError
  | ctxTrap
  | ctxBreakpoint
  | ctxLevelOverflow
  | ctxTeamKilled
  | ctxHeldLost
  | ctxCancelled
  | replicaDiverged
  | replicaRerun
  | replicaFaulty
  | replicaLink
  | rasMxChecksum
  | rasScuMismatch
  | rasVuResidue
  | rasLinkDown
  | rasSelftestFail
  | rasCoreFenced
  | rasMarginLimit
  | rasMarginEntry
  deriving DecidableEq, Repr

/-- The 8-bit code of each cause (14 R326). -/
def Cause.code : Cause → Nat
  | .illegalBundle => 0x01
  | .illegalLiteral => 0x02
  | .illegalOpcode => 0x03
  | .illegalOperand => 0x04
  | .illegalFormat => 0x05
  | .illegalWriteConflict => 0x06
  | .illegalLoopOverflow => 0x07
  | .illegalLoopEnd => 0x08
  | .illegalQueueUnderrun => 0x09
  | .illegalQueueOverflow => 0x0A
  | .illegalEret => 0x0B
  | .privInstruction => 0x10
  | .privCsr => 0x11
  | .alignScalar => 0x14
  | .alignVector => 0x15
  | .alignAtomic => 0x16
  | .alignSync => 0x17
  | .alignCopy => 0x18
  | .alignFxcell => 0x19
  | .alignMxload => 0x1A
  | .alignMxpark => 0x1B
  | .alignXlatinv => 0x1C
  | .memRange => 0x20
  | .memFetchRange => 0x21
  | .memTeamWindow => 0x22
  | .memVectorTarget => 0x23
  | .memMxTarget => 0x24
  | .memAtomicTarget => 0x25
  | .memSyncTarget => 0x26
  | .memAsidInvalid => 0x27
  | .memPageNotPresent => 0x28
  | .memXlatFormat => 0x29
  | .memPermission => 0x2A
  | .memClass => 0x2B
  | .memUncorrectable => 0x2C
  | .memHomeReset => 0x2D
  | .memHomeOff => 0x2E
  | .arithDivZero => 0x40
  | .assistSubnormal => 0x44
  | .mxNotParked => 0x48
  | .mxNotLoaded => 0x49
  | .mxBadMicroword => 0x4A
  | .mxStoreFull => 0x4B
  | .mxBankFormat => 0x4C
  | .mxRingSlot => 0x4D
  | .mxRingUndefined => 0x4E
  | .mxBadImage => 0x4F
  | .mxParkOpen => 0x50
  | .geoNonfinite => 0x58
  | .fxcellUninit => 0x5C
  | .fxcellNonfinite => 0x5D
  | .fxcellOverflow => 0x5E
  | .regionClobber => 0x60
  | .regionNested => 0x61
  | .regionNotOpen => 0x62
  | .regionIllegalOp => 0x63
  | .taskNoTask => 0x68
  | .taskNoRename => 0x69
  | .taskBadItem => 0x6A
  | .taskBadGranule => 0x6B
  | .taskUndeclaredWrite => 0x6C
  | .taskHaltInRegion => 0x6D
  | .phaseConflict => 0x70
  | .detAtomicOrder => 0x74
  | .syncNoMonitor => 0x78
  | .syncSemOverflow => 0x79
  | .syncBarrierUninit => 0x7A
  | .syncBarrierOverrun => 0x7B
  | .syncTeamExit => 0x7C
  | .syncQueueRange => 0x7D
  | .syncQueuePerm => 0x7E
  | .syncQueueError => 0x7F
  | .syncQueueItem => 0x80
  | .syncQueueClosed => 0x81
  | .syncQueueState => 0x82
  | .syncQueueBusy => 0x83
  | .syncSqRecord => 0x84
  | .engBadRecord => 0x90
  | .engCopyError => 0x91
  | .engStreamUnbound => 0x92
  | .engStreamBusy => 0x93
  | .engRingUndefined => 0x94
  | .engRingRole => 0x95
  | .engRingOverrun => 0x96
  | .engRingBusy => 0x97
  | .engSubBusy => 0x98
  | .engMouldError => 0x99
  | .engPressError => 0x9A
  | .ctxTrap => 0xA0
  | .ctxBreakpoint => 0xA1
  | .ctxLevelOverflow => 0xA2
  | .ctxTeamKilled => 0xA3
  | .ctxHeldLost => 0xA4
  | .ctxCancelled => 0xA5
  | .replicaDiverged => 0xB0
  | .replicaRerun => 0xB1
  | .replicaFaulty => 0xB2
  | .replicaLink => 0xB3
  | .rasMxChecksum => 0xC0
  | .rasScuMismatch => 0xC1
  | .rasVuResidue => 0xC2
  | .rasLinkDown => 0xC3
  | .rasSelftestFail => 0xC4
  | .rasCoreFenced => 0xC5
  | .rasMarginLimit => 0xC6
  | .rasMarginEntry => 0xC7

/-- Every cause. -/
def Cause.all : List Cause :=
  [.illegalBundle, .illegalLiteral, .illegalOpcode, .illegalOperand, .illegalFormat, .illegalWriteConflict, .illegalLoopOverflow,
   .illegalLoopEnd, .illegalQueueUnderrun, .illegalQueueOverflow, .illegalEret, .privInstruction, .privCsr, .alignScalar, .alignVector,
   .alignAtomic, .alignSync, .alignCopy, .alignFxcell, .alignMxload, .alignMxpark, .alignXlatinv, .memRange, .memFetchRange,
   .memTeamWindow, .memVectorTarget, .memMxTarget, .memAtomicTarget, .memSyncTarget, .memAsidInvalid, .memPageNotPresent,
   .memXlatFormat, .memPermission, .memClass, .memUncorrectable, .memHomeReset, .memHomeOff, .arithDivZero, .assistSubnormal,
   .mxNotParked, .mxNotLoaded, .mxBadMicroword, .mxStoreFull, .mxBankFormat, .mxRingSlot, .mxRingUndefined, .mxBadImage, .mxParkOpen,
   .geoNonfinite, .fxcellUninit, .fxcellNonfinite, .fxcellOverflow, .regionClobber, .regionNested, .regionNotOpen, .regionIllegalOp,
   .taskNoTask, .taskNoRename, .taskBadItem, .taskBadGranule, .taskUndeclaredWrite, .taskHaltInRegion, .phaseConflict, .detAtomicOrder,
   .syncNoMonitor, .syncSemOverflow, .syncBarrierUninit, .syncBarrierOverrun, .syncTeamExit, .syncQueueRange, .syncQueuePerm,
   .syncQueueError, .syncQueueItem, .syncQueueClosed, .syncQueueState, .syncQueueBusy, .syncSqRecord, .engBadRecord, .engCopyError,
   .engStreamUnbound, .engStreamBusy, .engRingUndefined, .engRingRole, .engRingOverrun, .engRingBusy, .engSubBusy, .engMouldError,
   .engPressError, .ctxTrap, .ctxBreakpoint, .ctxLevelOverflow, .ctxTeamKilled, .ctxHeldLost, .ctxCancelled, .replicaDiverged,
   .replicaRerun, .replicaFaulty, .replicaLink, .rasMxChecksum, .rasScuMismatch, .rasVuResidue, .rasLinkDown, .rasSelftestFail,
   .rasCoreFenced, .rasMarginLimit, .rasMarginEntry]

/-- The cause of a code; none for a reserved one (14 R326). -/
def Cause.ofCode (n : Nat) : Option Cause := Cause.all.find? fun c => c.code == n

/-- The causes that 14 R326 marks L: those that appear in logs. -/
def Cause.logged : List Cause :=
  [.memAsidInvalid, .memPageNotPresent, .memXlatFormat, .memPermission, .memClass, .memUncorrectable, .memHomeReset, .memHomeOff,
   .assistSubnormal, .fxcellOverflow, .phaseConflict, .syncSqRecord, .replicaDiverged, .replicaRerun, .replicaFaulty, .replicaLink,
   .rasMxChecksum, .rasScuMismatch, .rasVuResidue, .rasLinkDown, .rasSelftestFail, .rasCoreFenced, .rasMarginLimit, .rasMarginEntry]

/-- The two scalar units that share one opcode map (03 R74). -/
inductive Alu where
  | alu0 | alu1
  deriving DecidableEq, Repr

/-- An 8-bit source field (03 R68): an s, p, q, m or li register, the entry k places after a result queue's head,
zero, or an operand latch (l = false for A, true for B). -/
inductive Src where
  | s (n : BitVec 6)
  | p (n : BitVec 4)
  | q (n : BitVec 4)
  | handle (u : Fin 7) (k : BitVec 2)
  | m (n : BitVec 3)
  | li (n : Fin 6)
  | zero
  | latch (u : Fin 6) (l : Bool)
  deriving DecidableEq, Repr

/-- A 9-bit source B field (03 R70): a source field, a signed immediate other than -128, or the literal. -/
inductive Src9 where
  | src (a : Src)
  | imm (i : BitVec 8)
  | lit
  deriving DecidableEq, Repr

/-- A destination field (03 R68): an s, p or m register, the own unit's result queue (offset 0, 01 R21), discard, or an
operand latch. -/
inductive Dst where
  | s (n : BitVec 6)
  | p (n : BitVec 4)
  | handle (u : Fin 7)
  | m (n : BitVec 3)
  | discard
  | latch (u : Fin 6) (l : Bool)
  deriving DecidableEq, Repr

/-- The element types with a VT code (03 R80). -/
inductive VT where
  | i8 | i16 | i32 | i64 | n8 | n16 | n32 | n64 | f16 | bf16 | f32 | f64
  deriving DecidableEq, Repr

/-- The TYPE values of an element format code (02 R34); the precision P of a binary8 type is p + 1. -/
inductive FTyp where
  | vt (t : VT)
  | raw
  | f8 (p : Fin 7)
  | g8 (p : Fin 7)
  deriving DecidableEq, Repr

/-- An element format code (02 R34). -/
structure Fmt where
  typ : FTyp
  inf : Bool
  sat : Bool
  deriving DecidableEq, Repr

/-- The width codes 0 to 3, for 8, 16, 32 and 64 bits (03 R81). -/
inductive Width where
  | w8 | w16 | w32 | w64
  deriving DecidableEq, Repr

/-- The predicate formats GF (03 R85). -/
inductive GF where
  | f32 | f64 | i32 | i64
  deriving DecidableEq, Repr

/-- The reduction and scan operations (03 R84). -/
inductive RedOp where
  | add | min | max | and | or | xor
  deriving DecidableEq, Repr

/-- The SEMI values (03 R85). -/
inductive Semi where
  | plusTimes | minPlus | maxPlus | maxTimes | minMax | maxMin | orAnd
  deriving DecidableEq, Repr

/-- The FCVT selectors 0 to 13 (03 R75). -/
abbrev CvtSel := Fin 14

/-- The MOD of an atomic (07 R201). -/
inductive AtomT where
  | i32 | i64 | n32 | n64
  deriving DecidableEq, Repr

/-- The scope of a FENCE (03 R88). -/
inductive Scope where
  | core | team | device | system
  deriving DecidableEq, Repr

/-- One entry of ADV: unit and count (04 R105). -/
structure AdvEnt where
  unit : BitVec 3
  count : BitVec 3
  deriving DecidableEq, Repr

/-- Who forked an engine thread or sent a request: context 1 of a core, the worker with a logical index of a launch, a context 0 that no
launch started (log 3), or a context 1 that was killed since and restarted (14 R323). -/
inductive Owner where
  | fw (core : Nat)
  | worker (launch : Nat) (lcid : Nat)
  | bare (core : Nat)
  | past (core : Nat)
  deriving DecidableEq, Repr

/-- A failing array reported by a self-test (20 R400): site, unit, array, row and the number of the core, base die,
I/O die or link. -/
structure FailArray where
  site : Nat
  unit : Nat
  array : Nat
  row : Nat
  place : Nat
  deriving DecidableEq, Repr

/-- A peer frame: eight header words and up to four payload flits of 64 bytes (18 R373), and the port it came on. -/
structure Frame where
  port : Nat
  hdr : List Word
  payload : List Byte
  deriving DecidableEq, Repr

/-- The instructions and events of the machine: one constructor per row of the opcode table. -/
inductive Instr where
  | nop
  | bc (neg : Bool) (p : BitVec 4) (off : BitVec 21)
  | call (off : BitVec 26)
  | callr (a : Src)
  | jr (a : Src)
  | ret (a : Src)
  | loop (flex : Bool) (cnt : Src9) (endOff : BitVec 16)
  | adv (e0 e1 e2 e3 : AdvEnt)
  | yield (desc : BitVec 10) (budget : BitVec 16)
  | hint (n : BitVec 26)
  | trap (code : BitVec 8)
  | eret
  | halt
  | bkpt (code : BitVec 8)
  | add (u : Alu) (d : Dst) (a : Src) (b : Src9)
  | sub (u : Alu) (d : Dst) (a : Src) (b : Src9)
  | mul (u : Alu) (d : Dst) (a : Src) (b : Src9)
  | mulh (u : Alu) (d : Dst) (a : Src) (b : Src9)
  | mulhu (u : Alu) (d : Dst) (a : Src) (b : Src9)
  | div (u : Alu) (d : Dst) (a : Src) (b : Src9)
  | divu (u : Alu) (d : Dst) (a : Src) (b : Src9)
  | rem (u : Alu) (d : Dst) (a : Src) (b : Src9)
  | remu (u : Alu) (d : Dst) (a : Src) (b : Src9)
  | and (u : Alu) (d : Dst) (a : Src) (b : Src9)
  | or (u : Alu) (d : Dst) (a : Src) (b : Src9)
  | xor (u : Alu) (d : Dst) (a : Src) (b : Src9)
  | andn (u : Alu) (d : Dst) (a : Src) (b : Src9)
  | shl (u : Alu) (d : Dst) (a : Src) (b : Src9)
  | shr (u : Alu) (d : Dst) (a : Src) (b : Src9)
  | sra (u : Alu) (d : Dst) (a : Src) (b : Src9)
  | rol (u : Alu) (d : Dst) (a : Src) (b : Src9)
  | ror (u : Alu) (d : Dst) (a : Src) (b : Src9)
  | min (u : Alu) (d : Dst) (a : Src) (b : Src9)
  | minu (u : Alu) (d : Dst) (a : Src) (b : Src9)
  | max (u : Alu) (d : Dst) (a : Src) (b : Src9)
  | maxu (u : Alu) (d : Dst) (a : Src) (b : Src9)
  | ceq (u : Alu) (d : Dst) (a : Src) (b : Src9)
  | cne (u : Alu) (d : Dst) (a : Src) (b : Src9)
  | clt (u : Alu) (d : Dst) (a : Src) (b : Src9)
  | cltu (u : Alu) (d : Dst) (a : Src) (b : Src9)
  | cle (u : Alu) (d : Dst) (a : Src) (b : Src9)
  | cleu (u : Alu) (d : Dst) (a : Src) (b : Src9)
  | cmov (u : Alu) (d : Dst) (a : Src) (b : Src9)
  | cmovz (u : Alu) (d : Dst) (a : Src) (b : Src9)
  | bext (u : Alu) (d : Dst) (a : Src) (b : Src9)
  | bextu (u : Alu) (d : Dst) (a : Src) (b : Src9)
  | bins (u : Alu) (d : Dst) (a : Src) (b : Src9)
  | clz (u : Alu) (d : Dst) (a : Src)
  | ctz (u : Alu) (d : Dst) (a : Src)
  | popc (u : Alu) (d : Dst) (a : Src)
  | sext (u : Alu) (d : Dst) (a : Src) (b : Src9)
  | zext (u : Alu) (d : Dst) (a : Src) (b : Src9)
  | lih (u : Alu) (d : Dst) (a : Src) (b : Src9)
  | faddF32 (u : Alu) (d : Dst) (a : Src) (b : Src9)
  | fsubF32 (u : Alu) (d : Dst) (a : Src) (b : Src9)
  | fmulF32 (u : Alu) (d : Dst) (a : Src) (b : Src9)
  | fmaF32 (u : Alu) (d : Dst) (a : Src) (b : Src9)
  | fdivF32 (u : Alu) (d : Dst) (a : Src) (b : Src9)
  | fsqrtF32 (u : Alu) (d : Dst) (a : Src)
  | fminF32 (u : Alu) (d : Dst) (a : Src) (b : Src9)
  | fmaxF32 (u : Alu) (d : Dst) (a : Src) (b : Src9)
  | fceqF32 (u : Alu) (d : Dst) (a : Src) (b : Src9)
  | fcltF32 (u : Alu) (d : Dst) (a : Src) (b : Src9)
  | fcleF32 (u : Alu) (d : Dst) (a : Src) (b : Src9)
  | faddF64 (u : Alu) (d : Dst) (a : Src) (b : Src9)
  | fsubF64 (u : Alu) (d : Dst) (a : Src) (b : Src9)
  | fmulF64 (u : Alu) (d : Dst) (a : Src) (b : Src9)
  | fmaF64 (u : Alu) (d : Dst) (a : Src) (b : Src9)
  | fdivF64 (u : Alu) (d : Dst) (a : Src) (b : Src9)
  | fsqrtF64 (u : Alu) (d : Dst) (a : Src)
  | fminF64 (u : Alu) (d : Dst) (a : Src) (b : Src9)
  | fmaxF64 (u : Alu) (d : Dst) (a : Src) (b : Src9)
  | fceqF64 (u : Alu) (d : Dst) (a : Src) (b : Src9)
  | fcltF64 (u : Alu) (d : Dst) (a : Src) (b : Src9)
  | fcleF64 (u : Alu) (d : Dst) (a : Src) (b : Src9)
  | fcvt (u : Alu) (d : Dst) (a : Src) (sel : CvtSel)
  | lea (d : Dst) (a : Src) (b : Src9)
  | leah (d : Dst) (a : Src) (b : Src9)
  | leaw (d : Dst) (a : Src) (b : Src9)
  | lead (d : Dst) (a : Src) (b : Src9)
  | ldI8 (d : Dst) (a : Src) (b : Src9)
  | ldN8 (d : Dst) (a : Src) (b : Src9)
  | ldI16 (d : Dst) (a : Src) (b : Src9)
  | ldN16 (d : Dst) (a : Src) (b : Src9)
  | ldI32 (d : Dst) (a : Src) (b : Src9)
  | ldN32 (d : Dst) (a : Src) (b : Src9)
  | ld64 (d : Dst) (a : Src) (b : Src9)
  | ldxI8 (d : Dst) (a : Src) (b : Src9)
  | ldxN8 (d : Dst) (a : Src) (b : Src9)
  | ldxI16 (d : Dst) (a : Src) (b : Src9)
  | ldxN16 (d : Dst) (a : Src) (b : Src9)
  | ldxI32 (d : Dst) (a : Src) (b : Src9)
  | ldxN32 (d : Dst) (a : Src) (b : Src9)
  | ldx64 (d : Dst) (a : Src) (b : Src9)
  | st8 (x : Src) (a : Src) (b : Src9)
  | st16 (x : Src) (a : Src) (b : Src9)
  | st32 (x : Src) (a : Src) (b : Src9)
  | st64 (x : Src) (a : Src) (b : Src9)
  | stx8 (x : Src) (a : Src) (b : Src9)
  | stx16 (x : Src) (a : Src) (b : Src9)
  | stx32 (x : Src) (a : Src) (b : Src9)
  | stx64 (x : Src) (a : Src) (b : Src9)
  | vadd (t : VT) (vd va vb : BitVec 8)
  | vsub (t : VT) (vd va vb : BitVec 8)
  | vmul (t : VT) (vd va vb : BitVec 8)
  | vfma (t : VT) (vd va vb : BitVec 8)
  | vdiv (t : VT) (vd va vb : BitVec 8)
  | vmin (t : VT) (vd va vb : BitVec 8)
  | vmax (t : VT) (vd va vb : BitVec 8)
  | vadds (t : VT) (vd va vb : BitVec 8)
  | vsubs (t : VT) (vd va vb : BitVec 8)
  | vceq (t : VT) (vd va vb : BitVec 8)
  | vclt (t : VT) (vd va vb : BitVec 8)
  | vcle (t : VT) (vd va vb : BitVec 8)
  | vand (vd va vb : BitVec 8)
  | vor (vd va vb : BitVec 8)
  | vxor (vd va vb : BitVec 8)
  | vandn (vd va vb : BitVec 8)
  | vsel (vd va vb : BitVec 8)
  | vperm8 (vd va vb : BitVec 8)
  | vperm16 (vd va vb : BitVec 8)
  | vperm32 (vd va vb : BitVec 8)
  | vperm64 (vd va vb : BitVec 8)
  | vshl (w : Width) (n : BitVec 6) (vd va : BitVec 8)
  | vsrl (w : Width) (n : BitVec 6) (vd va : BitVec 8)
  | vsra (w : Width) (n : BitVec 6) (vd va : BitVec 8)
  | vtrans (w : Width) (rows : BitVec 6) (vd va : BitVec 8)
  | vmov (vd va : BitVec 8)
  | vld (w : Width) (vd : BitVec 8) (a c : Src)
  | vst (w : Width) (vd : BitVec 8) (a c : Src)
  | vgather (w : Width) (vd : BitVec 8) (a : Src) (vc : BitVec 8)
  | vscatter (w : Width) (vd : BitVec 8) (a : Src) (vc : BitVec 8)
  | vcvt (st : VT) (rz : Bool) (dt : Fmt) (vd va : BitVec 8)
  | vcvtb (dt : VT) (st : Fmt) (vd va : BitVec 8)
  | vabs (t : VT) (vd va : BitVec 8)
  | vneg (t : VT) (vd va : BitVec 8)
  | vexp2 (t : VT) (vd va : BitVec 8)
  | vlog2 (t : VT) (vd va : BitVec 8)
  | vrcp (t : VT) (vd va : BitVec 8)
  | vrsqrt (t : VT) (vd va : BitVec 8)
  | vred (op : RedOp) (t : VT) (d : Dst) (va : BitVec 8)
  | vscan (op : RedOp) (t : VT) (vd va : BitVec 8)
  | vscanx (op : RedOp) (t : VT) (vd va : BitVec 8)
  | vbcast (t : VT) (vd : BitVec 8) (a : Src)
  | vqnt (f : Fmt) (vd va : BitVec 8)
  | vdqnt (f : Fmt) (vd va : BitVec 8)
  | vrand (t : VT) (vd : BitVec 8) (a : Src)
  | vstrm (t : VT) (vd : BitVec 8) (q : BitVec 4)
  | vsetvl (t : VT) (d : Dst) (a : Src)
  | mxset (m : BitVec 3) (field : BitVec 6) (b : Src9)
  | mxcall (d : Dst) (routine : BitVec 8) (bank pbase : BitVec 3)
  | mxwait (a : Src)
  | mxacc (bank : BitVec 3) (vd : BitVec 8) (f : Fmt) (clr : Bool)
  | mxclr (bank : BitVec 3) (pair : Bool)
  | mxsr (semi : Semi) (acc op : Fmt)
  | mxload (routine : BitVec 8) (a : Src) (len : BitVec 8)
  | mxpark (a : Src)
  | mxunpark (a : Src)
  | uend
  | umma (ra rb : BitVec 4) (popa popb : Bool)
  | uloop (src : Bool) (mrel : BitVec 3) (mfield : BitVec 6) (body : BitVec 8) (count : BitVec 32)
  | upop (ring : BitVec 4) (n : BitVec 8)
  | uout (ring : BitVec 4) (f : Fmt) (clr : Bool)
  | gorient2 (g : GF) (vd va : BitVec 8) (d : Dst)
  | gorient3 (g : GF) (vd va : BitVec 8) (d : Dst)
  | gincirc (g : GF) (vd va : BitVec 8) (d : Dst)
  | ginsph (g : GF) (vd va : BitVec 8) (d : Dst)
  | gsegx (g : GF) (vd va : BitVec 8) (d : Dst)
  | gtie (a : Src)
  | cpy (d : Dst) (k : BitVec 3)
  | cpyt (d : Dst) (k : BitVec 3) (b : Src)
  | sbind (q : BitVec 4) (k : BitVec 3)
  | sadv (q : BitVec 4) (b : Src)
  | mon (a : Src)
  | mwait (d : Dst) (b : Src)
  | sempost (a b : Src)
  | semwait (d : Dst) (a b : Src)
  | bararr (d : Dst) (a : Src)
  | barwait (a b : Src)
  | tbar
  | deq (k : BitVec 3) (a : Src)
  | enq (a : Src) (k : BitVec 3)
  | aadd (t : AtomT) (d : Dst) (a b : Src)
  | amin (t : AtomT) (d : Dst) (a b : Src)
  | amax (t : AtomT) (d : Dst) (a b : Src)
  | aand (t : AtomT) (d : Dst) (a b : Src)
  | aor (t : AtomT) (d : Dst) (a b : Src)
  | axor (t : AtomT) (d : Dst) (a b : Src)
  | aswap (t : AtomT) (d : Dst) (a b : Src)
  | acas (t : AtomT) (d : BitVec 6) (a b : Src)
  | fxadd (f64 : Bool) (a b : Src)
  | fxread (f64 : Bool) (d : Dst) (a : Src)
  | fence (scope : Scope) (pred succ : BitVec 8)
  | qmark
  | tbegin (k : BitVec 4)
  | tend
  | tladd (a b : Src)
  | tlset (a b : Src)
  | tlwait (a b : Src)
  | csrr (d : Dst) (csr : BitVec 12)
  | csrw (csr : BitVec 12) (a : Src)
  | rrw (ctx : Bool) (idx : BitVec 3) (k : BitVec 4)
  | xlatinv (d : Dst) (a b : Src)
  | mxsave (a : Src)
  | haltDone (core : Nat) (fw : Bool)
  | freezeCycle (core : Nat)
  | scalarResultWrite (core : Nat) (fw : Bool)
  | vectorOpComplete (core : Nat) (residue : Bool)
  | assistRoutine (core : Nat)
  | predicateComplete (core : Nat)
  | shadowLatchReplay (core : Nat) (fw : Bool) (stall : Nat)
  | deckleWindowEnd (core : Nat)
  | regulatorSettleDone (core : Nat)
  | marginEntryDeferredWrite (core : Nat)
  | marginEntryRefresh (core : Nat)
  | coreFenced (core : Nat)
  | teamMemberKill (core : Nat)
  | memoryAccessResponse (core : Nat) (fw : Bool)
  | waitComplete (who : Owner)
  | mwaitTimeout (who : Owner)
  | timedCopyStart (id : Nat)
  | copyComplete (id : Nat)
  | copyStop (id : Nat)
  | streamAppend (id : Nat)
  | mouldTilePush (id : Nat)
  | pressSlotPop (id : Nat)
  | subscriptionStop (id : Nat)
  | lentSlotGrant (core ring : Nat)
  | lentItemMove (core ring : Nat)
  | commitComplete (id : Nat)
  | xlatinvComplete (core : Nat) (req : Nat)
  | xgenInstall
  | xgenDrainDone
  | baseDieReset (die : Nat)
  | divertedAccess
  | memberSuspend (core : Nat)
  | teamHandover (launch team : Nat)
  | teamResume (core : Nat)
  | workerRetire (core : Nat)
  | launchRecordWrite (launch : Nat)
  | phaseBoundaryCommit
  | replicaTimeout
  | sqHeadRecord (q : Nat)
  | sqWaitRecord (q : Nat)
  | sqWaitSatisfied (q : Nat)
  | sqNopRecord (q : Nat)
  | fallbackLaunch (q : Nat)
  | watchdogExpiry (core : Nat)
  | deviceReset
  | thermalLimit
  | linkRateStep (link : Nat) (up : Bool)
  | linkRetrainDone (link : Nat) (ok : Bool)
  | flitCrcRetry (link : Nat)
  | patrolScrub (corrected : Option FailArray)
  | selfTestComplete (fails : List FailArray)
  | peerWriteFrame (f : Frame)
  | peerAtomicFrame (f : Frame)
  | peerResponseFrame (f : Frame)
  | peerDigestFrame (f : Frame)
  | hostMemoryWrite (off : Nat) (data : List Byte)
  | hostMemoryRead (off len : Nat)
  | hostRegisterWrite (off : Nat) (val : Word)
  | sqEnable (q : Nat) (cfg : Word)
  | sqDisable (q : Nat) (cfg : Word)
  | sqTailWrite (q : Nat) (tail : BitVec 32)
  | sqRestart (q : Nat) (idx : BitVec 32)
  | cancelLaunch (id : BitVec 32)
  | cancelPhase (id : BitVec 32)
  | cancelGraph (id : BitVec 32)
  | cancelJob (id : BitVec 32)
  | pstateWrite (val : BitVec 2)
  | diegateSet (die : Nat)
  | dieGated (die : Nat)
  | diegateClear (die : Nat)
  | hbmsrSet (stack : Nat)
  | hbmSelfRefreshEntry (stack : Nat)
  | hbmsrClear (stack : Nat)
  | powerOff
  | dkcfgWrite (val : Word)
  | coreFenceCmd (core : Nat)
  | coreUnfenceCmd (core : Nat)
  | selfTestStart (dies : BitVec 8)
  | bootSnow
  | bootEnroll (slot : Nat) (hash : List Byte)
  | bootRevoke (slot : Nat)
  | bootOwneronly
  | bootReflash (off : Nat)
  | bootSetsvn
  | attgo
  | debugHaltreq (core : Nat)
  | debugResume (core : Nat)
  | debugAttach (core : Nat) (on : Bool)
  | ringcfgWrite (ring : BitVec 4) (val : Word)
  | ringpush (val : Word)
  | ringpop (val : Word)
  | mouldgo (val : Word)
  | pressgo (val : Word)
  | peeraop (val : Word)
  | mxmodeWrite (val : Word)
  | vlWrite (val : Word)
  | wqOpen
  | wqClose
  | wqReset
  | wqRestart (arg : BitVec 32)
  | wqTailWrite (tail : BitVec 32)
  | replcmdCommit
  | replcmdDiscard
  | wdogWrite (val : Word)
  | loadDataReturn (core : Nat) (fw : Bool)
  | storePerformed (core : Nat) (fw : Bool)
  | copyStart (id : Nat)
  | waitRequestArrival (who : Owner)
  | peerPortDown (port : Nat)
  | powerLoss
  | msixVectorUnmask (vec : Nat)
  | parkImageWriteDone (core : Nat) (fw : Bool)
  deriving DecidableEq, Repr

end Sys2Proof
end

