-- ==== Sys2Proof/Config.lean ====
section
/-!
DEFINITION. What the implementation fixes, and the free values: constants without a body, so that nothing can be proved
about which value they have. A free value is applied to the counter State.nonce (a fresh value each time) or to the
operands it depends on (log 8).
-/
namespace Sys2Proof.Config

/-- Cores of the package: 8 dies of 6 rows and 8 columns (00 R2, 18 R368). -/
def nCores : Nat := 384
/-- Cores of one compute die (18 R368). -/
def coresPerDie : Nat := 48
/-- Compute dies (00). -/
def nDies : Nat := 8
/-- Base dies and HBM stacks (00). -/
def nStacks : Nat := 16
/-- Submission queues (12 R279). -/
def nSq : Nat := 4096
/-- Device work queues (12 R294). -/
def nWq : Nat := 1024
/-- Scale-out ports (18 R372). -/
def nPorts : Nat := 12
/-- Links: ten die links, sixteen base-die links (18 R366). -/
def nLinks : Nat := 26
/-- Bytes of one core's scratchpad (08 R219). -/
def spadBytes : Nat := 0x180000
/-- Bytes of one v register (01 R10). -/
def vBytes : Nat := 8192
/-- Bytes of one accumulator bank (01 R10). -/
def bankBytes : Nat := 0x8000
/-- Bytes of one die's pulp pool (00, Headline figures). -/
def poolBytes : Nat := 0x1000000
/-- The published STEPLAT of stepping 0x02 (01 R27). -/
def stepLat : Word := 0x0204080E06041601

/-- A free choice: one fresh choice for each count (log 8). -/
opaque freeBool : Nat → Bool
/-- A free byte of the outside, such as a byte read from a peer's memory (log 8). -/
opaque freeByte : Nat → Byte
/-- Whether an SLH-DSA-SHA2-128s signature verifies: key, message, signature (20 R402; log 8). -/
opaque sigVerify : List Byte → List Byte → List Byte → Bool
/-- The signature the device's attestation key makes over a message (20 R404; log 8). -/
opaque sigSign : List Byte → List Byte
/-- The result bits of an elementary function where the exact computation of the model does not decide the rounding
within its precision: operation (0 exp2, 1 log2), type, operand bits (05 R142; log 10). -/
opaque elemBits : Nat → VT → Nat → Word
/-- The bytes of the fuse words that MEAS2 is extended with, of what the fuses hold (20 R404; log 8). -/
opaque fuseBytes : List Byte → List Byte
/-- The failing arrays that the self-test of a boot finds (20 R400; log 8). -/
opaque bootFails : Nat → List FailArray
/-- The strap RECOVERY read at reset (20 R402; log 8). -/
opaque strapRecovery : Bool
/-- The strap that makes port 1 a CXL device (18 R371; log 8). -/
opaque strapCxl : Bool

end Sys2Proof.Config
end

