-- ==== Sys2Proof/WellFormed.lean ====
section
/-!
DEFINITION. Well-formed instructions: the limits of 03 R68 to R88 on the fields of an instruction that its syntax does
not already impose. The encoder writes the words of a well-formed instruction, and the decoder reads no other.
-/
namespace Sys2Proof

/-- The units that own a result queue, by their number (01 R20). -/
def uALU0 : Fin 7 := 0
def uALU1 : Fin 7 := 1
def uAGU : Fin 7 := 2
def uVU : Fin 7 := 3
def uMX : Fin 7 := 4
def uEPU : Fin 7 := 5
def uENG : Fin 7 := 6

/-- The unit of a scalar slot. -/
def Alu.unit : Alu → Fin 7
  | .alu0 => uALU0
  | .alu1 => uALU1

/-- A result-queue handle is a legal destination of its own unit only (01 R21). -/
def Dst.okFor (u : Fin 7) : Dst → Bool
  | .handle v => v == u
  | _ => true

/-- The destinations of CMOV, CMOVZ and BINS: an s, p or m register (04 R115). -/
def Dst.isSpm : Dst → Bool
  | .s _ => true
  | .p _ => true
  | .m _ => true
  | _ => false

/-- The destinations of FMA: an s register (04 R117). -/
def Dst.isS : Dst → Bool
  | .s _ => true
  | _ => false

/-- The literal is the only 9-bit source with the code 0x180: an immediate is not -128 (03 R70). -/
def Src9.ok : Src9 → Bool
  | .imm i => i != 0x80
  | _ => true

/-- Whether a VT is one of the floating-point types. -/
def VT.isFloat : VT → Bool
  | .f16 => true
  | .bf16 => true
  | .f32 => true
  | .f64 => true
  | _ => false

/-- Whether a VT is one of the signed integer types. -/
def VT.isSigned : VT → Bool
  | .i8 => true
  | .i16 => true
  | .i32 => true
  | .i64 => true
  | _ => false

/-- The width of a VT in bytes. -/
def VT.bytes : VT → Nat
  | .i8 => 1
  | .n8 => 1
  | .i16 => 2
  | .n16 => 2
  | .f16 => 2
  | .bf16 => 2
  | .i32 => 4
  | .n32 => 4
  | .f32 => 4
  | .i64 => 8
  | .n64 => 8
  | .f64 => 8

/-- A width code in bytes (03 R81). -/
def Width.bytes : Width → Nat
  | .w8 => 1
  | .w16 => 2
  | .w32 => 4
  | .w64 => 8

/-- Whether the type of a format code is a binary8 type (02 R34). -/
def FTyp.isF8 : FTyp → Bool
  | .f8 _ => true
  | .g8 _ => true
  | _ => false

/-- The width in bytes of a type of 02 R34; raw counts as one byte (07 R183). -/
def FTyp.bytes : FTyp → Nat
  | .vt t => t.bytes
  | .raw => 1
  | .f8 _ => 1
  | .g8 _ => 1

/-- The width of a format code's elements in bytes. -/
def Fmt.bytes (f : Fmt) : Nat := f.typ.bytes

/-- A format code is not reserved (02 R35): INF only with a binary8 type, SAT not with raw. -/
def Fmt.ok (f : Fmt) : Bool := (!f.inf || f.typ.isF8) && !(f.sat && f.typ == .raw)

/-- The bits of a predicate format, in bytes (06 R169). -/
def GF.bytes : GF → Nat
  | .f32 => 4
  | .i32 => 4
  | .f64 => 8
  | .i64 => 8

/-- Whether a predicate format is a floating-point format. -/
def GF.isFloat : GF → Bool
  | .f32 => true
  | .f64 => true
  | _ => false

/-- An integer type that is not a reduction of floats: and, or, xor take integers only (03 R84). -/
def RedOp.bitwise : RedOp → Bool
  | .and => true
  | .or => true
  | .xor => true
  | _ => false

/-- The field codes of an m-register part (06 R150): width code in the upper two bits, index below 64 / width. -/
def mFieldOk (f : BitVec 6) : Bool := (f.toNat % 16) * (8 * 2 ^ (f.toNat / 16)) < 64

/-- The legal MXMODE combinations (06 R151). -/
def mxModeOk (s : Semi) (acc op : Fmt) : Bool :=
  acc.ok && op.ok &&
  match s with
  | .plusTimes =>
    (match op.typ with
     | .f8 _ => true
     | .g8 _ => true
     | .vt .f16 => true
     | .vt .bf16 => true
     | _ => false) &&
    (acc.typ == .vt .f16 || acc.typ == .vt .bf16 || acc.typ == .vt .f32)
  | .orAnd => op.typ == .raw && acc.typ == .raw
  | _ =>
    (op.typ == .vt .i16 && acc.typ == .vt .i32) || (op.typ == .vt .n16 && acc.typ == .vt .n32) ||
    (op.typ == .vt .f16 && (acc.typ == .vt .f16 || acc.typ == .vt .f32))

/-- The number of registers MXACC writes (06 R162). -/
def mxaccRegs (f : Fmt) : Nat := if f.typ == .raw then 1 else 2 * f.bytes

/-- The CSR numbers that some chapter assigns; 0x150 to 0x15B and 0x160 to 0x18F are context 0's trap CSRs as context 1 reaches them. -/
def csrAssigned (n : BitVec 12) : Bool :=
  let k := n.toNat
  (0x040 ≤ k && k ≤ 0x049) || (0x050 ≤ k && k ≤ 0x052) || (0x058 ≤ k && k ≤ 0x05B) ||
  (0x060 ≤ k && k ≤ 0x062) || (0x064 ≤ k && k ≤ 0x06C) || (0x070 ≤ k && k ≤ 0x08F) ||
  (0x0A0 ≤ k && k ≤ 0x0DC) || (0x0E0 ≤ k && k ≤ 0x0F4) || (0x0F8 ≤ k && k ≤ 0x0FB) ||
  (0x100 ≤ k && k ≤ 0x106) || (0x108 ≤ k && k ≤ 0x10D) || (0x110 ≤ k && k ≤ 0x11B) ||
  (0x120 ≤ k && k ≤ 0x15B) || (0x160 ≤ k && k ≤ 0x192) || (0x1A0 ≤ k && k ≤ 0x1BF)

/-- An ADV entry is ignored, or names a unit below 7 with a count from 1 to 4 (03 R78). -/
def advEntOk (e : AdvEnt) : Bool := e.count == 0 || (e.unit.toNat < 7 && e.count.toNat ≤ 4)

/-- Two ADV entries that both count name different units (03 R78). -/
def advDistinct (a b : AdvEnt) : Bool := a.count == 0 || b.count == 0 || a.unit != b.unit

/-- The limits on the four entries of ADV (03 R78). -/
def advOk (a b c d : AdvEnt) : Bool :=
  advEntOk a && advEntOk b && advEntOk c && advEntOk d && advDistinct a b && advDistinct a c && advDistinct a d &&
  advDistinct b c && advDistinct b d && advDistinct c d

/-- A predicate's operands fit below v255 and do not hold its destination (06 R169). -/
def geoOk (k : Nat) (vd va : BitVec 8) : Bool :=
  va.toNat + k ≤ 256 && !(va.toNat ≤ vd.toNat && vd.toNat < va.toNat + k)

/-- The operand registers of each predicate (06 R170). -/
def kOrient2 : Nat := 6
def kOrient3 : Nat := 12
def kIncirc : Nat := 8
def kInsph : Nat := 15
def kSegx : Nat := 8

/-- Whether an instruction is an event of the table, or a microword: no slot word encodes it. -/
def Instr.isMicro : Instr → Bool
  | .uend => true
  | .umma .. => true
  | .uloop .. => true
  | .upop .. => true
  | .uout .. => true
  | _ => false

/-- The limits on the fields of an instruction (03 R68 to R88, 06 R150 to R163). -/
def Instr.wf : Instr → Bool
  | .add u d _ b => d.okFor u.unit && b.ok
  | .sub u d _ b => d.okFor u.unit && b.ok
  | .mul u d _ b => d.okFor u.unit && b.ok
  | .mulh u d _ b => d.okFor u.unit && b.ok
  | .mulhu u d _ b => d.okFor u.unit && b.ok
  | .div u d _ b => d.okFor u.unit && b.ok
  | .divu u d _ b => d.okFor u.unit && b.ok
  | .rem u d _ b => d.okFor u.unit && b.ok
  | .remu u d _ b => d.okFor u.unit && b.ok
  | .and u d _ b => d.okFor u.unit && b.ok
  | .or u d _ b => d.okFor u.unit && b.ok
  | .xor u d _ b => d.okFor u.unit && b.ok
  | .andn u d _ b => d.okFor u.unit && b.ok
  | .shl u d _ b => d.okFor u.unit && b.ok
  | .shr u d _ b => d.okFor u.unit && b.ok
  | .sra u d _ b => d.okFor u.unit && b.ok
  | .rol u d _ b => d.okFor u.unit && b.ok
  | .ror u d _ b => d.okFor u.unit && b.ok
  | .min u d _ b => d.okFor u.unit && b.ok
  | .minu u d _ b => d.okFor u.unit && b.ok
  | .max u d _ b => d.okFor u.unit && b.ok
  | .maxu u d _ b => d.okFor u.unit && b.ok
  | .ceq u d _ b => d.okFor u.unit && b.ok
  | .cne u d _ b => d.okFor u.unit && b.ok
  | .clt u d _ b => d.okFor u.unit && b.ok
  | .cltu u d _ b => d.okFor u.unit && b.ok
  | .cle u d _ b => d.okFor u.unit && b.ok
  | .cleu u d _ b => d.okFor u.unit && b.ok
  | .bext u d _ b => d.okFor u.unit && b.ok
  | .bextu u d _ b => d.okFor u.unit && b.ok
  | .sext u d _ b => d.okFor u.unit && b.ok
  | .zext u d _ b => d.okFor u.unit && b.ok
  | .lih u d _ b => d.okFor u.unit && b.ok
  | .cmov _ d _ b => d.isSpm && b.ok
  | .cmovz _ d _ b => d.isSpm && b.ok
  | .bins _ d _ b => d.isSpm && b.ok
  | .clz u d _ => d.okFor u.unit
  | .ctz u d _ => d.okFor u.unit
  | .popc u d _ => d.okFor u.unit
  | .faddF32 u d _ b => d.okFor u.unit && b.ok
  | .fsubF32 u d _ b => d.okFor u.unit && b.ok
  | .fmulF32 u d _ b => d.okFor u.unit && b.ok
  | .fdivF32 u d _ b => d.okFor u.unit && b.ok
  | .fminF32 u d _ b => d.okFor u.unit && b.ok
  | .fmaxF32 u d _ b => d.okFor u.unit && b.ok
  | .fceqF32 u d _ b => d.okFor u.unit && b.ok
  | .fcltF32 u d _ b => d.okFor u.unit && b.ok
  | .fcleF32 u d _ b => d.okFor u.unit && b.ok
  | .fmaF32 _ d _ b => d.isS && b.ok
  | .fsqrtF32 u d _ => d.okFor u.unit
  | .faddF64 u d _ b => d.okFor u.unit && b.ok
  | .fsubF64 u d _ b => d.okFor u.unit && b.ok
  | .fmulF64 u d _ b => d.okFor u.unit && b.ok
  | .fdivF64 u d _ b => d.okFor u.unit && b.ok
  | .fminF64 u d _ b => d.okFor u.unit && b.ok
  | .fmaxF64 u d _ b => d.okFor u.unit && b.ok
  | .fceqF64 u d _ b => d.okFor u.unit && b.ok
  | .fcltF64 u d _ b => d.okFor u.unit && b.ok
  | .fcleF64 u d _ b => d.okFor u.unit && b.ok
  | .fmaF64 _ d _ b => d.isS && b.ok
  | .fsqrtF64 u d _ => d.okFor u.unit
  | .fcvt u d _ _ => d.okFor u.unit
  | .lea d _ b => d.okFor uAGU && b.ok
  | .leah d _ b => d.okFor uAGU && b.ok
  | .leaw d _ b => d.okFor uAGU && b.ok
  | .lead d _ b => d.okFor uAGU && b.ok
  | .ldI8 d _ b => d.okFor uAGU && b.ok
  | .ldN8 d _ b => d.okFor uAGU && b.ok
  | .ldI16 d _ b => d.okFor uAGU && b.ok
  | .ldN16 d _ b => d.okFor uAGU && b.ok
  | .ldI32 d _ b => d.okFor uAGU && b.ok
  | .ldN32 d _ b => d.okFor uAGU && b.ok
  | .ld64 d _ b => d.okFor uAGU && b.ok
  | .ldxI8 d _ b => d.okFor uAGU && b.ok
  | .ldxN8 d _ b => d.okFor uAGU && b.ok
  | .ldxI16 d _ b => d.okFor uAGU && b.ok
  | .ldxN16 d _ b => d.okFor uAGU && b.ok
  | .ldxI32 d _ b => d.okFor uAGU && b.ok
  | .ldxN32 d _ b => d.okFor uAGU && b.ok
  | .ldx64 d _ b => d.okFor uAGU && b.ok
  | .adv a b c d => advOk a b c d
  | .vadds t _ _ _ => !t.isFloat
  | .vsubs t _ _ _ => !t.isFloat
  | .vfma t _ _ _ => t.isFloat
  | .vdiv t _ _ _ => t.isFloat
  | .vshl w n _ _ => n.toNat < 8 * w.bytes
  | .vsrl w n _ _ => n.toNat < 8 * w.bytes
  | .vsra w n _ _ => n.toNat < 8 * w.bytes
  | .vcvt st rz dt _ _ => dt.ok && dt.typ != .raw && (!rz || (st.isFloat && (match dt.typ with | .vt t => !t.isFloat | _ => false)))
  | .vcvtb dt st _ _ => dt.isFloat && st.ok && st.typ.isF8
  | .vexp2 t _ _ => t.isFloat
  | .vlog2 t _ _ => t.isFloat
  | .vrcp t _ _ => t.isFloat
  | .vrsqrt t _ _ => t.isFloat
  | .vred op t d _ => d.okFor uVU && !(op.bitwise && t.isFloat)
  | .vscan op t _ _ => !(op.bitwise && t.isFloat)
  | .vscanx op t _ _ => !(op.bitwise && t.isFloat)
  | .vqnt f vd _ => f.ok && f.typ.isF8 && vd != 255
  | .vdqnt f _ va => f.ok && f.typ.isF8 && va != 255
  | .vrand t _ _ => t == .n32 || t == .f32
  | .vsetvl _ d _ => d.okFor uVU
  | .mxset _ f b => mFieldOk f && b.ok
  | .mxcall d _ _ _ => d.okFor uMX
  | .mxacc _ vd f _ => f.ok && vd.toNat + mxaccRegs f ≤ 256
  | .mxclr bank pair => !(pair && bank.toNat % 2 == 1)
  | .mxsr semi acc op => mxModeOk semi acc op
  | .gorient2 _ vd va d => d.okFor uEPU && geoOk kOrient2 vd va
  | .gorient3 _ vd va d => d.okFor uEPU && geoOk kOrient3 vd va
  | .gincirc _ vd va d => d.okFor uEPU && geoOk kIncirc vd va
  | .ginsph _ vd va d => d.okFor uEPU && geoOk kInsph vd va
  | .gsegx _ vd va d => d.okFor uEPU && geoOk kSegx vd va
  | .cpy d _ => d.okFor uENG
  | .cpyt d _ _ => d.okFor uENG
  | .semwait d _ _ => d.okFor uENG
  | .xlatinv d _ _ => d.okFor uENG
  | .mwait d _ => d.okFor uENG
  | .bararr d _ => d.okFor uENG
  | .aadd _ d _ _ => d.okFor uENG
  | .amin _ d _ _ => d.okFor uENG
  | .amax _ d _ _ => d.okFor uENG
  | .aand _ d _ _ => d.okFor uENG
  | .aor _ d _ _ => d.okFor uENG
  | .axor _ d _ _ => d.okFor uENG
  | .aswap _ d _ _ => d.okFor uENG
  | .fxread _ d _ => d.okFor uENG
  | .fence _ p s => p != 0 && s != 0
  | .csrr d n => d.okFor uENG && csrAssigned n
  | .csrw n _ => csrAssigned n
  | .uloop src mrel f body count => body != 0 && (if src then count == 0 && mFieldOk f else mrel == 0 && f == 0)
  | .upop _ n => n != 0
  | .umma ra rb _ _ => ra != rb
  | .uout _ f _ => f.ok
  | .nop => true
  | .bc .. => true
  | .call .. => true
  | .callr .. => true
  | .jr .. => true
  | .ret .. => true
  | .loop _ b e => b.ok && decide (5 ≤ e.toNat)
  | .yield .. => true
  | .hint .. => true
  | .trap .. => true
  | .eret => true
  | .halt => true
  | .bkpt .. => true
  | .st8 _ _ b => b.ok
  | .st16 _ _ b => b.ok
  | .st32 _ _ b => b.ok
  | .st64 _ _ b => b.ok
  | .stx8 _ _ b => b.ok
  | .stx16 _ _ b => b.ok
  | .stx32 _ _ b => b.ok
  | .stx64 _ _ b => b.ok
  | .vadd .. => true
  | .vsub .. => true
  | .vmul .. => true
  | .vmin .. => true
  | .vmax .. => true
  | .vceq .. => true
  | .vclt .. => true
  | .vcle .. => true
  | .vand .. => true
  | .vor .. => true
  | .vxor .. => true
  | .vandn .. => true
  | .vsel .. => true
  | .vperm8 .. => true
  | .vperm16 .. => true
  | .vperm32 .. => true
  | .vperm64 .. => true
  | .vtrans .. => true
  | .vmov .. => true
  | .vld .. => true
  | .vst .. => true
  | .vgather .. => true
  | .vscatter .. => true
  | .vabs .. => true
  | .vneg .. => true
  | .vbcast .. => true
  | .vstrm .. => true
  | .mxwait .. => true
  | .mxload .. => true
  | .mxpark .. => true
  | .mxunpark .. => true
  | .uend => true
  | .gtie .. => true
  | .sbind .. => true
  | .sadv .. => true
  | .mon .. => true
  | .sempost .. => true
  | .barwait .. => true
  | .tbar => true
  | .deq .. => true
  | .enq .. => true
  | .acas .. => true
  | .fxadd .. => true
  | .qmark => true
  | .tbegin .. => true
  | .tend => true
  | .tladd .. => true
  | .tlset .. => true
  | .tlwait .. => true
  | .rrw .. => true
  | .mxsave .. => true
  | .haltDone .. => true
  | .freezeCycle .. => true
  | .scalarResultWrite .. => true
  | .vectorOpComplete .. => true
  | .assistRoutine .. => true
  | .predicateComplete .. => true
  | .shadowLatchReplay .. => true
  | .deckleWindowEnd .. => true
  | .regulatorSettleDone .. => true
  | .marginEntryDeferredWrite .. => true
  | .marginEntryRefresh .. => true
  | .coreFenced .. => true
  | .teamMemberKill .. => true
  | .memoryAccessResponse .. => true
  | .waitComplete .. => true
  | .mwaitTimeout .. => true
  | .timedCopyStart .. => true
  | .copyComplete .. => true
  | .copyStop .. => true
  | .streamAppend .. => true
  | .mouldTilePush .. => true
  | .pressSlotPop .. => true
  | .subscriptionStop .. => true
  | .lentSlotGrant .. => true
  | .lentItemMove .. => true
  | .commitComplete .. => true
  | .xlatinvComplete .. => true
  | .xgenInstall => true
  | .xgenDrainDone => true
  | .baseDieReset .. => true
  | .divertedAccess => true
  | .memberSuspend .. => true
  | .teamHandover .. => true
  | .teamResume .. => true
  | .workerRetire .. => true
  | .launchRecordWrite .. => true
  | .phaseBoundaryCommit => true
  | .replicaTimeout => true
  | .sqHeadRecord .. => true
  | .sqWaitRecord .. => true
  | .sqWaitSatisfied .. => true
  | .sqNopRecord .. => true
  | .fallbackLaunch .. => true
  | .watchdogExpiry .. => true
  | .deviceReset => true
  | .thermalLimit => true
  | .linkRateStep .. => true
  | .linkRetrainDone .. => true
  | .flitCrcRetry .. => true
  | .patrolScrub .. => true
  | .selfTestComplete .. => true
  | .peerWriteFrame .. => true
  | .peerAtomicFrame .. => true
  | .peerResponseFrame .. => true
  | .peerDigestFrame .. => true
  | .hostMemoryWrite .. => true
  | .hostMemoryRead .. => true
  | .hostRegisterWrite .. => true
  | .sqEnable .. => true
  | .sqDisable .. => true
  | .sqTailWrite .. => true
  | .sqRestart .. => true
  | .cancelLaunch .. => true
  | .cancelPhase .. => true
  | .cancelGraph .. => true
  | .cancelJob .. => true
  | .pstateWrite .. => true
  | .diegateSet .. => true
  | .dieGated .. => true
  | .diegateClear .. => true
  | .hbmsrSet .. => true
  | .hbmSelfRefreshEntry .. => true
  | .hbmsrClear .. => true
  | .powerOff => true
  | .dkcfgWrite .. => true
  | .coreFenceCmd .. => true
  | .coreUnfenceCmd .. => true
  | .selfTestStart .. => true
  | .bootSnow => true
  | .bootEnroll .. => true
  | .bootRevoke .. => true
  | .bootOwneronly => true
  | .bootReflash .. => true
  | .bootSetsvn => true
  | .attgo => true
  | .debugHaltreq .. => true
  | .debugResume .. => true
  | .debugAttach .. => true
  | .ringcfgWrite .. => true
  | .ringpush .. => true
  | .ringpop .. => true
  | .mouldgo .. => true
  | .pressgo .. => true
  | .peeraop .. => true
  | .mxmodeWrite .. => true
  | .vlWrite .. => true
  | .wqOpen => true
  | .wqClose => true
  | .wqReset => true
  | .wqRestart .. => true
  | .wqTailWrite .. => true
  | .replcmdCommit => true
  | .replcmdDiscard => true
  | .wdogWrite .. => true
  | .loadDataReturn .. => true
  | .storePerformed .. => true
  | .copyStart .. => true
  | .waitRequestArrival .. => true
  | .peerPortDown .. => true
  | .powerLoss => true
  | .msixVectorUnmask .. => true
  | .parkImageWriteDone .. => true

end Sys2Proof
end

