-- ==== Sys2Proof/Decode.lean ====
section
/-!
DEFINITION. Decoding and encoding: the field codes of 03 R68, R70 and 02 R34, the slot layouts of 03 R73 to R88 with the
issue checks of R89 step 3, the microwords of 06 R155, and the encoder, written from the same tables. Decoding is total:
a word that is not an instruction gives the cause it raises.
-/
namespace Sys2Proof

/-! ## Field codes -/

/-- A source field (03 R68); none raises ILLEGAL_OPERAND. -/
def Src.dec (b : BitVec 8) : Option Src :=
  let n := b.toNat
  if n < 0x40 then some (.s (b.extractLsb' 0 6))
  else if n < 0x50 then some (.p (b.extractLsb' 0 4))
  else if n < 0x60 then some (.q (b.extractLsb' 0 4))
  else if n < 0x80 then
    (if h : (n - 0x60) / 4 < 7 then some (.handle ⟨(n - 0x60) / 4, h⟩ (b.extractLsb' 0 2)) else none)
  else if n < 0x88 then some (.m (b.extractLsb' 0 3))
  else if n < 0x90 then
    (if h : n - 0x88 < 6 then some (.li ⟨n - 0x88, h⟩) else if n = 0x8E then some .zero else none)
  else if h : (n - 0x90) / 8 < 6 then
    (if n % 8 = 0 then some (.latch ⟨(n - 0x90) / 8, h⟩ false)
     else if n % 8 = 1 then some (.latch ⟨(n - 0x90) / 8, h⟩ true) else none)
  else none

/-- The code of a source (03 R68). -/
def Src.enc : Src → BitVec 8
  | .s n => 0#2 ++ n
  | .p n => 4#4 ++ n
  | .q n => 5#4 ++ n
  | .handle u k => BitVec.ofNat 8 (0x60 + 4 * u.val + k.toNat)
  | .m n => 0x10#5 ++ n
  | .li n => BitVec.ofNat 8 (0x88 + n.val)
  | .zero => 0x8E
  | .latch u l => BitVec.ofNat 8 (0x90 + 8 * u.val + (if l then 1 else 0))

/-- A destination field (03 R68); a handle only with offset 0 (01 R21). -/
def Dst.dec (b : BitVec 8) : Option Dst :=
  if b = 0x8F then some .discard
  else
    match Src.dec b with
    | some (.s n) => some (.s n)
    | some (.p n) => some (.p n)
    | some (.handle u k) => if k = 0 then some (.handle u) else none
    | some (.m n) => some (.m n)
    | some (.latch u l) => some (.latch u l)
    | _ => none

/-- The code of a destination (03 R68). -/
def Dst.enc : Dst → BitVec 8
  | .s n => 0#2 ++ n
  | .p n => 4#4 ++ n
  | .handle u => BitVec.ofNat 8 (0x60 + 4 * u.val)
  | .m n => 0x10#5 ++ n
  | .discard => 0x8F
  | .latch u l => BitVec.ofNat 8 (0x90 + 8 * u.val + (if l then 1 else 0))

/-- A destination field of an operation of unit u. -/
def Dst.decFor (u : Fin 7) (b : BitVec 8) : Option Dst :=
  match Dst.dec b with
  | some d => if d.okFor u then some d else none
  | none => none

/-- A 9-bit source field (03 R70). -/
def Src9.dec (b : BitVec 9) : Option Src9 :=
  if b = 0x180 then some .lit
  else if b.extractLsb' 8 1 = 1 then some (.imm (b.extractLsb' 0 8))
  else
    match Src.dec (b.extractLsb' 0 8) with
    | some a => some (.src a)
    | none => none

/-- The code of a 9-bit source (03 R70). The immediate -128 has none: its code asks for the literal. -/
def Src9.enc : Src9 → BitVec 9
  | .src a => 0#1 ++ a.enc
  | .imm i => 1#1 ++ i
  | .lit => 0x180

/-- A VT code (03 R80). -/
def VT.dec (b : BitVec 4) : Option VT :=
  match b.toNat with
  | 0 => some .i8
  | 1 => some .i16
  | 2 => some .i32
  | 3 => some .i64
  | 4 => some .n8
  | 5 => some .n16
  | 6 => some .n32
  | 7 => some .n64
  | 8 => some .f16
  | 9 => some .bf16
  | 10 => some .f32
  | 11 => some .f64
  | _ => none

/-- The code of a VT (03 R80). -/
def VT.enc : VT → BitVec 4
  | .i8 => 0
  | .i16 => 1
  | .i32 => 2
  | .i64 => 3
  | .n8 => 4
  | .n16 => 5
  | .n32 => 6
  | .n64 => 7
  | .f16 => 8
  | .bf16 => 9
  | .f32 => 10
  | .f64 => 11

/-- A TYPE value (02 R34). -/
def FTyp.dec (b : BitVec 6) : Option FTyp :=
  let n := b.toNat
  if n < 0x10 then
    (if n = 0x0F then some .raw
     else
       match VT.dec (b.extractLsb' 0 4) with
       | some t => some (.vt t)
       | none => none)
  else if n < 0x18 then
    (if h : n - 0x11 < 7 then (if n = 0x10 then none else some (.f8 ⟨n - 0x11, h⟩)) else none)
  else if n < 0x20 then
    (if h : n - 0x19 < 7 then (if n = 0x18 then none else some (.g8 ⟨n - 0x19, h⟩)) else none)
  else none

/-- The code of a TYPE (02 R34). -/
def FTyp.enc : FTyp → BitVec 6
  | .vt t => 0#2 ++ t.enc
  | .raw => 0x0F
  | .f8 p => BitVec.ofNat 6 (0x11 + p.val)
  | .g8 p => BitVec.ofNat 6 (0x19 + p.val)

/-- An element format code; none for the reserved codes of 02 R35. -/
def Fmt.dec (b : BitVec 8) : Option Fmt :=
  match FTyp.dec (b.extractLsb' 0 6) with
  | some t =>
    let f : Fmt := { typ := t, inf := b.extractLsb' 6 1 = 1, sat := b.extractLsb' 7 1 = 1 }
    if f.ok then some f else none
  | none => none

/-- A Boolean as a bit. -/
def bit (b : Bool) : BitVec 1 := if b then 1 else 0

/-- An element format code (02 R34). -/
def Fmt.enc (f : Fmt) : BitVec 8 := bit f.sat ++ bit f.inf ++ f.typ.enc

/-- A width code (03 R81). -/
def Width.dec (b : BitVec 2) : Width :=
  match b.toNat with
  | 0 => .w8
  | 1 => .w16
  | 2 => .w32
  | _ => .w64

/-- The width code (03 R81). -/
def Width.enc : Width → BitVec 2
  | .w8 => 0
  | .w16 => 1
  | .w32 => 2
  | .w64 => 3

/-- A GF code (03 R85). -/
def GF.dec (b : BitVec 3) : Option GF :=
  match b.toNat with
  | 0 => some .f32
  | 1 => some .f64
  | 2 => some .i32
  | 3 => some .i64
  | _ => none

/-- The GF code (03 R85). -/
def GF.enc : GF → BitVec 3
  | .f32 => 0
  | .f64 => 1
  | .i32 => 2
  | .i64 => 3

/-- A reduction OP (03 R84). -/
def RedOp.dec (b : BitVec 4) : Option RedOp :=
  match b.toNat with
  | 0 => some .add
  | 1 => some .min
  | 2 => some .max
  | 3 => some .and
  | 4 => some .or
  | 5 => some .xor
  | _ => none

/-- The code of a reduction OP (03 R84). -/
def RedOp.enc : RedOp → BitVec 4
  | .add => 0
  | .min => 1
  | .max => 2
  | .and => 3
  | .or => 4
  | .xor => 5

/-- A SEMI value (03 R85). -/
def Semi.dec (b : BitVec 4) : Option Semi :=
  match b.toNat with
  | 0 => some .plusTimes
  | 1 => some .minPlus
  | 2 => some .maxPlus
  | 3 => some .maxTimes
  | 4 => some .minMax
  | 5 => some .maxMin
  | 6 => some .orAnd
  | _ => none

/-- The code of a SEMI (03 R85). -/
def Semi.enc : Semi → BitVec 4
  | .plusTimes => 0
  | .minPlus => 1
  | .maxPlus => 2
  | .maxTimes => 3
  | .minMax => 4
  | .maxMin => 5
  | .orAnd => 6

/-- The MOD of an atomic (07 R201). -/
def AtomT.dec (b : BitVec 2) : AtomT :=
  match b.toNat with
  | 0 => .i32
  | 1 => .i64
  | 2 => .n32
  | _ => .n64

/-- The code of an atomic's type (07 R201). -/
def AtomT.enc : AtomT → BitVec 2
  | .i32 => 0
  | .i64 => 1
  | .n32 => 2
  | .n64 => 3

/-- The MOD of a FENCE (03 R88). -/
def Scope.dec (b : BitVec 2) : Scope :=
  match b.toNat with
  | 0 => .core
  | 1 => .team
  | 2 => .device
  | _ => .system

/-- The code of a scope (03 R88). -/
def Scope.enc : Scope → BitVec 2
  | .core => 0
  | .team => 1
  | .device => 2
  | .system => 3

/-- One entry of ADV: unit above count (04 R105). -/
def AdvEnt.dec (b : BitVec 6) : AdvEnt := { unit := b.extractLsb' 3 3, count := b.extractLsb' 0 3 }

/-- The code of an entry of ADV (04 R105). -/
def AdvEnt.enc (e : AdvEnt) : BitVec 6 := e.unit ++ e.count

/-! ## The checks of R89, step 3 -/

/-- Go on if the check holds, else raise the cause. -/
def need (b : Bool) (c : Cause) (k : Except Cause Instr) : Except Cause Instr := if b then k else .error c

/-- Go on with the value of a field, or raise the cause. -/
def want {α : Type} (o : Option α) (c : Cause) (k : α → Except Cause Instr) : Except Cause Instr :=
  match o with
  | some x => k x
  | none => .error c

/-- A field that must name an operand (ILLEGAL_OPERAND). -/
def oper {α : Type} (o : Option α) (k : α → Except Cause Instr) : Except Cause Instr := want o .illegalOperand k

/-- A field that must name a format (ILLEGAL_FORMAT). -/
def form {α : Type} (o : Option α) (k : α → Except Cause Instr) : Except Cause Instr := want o .illegalFormat k

/-- Field of w bits at bit lo. -/
abbrev fld {n : Nat} (x : BitVec n) (lo w : Nat) : BitVec w := x.extractLsb' lo w

/-- Layout S with three operands (03 R73). -/
def layS (u : Fin 7) (w : BitVec 32) (f : Dst → Src → Src9 → Instr) : Except Cause Instr :=
  oper (Dst.decFor u (fld w 17 8)) fun d =>
  oper (Src.dec (fld w 9 8)) fun a =>
  oper (Src9.dec (fld w 0 9)) fun b => .ok (f d a b)

/-- Layout S, unary: B holds zero (03 R74). -/
def layS1 (u : Fin 7) (w : BitVec 32) (f : Dst → Src → Instr) : Except Cause Instr :=
  oper (Dst.decFor u (fld w 17 8)) fun d =>
  oper (Src.dec (fld w 9 8)) fun a =>
  need (fld w 0 9 == 0x08E) .illegalOperand (.ok (f d a))

/-- Layout S, stores: D is a source (03 R73). -/
def laySt (w : BitVec 32) (f : Src → Src → Src9 → Instr) : Except Cause Instr :=
  oper (Src.dec (fld w 17 8)) fun x =>
  oper (Src.dec (fld w 9 8)) fun a =>
  oper (Src9.dec (fld w 0 9)) fun b => .ok (f x a b)

/-- The opcode of layout S. -/
def opS (w : BitVec 32) : Nat := (fld w 25 7).toNat

/-- Slots S1 and S2 (03 R74, R75). -/
def decodeAlu (u : Alu) (w : BitVec 32) : Except Cause Instr :=
  match opS w with
  | 0x00 => layS u.unit w fun d a b => .add u d a b
  | 0x01 => layS u.unit w fun d a b => .sub u d a b
  | 0x02 => layS u.unit w fun d a b => .mul u d a b
  | 0x03 => layS u.unit w fun d a b => .mulh u d a b
  | 0x04 => layS u.unit w fun d a b => .mulhu u d a b
  | 0x05 => layS u.unit w fun d a b => .div u d a b
  | 0x06 => layS u.unit w fun d a b => .divu u d a b
  | 0x07 => layS u.unit w fun d a b => .rem u d a b
  | 0x08 => layS u.unit w fun d a b => .remu u d a b
  | 0x09 => layS u.unit w fun d a b => .and u d a b
  | 0x0A => layS u.unit w fun d a b => .or u d a b
  | 0x0B => layS u.unit w fun d a b => .xor u d a b
  | 0x0C => layS u.unit w fun d a b => .andn u d a b
  | 0x0D => layS u.unit w fun d a b => .shl u d a b
  | 0x0E => layS u.unit w fun d a b => .shr u d a b
  | 0x0F => layS u.unit w fun d a b => .sra u d a b
  | 0x10 => layS u.unit w fun d a b => .rol u d a b
  | 0x11 => layS u.unit w fun d a b => .ror u d a b
  | 0x12 => layS u.unit w fun d a b => .min u d a b
  | 0x13 => layS u.unit w fun d a b => .minu u d a b
  | 0x14 => layS u.unit w fun d a b => .max u d a b
  | 0x15 => layS u.unit w fun d a b => .maxu u d a b
  | 0x16 => layS u.unit w fun d a b => .ceq u d a b
  | 0x17 => layS u.unit w fun d a b => .cne u d a b
  | 0x18 => layS u.unit w fun d a b => .clt u d a b
  | 0x19 => layS u.unit w fun d a b => .cltu u d a b
  | 0x1A => layS u.unit w fun d a b => .cle u d a b
  | 0x1B => layS u.unit w fun d a b => .cleu u d a b
  | 0x1C => oper (Dst.dec (fld w 17 8)) fun d => need d.isSpm .illegalOperand (layS (u.unit) w fun d a b => .cmov u d a b)
  | 0x1D => oper (Dst.dec (fld w 17 8)) fun d => need d.isSpm .illegalOperand (layS (u.unit) w fun d a b => .cmovz u d a b)
  | 0x1E => layS u.unit w fun d a b => .bext u d a b
  | 0x1F => layS u.unit w fun d a b => .bextu u d a b
  | 0x20 => oper (Dst.dec (fld w 17 8)) fun d => need d.isSpm .illegalOperand (layS (u.unit) w fun d a b => .bins u d a b)
  | 0x24 => layS u.unit w fun d a b => .sext u d a b
  | 0x25 => layS u.unit w fun d a b => .zext u d a b
  | 0x26 => layS u.unit w fun d a b => .lih u d a b
  | 0x30 => layS u.unit w fun d a b => .faddF32 u d a b
  | 0x31 => layS u.unit w fun d a b => .fsubF32 u d a b
  | 0x32 => layS u.unit w fun d a b => .fmulF32 u d a b
  | 0x33 => oper (Dst.dec (fld w 17 8)) fun d => need d.isS .illegalOperand (layS (u.unit) w fun d a b => .fmaF32 u d a b)
  | 0x34 => layS u.unit w fun d a b => .fdivF32 u d a b
  | 0x36 => layS u.unit w fun d a b => .fminF32 u d a b
  | 0x37 => layS u.unit w fun d a b => .fmaxF32 u d a b
  | 0x38 => layS u.unit w fun d a b => .fceqF32 u d a b
  | 0x39 => layS u.unit w fun d a b => .fcltF32 u d a b
  | 0x3A => layS u.unit w fun d a b => .fcleF32 u d a b
  | 0x40 => layS u.unit w fun d a b => .faddF64 u d a b
  | 0x41 => layS u.unit w fun d a b => .fsubF64 u d a b
  | 0x42 => layS u.unit w fun d a b => .fmulF64 u d a b
  | 0x43 => oper (Dst.dec (fld w 17 8)) fun d => need d.isS .illegalOperand (layS (u.unit) w fun d a b => .fmaF64 u d a b)
  | 0x44 => layS u.unit w fun d a b => .fdivF64 u d a b
  | 0x46 => layS u.unit w fun d a b => .fminF64 u d a b
  | 0x47 => layS u.unit w fun d a b => .fmaxF64 u d a b
  | 0x48 => layS u.unit w fun d a b => .fceqF64 u d a b
  | 0x49 => layS u.unit w fun d a b => .fcltF64 u d a b
  | 0x4A => layS u.unit w fun d a b => .fcleF64 u d a b
  | 0x21 => layS1 u.unit w fun d a => .clz u d a
  | 0x22 => layS1 u.unit w fun d a => .ctz u d a
  | 0x23 => layS1 u.unit w fun d a => .popc u d a
  | 0x35 => layS1 u.unit w fun d a => .fsqrtF32 u d a
  | 0x45 => layS1 u.unit w fun d a => .fsqrtF64 u d a
  | 0x50 =>
    oper (Dst.decFor u.unit (fld w 17 8)) fun d =>
    oper (Src.dec (fld w 9 8)) fun a =>
    if h : (fld w 0 8).toNat < 14 then
      need (fld w 8 1 == 1) .illegalOperand (.ok (.fcvt u d a ⟨(fld w 0 8).toNat, h⟩))
    else .error .illegalOperand
  | _ => .error .illegalOpcode

/-- Slot S3 (03 R76). -/
def decodeAgu (w : BitVec 32) : Except Cause Instr :=
  match opS w with
  | 0x00 => layS uAGU w fun d a b => .lea d a b
  | 0x01 => layS uAGU w fun d a b => .leah d a b
  | 0x02 => layS uAGU w fun d a b => .leaw d a b
  | 0x03 => layS uAGU w fun d a b => .lead d a b
  | 0x08 => layS uAGU w fun d a b => .ldI8 d a b
  | 0x09 => layS uAGU w fun d a b => .ldN8 d a b
  | 0x0A => layS uAGU w fun d a b => .ldI16 d a b
  | 0x0B => layS uAGU w fun d a b => .ldN16 d a b
  | 0x0C => layS uAGU w fun d a b => .ldI32 d a b
  | 0x0D => layS uAGU w fun d a b => .ldN32 d a b
  | 0x0E => layS uAGU w fun d a b => .ld64 d a b
  | 0x10 => layS uAGU w fun d a b => .ldxI8 d a b
  | 0x11 => layS uAGU w fun d a b => .ldxN8 d a b
  | 0x12 => layS uAGU w fun d a b => .ldxI16 d a b
  | 0x13 => layS uAGU w fun d a b => .ldxN16 d a b
  | 0x14 => layS uAGU w fun d a b => .ldxI32 d a b
  | 0x15 => layS uAGU w fun d a b => .ldxN32 d a b
  | 0x16 => layS uAGU w fun d a b => .ldx64 d a b
  | 0x18 => laySt w fun x a b => .st8 x a b
  | 0x19 => laySt w fun x a b => .st16 x a b
  | 0x1A => laySt w fun x a b => .st32 x a b
  | 0x1B => laySt w fun x a b => .st64 x a b
  | 0x1C => laySt w fun x a b => .stx8 x a b
  | 0x1D => laySt w fun x a b => .stx16 x a b
  | 0x1E => laySt w fun x a b => .stx32 x a b
  | 0x1F => laySt w fun x a b => .stx64 x a b
  | _ => .error .illegalOpcode

/-- Layout C-R (03 R77). -/
def layCR (w : BitVec 32) (f : Src → Instr) : Except Cause Instr :=
  need (fld w 17 9 == 0 && fld w 0 9 == 0) .illegalOpcode (oper (Src.dec (fld w 9 8)) fun a => .ok (f a))

/-- Slot S0 (03 R77, R78). That END reaches past the LOOP bundle is checked with the bundle's length (decodeSlot). -/
def decodeCtl (w : BitVec 32) : Except Cause Instr :=
  match (fld w 26 6).toNat with
  | 0x00 => need (fld w 0 26 == 0) .illegalOpcode (.ok .nop)
  | 0x01 => .ok (.bc (fld w 25 1 == 1) (fld w 21 4) (fld w 0 21))
  | 0x02 => .ok (.call (fld w 0 26))
  | 0x03 => layCR w .callr
  | 0x04 => layCR w .jr
  | 0x05 => layCR w .ret
  | 0x06 => oper (Src9.dec (fld w 16 9)) fun c => .ok (.loop (fld w 25 1 == 1) c (fld w 0 16))
  | 0x07 =>
    need (fld w 24 2 == 0) .illegalOpcode
      (need (advOk (.dec (fld w 0 6)) (.dec (fld w 6 6)) (.dec (fld w 12 6)) (.dec (fld w 18 6))) .illegalOperand
        (.ok (.adv (.dec (fld w 0 6)) (.dec (fld w 6 6)) (.dec (fld w 12 6)) (.dec (fld w 18 6)))))
  | 0x08 => .ok (.yield (fld w 16 10) (fld w 0 16))
  | 0x09 => .ok (.hint (fld w 0 26))
  | 0x0A => need (fld w 8 18 == 0) .illegalOpcode (.ok (.trap (fld w 0 8)))
  | 0x0B => need (fld w 0 26 == 0) .illegalOpcode (.ok .eret)
  | 0x0C => need (fld w 0 26 == 0) .illegalOpcode (.ok .halt)
  | 0x0D => need (fld w 8 18 == 0) .illegalOpcode (.ok (.bkpt (fld w 0 8)))
  | _ => .error .illegalOpcode

/-- Layout VR (03 R80): an element type that the operation takes. -/
def layVR (w : BitVec 32) (okT : VT → Bool) (f : VT → BitVec 8 → BitVec 8 → BitVec 8 → Instr) : Except Cause Instr :=
  form (VT.dec (fld w 24 4)) fun t =>
  need (okT t) .illegalFormat (.ok (f t (fld w 16 8) (fld w 8 8) (fld w 0 8)))

/-- Layout VX with C a v register (03 R81). -/
def layV3 (w : BitVec 32) (f : BitVec 8 → BitVec 8 → BitVec 8 → Instr) : Except Cause Instr :=
  .ok (f (fld w 16 8) (fld w 8 8) (fld w 0 8))

/-- The shifts of group 0xC (03 R81). -/
def laySh (w : BitVec 32) (f : Width → BitVec 6 → BitVec 8 → BitVec 8 → Instr) : Except Cause Instr :=
  need ((fld w 0 6).toNat < 8 * (Width.dec (fld w 6 2)).bytes) .illegalOperand
    (.ok (f (.dec (fld w 6 2)) (fld w 0 6) (fld w 16 8) (fld w 8 8)))

/-- The unary functions of group 0xF, SUB 4 (03 R84). -/
def layFn (w : BitVec 32) (okT : VT → Bool) (f : VT → BitVec 8 → BitVec 8 → Instr) : Except Cause Instr :=
  form (VT.dec (fld w 0 4)) fun t => need (okT t) .illegalFormat (.ok (f t (fld w 16 8) (fld w 8 8)))

/-- The scans of group 0xF (03 R84). -/
def layScan (w : BitVec 32) (f : RedOp → VT → BitVec 8 → BitVec 8 → Instr) : Except Cause Instr :=
  want (RedOp.dec (fld w 4 4)) .illegalOpcode fun op =>
  form (VT.dec (fld w 0 4)) fun t =>
  need (!(op.bitwise && t.isFloat)) .illegalFormat (.ok (f op t (fld w 16 8) (fld w 8 8)))

/-- VCVTB to the type dt (03 R84). -/
def layCvtb (w : BitVec 32) (dt : VT) : Except Cause Instr :=
  form (Fmt.dec (fld w 0 8)) fun f =>
  need f.typ.isF8 .illegalFormat (.ok (.vcvtb dt f (fld w 16 8) (fld w 8 8)))

/-- VCVT (03 R83): rz is set for SUB 0xC to 0xF. -/
def layCvt (w : BitVec 32) (st : VT) (rz : Bool) : Except Cause Instr :=
  need (!rz || (fld w 0 6).toNat < 8) .illegalOperand
    (form (Fmt.dec (fld w 0 8)) fun f =>
     need (f.typ != .raw) .illegalFormat (.ok (.vcvt st rz f (fld w 16 8) (fld w 8 8))))

/-- VLD and VST (03 R82). -/
def layMem (w : BitVec 32) (f : Width → BitVec 8 → Src → Src → Instr) : Except Cause Instr :=
  oper (Src.dec (fld w 8 8)) fun a =>
  oper (Src.dec (fld w 0 8)) fun c => .ok (f (.dec (fld w 24 2)) (fld w 16 8) a c)

/-- VGATHER and VSCATTER (03 R82). -/
def layGat (w : BitVec 32) (f : Width → BitVec 8 → Src → BitVec 8 → Instr) : Except Cause Instr :=
  oper (Src.dec (fld w 8 8)) fun a => .ok (f (.dec (fld w 24 2)) (fld w 16 8) a (fld w 0 8))

/-- Group 0xC (03 R81). -/
def decodeVxC (w : BitVec 32) : Except Cause Instr :=
  match (fld w 24 4).toNat with
  | 0 => layV3 w .vand
  | 1 => layV3 w .vor
  | 2 => layV3 w .vxor
  | 3 => layV3 w .vandn
  | 4 => layV3 w .vsel
  | 5 => layV3 w .vperm8
  | 6 => layV3 w .vperm16
  | 7 => layV3 w .vperm32
  | 8 => layV3 w .vperm64
  | 9 => laySh w .vshl
  | 10 => laySh w .vsrl
  | 11 => laySh w .vsra
  | 12 => .ok (.vtrans (.dec (fld w 6 2)) (fld w 0 6) (fld w 16 8) (fld w 8 8))
  | 13 => need (fld w 0 8 == 0) .illegalOpcode (.ok (.vmov (fld w 16 8) (fld w 8 8)))
  | _ => .error .illegalOpcode

/-- Group 0xD (03 R82). -/
def decodeVxD (w : BitVec 32) : Except Cause Instr :=
  match (fld w 26 2).toNat with
  | 0 => layMem w .vld
  | 1 => layMem w .vst
  | 2 => layGat w .vgather
  | _ => layGat w .vscatter

/-- Group 0xE (03 R83). -/
def decodeVxE (w : BitVec 32) : Except Cause Instr :=
  match (fld w 24 4).toNat with
  | 12 => layCvt w .f16 true
  | 13 => layCvt w .bf16 true
  | 14 => layCvt w .f32 true
  | 15 => layCvt w .f64 true
  | _ => form (VT.dec (fld w 24 4)) fun st => layCvt w st false

/-- Group 0xF (03 R84). -/
def decodeVxF (w : BitVec 32) : Except Cause Instr :=
  match (fld w 24 4).toNat with
  | 0 => layCvtb w .f16
  | 1 => layCvtb w .bf16
  | 2 => layCvtb w .f32
  | 3 => layCvtb w .f64
  | 4 =>
    (match (fld w 4 4).toNat with
     | 0 => layFn w (fun _ => true) .vabs
     | 1 => layFn w (fun _ => true) .vneg
     | 2 => layFn w VT.isFloat .vexp2
     | 3 => layFn w VT.isFloat .vlog2
     | 4 => layFn w VT.isFloat .vrcp
     | 5 => layFn w VT.isFloat .vrsqrt
     | _ => .error .illegalOpcode)
  | 5 =>
    want (RedOp.dec (fld w 4 4)) .illegalOpcode fun op =>
    oper (Dst.decFor uVU (fld w 16 8)) fun d =>
    form (VT.dec (fld w 0 4)) fun t =>
    need (!(op.bitwise && t.isFloat)) .illegalFormat (.ok (.vred op t d (fld w 8 8)))
  | 6 => layScan w .vscan
  | 7 => layScan w .vscanx
  | 8 =>
    need (fld w 4 4 == 0) .illegalOpcode
      (oper (Src.dec (fld w 8 8)) fun a => form (VT.dec (fld w 0 4)) fun t => .ok (.vbcast t (fld w 16 8) a))
  | 9 =>
    need (fld w 16 8 != 255) .illegalOperand
      (form (Fmt.dec (fld w 0 8)) fun f => need f.typ.isF8 .illegalFormat (.ok (.vqnt f (fld w 16 8) (fld w 8 8))))
  | 10 =>
    need (fld w 8 8 != 255) .illegalOperand
      (form (Fmt.dec (fld w 0 8)) fun f => need f.typ.isF8 .illegalFormat (.ok (.vdqnt f (fld w 16 8) (fld w 8 8))))
  | 11 =>
    need (fld w 4 4 == 0) .illegalOpcode
      (oper (Src.dec (fld w 8 8)) fun a =>
       form (VT.dec (fld w 0 4)) fun t => need (t == .n32 || t == .f32) .illegalFormat (.ok (.vrand t (fld w 16 8) a)))
  | 12 =>
    need (fld w 4 4 == 0) .illegalOpcode
      (need (fld w 12 4 == 5) .illegalOperand
        (form (VT.dec (fld w 0 4)) fun t => .ok (.vstrm t (fld w 16 8) (fld w 8 4))))
  | 13 =>
    need (fld w 4 4 == 0) .illegalOpcode
      (oper (Dst.decFor uVU (fld w 16 8)) fun d =>
       oper (Src.dec (fld w 8 8)) fun a => form (VT.dec (fld w 0 4)) fun t => .ok (.vsetvl t d a))
  | _ => .error .illegalOpcode

/-- Slot S4 (03 R79). -/
def decodeVu (w : BitVec 32) : Except Cause Instr :=
  match (fld w 28 4).toNat with
  | 0 => layVR w (fun _ => true) .vadd
  | 1 => layVR w (fun _ => true) .vsub
  | 2 => layVR w (fun _ => true) .vmul
  | 3 => layVR w VT.isFloat .vfma
  | 4 => layVR w VT.isFloat .vdiv
  | 5 => layVR w (fun _ => true) .vmin
  | 6 => layVR w (fun _ => true) .vmax
  | 7 => layVR w (fun t => !t.isFloat) .vadds
  | 8 => layVR w (fun t => !t.isFloat) .vsubs
  | 9 => layVR w (fun _ => true) .vceq
  | 10 => layVR w (fun _ => true) .vclt
  | 11 => layVR w (fun _ => true) .vcle
  | 12 => decodeVxC w
  | 13 => decodeVxD w
  | 14 => decodeVxE w
  | _ => decodeVxF w

/-- A predicate of k operand registers (03 R85). -/
def layGeo (w : BitVec 32) (k : Nat) (f : GF → BitVec 8 → BitVec 8 → Dst → Instr) : Except Cause Instr :=
  oper (Dst.decFor uEPU (fld w 0 8)) fun d =>
  need (geoOk k (fld w 16 8) (fld w 8 8)) .illegalOperand
    (form (GF.dec (fld w 24 3)) fun g => .ok (f g (fld w 16 8) (fld w 8 8) d))

/-- An S5 instruction whose only field is A (03 R85). -/
def layXA (w : BitVec 32) (f : Src → Instr) : Except Cause Instr :=
  need (fld w 16 11 == 0 && fld w 0 8 == 0) .illegalOpcode (oper (Src.dec (fld w 8 8)) fun a => .ok (f a))

/-- Slot S5 (03 R85). -/
def decodeMx (w : BitVec 32) : Except Cause Instr :=
  match (fld w 27 5).toNat with
  | 0x00 =>
    need (fld w 0 9 == 0) .illegalOpcode
      (need (mFieldOk (fld w 18 6)) .illegalOperand
        (oper (Src9.dec (fld w 9 9)) fun b => .ok (.mxset (fld w 24 3) (fld w 18 6) b)))
  | 0x01 =>
    need (fld w 8 5 == 0) .illegalOpcode
      (oper (Dst.decFor uMX (fld w 0 8)) fun d => .ok (.mxcall d (fld w 16 8) (fld w 13 3) (fld w 24 3)))
  | 0x02 => layXA w .mxwait
  | 0x03 =>
    need (fld w 1 7 == 0) .illegalOpcode
      (match Fmt.dec (fld w 8 8) with
       | some f =>
         need ((fld w 16 8).toNat + mxaccRegs f ≤ 256) .illegalOperand
           (.ok (.mxacc (fld w 24 3) (fld w 16 8) f (fld w 0 1 == 1)))
       | none => .error .illegalFormat)
  | 0x04 =>
    need (fld w 0 23 == 0) .illegalOpcode
      (need (!(fld w 23 1 == 1 && (fld w 24 3).toNat % 2 == 1)) .illegalOperand
        (.ok (.mxclr (fld w 24 3) (fld w 23 1 == 1))))
  | 0x05 =>
    need (fld w 20 7 == 0) .illegalOpcode
      (oper (Semi.dec (fld w 16 4)) fun s =>
       form (Fmt.dec (fld w 8 8)) fun acc =>
       form (Fmt.dec (fld w 0 8)) fun op => need (mxModeOk s acc op) .illegalFormat (.ok (.mxsr s acc op)))
  | 0x06 =>
    need (fld w 24 3 == 0) .illegalOpcode
      (oper (Src.dec (fld w 8 8)) fun a => .ok (.mxload (fld w 16 8) a (fld w 0 8)))
  | 0x07 => layXA w .mxpark
  | 0x08 => layXA w .mxunpark
  | 0x10 => layGeo w kOrient2 .gorient2
  | 0x11 => layGeo w kOrient3 .gorient3
  | 0x12 => layGeo w kIncirc .gincirc
  | 0x13 => layGeo w kInsph .ginsph
  | 0x14 => layGeo w kSegx .gsegx
  | 0x15 => layXA w .gtie
  | _ => .error .illegalOpcode

/-- The first of a group of eight s registers (03 R87). -/
def grp8 (b : BitVec 8) : Option (BitVec 3) :=
  if b.extractLsb' 6 2 = 0 ∧ b.extractLsb' 0 3 = 0 then some (b.extractLsb' 3 3) else none

/-- The first of a group of four s registers (03 R87). -/
def grp4 (b : BitVec 8) : Option (BitVec 4) :=
  if b.extractLsb' 6 2 = 0 ∧ b.extractLsb' 0 2 = 0 then some (b.extractLsb' 2 4) else none

/-- A q register (03 R71). -/
def qReg (b : BitVec 8) : Option (BitVec 4) := if b.extractLsb' 4 4 = 5 then some (b.extractLsb' 0 4) else none

/-- MOD is zero where the table of R87 gives 0. -/
def mod0 (w : BitVec 32) (k : Except Cause Instr) : Except Cause Instr := need (fld w 24 2 == 0) .illegalOpcode k

/-- The D field of layout E. -/
def eD (w : BitVec 32) : Option Dst := Dst.decFor uENG (fld w 16 8)
/-- The A field of layout E. -/
def eA (w : BitVec 32) : Option Src := Src.dec (fld w 8 8)
/-- The B field of layout E. -/
def eB (w : BitVec 32) : Option Src := Src.dec (fld w 0 8)
/-- The D field of layout E is unused (03 R71). -/
def noD (w : BitVec 32) (k : Except Cause Instr) : Except Cause Instr := need (fld w 16 8 == 0x8F) .illegalOperand k
/-- The A field of layout E is unused (03 R71). -/
def noA (w : BitVec 32) (k : Except Cause Instr) : Except Cause Instr := need (fld w 8 8 == 0x8E) .illegalOperand k
/-- The B field of layout E is unused (03 R71). -/
def noB (w : BitVec 32) (k : Except Cause Instr) : Except Cause Instr := need (fld w 0 8 == 0x8E) .illegalOperand k

/-- An S6 instruction with operands A and B and no D. -/
def layAB (w : BitVec 32) (f : Src → Src → Instr) : Except Cause Instr :=
  noD w (oper (eA w) fun a => oper (eB w) fun b => .ok (f a b))

/-- An S6 instruction with D, A and B. -/
def layDAB (w : BitVec 32) (f : Dst → Src → Src → Instr) : Except Cause Instr :=
  oper (eD w) fun d => oper (eA w) fun a => oper (eB w) fun b => .ok (f d a b)

/-- Privileged instructions issue from context 1 only (03 R87). -/
def privOnly (fw : Bool) (k : Except Cause Instr) : Except Cause Instr := need fw .privInstruction k

/-- Slot S6 (03 R86 to R88). -/
def decodeEng (fw : Bool) (w : BitVec 32) : Except Cause Instr :=
  match (fld w 26 6).toNat with
  | 0x00 => mod0 w (oper (eD w) fun d => oper (grp8 (fld w 8 8)) fun k => noB w (.ok (.cpy d k)))
  | 0x01 => mod0 w (oper (eD w) fun d => oper (grp8 (fld w 8 8)) fun k => oper (eB w) fun b => .ok (.cpyt d k b))
  | 0x02 => mod0 w (oper (qReg (fld w 16 8)) fun q => oper (grp8 (fld w 8 8)) fun k => noB w (.ok (.sbind q k)))
  | 0x03 => mod0 w (noD w (oper (qReg (fld w 8 8)) fun q => oper (eB w) fun b => .ok (.sadv q b)))
  | 0x04 => mod0 w (noD w (oper (eA w) fun a => noB w (.ok (.mon a))))
  | 0x05 => mod0 w (oper (eD w) fun d => noA w (oper (eB w) fun b => .ok (.mwait d b)))
  | 0x06 => mod0 w (layAB w .sempost)
  | 0x07 => mod0 w (layDAB w .semwait)
  | 0x08 => mod0 w (oper (eD w) fun d => oper (eA w) fun a => noB w (.ok (.bararr d a)))
  | 0x09 => mod0 w (layAB w .barwait)
  | 0x0A => mod0 w (noD w (noA w (noB w (.ok .tbar))))
  | 0x0B => mod0 w (oper (grp8 (fld w 16 8)) fun k => oper (eA w) fun a => noB w (.ok (.deq k a)))
  | 0x0C => mod0 w (noD w (oper (eA w) fun a => oper (grp8 (fld w 0 8)) fun k => .ok (.enq a k)))
  | 0x0D => layDAB w (.aadd (.dec (fld w 24 2)))
  | 0x0E => layDAB w (.amin (.dec (fld w 24 2)))
  | 0x0F => layDAB w (.amax (.dec (fld w 24 2)))
  | 0x10 => layDAB w (.aand (.dec (fld w 24 2)))
  | 0x11 => layDAB w (.aor (.dec (fld w 24 2)))
  | 0x12 => layDAB w (.axor (.dec (fld w 24 2)))
  | 0x13 => layDAB w (.aswap (.dec (fld w 24 2)))
  | 0x14 =>
    need (fld w 22 2 == 0) .illegalOperand
      (oper (eA w) fun a => oper (eB w) fun b => .ok (.acas (.dec (fld w 24 2)) (fld w 16 6) a b))
  | 0x15 =>
    noD w (oper (eA w) fun a => oper (eB w) fun b =>
      need ((fld w 24 2).toNat < 2) .illegalFormat (.ok (.fxadd (fld w 24 1 == 1) a b)))
  | 0x16 =>
    oper (eD w) fun d => oper (eA w) fun a => noB w
      (need ((fld w 24 2).toNat < 2) .illegalFormat (.ok (.fxread (fld w 24 1 == 1) d a)))
  | 0x17 =>
    noD w (need (fld w 8 8 != 0 && fld w 0 8 != 0) .illegalOperand
      (.ok (.fence (.dec (fld w 24 2)) (fld w 8 8) (fld w 0 8))))
  | 0x18 => mod0 w (noD w (noA w (noB w (.ok .qmark))))
  | 0x19 => mod0 w (noD w (oper (grp4 (fld w 8 8)) fun k => noB w (.ok (.tbegin k))))
  | 0x1A => mod0 w (noD w (noA w (noB w (.ok .tend))))
  | 0x1B => mod0 w (layAB w .tladd)
  | 0x1C => mod0 w (layAB w .tlset)
  | 0x1D => mod0 w (layAB w .tlwait)
  | 0x20 =>
    need (fld w 24 2 == 0 && fld w 12 4 == 0) .illegalOpcode
      (oper (Dst.decFor uENG (fld w 16 8)) fun d =>
       need (csrAssigned (fld w 0 12)) .illegalOperand (.ok (.csrr d (fld w 0 12))))
  | 0x21 =>
    need (fld w 24 2 == 0 && fld w 12 4 == 0) .illegalOpcode
      (oper (Src.dec (fld w 16 8)) fun a =>
       need (csrAssigned (fld w 0 12)) .illegalOperand (.ok (.csrw (fld w 0 12) a)))
  | 0x22 =>
    need (fld w 24 2 == 0 && fld w 4 12 == 0) .illegalOpcode
      (privOnly fw (oper (grp4 (fld w 16 8)) fun k => .ok (.rrw (fld w 3 1 == 1) (fld w 0 3) k)))
  | 0x23 => mod0 w (privOnly fw (layDAB w .xlatinv))
  | 0x24 => mod0 w (privOnly fw (noD w (oper (eA w) fun a => noB w (.ok (.mxsave a)))))
  | _ => .error .illegalOpcode

/-- A slot word under the layouts of its slot (03 R67), with the checks of R89 step 3; len is the bundle's length, which
bounds the END of a LOOP (R78), and fw says that context 1 issues it. -/
def decodeSlot (fw : Bool) (len : Nat) (slot : Nat) (w : BitVec 32) : Except Cause Instr :=
  match slot with
  | 0 =>
    match decodeCtl w with
    | .ok (.loop f c e) => need (decide (len ≤ e.toNat)) .illegalOperand (.ok (.loop f c e))
    | r => r
  | 1 => decodeAlu .alu0 w
  | 2 => decodeAlu .alu1 w
  | 3 => decodeAgu w
  | 4 => decodeVu w
  | 5 => decodeMx w
  | 6 => decodeEng fw w
  | _ => .error .illegalOpcode

/-- A microword (06 R155). The limits on BODY that depend on the routine are checked by MXLOAD. -/
def decodeMicro (w : BitVec 64) : Except Cause Instr :=
  match (fld w 60 4).toNat with
  | 0 => need (fld w 0 60 == 0) .mxBadMicroword (.ok .uend)
  | 1 =>
    need (fld w 0 50 == 0 && fld w 56 4 != fld w 52 4) .mxBadMicroword
      (.ok (.umma (fld w 56 4) (fld w 52 4) (fld w 51 1 == 1) (fld w 50 1 == 1)))
  | 2 =>
    need (fld w 32 10 == 0 && fld w 42 8 != 0 &&
        (if fld w 59 1 == 1 then fld w 0 32 == 0 && mFieldOk (fld w 50 6) else fld w 56 3 == 0 && fld w 50 6 == 0))
      .mxBadMicroword
      (.ok (.uloop (fld w 59 1 == 1) (fld w 56 3) (fld w 50 6) (fld w 42 8) (fld w 0 32)))
  | 3 => need (fld w 0 48 == 0 && fld w 48 8 != 0) .mxBadMicroword (.ok (.upop (fld w 56 4) (fld w 48 8)))
  | 4 =>
    need (fld w 0 47 == 0) .mxBadMicroword
      (want (Fmt.dec (fld w 48 8)) .mxBadMicroword fun f => .ok (.uout (fld w 56 4) f (fld w 47 1 == 1)))
  | _ => .error .mxBadMicroword

/-! ## Encoding -/

/-- The word of an instruction: a slot with its 32-bit word, or a microword. -/
inductive Coded where
  | slot (n : Nat) (w : BitVec 32)
  | micro (w : BitVec 64)
  deriving DecidableEq, Repr

/-- The slot of a scalar operation (03 R67). -/
def Alu.slot : Alu → Nat
  | .alu0 => 1
  | .alu1 => 2

/-- Layout S (03 R73). -/
def packS (op : BitVec 7) (d a : BitVec 8) (b : BitVec 9) : BitVec 32 := op ++ d ++ a ++ b

/-- An operation of S1 or S2. -/
def encAlu (u : Alu) (op : BitVec 7) (d : Dst) (a : Src) (b : Src9) : Option Coded :=
  some (.slot u.slot (packS op d.enc a.enc b.enc))

/-- A unary operation of S1 or S2. -/
def encAlu1 (u : Alu) (op : BitVec 7) (d : Dst) (a : Src) : Option Coded :=
  some (.slot u.slot (packS op d.enc a.enc 0x08E))

/-- An operation of S3. -/
def encAgu (op : BitVec 7) (d : BitVec 8) (a : Src) (b : Src9) : Option Coded := some (.slot 3 (packS op d a.enc b.enc))

/-- Layout VR (03 R79). -/
def encVR (op : BitVec 4) (t : VT) (vd va vb : BitVec 8) : Option Coded :=
  some (.slot 4 ((op ++ t.enc ++ vd ++ va ++ vb : BitVec 32)))

/-- Layout VX (03 R79). -/
def encVX (maj sub : BitVec 4) (vd va c : BitVec 8) : Option Coded :=
  some (.slot 4 ((maj ++ sub ++ vd ++ va ++ c : BitVec 32)))

/-- Layout X (03 R85). -/
def encX (op : BitVec 5) (k : BitVec 3) (x y z : BitVec 8) : Option Coded :=
  some (.slot 5 ((op ++ k ++ x ++ y ++ z : BitVec 32)))

/-- Layout E (03 R86). -/
def encE (op : BitVec 6) (m : BitVec 2) (d a b : BitVec 8) : Option Coded :=
  some (.slot 6 ((op ++ m ++ d ++ a ++ b : BitVec 32)))

/-- Layout Y (03 R86). -/
def encY (op : BitVec 6) (g : BitVec 8) (c : BitVec 12) : Option Coded :=
  some (.slot 6 ((op ++ 0#2 ++ g ++ 0#4 ++ c : BitVec 32)))

/-- A control word (03 R77). -/
def encC (op : BitVec 6) (x : BitVec 26) : Option Coded := some (.slot 0 ((op ++ x : BitVec 32)))

/-- The code of a group of eight s registers. -/
def enc8 (k : BitVec 3) : BitVec 8 := 0#2 ++ k ++ 0#3
/-- The code of a group of four s registers. -/
def enc4 (k : BitVec 4) : BitVec 8 := 0#2 ++ k ++ 0#2
/-- The code of a q register. -/
def encQ (q : BitVec 4) : BitVec 8 := 5#4 ++ q
/-- A reduction or scan's C field. -/
def encOT (op : RedOp) (t : VT) : BitVec 8 := op.enc ++ t.enc
/-- A C field with its upper half zero. -/
def enc0T (t : VT) : BitVec 8 := 0#4 ++ t.enc
/-- The SUB code of VCVT's source (03 R83). -/
def cvtSub (st : VT) (rz : Bool) : BitVec 4 :=
  if rz then
    match st with
    | .f16 => 12
    | .bf16 => 13
    | .f32 => 14
    | _ => 15
  else st.enc
/-- The SUB code of VCVTB's destination (03 R84). -/
def cvtbSub (dt : VT) : BitVec 4 :=
  match dt with
  | .f16 => 0
  | .bf16 => 1
  | .f32 => 2
  | _ => 3

/-- The words of a well-formed instruction; none for the events, which no word encodes. -/
def encode : Instr → Option Coded
  | .nop => encC 0x00 0
  | .bc neg p off => encC 0x01 (bit neg ++ p ++ off)
  | .call off => encC 0x02 off
  | .callr a => encC 0x03 (0#9 ++ a.enc ++ 0#9)
  | .jr a => encC 0x04 (0#9 ++ a.enc ++ 0#9)
  | .ret a => encC 0x05 (0#9 ++ a.enc ++ 0#9)
  | .loop f c e => encC 0x06 (bit f ++ c.enc ++ e)
  | .adv a b c d => encC 0x07 (0#2 ++ d.enc ++ c.enc ++ b.enc ++ a.enc)
  | .yield desc bud => encC 0x08 (desc ++ bud)
  | .hint n => encC 0x09 n
  | .trap c => encC 0x0A (0#18 ++ c)
  | .eret => encC 0x0B 0
  | .halt => encC 0x0C 0
  | .bkpt c => encC 0x0D (0#18 ++ c)
  | .add u d a b => encAlu u 0x00 d a b
  | .sub u d a b => encAlu u 0x01 d a b
  | .mul u d a b => encAlu u 0x02 d a b
  | .mulh u d a b => encAlu u 0x03 d a b
  | .mulhu u d a b => encAlu u 0x04 d a b
  | .div u d a b => encAlu u 0x05 d a b
  | .divu u d a b => encAlu u 0x06 d a b
  | .rem u d a b => encAlu u 0x07 d a b
  | .remu u d a b => encAlu u 0x08 d a b
  | .and u d a b => encAlu u 0x09 d a b
  | .or u d a b => encAlu u 0x0A d a b
  | .xor u d a b => encAlu u 0x0B d a b
  | .andn u d a b => encAlu u 0x0C d a b
  | .shl u d a b => encAlu u 0x0D d a b
  | .shr u d a b => encAlu u 0x0E d a b
  | .sra u d a b => encAlu u 0x0F d a b
  | .rol u d a b => encAlu u 0x10 d a b
  | .ror u d a b => encAlu u 0x11 d a b
  | .min u d a b => encAlu u 0x12 d a b
  | .minu u d a b => encAlu u 0x13 d a b
  | .max u d a b => encAlu u 0x14 d a b
  | .maxu u d a b => encAlu u 0x15 d a b
  | .ceq u d a b => encAlu u 0x16 d a b
  | .cne u d a b => encAlu u 0x17 d a b
  | .clt u d a b => encAlu u 0x18 d a b
  | .cltu u d a b => encAlu u 0x19 d a b
  | .cle u d a b => encAlu u 0x1A d a b
  | .cleu u d a b => encAlu u 0x1B d a b
  | .cmov u d a b => encAlu u 0x1C d a b
  | .cmovz u d a b => encAlu u 0x1D d a b
  | .bext u d a b => encAlu u 0x1E d a b
  | .bextu u d a b => encAlu u 0x1F d a b
  | .bins u d a b => encAlu u 0x20 d a b
  | .sext u d a b => encAlu u 0x24 d a b
  | .zext u d a b => encAlu u 0x25 d a b
  | .lih u d a b => encAlu u 0x26 d a b
  | .faddF32 u d a b => encAlu u 0x30 d a b
  | .fsubF32 u d a b => encAlu u 0x31 d a b
  | .fmulF32 u d a b => encAlu u 0x32 d a b
  | .fmaF32 u d a b => encAlu u 0x33 d a b
  | .fdivF32 u d a b => encAlu u 0x34 d a b
  | .fminF32 u d a b => encAlu u 0x36 d a b
  | .fmaxF32 u d a b => encAlu u 0x37 d a b
  | .fceqF32 u d a b => encAlu u 0x38 d a b
  | .fcltF32 u d a b => encAlu u 0x39 d a b
  | .fcleF32 u d a b => encAlu u 0x3A d a b
  | .faddF64 u d a b => encAlu u 0x40 d a b
  | .fsubF64 u d a b => encAlu u 0x41 d a b
  | .fmulF64 u d a b => encAlu u 0x42 d a b
  | .fmaF64 u d a b => encAlu u 0x43 d a b
  | .fdivF64 u d a b => encAlu u 0x44 d a b
  | .fminF64 u d a b => encAlu u 0x46 d a b
  | .fmaxF64 u d a b => encAlu u 0x47 d a b
  | .fceqF64 u d a b => encAlu u 0x48 d a b
  | .fcltF64 u d a b => encAlu u 0x49 d a b
  | .fcleF64 u d a b => encAlu u 0x4A d a b
  | .clz u d a => encAlu1 u 0x21 d a
  | .ctz u d a => encAlu1 u 0x22 d a
  | .popc u d a => encAlu1 u 0x23 d a
  | .fsqrtF32 u d a => encAlu1 u 0x35 d a
  | .fsqrtF64 u d a => encAlu1 u 0x45 d a
  | .fcvt u d a sel => some (.slot u.slot (packS 0x50 d.enc a.enc (1#1 ++ BitVec.ofNat 8 sel.val)))
  | .lea d a b => encAgu 0x00 d.enc a b
  | .leah d a b => encAgu 0x01 d.enc a b
  | .leaw d a b => encAgu 0x02 d.enc a b
  | .lead d a b => encAgu 0x03 d.enc a b
  | .ldI8 d a b => encAgu 0x08 d.enc a b
  | .ldN8 d a b => encAgu 0x09 d.enc a b
  | .ldI16 d a b => encAgu 0x0A d.enc a b
  | .ldN16 d a b => encAgu 0x0B d.enc a b
  | .ldI32 d a b => encAgu 0x0C d.enc a b
  | .ldN32 d a b => encAgu 0x0D d.enc a b
  | .ld64 d a b => encAgu 0x0E d.enc a b
  | .ldxI8 d a b => encAgu 0x10 d.enc a b
  | .ldxN8 d a b => encAgu 0x11 d.enc a b
  | .ldxI16 d a b => encAgu 0x12 d.enc a b
  | .ldxN16 d a b => encAgu 0x13 d.enc a b
  | .ldxI32 d a b => encAgu 0x14 d.enc a b
  | .ldxN32 d a b => encAgu 0x15 d.enc a b
  | .ldx64 d a b => encAgu 0x16 d.enc a b
  | .st8 x a b => encAgu 0x18 x.enc a b
  | .st16 x a b => encAgu 0x19 x.enc a b
  | .st32 x a b => encAgu 0x1A x.enc a b
  | .st64 x a b => encAgu 0x1B x.enc a b
  | .stx8 x a b => encAgu 0x1C x.enc a b
  | .stx16 x a b => encAgu 0x1D x.enc a b
  | .stx32 x a b => encAgu 0x1E x.enc a b
  | .stx64 x a b => encAgu 0x1F x.enc a b
  | .vadd t vd va vb => encVR 0 t vd va vb
  | .vsub t vd va vb => encVR 1 t vd va vb
  | .vmul t vd va vb => encVR 2 t vd va vb
  | .vfma t vd va vb => encVR 3 t vd va vb
  | .vdiv t vd va vb => encVR 4 t vd va vb
  | .vmin t vd va vb => encVR 5 t vd va vb
  | .vmax t vd va vb => encVR 6 t vd va vb
  | .vadds t vd va vb => encVR 7 t vd va vb
  | .vsubs t vd va vb => encVR 8 t vd va vb
  | .vceq t vd va vb => encVR 9 t vd va vb
  | .vclt t vd va vb => encVR 10 t vd va vb
  | .vcle t vd va vb => encVR 11 t vd va vb
  | .vand vd va vb => encVX 0xC 0 vd va vb
  | .vor vd va vb => encVX 0xC 1 vd va vb
  | .vxor vd va vb => encVX 0xC 2 vd va vb
  | .vandn vd va vb => encVX 0xC 3 vd va vb
  | .vsel vd va vb => encVX 0xC 4 vd va vb
  | .vperm8 vd va vb => encVX 0xC 5 vd va vb
  | .vperm16 vd va vb => encVX 0xC 6 vd va vb
  | .vperm32 vd va vb => encVX 0xC 7 vd va vb
  | .vperm64 vd va vb => encVX 0xC 8 vd va vb
  | .vshl w n vd va => encVX 0xC 9 vd va (w.enc ++ n)
  | .vsrl w n vd va => encVX 0xC 10 vd va (w.enc ++ n)
  | .vsra w n vd va => encVX 0xC 11 vd va (w.enc ++ n)
  | .vtrans w r vd va => encVX 0xC 12 vd va (w.enc ++ r)
  | .vmov vd va => encVX 0xC 13 vd va 0
  | .vld w vd a c => encVX 0xD (0#2 ++ w.enc) vd a.enc c.enc
  | .vst w vd a c => encVX 0xD (1#2 ++ w.enc) vd a.enc c.enc
  | .vgather w vd a vc => encVX 0xD (2#2 ++ w.enc) vd a.enc vc
  | .vscatter w vd a vc => encVX 0xD (3#2 ++ w.enc) vd a.enc vc
  | .vcvt st rz dt vd va => encVX 0xE (cvtSub st rz) vd va dt.enc
  | .vcvtb dt st vd va => encVX 0xF (cvtbSub dt) vd va st.enc
  | .vabs t vd va => encVX 0xF 4 vd va (0#4 ++ t.enc)
  | .vneg t vd va => encVX 0xF 4 vd va (1#4 ++ t.enc)
  | .vexp2 t vd va => encVX 0xF 4 vd va (2#4 ++ t.enc)
  | .vlog2 t vd va => encVX 0xF 4 vd va (3#4 ++ t.enc)
  | .vrcp t vd va => encVX 0xF 4 vd va (4#4 ++ t.enc)
  | .vrsqrt t vd va => encVX 0xF 4 vd va (5#4 ++ t.enc)
  | .vred op t d va => encVX 0xF 5 d.enc va (encOT op t)
  | .vscan op t vd va => encVX 0xF 6 vd va (encOT op t)
  | .vscanx op t vd va => encVX 0xF 7 vd va (encOT op t)
  | .vbcast t vd a => encVX 0xF 8 vd a.enc (enc0T t)
  | .vqnt f vd va => encVX 0xF 9 vd va f.enc
  | .vdqnt f vd va => encVX 0xF 10 vd va f.enc
  | .vrand t vd a => encVX 0xF 11 vd a.enc (enc0T t)
  | .vstrm t vd q => encVX 0xF 12 vd (encQ q) (enc0T t)
  | .vsetvl t d a => encVX 0xF 13 d.enc a.enc (enc0T t)
  | .mxset m f b => some (.slot 5 ((0#5 ++ m ++ f ++ b.enc ++ 0#9 : BitVec 32)))
  | .mxcall d r bank pb => encX 0x01 pb r (bank ++ 0#5) d.enc
  | .mxwait a => encX 0x02 0 0 a.enc 0
  | .mxacc bank vd f clr => encX 0x03 bank vd f.enc (0#7 ++ bit clr)
  | .mxclr bank pair => encX 0x04 bank (bit pair ++ 0#7) 0 0
  | .mxsr s acc op => encX 0x05 0 (0#4 ++ s.enc) acc.enc op.enc
  | .mxload r a len => encX 0x06 0 r a.enc len
  | .mxpark a => encX 0x07 0 0 a.enc 0
  | .mxunpark a => encX 0x08 0 0 a.enc 0
  | .uend => some (.micro 0)
  | .umma ra rb pa pb => some (.micro ((1#4 ++ ra ++ rb ++ bit pa ++ bit pb ++ 0#50 : BitVec 64)))
  | .uloop src mrel f body count => some (.micro ((2#4 ++ bit src ++ mrel ++ f ++ body ++ 0#10 ++ count : BitVec 64)))
  | .upop r n => some (.micro ((3#4 ++ r ++ n ++ 0#48 : BitVec 64)))
  | .uout r f clr => some (.micro ((4#4 ++ r ++ f.enc ++ bit clr ++ 0#47 : BitVec 64)))
  | .gorient2 g vd va d => encX 0x10 g.enc vd va d.enc
  | .gorient3 g vd va d => encX 0x11 g.enc vd va d.enc
  | .gincirc g vd va d => encX 0x12 g.enc vd va d.enc
  | .ginsph g vd va d => encX 0x13 g.enc vd va d.enc
  | .gsegx g vd va d => encX 0x14 g.enc vd va d.enc
  | .gtie a => encX 0x15 0 0 a.enc 0
  | .cpy d k => encE 0x00 0 d.enc (enc8 k) 0x8E
  | .cpyt d k b => encE 0x01 0 d.enc (enc8 k) b.enc
  | .sbind q k => encE 0x02 0 (encQ q) (enc8 k) 0x8E
  | .sadv q b => encE 0x03 0 0x8F (encQ q) b.enc
  | .mon a => encE 0x04 0 0x8F a.enc 0x8E
  | .mwait d b => encE 0x05 0 d.enc 0x8E b.enc
  | .sempost a b => encE 0x06 0 0x8F a.enc b.enc
  | .semwait d a b => encE 0x07 0 d.enc a.enc b.enc
  | .bararr d a => encE 0x08 0 d.enc a.enc 0x8E
  | .barwait a b => encE 0x09 0 0x8F a.enc b.enc
  | .tbar => encE 0x0A 0 0x8F 0x8E 0x8E
  | .deq k a => encE 0x0B 0 (enc8 k) a.enc 0x8E
  | .enq a k => encE 0x0C 0 0x8F a.enc (enc8 k)
  | .aadd t d a b => encE 0x0D t.enc d.enc a.enc b.enc
  | .amin t d a b => encE 0x0E t.enc d.enc a.enc b.enc
  | .amax t d a b => encE 0x0F t.enc d.enc a.enc b.enc
  | .aand t d a b => encE 0x10 t.enc d.enc a.enc b.enc
  | .aor t d a b => encE 0x11 t.enc d.enc a.enc b.enc
  | .axor t d a b => encE 0x12 t.enc d.enc a.enc b.enc
  | .aswap t d a b => encE 0x13 t.enc d.enc a.enc b.enc
  | .acas t d a b => encE 0x14 t.enc (0#2 ++ d) a.enc b.enc
  | .fxadd f64 a b => encE 0x15 (0#1 ++ bit f64) 0x8F a.enc b.enc
  | .fxread f64 d a => encE 0x16 (0#1 ++ bit f64) d.enc a.enc 0x8E
  | .fence sc p s => encE 0x17 sc.enc 0x8F p s
  | .qmark => encE 0x18 0 0x8F 0x8E 0x8E
  | .tbegin k => encE 0x19 0 0x8F (enc4 k) 0x8E
  | .tend => encE 0x1A 0 0x8F 0x8E 0x8E
  | .tladd a b => encE 0x1B 0 0x8F a.enc b.enc
  | .tlset a b => encE 0x1C 0 0x8F a.enc b.enc
  | .tlwait a b => encE 0x1D 0 0x8F a.enc b.enc
  | .csrr d n => encY 0x20 d.enc n
  | .csrw n a => encY 0x21 a.enc n
  | .rrw ctx idx k => encY 0x22 (enc4 k) (0#8 ++ bit ctx ++ idx)
  | .xlatinv d a b => encE 0x23 0 d.enc a.enc b.enc
  | .mxsave a => encE 0x24 0 0x8F a.enc 0x8E
  | .haltDone .. => none
  | .freezeCycle .. => none
  | .scalarResultWrite .. => none
  | .vectorOpComplete .. => none
  | .assistRoutine .. => none
  | .predicateComplete .. => none
  | .shadowLatchReplay .. => none
  | .deckleWindowEnd .. => none
  | .regulatorSettleDone .. => none
  | .marginEntryDeferredWrite .. => none
  | .marginEntryRefresh .. => none
  | .coreFenced .. => none
  | .teamMemberKill .. => none
  | .memoryAccessResponse .. => none
  | .waitComplete .. => none
  | .mwaitTimeout .. => none
  | .timedCopyStart .. => none
  | .copyComplete .. => none
  | .copyStop .. => none
  | .streamAppend .. => none
  | .mouldTilePush .. => none
  | .pressSlotPop .. => none
  | .subscriptionStop .. => none
  | .lentSlotGrant .. => none
  | .lentItemMove .. => none
  | .commitComplete .. => none
  | .xlatinvComplete .. => none
  | .xgenInstall => none
  | .xgenDrainDone => none
  | .baseDieReset .. => none
  | .divertedAccess => none
  | .memberSuspend .. => none
  | .teamHandover .. => none
  | .teamResume .. => none
  | .workerRetire .. => none
  | .launchRecordWrite .. => none
  | .phaseBoundaryCommit => none
  | .replicaTimeout => none
  | .sqHeadRecord .. => none
  | .sqWaitRecord .. => none
  | .sqWaitSatisfied .. => none
  | .sqNopRecord .. => none
  | .fallbackLaunch .. => none
  | .watchdogExpiry .. => none
  | .deviceReset => none
  | .thermalLimit => none
  | .linkRateStep .. => none
  | .linkRetrainDone .. => none
  | .flitCrcRetry .. => none
  | .patrolScrub .. => none
  | .selfTestComplete .. => none
  | .peerWriteFrame .. => none
  | .peerAtomicFrame .. => none
  | .peerResponseFrame .. => none
  | .peerDigestFrame .. => none
  | .hostMemoryWrite .. => none
  | .hostMemoryRead .. => none
  | .hostRegisterWrite .. => none
  | .sqEnable .. => none
  | .sqDisable .. => none
  | .sqTailWrite .. => none
  | .sqRestart .. => none
  | .cancelLaunch .. => none
  | .cancelPhase .. => none
  | .cancelGraph .. => none
  | .cancelJob .. => none
  | .pstateWrite .. => none
  | .diegateSet .. => none
  | .dieGated .. => none
  | .diegateClear .. => none
  | .hbmsrSet .. => none
  | .hbmSelfRefreshEntry .. => none
  | .hbmsrClear .. => none
  | .powerOff => none
  | .dkcfgWrite .. => none
  | .coreFenceCmd .. => none
  | .coreUnfenceCmd .. => none
  | .selfTestStart .. => none
  | .bootSnow => none
  | .bootEnroll .. => none
  | .bootRevoke .. => none
  | .bootOwneronly => none
  | .bootReflash .. => none
  | .bootSetsvn => none
  | .attgo => none
  | .debugHaltreq .. => none
  | .debugResume .. => none
  | .debugAttach .. => none
  | .ringcfgWrite .. => none
  | .ringpush .. => none
  | .ringpop .. => none
  | .mouldgo .. => none
  | .pressgo .. => none
  | .peeraop .. => none
  | .mxmodeWrite .. => none
  | .vlWrite .. => none
  | .wqOpen => none
  | .wqClose => none
  | .wqReset => none
  | .wqRestart .. => none
  | .wqTailWrite .. => none
  | .replcmdCommit => none
  | .replcmdDiscard => none
  | .wdogWrite .. => none
  | .loadDataReturn .. => none
  | .storePerformed .. => none
  | .copyStart .. => none
  | .waitRequestArrival .. => none
  | .peerPortDown .. => none
  | .powerLoss => none
  | .msixVectorUnmask .. => none
  | .parkImageWriteDone .. => none

/-- Decode what the encoder writes, for context 1 and a bundle of one slot. -/
def decodeCoded : Coded → Except Cause Instr
  | .slot n w => decodeSlot true 5 n w
  | .micro w => decodeMicro w

/-! ## The words of the opcode table

A 32-bit word is an instruction of a slot, and the table gives its rows without the slot (03 R67 decodes a slot word
under the layouts of its slot only). The rows, the ones that fix most bits first, tell the slots of a word apart. -/

/-- Rows of the opcode table: mask, match, slot. -/
abbrev Rows := List (Nat × Nat × Nat)

/-- Rows of the opcode table, part 1. -/
def rows1 : Rows :=
  [(0xFFFFFFFF, 0x00000000, 0), (0xFFFFFFFF, 0x2C000000, 0), (0xFFFFFFFF, 0x30000000, 0), (0xFFFFFFFF, 0x288F8E8E, 6),
   (0xFFFFFFFF, 0x608F8E8E, 6), (0xFFFFFFFF, 0x688F8E8E, 6), (0xF87FFFFF, 0x20000000, 5), (0xFFFE01FF, 0x0C000000, 0),
   (0xFFFE01FF, 0x10000000, 0), (0xFFFE01FF, 0x14000000, 0), (0xFFFFFF00, 0x28000000, 0), (0xFFFFFF00, 0x34000000, 0),
   (0xFFFF00FF, 0x10000000, 5), (0xFFFF00FF, 0x38000000, 5), (0xFFFF00FF, 0x40000000, 5), (0xFFFF00FF, 0xA8000000, 5),
   (0xFFFF00FF, 0x108F008E, 6), (0xFFFF00FF, 0x648F008E, 6), (0xFFFF00FF, 0x908F008E, 6), (0xFFF000FF, 0x0850008E, 6),
   (0xFFFFF000, 0x0C8F5000, 6), (0xFF00FFF0, 0x88000000, 6), (0xFE0001FF, 0x4200008E, 1), (0xFE0001FF, 0x4400008E, 1),
   (0xFE0001FF, 0x4600008E, 1), (0xFE0001FF, 0x6A00008E, 1), (0xFE0001FF, 0x8A00008E, 1), (0xFF0000FF, 0xCD000000, 4),
   (0xFF00F0F0, 0xFC005000, 4), (0xFF0000FF, 0x0000008E, 6), (0xFF00FF00, 0x14008E00, 6), (0xFFFF0000, 0x188F0000, 6),
   (0xFF0000FF, 0x2000008E, 6), (0xFFFF0000, 0x248F0000, 6), (0xFF0000FF, 0x2C00008E, 6), (0xFFFF0000, 0x308F0000, 6),
   (0xFFFF0000, 0x6C8F0000, 6), (0xFFFF0000, 0x708F0000, 6), (0xFFFF0000, 0x748F0000, 6), (0xF80001FF, 0x00000000, 5)]

/-- Rows of the opcode table, part 2. -/
def rows2 : Rows :=
  [(0xFCFF0000, 0x548F0000, 6), (0xFC0000FF, 0x5800008E, 6), (0xFCFF0000, 0x5C8F0000, 6), (0xFF0000F0, 0xF4000000, 4),
   (0xFF0000F0, 0xF4000010, 4), (0xFF0000F0, 0xF4000020, 4), (0xFF0000F0, 0xF4000030, 4), (0xFF0000F0, 0xF4000040, 4),
   (0xFF0000F0, 0xF4000050, 4), (0xFF0000F0, 0xF8000000, 4), (0xFF0000F0, 0xFB000000, 4), (0xFF0000F0, 0xFD000000, 4),
   (0xF80000FE, 0x18000000, 5), (0xFFF00000, 0x28000000, 5), (0xFF00F000, 0x80000000, 6), (0xFF00F000, 0x84000000, 6),
   (0xF8001F00, 0x08000000, 5), (0xFF000000, 0x1C000000, 0), (0xFE000100, 0xA0000100, 1), (0xFF000000, 0xC0000000, 4),
   (0xFF000000, 0xC1000000, 4), (0xFF000000, 0xC2000000, 4), (0xFF000000, 0xC3000000, 4), (0xFF000000, 0xC4000000, 4),
   (0xFF000000, 0xC5000000, 4), (0xFF000000, 0xC6000000, 4), (0xFF000000, 0xC7000000, 4), (0xFF000000, 0xC8000000, 4),
   (0xFF000000, 0xC9000000, 4), (0xFF000000, 0xCA000000, 4), (0xFF000000, 0xCB000000, 4), (0xFF000000, 0xCC000000, 4),
   (0xFF000000, 0xF5000000, 4), (0xFF000000, 0xF6000000, 4), (0xFF000000, 0xF7000000, 4), (0xFF000000, 0xF9000000, 4),
   (0xFF000000, 0xFA000000, 4), (0xFF000000, 0x30000000, 5), (0xFF000000, 0x04000000, 6), (0xFF000000, 0x1C000000, 6)]

/-- Rows of the opcode table, part 3. -/
def rows3 : Rows :=
  [(0xFF000000, 0x8C000000, 6), (0xFE000000, 0x00000000, 1), (0xFE000000, 0x02000000, 1), (0xFE000000, 0x04000000, 1),
   (0xFE000000, 0x06000000, 1), (0xFE000000, 0x08000000, 1), (0xFE000000, 0x0A000000, 1), (0xFE000000, 0x0C000000, 1),
   (0xFE000000, 0x0E000000, 1), (0xFE000000, 0x10000000, 1), (0xFE000000, 0x12000000, 1), (0xFE000000, 0x14000000, 1),
   (0xFE000000, 0x16000000, 1), (0xFE000000, 0x18000000, 1), (0xFE000000, 0x1A000000, 1), (0xFE000000, 0x1C000000, 1),
   (0xFE000000, 0x1E000000, 1), (0xFE000000, 0x20000000, 1), (0xFE000000, 0x22000000, 1), (0xFE000000, 0x24000000, 1),
   (0xFE000000, 0x26000000, 1), (0xFE000000, 0x28000000, 1), (0xFE000000, 0x2A000000, 1), (0xFE000000, 0x2C000000, 1),
   (0xFE000000, 0x2E000000, 1), (0xFE000000, 0x30000000, 1), (0xFE000000, 0x32000000, 1), (0xFE000000, 0x34000000, 1),
   (0xFE000000, 0x36000000, 1), (0xFE000000, 0x38000000, 1), (0xFE000000, 0x3A000000, 1), (0xFE000000, 0x3C000000, 1),
   (0xFE000000, 0x3E000000, 1), (0xFE000000, 0x40000000, 1), (0xFE000000, 0x48000000, 1), (0xFE000000, 0x4A000000, 1),
   (0xFE000000, 0x4C000000, 1), (0xFE000000, 0x60000000, 1), (0xFE000000, 0x62000000, 1), (0xFE000000, 0x64000000, 1)]

/-- Rows of the opcode table, part 4. -/
def rows4 : Rows :=
  [(0xFE000000, 0x66000000, 1), (0xFE000000, 0x68000000, 1), (0xFE000000, 0x6C000000, 1), (0xFE000000, 0x6E000000, 1),
   (0xFE000000, 0x70000000, 1), (0xFE000000, 0x72000000, 1), (0xFE000000, 0x74000000, 1), (0xFE000000, 0x80000000, 1),
   (0xFE000000, 0x82000000, 1), (0xFE000000, 0x84000000, 1), (0xFE000000, 0x86000000, 1), (0xFE000000, 0x88000000, 1),
   (0xFE000000, 0x8C000000, 1), (0xFE000000, 0x8E000000, 1), (0xFE000000, 0x90000000, 1), (0xFE000000, 0x92000000, 1),
   (0xFE000000, 0x94000000, 1), (0xFE000000, 0x00000000, 3), (0xFE000000, 0x02000000, 3), (0xFE000000, 0x04000000, 3),
   (0xFE000000, 0x06000000, 3), (0xFE000000, 0x10000000, 3), (0xFE000000, 0x12000000, 3), (0xFE000000, 0x14000000, 3),
   (0xFE000000, 0x16000000, 3), (0xFE000000, 0x18000000, 3), (0xFE000000, 0x1A000000, 3), (0xFE000000, 0x1C000000, 3),
   (0xFE000000, 0x20000000, 3), (0xFE000000, 0x22000000, 3), (0xFE000000, 0x24000000, 3), (0xFE000000, 0x26000000, 3),
   (0xFE000000, 0x28000000, 3), (0xFE000000, 0x2A000000, 3), (0xFE000000, 0x2C000000, 3), (0xFE000000, 0x30000000, 3),
   (0xFE000000, 0x32000000, 3), (0xFE000000, 0x34000000, 3), (0xFE000000, 0x36000000, 3), (0xFE000000, 0x38000000, 3)]

/-- Rows of the opcode table, part 5. -/
def rows5 : Rows :=
  [(0xFE000000, 0x3A000000, 3), (0xFE000000, 0x3C000000, 3), (0xFE000000, 0x3E000000, 3), (0xFC000000, 0x04000000, 0),
   (0xFC000000, 0x08000000, 0), (0xFC000000, 0x18000000, 0), (0xFC000000, 0x20000000, 0), (0xFC000000, 0x24000000, 0),
   (0xFC000000, 0xD0000000, 4), (0xFC000000, 0xD4000000, 4), (0xFC000000, 0xD8000000, 4), (0xFC000000, 0xDC000000, 4),
   (0xFC000000, 0xF0000000, 4), (0xFC000000, 0x34000000, 6), (0xFC000000, 0x38000000, 6), (0xFC000000, 0x3C000000, 6),
   (0xFC000000, 0x40000000, 6), (0xFC000000, 0x44000000, 6), (0xFC000000, 0x48000000, 6), (0xFC000000, 0x4C000000, 6),
   (0xFC000000, 0x50000000, 6), (0xF8000000, 0x80000000, 5), (0xF8000000, 0x88000000, 5), (0xF8000000, 0x90000000, 5),
   (0xF8000000, 0x98000000, 5), (0xF8000000, 0xA0000000, 5), (0xF0000000, 0x00000000, 4), (0xF0000000, 0x10000000, 4),
   (0xF0000000, 0x20000000, 4), (0xF0000000, 0x30000000, 4), (0xF0000000, 0x40000000, 4), (0xF0000000, 0x50000000, 4),
   (0xF0000000, 0x60000000, 4), (0xF0000000, 0x70000000, 4), (0xF0000000, 0x80000000, 4), (0xF0000000, 0x90000000, 4),
   (0xF0000000, 0xA0000000, 4), (0xF0000000, 0xB0000000, 4), (0xF0000000, 0xE0000000, 4)]

/-- The first row that the word matches and whose slot decodes it: the slot and the instruction. -/
def firstRow (w : Nat) : Rows → Option (Nat × Instr)
  | [] => none
  | (mask, v, slot) :: rest =>
    if w &&& mask = v then
      match decodeSlot true 5 slot (BitVec.ofNat 32 w) with
      | .ok i => some (slot, i)
      | .error _ => firstRow w rest
    else firstRow w rest

/-- The slot and the instruction of a 32-bit word of the table. -/
def tableSlot (w : Nat) : Option (Nat × Instr) :=
  firstRow (w % 2 ^ 32) (rows1 ++ rows2 ++ rows3 ++ rows4 ++ rows5)

/-- The instruction this decoder reads from the bits w: a microword of 64 bits, or a slot word of 32 bits, whose slot is
that of the opcode-table row it matches. -/
def decodeTableWord (nbits w : Nat) : Option Instr :=
  if nbits = 64 then
    match decodeMicro (BitVec.ofNat 64 w) with
    | .ok i => some i
    | .error _ => none
  else (tableSlot w).map fun p => p.2

end Sys2Proof
end

