-- ==== Sys2Proof/Machine/State.lean ====
section
/-!
DEFINITION. The state of the machine as plain data: everything the spec gives the device (see INVENTORY.md, State), the
model's own fields (the agenda, the bundle in issue, the counter of free values), the faults and refusals, and the state
after reset.
-/
namespace Sys2Proof.Machine

/-- Why the model stops. -/
inductive Fault where
  /-- An event names an object the device does not have (a core from 384 on, a die, a queue, a port). Raised by the
  meanings of events. Safe: the device has no such object, so no event can name it. -/
  | noSuchObject (what : String)
  deriving DecidableEq, Repr

/-- Why the model gives no meaning. -/
inductive Refusal where
  /-- The instruction has no meaning yet. Raised by arms of exec only. Safe: nothing is proved of a refusal. -/
  | notModelled (mnemonic : String)
  deriving DecidableEq, Repr

/-! ## Contexts -/

/-- A loop-stack entry (01 R13). -/
structure LoopEnt where
  start : Word
  last : Word
  count : BitVec 32
  index : BitVec 32
  flex : Bool
  deriving DecidableEq, Repr

/-- What a sequencer does: nothing yet, issues bundles, waits for the end of its halt, has halted, was killed, stands in
debug state, has stopped for a switch (15 R329), is away. -/
inductive Run where
  | idle | running | halting | halted | killed | debug | switching
  deriving DecidableEq, Repr

/-- A place where a byte lives (09 R236): a core's scratchpad, an HBM stack, host memory, CXL memory, a peer. -/
inductive Place where
  | spad (core off : Nat)
  | hbm (die off : Nat)
  | host (addr : Nat)
  | cxl (addr : Nat)
  | peer (idx addr : Nat)
  deriving DecidableEq, Repr

/-- An entry for the violation log (13 R316). -/
structure Viol where
  ia : Nat
  asid : Nat
  gen : Nat
  cause : Cause
  acc : Nat
  msu : Nat
  core : Nat
  fw : Bool
  deriving DecidableEq, Repr

/-- A fault of an instruction: cause and trap value, and for a memory-side fault the violation to log (14 R317). -/
structure Trp where
  cause : Cause
  val : Word
  viol : Option Viol
  deriving DecidableEq, Repr

/-- A fault held against a context or queued for an absent one (07 R181, 15 R340). -/
structure Held where
  code : BitVec 8
  val : Word
  tick : Word
  deriving DecidableEq, Repr

/-- The kind of a result not yet written: a multi-cycle scalar operation, a load that does not hold its bundle, an access
that holds its bundle (01 R18, 04 R122, R123), the scalar of a VRED that waits for its assist (05 R131). -/
inductive PendKind where
  | scalar | load | held | assist
  deriving DecidableEq, Repr

/-- A result of an issued bundle that is not yet written (01 R18). -/
structure Pend where
  kind : PendKind
  dst : Dst
  val : Word
  flags : BitVec 5
  err : Option Trp
  deriving DecidableEq, Repr

/-- What a waiting instruction waits for (07 R180). -/
inductive WaitKind where
  | sem (need : Word)
  | bar (gen : BitVec 32)
  | tl (val : Word)
  | mon (held : Word)
  | tbar
  | deq (q : Nat)
  | enq (q : Nat) (item : List Word) (grans : List Nat)
  | sadv (q : Nat) (left : Nat)
  | room (timed : Bool) (engine : Nat)
  | phase
  | install
  deriving DecidableEq, Repr

/-- The wait of a context: the object, the slot word, when an MWAIT began and its ticks (07 R191), whether its request has been
sent, once it is served the result, the stream elements that its own operands took at issue, with their copies (R180; log 128), the
fault that its home has answered while a handler holds the wait back, and whether its results stand in their registers already (15 R339). -/
structure Wait where
  kind : WaitKind
  va : Word
  obj : Option Place
  word : BitVec 32
  deadline : Option (Word × Word)
  arrived : Bool
  served : Option (List Word)
  granted : Bool
  seq : Nat
  qs : List (Nat × Nat × Word)
  fault : Option Trp
  done : Bool
  deriving DecidableEq, Repr

/-- The checkpoint of a task region (07 R207). -/
structure Checkpoint where
  s : Tab Word
  p : BitVec 16
  loops : List LoopEnt
  rq : Tab (List Word)
  lat : Tab Word
  deriving DecidableEq, Repr

/-- An operation buffered in a region (07 R208): the slot word, its virtual and intermediate address, its operand, and
for an ENQ the queue, the item and, once its commit has read them, the granules (10 R266). -/
structure BufOp where
  word : BitVec 32
  va : Word
  ia : Nat
  opnd : Word
  queue : Nat
  item : List Word
  grans : Option (List Nat)
  deriving DecidableEq, Repr

/-- A task a context has dequeued and not ended (07 R207, 10 R272): its identifier, queue, item, and its entry in the
dependence table. -/
structure TaskRef where
  tid : BitVec 48
  queue : Nat
  item : List Word
  ent : Option Nat
  deriving DecidableEq, Repr

/-- An open task region (07 R207, 10 R269): its task, its TBEGIN bundle, live-in mask, checkpoint, the renamed granules (write
granule IAs, IA of slot 0, slot bytes and masks), its stores in program order (09 R253), the buffered operations, and the copies
issued inside it. -/
structure Region where
  task : TaskRef
  beginPc : Word
  live : BitVec 256
  chk : Checkpoint
  reads : List Nat
  writes : List Nat
  ren : Nat
  slots : Tab Mem
  masks : Tab Mem
  log : List (Nat × List Byte)
  ops : List BufOp
  copies : List Nat
  aborted : Option Trp
  deriving DecidableEq, Repr

/-- The trap registers of one level (14 R319): LSTK word w of entry j at 4 j + w. -/
structure TrapLevel where
  cause : Word
  epc : Word
  tval : Word
  tscr : Word
  lstk : Tab Word
  deriving DecidableEq, Repr

/-- A FENCE whose effect still stands (07 R205): the classes it holds back, the engine threads, the remote atomics, the
routine call and the translation-invalidate request it waits for, and whether the scalar data cache (09 R245) and the lines
of the instruction cache (07 R205) are invalidated at its end. -/
structure FenceMark where
  succ : BitVec 8
  threads : List Nat
  tags : List Nat
  call : Option Word
  xlat : Option Word
  inval : Bool
  ifetch : Bool
  deriving DecidableEq, Repr

/-- A store or A event in a sequencer's store queue (09 R243): the core and offset of the scratchpad bytes it writes. -/
structure StoreEnt where
  core : Nat
  off : Nat
  data : List Byte
  deriving DecidableEq, Repr

/-- A stream register (07 R188): the copy bound to it, whether that copy is complete, and the FIFO, oldest first. -/
structure Stream where
  bound : Bool
  copy : Nat
  complete : Bool
  fifo : List Word
  deriving DecidableEq, Repr

/-- One hardware context (peerSt: its bundle's store to a peer waits for the answer with a tag, or has been answered; 09 R242): its registers, its streams (08 R235; log 127), sequencer, trap state, monitor, task, and what it still waits for. While a fault raised
in its absence is handled, waitKept holds the bundle that waited and its wait (15 R339, R340). -/
structure Ctx where
  s : Tab Word
  p : BitVec 16
  lat : Tab Word
  rq : Tab (List Word)
  q : Tab Stream
  pc : Word
  loops : List LoopEnt
  run : Run
  ranges : Tab Word
  fflags : BitVec 5
  yieldSkip : Word
  vl : Word
  rngSeed : Word
  rngCtr : Word
  geocfg : Bool
  cpySeq : Word
  monStat : Word
  monVal : Word
  asid : Nat
  lcid : Word
  cores : Word
  liveBase : Word
  detStat : Word
  tvec : Word
  tsave : Word
  level : Nat
  park1 : Bool
  park2 : Bool
  regSusp : Bool
  abortPend : Bool
  l1 : TrapLevel
  l2 : TrapLevel
  killRec : Word
  held : List Held
  heldLost : Bool
  absent : List Held
  absentHeld : Nat
  absentLost : Bool
  pend : List Pend
  resp : Option Trp
  peerSt : Option (Option Nat)
  storeq : List StoreEnt
  fences : List FenceMark
  wait : Option Wait
  waitKept : Option (Word × Wait)
  assist : Bool
  tasks : List TaskRef
  taskReq : Bool
  taskDrop : Bool
  region : Option Region
  tbarIssued : Nat
  tbarDone : Nat
  remoteSince : Bool
  owner : Option (Nat × Nat)
  deriving DecidableEq, Repr

/-! ## The core -/

/-- A routine directory entry (06 R154). -/
structure DirEnt where
  valid : Bool
  start : Nat
  len : Nat
  deriving DecidableEq, Repr

/-- A loop entry of an open routine (06 R156). -/
structure ULoop where
  start : Nat
  last : Nat
  count : Nat
  index : Nat
  deriving DecidableEq, Repr

/-- The open routine (06 R156, R166). -/
structure Routine where
  call : Word
  fw : Bool
  owner : Owner
  routine : Nat
  pc : Nat
  bank : Nat
  pbase : Nat
  flex : Bool
  mode : Word
  m : Tab Word
  loops : List ULoop
  deriving DecidableEq, Repr

/-- The matrix unit (06): mode, call counter, tags, store, directory, the open routine, the faults held against calls
(issuing context, call number, cause), the image being written (context, and the trap level whose park flag it sets, 0 for none), and who opened
the routines that images hold (06 R166 keeps only their call numbers; log 33). -/
structure MxUnit where
  mode : Word
  seq : Word
  tags : Tab Nat
  acc : Tab Mem
  store : Tab Word
  dir : Tab DirEnt
  rt : Option Routine
  held : List (Bool × Word × BitVec 8)
  parkBusy : Option (Bool × Nat)
  parked : List (Word × Bool × Owner)
  deriving DecidableEq, Repr

/-- A predicate at work in the EPU (06 R169): issuing context, result bytes with their register, destination, count. -/
structure EpuOp where
  fw : Bool
  vd : Nat
  res : List Byte
  dst : Dst
  count : Word
  deriving DecidableEq, Repr

/-- A drain of a stream under way (05 R148): stream, destination register, element bytes, elements wanted and taken. -/
structure Drain where
  q : Nat
  vd : Nat
  w : Nat
  want : Nat
  got : Nat
  deriving DecidableEq, Repr

/-- A vector or readout operation not yet complete (05 R130): issuing context, the flags it sets, whether it waits for an
assist and whether that is requested (02 R48), the elements marked for the assist with the bytes the routine will write
(register, byte offset, bytes), a drain of a stream, the v registers that stay write-busy (01 R19), and whether the matrix unit works on
it rather than the vector unit (06 R149). -/
structure VOp where
  fw : Bool
  flags : BitVec 5
  assist : Bool
  queued : Bool
  marks : List (Nat × Nat × List Byte)
  drain : Option Drain
  vds : List Nat
  mx : Bool
  deriving DecidableEq, Repr

/-- A ring's counts and lent items (08 R222, R227): item count and bytes, and whether a producer asks for a lent slot. -/
structure RingSt where
  w : BitVec 32
  r : BitVec 32
  stop : Bool
  lent : List (Nat × List Byte)
  granted : Bool
  deriving DecidableEq, Repr

/-- Who an own-scratchpad or team-window address means when a command leaves the core: the issuing core with its epoch
and the members' cores with theirs (08 R214, 15 R335). -/
structure Resolve where
  self : Nat × Nat
  team : List (Nat × Nat)
  deriving DecidableEq, Repr

/-- A diversion entry, with the capacity of its felt image (15 R335, R337): state 0 FREE, 1 DIVERT, 2 HOLD, 3 FORWARD. -/
structure DivEnt where
  epoch : Nat
  state : Nat
  newCore : Nat
  newEpoch : Nat
  felt : Nat
  flog : Nat
  deriving DecidableEq, Repr

/-- The shadow bank: what the next launch gives context 0 (12 R288). -/
structure Shadow where
  launch : Nat
  lcid : Nat
  asid : Nat
  s : Tab Word
  ranges : Tab Word
  entry : Word
  cores : Word
  team : Word
  liveBase : Word
  rngSeed : Word
  rngCtr : Word
  bfmt : List (Nat × Nat)
  detStat : Word
  deriving DecidableEq, Repr

/-- What a candidate is: a launch of another user context, or a suspended team (12 R296). -/
inductive CandKind where
  | launch (sh : Shadow)
  | team (launch team : Nat)
  deriving DecidableEq, Repr

/-- An entry of a core's candidate list (12 R296). -/
structure Cand where
  what : CandKind
  rank : Nat
  passed : Nat
  deriving DecidableEq, Repr

/-- A translation-invalidate request (07 R212). -/
structure XReq where
  num : Word
  asid : Nat
  page : Word
  deriving DecidableEq, Repr

/-- Deckle's state of one core and its flash entry (19 R385, R389): step, floors, counts, the state ACTIVE 0, FENCEPEND 1,
FENCED 2, and the two flash copies as lists of words. -/
structure Margin where
  step : Nat
  floor : Nat
  floor0 : Nat
  cleanRun : Nat
  wrep : Nat
  probe : Option Nat
  hold : Bool
  overs : Nat
  retired : Nat
  isOver : Bool
  dirty : Bool
  row0 : Nat
  row1 : Nat
  half : Nat
  settle : Option Word
  four0 : Bool
  four1 : Bool
  total : Nat
  state : Nat
  reason : Nat
  age : Nat
  hours : Nat
  hoursTick : Word
  raises : Nat
  seq : Nat
  lastWrite : Word
  copyA : List Word
  copyB : List Word
  unfence : Bool
  lastRas : Option Nat
  deriving DecidableEq, Repr

/-- The debug block of a core (20 R399); STOPPED is that context 0 is in debug state. -/
structure Debug where
  attach : Bool
  haltReq : Bool
  code : BitVec 8
  deriving DecidableEq, Repr

/-- A liveness descriptor as the save engine uses it (15 R330, R331): its index, whether the member waits, whether it is the full one,
and its sixteen words. -/
structure Desc where
  index : Nat
  wait : Bool
  full : Bool
  words : List Word
  deriving DecidableEq, Repr

/-- One physical core. A switch under way that its context 0 is to join is switchTo; stop says how context 0 has stopped for it:
at a switch point with a descriptor, or in a wait (15 R328). -/
structure Core where
  c0 : Ctx
  c1 : Ctx
  m : Tab Word
  v : Tab Mem
  spad : Mem
  mx : MxUnit
  bfmt : Tab Nat
  teamCfg : Word
  ringCfg : Tab Word
  ring : Tab RingSt
  vops : List VOp
  epu : Option EpuOp
  dcache : Tab (List Byte)
  icache : Tab (List Byte)
  taskRen : Word
  xlatSeq : Word
  xlatDone : Word
  xlatReqs : List XReq
  fwShare : Nat
  fwCount : Nat
  winPos : Nat
  ilimit : Nat
  weights : List Nat
  freezeCnt : Word
  replayCnt : Word
  cycles : Word
  swimg : Word
  epoch : Nat
  closed : Bool
  divs : List DivEnt
  divSel : Word
  wqSel : Word
  slice : Word
  used : Nat
  cands : List Cand
  shadow : Option Shadow
  switchTo : Bool
  stop : Option Desc
  wdt : Nat
  wdogTick : Word
  wdogFed : Bool
  assistQ : List Nat
  margin : Margin
  dbg : Debug
  deriving DecidableEq, Repr

/-! ## Engines and the device -/

/-- The kind of a copy (07 R184, R188). -/
inductive CopyKind where
  | cpy
  | cpyt (tick : Word)
  | sbind (q : Nat)
  deriving DecidableEq, Repr

/-- Where a copy stands: queued, in the timed buffer, moving, stopped, or waiting for the answers of a peer. -/
inductive CopySt where
  | queued | timed | active | failed (t : Trp)
  deriving DecidableEq, Repr

/-- A copy in flight: its captured layout record, address mapping, owner and progress (07 R182 to R187). -/
structure Copy where
  id : Nat
  kind : CopyKind
  st : CopySt
  owner : Owner
  core : Nat
  fw : Bool
  asid : Nat
  seq : Word
  desc : List Word
  srcDelta : Word
  dstDelta : Word
  stampIa : Option Nat
  barIa : Option Nat
  res : Resolve
  moved : Nat
  beatsDone : Nat
  inRegion : Bool
  waitTags : Nat
  deriving DecidableEq, Repr

/-- A Mould or Press subscription (08 R229 to R232). -/
structure Sub where
  id : Nat
  mould : Bool
  owner : Owner
  core : Nat
  fw : Bool
  asid : Nat
  desc : List Word
  addrDelta : Word
  scaleDelta : Word
  stampIa : Option Nat
  barIa : Option Nat
  res : Resolve
  tile : Nat
  whole : Nat
  err : Option Trp
  stopped : Bool
  beatsLeft : Nat
  owed : Nat
  waitTags : Nat
  deriving DecidableEq, Repr

/-- An access that reached a core's scratchpad with another epoch, or while the core was closed (15 R336). -/
inductive ArrKind where
  | bytes (row : Nat) (mask : BitVec 64) (data : List Byte)
  | beats (off : Nat) (dec : Nat) (cerr : Bool)
  | push (ring : Nat) (count : Nat)
  deriving DecidableEq, Repr

/-- A diverted access on its way: the core and epoch it aims at, and the engine thread that makes it, which goes on once it has arrived;
0 for none (15 R337). -/
structure Arrival where
  core : Nat
  epoch : Nat
  thread : Nat
  kind : ArrKind
  deriving DecidableEq, Repr

/-- A wait request at its object's home, in arrival order (07 R180, R192); kept for one that a context holds back while it handles a
fault of its absence (15 R339). -/
structure Waiter where
  who : Owner
  obj : Option Place
  kind : WaitKind
  asid : Nat
  det : Bool
  kept : Bool
  deriving DecidableEq, Repr

/-- A cached translation of an MSU (13 R303, R311): first IA, span, where its first leaf lies, and its leaf, or the 32 leaves of a group
that is one 2 MiB translation. The list lineMaps of the device holds those through which lines have reached a scalar data cache since
their last invalidation (13 R312). -/
structure TlbEnt where
  asid : Nat
  msu : Nat
  base : Nat
  span : Nat
  leaves : List Word
  die : Nat
  off : Nat
  deriving DecidableEq, Repr

/-- A table entry of level 0 or 1 that an MSU caches (13 R311): first IA, span, and the entry, a pointer to the next table. -/
structure TabEnt where
  asid : Nat
  msu : Nat
  lvl : Nat
  base : Nat
  span : Nat
  entry : Word
  deriving DecidableEq, Repr

/-- An item of a work queue (10 R265): its words, its dependence-table entry, whether it is never ready, and the address
space and page whose invalidation it waits for after an abort (13 R314). -/
structure QItem where
  words : List Word
  ent : Option Nat
  bad : Bool
  hold : Option (Nat × Nat)
  deriving DecidableEq, Repr

/-- A device work queue (12 R294): state 0 OFF, 1 OPEN, 2 CLOSED, 3 ERROR. -/
structure WQ where
  cfg : Word
  head : BitVec 32
  tail : BitVec 32
  state : Nat
  prev : Nat
  items : List QItem
  requeue : List QItem
  deriving DecidableEq, Repr

/-- A registered task of a die's dependence table (10 R267): state 0 queued, 1 taken, 2 committing. -/
structure TdtEnt where
  id : Nat
  die : Nat
  queue : Nat
  tid : BitVec 48
  reads : List Nat
  writes : List Nat
  asid : Nat
  size : Nat
  st : Nat
  noEdges : Bool
  deriving DecidableEq, Repr

/-- The commit of a region (09 R253): its stores (IA and bytes, in program order), its buffered operations, its entry; det for the ENQs
of a phase's task that found no room at TEND (16 R349). -/
structure Commit where
  id : Nat
  owner : Owner
  core : Nat
  fw : Bool
  asid : Nat
  ent : Option Nat
  queue : Nat
  stores : List (Nat × List Byte)
  ops : List BufOp
  ranges : Tab Word
  res : Resolve
  det : Bool
  deriving DecidableEq, Repr

/-- A submission queue (12 R279): state 0 OFF, 1 RUN, 2 ERROR, 3 WAIT. -/
structure SQ where
  base : Word
  cfg : Word
  tail : BitVec 32
  head : BitVec 32
  next : BitVec 32
  badIdx : BitVec 32
  tailErr : Bool
  cause : BitVec 8
  state : Nat
  passed : Nat
  deriving DecidableEq, Repr

/-- Where a worker of a launch is (12 R289): not placed, in a core's shadow bank or candidate list, running or halted on a
core, suspended with its team, retired (from the core and epoch it last stood on; 08 R221, log 130). -/
inductive WorkerAt where
  | none
  | waiting (core : Nat)
  | on (core : Nat)
  | suspended
  | retired (stood : Option (Nat × Nat))
  deriving DecidableEq, Repr

/-- A launch the command processor has taken, or that a cancel has retired before it was (12 R278, R282, R291: ahead while the
command processor has not passed its records; graphCancelled where the cancel named its graph or job), with the die that each
worker is placed from (12 R287) and the cores that its workers have run on (19 R386). -/
structure Launch where
  key : Nat
  sq : Nat
  idx : BitVec 32
  nrec : Nat
  head : List Word
  asid : Nat
  rank : Nat
  seed : Word
  ctr : Word
  start : Option Word
  faults : Nat
  killed : Bool
  killedTeams : List Nat
  cancelled : Bool
  graphCancelled : Bool
  ahead : Bool
  fallback : Bool
  workers : Tab WorkerAt
  dies : Tab Nat
  ranOn : List Nat
  retired : Bool
  recorded : Bool
  digest : List Byte
  deriving DecidableEq, Repr

/-- A member of a team that is being switched out or is away (15 R329, R341): its launch and index, its save image, the core
and epoch it last had, its context's registers and streams, its rings with their lent items, the pushes that each had had when it was
suspended (R338), and its bank formats. -/
structure SuspMember where
  launch : Nat
  lcid : Nat
  swimg : Word
  core : Nat
  epoch : Nat
  kept : Ctx
  ringCfg : Tab Word
  ringLent : Tab RingSt
  pushed : Tab (BitVec 32)
  bfmt : Tab Nat
  deriving DecidableEq, Repr

/-- A team being switched out or away (15 R329, R341, R343): the members whose images are written, whether its cores have been
handed over, whether it has been killed or cancelled, the candidate that its member 0's core is to take, and once it is picked
the index and the core of each member that resumes; back holds the members restored, whose lent items still have to move. -/
structure Susp where
  launch : Nat
  team : Nat
  rank : Nat
  away : Bool
  dead : Bool
  pick : Option CandKind
  targets : List (Nat × Nat)
  members : List SuspMember
  back : List SuspMember
  deriving DecidableEq, Repr

/-- A logged task of a deterministic phase (16 R349): its written granules (IA, mask, bytes) and its operations. -/
structure LogTask where
  tid : BitVec 48
  asid : Nat
  owner : Owner
  core : Nat
  grans : List (Nat × Mem × Mem)
  ops : List BufOp
  ranges : Tab Word
  res : Resolve
  deriving DecidableEq, Repr

/-- The open deterministic phase (16): its header, launches, log, marks, digests of its runs, once it is stopped its
status, the status and digest of its report, the first entry of each launch of its first run, and what a rerun restores. -/
structure Phase where
  sq : Nat
  begun : Bool
  hdr : Word
  launches : List Nat
  log : List LogTask
  logBytes : Nat
  traffic : List (Nat × Bool × List Word)
  overflow : Bool
  cancelled : Bool
  run : Nat
  digest1 : List Byte
  sentAt : Option Word
  start : Word
  stopped : Option Nat
  report : Option (Nat × List Byte)
  starts : List (BitVec 32 × Word)
  queues : Tab WQ
  tdt : List TdtEnt
  outside : List (Nat × QItem)
  deriving DecidableEq, Repr

/-- What a peer's answer completes (18 R374, R375): a row of a copy or subscription at an intermediate address, a store of the device, a
scalar store whose bundle is held (09 R242), or a remote atomic (its owner, the addresses of result and stamp, sequence number, signed width). -/
inductive PeerFor where
  | copy (id ia : Nat)
  | sub (id ia : Nat)
  | store
  | scalar (owner : Owner) (va : Word)
  | aop (owner : Owner) (core : Nat) (fw : Bool) (asid : Nat) (resultIa stampIa : Option Nat) (seq : Word) (mod_ : BitVec 2)
      (res : Resolve)
  deriving DecidableEq, Repr

/-- A request sent to a peer and not yet answered. -/
structure PeerReq where
  tag : Nat
  port : Nat
  for_ : PeerFor
  deriving DecidableEq, Repr

/-- A link (18 R367): rate in steps 0 to 3, whether a retraining window is open, training failures in a row, down. -/
structure Link where
  rate : Nat
  training : Bool
  fails : Nat
  down : Bool
  deriving DecidableEq, Repr

/-- The power registers and what they command (18 R376). -/
structure Power where
  pstate : BitVec 2
  dieGate : BitVec 8
  gated : BitVec 8
  hbmSr : BitVec 16
  inSr : BitVec 16
  off : Bool
  deriving DecidableEq, Repr

/-- An owner slot of the fuses (20 R401). -/
structure KeySlot where
  hash : List Byte
  enrolled : Bool
  revoked : Bool
  deriving DecidableEq, Repr

/-- Fuses and flash (20 R401). -/
structure Trust where
  vendor : List Byte
  slots : Tab KeySlot
  ownerOnly : Bool
  svn : Nat
  main : List Byte
  snow : List Byte
  refused : Bool
  fallback : Bool
  image : Nat
  status : Nat
  snowReq : Bool
  meas0 : List Byte
  meas1 : List Byte
  meas2 : List Byte
  meas3 : List Byte
  nonce : Tab Word
  attDst : Word
  deriving DecidableEq, Repr

/-- A log ring of 32-byte entries in HBM (13 R316, 20 R398): the base register, tail, head, entries dropped. -/
structure Log where
  base : Word
  tail : BitVec 32
  head : BitVec 32
  lost : Word
  deriving DecidableEq, Repr

/-- Routing tables (13 R304, R305): the two interleave tables and the region table. -/
structure Routes where
  itab0 : Word
  itab1 : Word
  rt : Tab Nat
  deriving DecidableEq, Repr

/-- How a write to host or CXL memory leaves the device (18 R371): as a PCIe request of port 0 or of port 1, or as a CXL.io request of
port 1. -/
inductive LinkReq where
  | pcie0 | pcie1 | cxlIo
  deriving DecidableEq, Repr

/-- What leaves the device: an MSI-X message, a peer frame, bytes a host read returns, a write on the host or CXL link
(log 9). -/
inductive OutMsg where
  | msix (vec : Nat)
  | frame (port : Nat) (hdr : List Word) (payload : List Byte)
  | readData (data : List Byte)
  | linkWrite (req : LinkReq) (addr : Nat) (data : List Byte)
  deriving DecidableEq, Repr

/-- The phase that a submission queue is in (12 R278, R286): its queue, whether it is deterministic, and once its LASTP launch
has been taken that launch's head. -/
structure QPhase where
  sq : Nat
  det : Bool
  last : Option (List Word)
  deriving DecidableEq, Repr

/-- The whole device; lentQ holds the requests for lent slots in arrival order (08 R227): core, epoch, ring. -/
structure Mach where
  time : Word
  cores : Tab Core
  hbm : Tab Mem
  hostMem : Mem
  cxlMem : Mem
  pool : Tab Mem
  lentUsed : Tab Nat
  lentQ : List (Nat × Nat × Nat)
  rootBase : Word
  rtSel : Nat
  staged : Routes
  routes : Routes
  gen : Nat
  genBusy : Bool
  tlb : List TlbEnt
  tabs : List TabEnt
  lineMaps : List TlbEnt
  dieReset : BitVec 16
  vl : Log
  el : Log
  copies : List Copy
  subs : List Sub
  commits : List Commit
  arrivals : List Arrival
  heldArr : List Arrival
  requests : List Waiter
  waiters : List Waiter
  wq : Tab WQ
  tdt : List TdtEnt
  sq : Tab SQ
  launches : List Launch
  susp : List Susp
  lrBase : Word
  lrLog : Nat
  lrTail : BitVec 32
  lrHead : BitVec 32
  phase : Option Phase
  phaseRec : List QPhase
  heard : List (List Byte)
  detBuf : Word
  replCfg : Word
  nextId : Nat
  power : Power
  links : Tab Link
  msixTab : Tab Word
  msixMask : BitVec 9
  msixPend : BitVec 9
  msixSent : BitVec 9
  peerMap : Tab Word
  devId : Nat
  portDown : BitVec 12
  peerReqs : List PeerReq
  nextTag : Nat
  dkcfg : Word
  scrub : Word
  scrubPos : Nat
  stFails : Nat
  stStatus : Nat
  stSkip : Bool
  stDies : BitVec 8
  trust : Trust
  out : List OutMsg
  nonce : Nat
  bad : List Place
  deriving DecidableEq, Repr

/-! ## The bundle in issue, and who moves next -/

/-- The bundle whose slots are being executed: core and context, the slot, its word, the bundle's address and the next
one's, the literal, and marks: a transfer was made, the bundle was abandoned, the memory side abandoned it, a fault to take after the effect,
uncorrectable data met by a vector read (05 R139), the descriptor and budget of a YIELD that is offered to the arbiter once the
bundle has retired (04 R107). -/
structure Issue where
  core : Nat
  fw : Bool
  slot : Nat
  word : BitVec 32
  addr : Word
  next : Word
  lit : BitVec 32
  xfer : Bool
  dead : Bool
  late : Bool
  after : Option Trp
  doom : Option Trp
  offer : Option (Nat × Nat)
  deriving DecidableEq, Repr

/-- A physical fault (20 R394, R395; log 30): a 64-byte row of HBM or SRAM that reads as uncorrectable, or reads well again; a
matrix step whose checksums fail twice (06 R159); a mismatch of a core's paired checker; a single error that a read corrects; a
second error in a word of a core's other SRAM, which a context's next bundle meets, as a vector operand where vec is set; one that the
open routine of a core meets; one that the home of a waiting request meets; a byte of a scratchpad or a stack, or an s register, that
changes and is not detected. -/
inductive Physical where
  | row (p : Place) (on : Bool)
  | checksum (core : Nat)
  | scu (core : Nat) (fw : Bool)
  | corrected (f : FailArray)
  | word (core : Nat) (fw vec : Bool) (f : FailArray)
  | mxWord (core : Nat) (f : FailArray)
  | homeWord (who : Owner)
  | silent (p : Place) (b : Byte)
  | silentReg (core : Nat) (fw : Bool) (n : Nat) (v : Word)
  deriving DecidableEq, Repr

/-- A move of the agenda: an event or slot instruction to take, a context to issue its next bundle, the matrix unit of a
core to run its next microword, elements of a copy to land, ticks to pass, a physical fault (log 4, log 30), the image of a
core's context 1 to start at an entry through range 0 (20 R402; log 3), an access through the data window of a debug block at an
offset of the context block (20 R399; log 117), a host read of the register at an offset of BAR0 or of BAR4 (18 R368), the servicing
of an MSI-X vector by the host (18 R370). -/
inductive Move where
  | event (i : Instr)
  | issue (core : Nat) (fw : Bool)
  | micro (core : Nat)
  | land (copy n : Nat)
  | ticks (n : Nat)
  | physical (p : Physical)
  | fwStart (core : Nat) (entry : Word) (range : List Word)
  | debugRead (core off : Nat)
  | debugWrite (core off : Nat) (val : Word)
  | hostRegRead (off : Nat)
  | serviced (vec : Nat)
  deriving DecidableEq, Repr

/-- The state of the model: the machine, the machine as the bundle in issue reads it, that bundle, and the plain data
that says who moves next. -/
structure State where
  m : Mach
  pre : Mach
  iss : Issue
  agenda : List Move
  cur : Nat
  tickStep : Nat
  deriving DecidableEq, Repr

/-! ## Reset -/

/-- A trap level that nothing has opened (14 R319). -/
def TrapLevel.reset : TrapLevel := { cause := 0, epc := 0, tval := 0, tscr := 0, lstk := Tab.empty }

/-- What range word i reads at reset: the LIMIT words hold 0xFFF (08 R215). -/
def rangeReset (i : Nat) : Word := if i % 4 = 1 then 0xFFF else 0

/-- A context at core reset (01 R10, 14 R319; the s registers and the pc: log 1). -/
def Ctx.reset : Ctx :=
  { s := Tab.empty, p := 1, lat := Tab.empty, rq := Tab.empty, q := Tab.empty, pc := 0, loops := [], run := .idle, ranges := Tab.empty,
    fflags := 0, yieldSkip := 0, vl := 0, rngSeed := 0, rngCtr := 0, geocfg := false, cpySeq := 0, monStat := 0,
    monVal := 0, asid := 0, lcid := 0, cores := 0, liveBase := 0, detStat := 0, tvec := 0, tsave := 0, level := 0,
    park1 := false, park2 := false, regSusp := false, abortPend := false, l1 := TrapLevel.reset, l2 := TrapLevel.reset,
    killRec := 0, held := [], heldLost := false, absent := [], absentHeld := 0, absentLost := false, pend := [],
    resp := none, peerSt := none, storeq := [], fences := [], wait := none, waitKept := none, assist := false, tasks := [],
    taskReq := false, taskDrop := false, region := none, tbarIssued := 0, tbarDone := 0, remoteSince := false,
    owner := none }

/-- An unbound stream (07 R188). -/
def Stream.reset : Stream := { bound := false, copy := 0, complete := false, fifo := [] }

/-- A directory entry after reset (06 R154). -/
def DirEnt.reset : DirEnt := { valid := false, start := 0, len := 0 }

/-- The reset value of MXMODE: plus-times, f32, f8p4 (06 R151). -/
def mxModeReset : Word := 0xA14

/-- The matrix unit after reset (06 R151 to R158). -/
def MxUnit.reset : MxUnit :=
  { mode := mxModeReset, seq := 0, tags := Tab.empty, acc := Tab.empty, store := Tab.empty, dir := Tab.empty,
    rt := none, held := [], parkBusy := none, parked := [] }

/-- A ring after reset (08 R222). -/
def RingSt.reset : RingSt := { w := 0, r := 0, stop := false, lent := [], granted := false }

/-- A diversion entry after reset (15 R335). -/
def DivEnt.reset : DivEnt := { epoch := 0, state := 0, newCore := 0, newEpoch := 0, felt := 0, flog := 0 }

/-- Deckle's state of a fresh part: no flash copy is good, the fuses hold floor 0 (19 R389; log 1). -/
def Margin.reset : Margin :=
  { step := 96, floor := 0, floor0 := 0, cleanRun := 0, wrep := 0, probe := none, hold := false, overs := 0,
    retired := 0, isOver := false, dirty := false, row0 := 0, row1 := 0, half := 0, settle := none, four0 := false,
    four1 := false, total := 0, state := 0, reason := 0, age := 0, hours := 0, hoursTick := 0, raises := 0, seq := 0, lastWrite := 0, copyA := [],
    copyB := [], unfence := false, lastRas := none }

/-- A core after reset. -/
def Core.reset : Core :=
  { c0 := Ctx.reset, c1 := Ctx.reset, m := Tab.empty, v := Tab.empty, spad := Mem.empty, mx := MxUnit.reset,
    bfmt := Tab.empty, teamCfg := 0, ringCfg := Tab.empty, ring := Tab.empty, vops := [], epu := none,
    dcache := Tab.empty, icache := Tab.empty, taskRen := 0, xlatSeq := 0, xlatDone := 0, xlatReqs := [], fwShare := 8, fwCount := 0,
    winPos := 0, ilimit := 0x1200, weights := [], freezeCnt := 0, replayCnt := 0, cycles := 0, swimg := 0, epoch := 0,
    closed := false, divs := [], divSel := 0, wqSel := 0, slice := 65536, used := 0, cands := [], shadow := none,
    switchTo := false, stop := none, wdt := 10000000, wdogTick := 0, wdogFed := false, assistQ := [], margin := Margin.reset,
    dbg := { attach := false, haltReq := false, code := 0 } }

/-- A work queue after reset: OFF, LOG 4 (12 R294). -/
def WQ.reset : WQ := { cfg := 4 <<< 42, head := 0, tail := 0, state := 0, prev := 0, items := [], requeue := [] }

/-- A submission queue after reset: OFF, LOGSIZE 4 (12 R279). -/
def SQ.reset : SQ :=
  { base := 0, cfg := 4, tail := 0, head := 0, next := 0, badIdx := 0, tailErr := false, cause := 0, state := 0,
    passed := 0 }

/-- A link after reset: full rate, trained (18 R367; log 1). -/
def Link.reset : Link := { rate := 3, training := false, fails := 0, down := false }

/-- The routing tables after reset: field f of an interleave table names die f; a region entry has DIE 0, SPREAD 4,
written as SPREAD × 16 + DIE (13 R304, R305). -/
def Routes.reset : Routes := { itab0 := 0xFEDCBA9876543210, itab1 := 0xFEDCBA9876543210, rt := Tab.empty }

/-- Fuses and flash of the part as the model names them: nothing enrolled, no image (20 R401; log 1). -/
def Trust.reset : Trust :=
  { vendor := [], slots := Tab.empty, ownerOnly := false, svn := 0, main := [], snow := [], refused := false,
    fallback := false, image := 0, status := 0, snowReq := false, meas0 := List.replicate 32 0,
    meas1 := List.replicate 32 0, meas2 := List.replicate 32 0, meas3 := List.replicate 32 0, nonce := Tab.empty,
    attDst := 0 }

/-- The device right after reset. -/
def Mach.reset : Mach :=
  { time := 0, cores := Tab.empty, hbm := Tab.empty, hostMem := Mem.empty, cxlMem := Mem.empty, pool := Tab.empty,
    lentUsed := Tab.empty, lentQ := [], rootBase := 0, rtSel := 0, staged := Routes.reset, routes := Routes.reset, gen := 0,
    genBusy := false, tlb := [], tabs := [], lineMaps := [], dieReset := 0, vl := { base := 6, tail := 0, head := 0, lost := 0 },
    el := { base := 8, tail := 0, head := 0, lost := 0 }, copies := [], subs := [], commits := [], arrivals := [],
    heldArr := [], requests := [], waiters := [], wq := Tab.empty, tdt := [], sq := Tab.empty,
    launches := [], susp := [], lrBase := 0, lrLog := 4, lrTail := 0, lrHead := 0, phase := none, phaseRec := [], heard := [],
    detBuf := 4, replCfg := 1000000, nextId := 1,
    power := { pstate := 0, dieGate := 0, gated := 0, hbmSr := 0, inSr := 0, off := false }, links := Tab.empty,
    msixTab := Tab.empty, msixMask := 0x1FF, msixPend := 0, msixSent := 0, peerMap := Tab.empty, devId := 0, portDown := 0, peerReqs := [], nextTag := 0,
    dkcfg := 0x1040006000, scrub := 0x118, scrubPos := 0, stFails := 0, stStatus := 0, stSkip := false, stDies := 0,
    trust := Trust.reset, out := [], nonce := 0, bad := [] }

/-- No bundle in issue. -/
def Issue.idle : Issue :=
  { core := 0, fw := false, slot := 0, word := 0, addr := 0, next := 0, lit := 0, xfer := false, dead := false,
    late := false, after := none, doom := none, offer := none }

/-- The machine right after reset: every register at the value the spec states, or at the value log 1 names; memory with
nothing listed; no program (log 3). -/
def State.reset : State :=
  { m := Mach.reset, pre := Mach.reset, iss := Issue.idle, agenda := [], cur := 0, tickStep := 1 }

end Sys2Proof.Machine
end

