-- ==== Sys2Proof/Machine/Mem.lean ====
section
/-!
DEFINITION. The containers of the state: reading and writing a sparse table and a sparse byte memory (a byte nothing has
written reads 0, log 2), and little-endian words (00 R4).
-/
namespace Sys2Proof

/-! ## Tables -/

/-- The value at key k of a list of pairs, d where none is listed. -/
def assocGet {α : Type} (d : α) (k : Nat) : List (Nat × α) → α
  | [] => d
  | (i, v) :: r => if i = k then v else assocGet d k r

/-- The list of pairs with v at key k, keys rising. -/
def assocPut {α : Type} (k : Nat) (v : α) : List (Nat × α) → List (Nat × α)
  | [] => [(k, v)]
  | (i, w) :: r => if k < i then (k, v) :: (i, w) :: r else if k = i then (k, v) :: r else (i, w) :: assocPut k v r

/-- What table t holds at key k; d is what an unlisted key reads as. -/
def Tab.get {α : Type} (t : Tab α) (d : α) (k : Nat) : α := assocGet d k t.l

/-- Table t with v at key k. -/
def Tab.put {α : Type} (t : Tab α) (k : Nat) (v : α) : Tab α := ⟨assocPut k v t.l⟩

/-- Table t with f applied at key k. -/
def Tab.upd {α : Type} (t : Tab α) (d : α) (k : Nat) (f : α → α) : Tab α := t.put k (f (t.get d k))

/-- Table t without the keys that p holds for. -/
def Tab.drop {α : Type} (t : Tab α) (p : Nat → Bool) : Tab α := ⟨t.l.filter fun e => !p e.1⟩

/-- The listed keys. -/
def Tab.keys {α : Type} (t : Tab α) : List Nat := t.l.map fun e => e.1

/-! ## Byte memories -/

/-- The cells from address a on. -/
def cellsFrom (a : Nat) : List Host.Cell → List Host.Cell
  | [] => []
  | (i, b) :: r => if i < a then cellsFrom a r else (i, b) :: r

/-- The cells below address a. -/
def cellsBelow (a : Nat) : List Host.Cell → List Host.Cell
  | [] => []
  | (i, b) :: r => if i < a then (i, b) :: cellsBelow a r else []

/-- n bytes from address a on, of cells that all lie at a or above. -/
def takeBytes : Nat → Nat → List Host.Cell → List Byte
  | 0, _, _ => []
  | n + 1, _, [] => 0 :: takeBytes n 0 []
  | n + 1, a, (i, b) :: r => if i = a then b :: takeBytes n (a + 1) r else 0 :: takeBytes n (a + 1) ((i, b) :: r)

/-- The cells of bytes laid from address a on; a byte 0 is not listed. -/
def cellsOf (a : Nat) : List Byte → List Host.Cell
  | [] => []
  | b :: r => if b = 0 then cellsOf (a + 1) r else (a, b) :: cellsOf (a + 1) r

/-- The byte at address a; 0 where nothing is listed (log 2). -/
def Mem.byte (m : Mem) (a : Nat) : Byte := assocGet 0 a m.cells

/-- n bytes from address a on. -/
def Mem.read (m : Mem) (a n : Nat) : List Byte := takeBytes n a (cellsFrom a m.cells)

/-- The memory with bytes laid from address a on. -/
def Mem.write (m : Mem) (a : Nat) (bs : List Byte) : Mem :=
  ⟨cellsBelow a m.cells ++ (cellsOf a bs ++ cellsFrom (a + bs.length) m.cells)⟩

/-- The part of a memory from address a, n bytes long, moved to address b: a sparse copy. -/
def Mem.slice (m : Mem) (a n b : Nat) : Mem :=
  ⟨(cellsBelow (a + n) (cellsFrom a m.cells)).map fun c => (c.1 - a + b, c.2)⟩

/-- The memory with n bytes from address a replaced by those that src holds from address 0. -/
def Mem.splice (m : Mem) (a n : Nat) (src : Mem) : Mem :=
  ⟨cellsBelow a m.cells ++ ((src.slice 0 n a).cells ++ cellsFrom (a + n) m.cells)⟩

/-- Cells whose addresses rise strictly from lo on, none holding 0. -/
def cellsWf : Nat → List Host.Cell → Bool
  | _, [] => true
  | lo, (i, b) :: r => decide (lo ≤ i) && b != 0 && cellsWf (i + 1) r

/-- The canonical form of a memory: addresses strictly rising, no byte 0 listed. -/
def Mem.wf (m : Mem) : Bool := cellsWf 0 m.cells

/-- Pairs whose keys rise strictly from lo on. -/
def assocWf {α : Type} : Nat → List (Nat × α) → Bool
  | _, [] => true
  | lo, (i, _) :: r => decide (lo ≤ i) && assocWf (i + 1) r

/-- The form of a table: keys strictly rising. -/
def Tab.wf {α : Type} (t : Tab α) : Bool := assocWf 0 t.l

/-! ## Little-endian words (00 R4) -/

/-- The number whose little-endian bytes are given. -/
def natOfBytes : List Byte → Nat
  | [] => 0
  | b :: r => b.toNat + 256 * natOfBytes r

/-- The n low bytes of a number, little-endian. -/
def bytesOfNat : Nat → Nat → List Byte
  | 0, _ => []
  | n + 1, x => BitVec.ofNat 8 x :: bytesOfNat n (x / 256)

/-- The word whose little-endian bytes are given. -/
def wordOfBytes (l : List Byte) : Word := BitVec.ofNat 64 (natOfBytes l)

/-- The n low bytes of a word. -/
def bytesOfWord (n : Nat) (w : Word) : List Byte := bytesOfNat n w.toNat

/-- The little-endian bytes of words. -/
def bytesOfWords : List Word → List Byte
  | [] => []
  | w :: r => bytesOfWord 8 w ++ bytesOfWords r

/-- The little-endian words of n words of bytes. -/
def wordsOfBytes : Nat → List Byte → List Word
  | 0, _ => []
  | n + 1, l => wordOfBytes (l.take 8) :: wordsOfBytes n (l.drop 8)

/-- Word i of a list, 0 where there is none. -/
def wordAt (l : List Word) (i : Nat) : Word := l.getD i 0

/-- The n-byte number at address a. -/
def Mem.num (m : Mem) (a n : Nat) : Nat := natOfBytes (m.read a n)

/-- The 64-bit word at address a. -/
def Mem.word (m : Mem) (a : Nat) : Word := wordOfBytes (m.read a 8)

/-- The memory with the n-byte number x at address a. -/
def Mem.setNum (m : Mem) (a n x : Nat) : Mem := m.write a (bytesOfNat n x)

/-- The memory with words laid from address a on. -/
def Mem.putWords (m : Mem) (a : Nat) (ws : List Word) : Mem := m.write a (bytesOfWords ws)

/-- Bits hi down to lo of a number. -/
def bits (x hi lo : Nat) : Nat := x / 2 ^ lo % 2 ^ (hi + 1 - lo)

/-- Bit i of a number. -/
def bitAt (x i : Nat) : Bool := x / 2 ^ i % 2 == 1

/-- The value of the low w bits of x read as a signed number. -/
def sgn (w x : Nat) : Int :=
  let y := x % 2 ^ w
  if 2 * y < 2 ^ w then y else (y : Int) - 2 ^ w

/-- The low w bits of a signed number. -/
def unsgn (w : Nat) (x : Int) : Nat := (x % (2 : Int) ^ w).toNat

/-- The low w bits of x, sign-extended to a word. -/
def sextW (w x : Nat) : Word := BitVec.ofInt 64 (sgn w x)

/-- A word of a natural number. -/
abbrev W (x : Nat) : Word := BitVec.ofNat 64 x

/-- The word as a signed number. -/
abbrev sw (x : Word) : Int := x.toInt

/-- One for true. -/
def b2n (b : Bool) : Nat := if b then 1 else 0

/-- One for true, as a word. -/
def b2w (b : Bool) : Word := if b then 1 else 0

/-- The numbers from a on, n of them. -/
def rangeFrom (a : Nat) : Nat → List Nat
  | 0 => []
  | n + 1 => a :: rangeFrom (a + 1) n

/-- The number of n, divided by d, rounded up. -/
def ceilDiv (n d : Nat) : Nat := (n + d - 1) / d

/-- Cut a list into pieces of k, the number of pieces given. -/
def chunks {α : Type} (k : Nat) : Nat → List α → List (List α)
  | 0, _ => []
  | n + 1, l => l.take k :: chunks k n (l.drop k)

end Sys2Proof
end

