-- ==== Sys2Proof/Machine/Access.lean ====
section
/-!
DEFINITION. Reaching the parts of the device: cores, contexts, queues and links by number, and the logs that the device
writes (13 R316, 20 R398) with their MSI-X vectors (18 R370).
-/
namespace Sys2Proof.Machine

/-! ## Cores and contexts -/

/-- Core c. -/
def Mach.core (m : Mach) (c : Nat) : Core := m.cores.get Core.reset c

/-- The device with core c replaced. -/
def Mach.setCore (m : Mach) (c : Nat) (k : Core) : Mach := { m with cores := m.cores.put c k }

/-- The device with f applied to core c. -/
def Mach.updCore (m : Mach) (c : Nat) (f : Core → Core) : Mach := m.setCore c (f (m.core c))

/-- Context 1 of a core if fw, else context 0. -/
def Core.ctx (k : Core) (fw : Bool) : Ctx := if fw then k.c1 else k.c0

/-- The core with a context replaced. -/
def Core.setCtx (k : Core) (fw : Bool) (x : Ctx) : Core := if fw then { k with c1 := x } else { k with c0 := x }

/-- A context of core c. -/
def Mach.ctx (m : Mach) (c : Nat) (fw : Bool) : Ctx := (m.core c).ctx fw

/-- The device with f applied to a context of core c. -/
def Mach.updCtx (m : Mach) (c : Nat) (fw : Bool) (f : Ctx → Ctx) : Mach :=
  m.updCore c fun k => k.setCtx fw (f (k.ctx fw))

/-- Stack d of the HBM. -/
def Mach.stack (m : Mach) (d : Nat) : Mem := m.hbm.get Mem.empty d

/-- The die, row and column of a core as the violation log and the error log give it: 48 die + 8 row + column. -/
def coreDie (c : Nat) : Nat := c / 48
/-- The row of a core in its die. -/
def coreRow (c : Nat) : Nat := c % 48 / 8
/-- The column of a core in its die. -/
def coreCol (c : Nat) : Nat := c % 8

/-- Work queue q. -/
def Mach.wqAt (m : Mach) (q : Nat) : WQ := m.wq.get WQ.reset q
/-- The device with f applied to work queue q. -/
def Mach.updWq (m : Mach) (q : Nat) (f : WQ → WQ) : Mach := { m with wq := m.wq.put q (f (m.wqAt q)) }
/-- Submission queue q. -/
def Mach.sqAt (m : Mach) (q : Nat) : SQ := m.sq.get SQ.reset q
/-- The device with f applied to submission queue q. -/
def Mach.updSq (m : Mach) (q : Nat) (f : SQ → SQ) : Mach := { m with sq := m.sq.put q (f (m.sqAt q)) }
/-- Link l. -/
def Mach.linkAt (m : Mach) (l : Nat) : Link := m.links.get Link.reset l
/-- The device with f applied to link l. -/
def Mach.updLink (m : Mach) (l : Nat) (f : Link → Link) : Mach := { m with links := m.links.put l (f (m.linkAt l)) }

/-- The launch of key k. -/
def Mach.launchOf (m : Mach) (k : Nat) : Option Launch := m.launches.find? fun l => l.key == k
/-- The device with f applied to the launch of key k. -/
def Mach.updLaunch (m : Mach) (k : Nat) (f : Launch → Launch) : Mach :=
  { m with launches := m.launches.map fun l => if l.key = k then f l else l }

/-- The core whose context 1 serves a queue: CP of SQCFG (12 R279); none where it names no core. -/
def SQ.cp (q : SQ) : Option Nat :=
  if bits q.cfg.toNat 13 11 < 6 then
    some (bits q.cfg.toNat 16 14 * 48 + bits q.cfg.toNat 13 11 * 8 + bits q.cfg.toNat 10 8)
  else none

/-- A deterministic phase is open: its first launch has started (16 R346). -/
def Mach.detOpen (m : Mach) : Bool :=
  match m.phase with
  | some ph => ph.begun
  | none => false

/-- Every core that some event has touched, with f applied. -/
def Mach.mapCores (m : Mach) (f : Core → Core) : Mach := { m with cores := ⟨m.cores.l.map fun e => (e.1, f e.2)⟩ }

/-- Where the worker lcid of a launch is. -/
def Launch.worker (l : Launch) (lcid : Nat) : WorkerAt := l.workers.get .none lcid

/-- The owner name of a context of core c: what its engine threads and requests carry (13 R298). -/
def Mach.ownerOf (m : Mach) (c : Nat) (fw : Bool) : Owner :=
  if fw then .fw c
  else
    match (m.ctx c false).owner with
    | some (l, i) => .worker l i
    | none => .bare c

/-- Where the context of an owner runs, as core and context 1 or 0; none while it is away. -/
def Mach.homeOf (m : Mach) : Owner → Option (Nat × Bool)
  | .fw c => some (c, true)
  | .past _ => none
  | .bare c => if (m.ctx c false).owner = none then some (c, false) else none
  | .worker l i =>
    match m.launchOf l with
    | none => none
    | some la =>
      match la.worker i with
      | .on c => if (m.ctx c false).owner = some (l, i) then some (c, false) else none
      | _ => none

/-- A fresh free value is taken by counting nonce on (log 8). -/
def Mach.tickNonce (m : Mach) : Mach := { m with nonce := m.nonce + 1 }

/-! ## What leaves the device -/

/-- A message to the outside (log 9): newest first. -/
def Mach.send (m : Mach) (o : OutMsg) : Mach := { m with out := o :: m.out }

/-- A bit of a mask of the nine vectors. -/
def vecBit (v : Nat) : BitVec 9 := BitVec.ofNat 9 (2 ^ v)

/-- An MSI-X event on a vector (18 R370): a masked vector records it; an unmasked one sends a message, unless one that has not been
serviced is out. -/
def Mach.msix (m : Mach) (v : Nat) : Mach :=
  if bitAt m.msixMask.toNat v then { m with msixPend := m.msixPend ||| vecBit v }
  else if bitAt m.msixSent.toNat v then m
  else Mach.send { m with msixSent := m.msixSent ||| vecBit v } (.msix v)

/-! ## HBM bytes and the log rings -/

/-- Bytes of stack d. -/
def Mach.hbmRead (m : Mach) (d off n : Nat) : List Byte := (m.stack d).read off n

/-- Bytes written into stack d. -/
def Mach.hbmWrite (m : Mach) (d off : Nat) (bs : List Byte) : Mach :=
  { m with hbm := m.hbm.put d ((m.stack d).write off bs) }

/-- Whether the stack of a base die answers: self-refresh gives MEM_HOME_OFF, reset MEM_HOME_RESET (13 R313). -/
def Mach.homeFault (m : Mach) (die : Nat) : Option Cause :=
  if bitAt m.power.inSr.toNat die then some .memHomeOff
  else if bitAt m.dieReset.toNat die then some .memHomeReset
  else none

/-- An entry added to a log ring: its words at the tail, or a count of entries dropped when the ring is full or its stack does not
answer (log 112). -/
def Mach.logPut (m : Mach) (lg : Log) (ws : List Word) : Mach × Log :=
  let b := lg.base.toNat
  let size := 2 ^ bits b 4 0
  if (lg.tail - lg.head).toNat ≥ size ∨ (m.homeFault (bits b 39 36)).isSome then (m, { lg with lost := lg.lost + 1 })
  else
    (m.hbmWrite (bits b 39 36) (bits b 35 12 * 4096 + 32 * (lg.tail.toNat % size)) (bytesOfWords ws),
     { lg with tail := lg.tail + 1 })

/-- An entry of the violation log, and its message (13 R316). -/
def Mach.logViol (m : Mach) (v : Viol) : Mach :=
  let (m1, lg) := m.logPut m.vl
    [m.time, W v.ia, W (v.asid * 2 ^ 50 + v.gen * 2 ^ 42 + v.cause.code * 2 ^ 34 + v.acc * 2 ^ 30 + v.msu * 2 ^ 26),
     W (b2n v.fw * 4096 + coreDie v.core * 512 + coreRow v.core * 64 + coreCol v.core * 8)]
  { m1 with vl := lg }.msix 1

/-- The kinds of an error-log entry (20 R398). -/
def kCorrected : Nat := 0
/-- An error detected. -/
def kDetected : Nat := 1
/-- A context killed. -/
def kKilled : Nat := 2
/-- A fault lost. -/
def kLost : Nat := 3

/-- What an error-log entry names beside its cause (20 R398). -/
structure ErrAt where
  addr : Nat := 0
  site : Nat := 0
  unit : Nat := 0
  array : Nat := 0
  row : Nat := 0
  fw : Bool := false
  loc : Nat := 0
  info : Word := 0
  deriving DecidableEq, Repr

/-- An entry of the error log, and its message (20 R398). -/
def Mach.logErr (m : Mach) (code : Nat) (kind : Nat) (e : ErrAt) : Mach :=
  let (m1, lg) := m.logPut m.el
    [m.time, W e.addr,
     W (code * 2 ^ 56 + kind * 2 ^ 54 + e.site * 2 ^ 50 + e.unit * 2 ^ 46 + e.array * 2 ^ 38 + e.row * 2 ^ 22 +
        b2n e.fw * 4096 + e.loc), e.info]
  { m1 with el := lg }.msix 0

/-- The CAUSE of an entry for which the spec names none: a free value among the causes that logs hold (14 R326; log 8). -/
def freeCause (n : Nat) : Nat := Cause.code (Cause.logged.getD ((Config.freeByte n).toNat % Cause.logged.length) .memUncorrectable)

/-- An access of the host, or of the device to a ring or report of the host's, to a stack that does not answer is entered in the
violation log (13 R313, 18 R379): it has no address space. -/
def Mach.stackFault (m : Mach) (die acc : Nat) (c : Cause) : Mach :=
  m.logViol { ia := 0, asid := 0, gen := m.gen, cause := c, acc := acc, msu := die, core := 0, fw := false }

/-- Bytes that the device writes at a physical place of a stack (12 R292, 20 R404): a stack that does not answer takes nothing. -/
def Mach.stackPut (m : Mach) (die off : Nat) (bs : List Byte) : Mach :=
  match m.homeFault die with
  | some c => m.stackFault die 1 c
  | none => m.hbmWrite die off bs

/-- A single error that a read has corrected is logged (20 R395, R397). -/
def Mach.logCorrected (m : Mach) (f : FailArray) : Mach :=
  m.tickNonce.logErr (freeCause m.nonce) kCorrected { site := f.site, unit := f.unit, array := f.array, row := f.row, loc := f.place }

/-- The replays in a row of a context's bundle start again at 0, and its four-period cycles end (19 R382). -/
def Margin.rowEnd (g : Margin) (fw : Bool) : Margin :=
  if fw then { g with row1 := 0, four1 := false } else { g with row0 := 0, four0 := false }

/-- A context of a core goes on at another bundle (19 R382). -/
def Mach.rowEnd (m : Mach) (c : Nat) (fw : Bool) : Mach := m.updCore c fun k => { k with margin := k.margin.rowEnd fw }

end Sys2Proof.Machine
end

