-- ==== Sys2Proof/Machine/Translate.lean ====
section
/-!
DEFINITION. Range registers (08 R214 to R217), address translation (13 R298 to R311), the homes of bytes (09 R236) and
plain accesses at a home.
-/
namespace Sys2Proof.Machine

/-! ## Range registers -/

/-- The kinds of access, as the violation log numbers them (13 R316), with the permission each needs. -/
inductive Acc where
  | load | store | atomic | fetch | copyRd | copyWr | mouldRd | pressWr | commitWr | mon
  deriving DecidableEq, Repr

/-- The ACC code of the violation log (13 R316); MON and the reads of MWAIT are logged as loads. -/
def Acc.code : Acc → Nat
  | .load => 0
  | .store => 1
  | .atomic => 2
  | .fetch => 3
  | .copyRd => 4
  | .copyWr => 5
  | .mouldRd => 6
  | .pressWr => 7
  | .commitWr => 8
  | .mon => 0

/-- Whether an access needs RD (13 R308). -/
def Acc.rd : Acc → Bool
  | .load => true
  | .atomic => true
  | .copyRd => true
  | .mouldRd => true
  | .mon => true
  | _ => false

/-- Whether an access needs W (13 R308). -/
def Acc.wr : Acc → Bool
  | .store => true
  | .atomic => true
  | .copyWr => true
  | .pressWr => true
  | .commitWr => true
  | _ => false

/-- What an intermediate address names (08 R214). -/
inductive Target where
  | mem (ia : Nat)
  | own (off : Nat)
  | team (member off : Nat)
  deriving DecidableEq, Repr

/-- Whether a target lies in the own scratchpad. -/
def Target.isOwn : Target → Bool
  | .own _ => true
  | _ => false

/-- The first own-scratchpad IA (08 R214). -/
def iaOwn : Nat := 0xFFF0000000000
/-- The first team-window IA (08 R214). -/
def iaTeam : Nat := 0xFFF0001000000
/-- The first IA past the team window (08 R214). -/
def iaTeamEnd : Nat := 0xFFF0003000000

/-- The class of an IA (08 R214): 0 memory, 1 own scratchpad, 2 team window, 3 none. -/
def iaClass (ia : Nat) : Nat :=
  if ia < iaOwn then 0
  else if ia < iaOwn + Config.spadBytes then 1
  else if iaTeam ≤ ia ∧ ia < iaTeamEnd then 2
  else 3

/-- What an IA names. -/
def iaTarget (ia : Nat) : Target :=
  match iaClass ia with
  | 1 => .own (ia - iaOwn)
  | 2 => .team ((ia - iaTeam) / 0x200000) ((ia - iaTeam) % 0x200000)
  | _ => .mem ia

/-- Word j of range register i. -/
def rangeWord (r : Tab Word) (i j : Nat) : Nat := (r.get (rangeReset j) (4 * i + j)).toNat

/-- Whether range i is valid and contains the n bytes at va (08 R217). -/
def rangeHas (r : Tab Word) (va n i : Nat) : Bool :=
  bitAt (rangeWord r i 3) 3 && decide (rangeWord r i 0 ≤ va) && decide (va + n ≤ rangeWord r i 1 + 1)

/-- The covering range of n bytes at va: the lowest-numbered valid range that contains them all (08 R217). -/
def covering (r : Tab Word) (va n : Nat) : Option Nat := (rangeFrom 0 8).find? fun i => rangeHas r va n i

/-- Whether range i gives the permissions asked for. -/
def rangeAllows (r : Tab Word) (i : Nat) (rd wr x : Bool) : Bool :=
  (!rd || bitAt (rangeWord r i 3) 0) && (!wr || bitAt (rangeWord r i 3) 1) && (!x || bitAt (rangeWord r i 3) 2)

/-- The IA of va under range i (08 R216). -/
def rangeIa (r : Tab Word) (i va : Nat) : Nat := rangeWord r i 2 + (va - rangeWord r i 0)

/-- The IA of n bytes at va, if a range covers them with the permissions asked for (08 R217). -/
def mapVa (r : Tab Word) (va n : Nat) (rd wr x : Bool) : Option Nat :=
  match covering r va n with
  | some i => if rangeAllows r i rd wr x then some (rangeIa r i va) else none
  | none => none

/-- SIZE of TEAMCFG (08 R221). -/
def Core.teamSize (k : Core) : Nat := bits k.teamCfg.toNat 8 4
/-- MEMBER of TEAMCFG (08 R221). -/
def Core.member (k : Core) : Nat := bits k.teamCfg.toNat 3 0

/-- The target of n bytes at va for a context of core c: MEM_RANGE, then MEM_TEAM_WINDOW (08 R217). -/
def Mach.mapAccess (m : Mach) (c : Nat) (fw : Bool) (va n : Nat) (rd wr : Bool) : Except Cause Target :=
  match mapVa (m.ctx c fw).ranges va n rd wr false with
  | none => .error .memRange
  | some ia =>
    match iaTarget ia with
    | .team mem off =>
      if mem < (m.core c).teamSize ∧ off + n ≤ Config.spadBytes then .ok (.team mem off) else .error .memTeamWindow
    | t => .ok t

/-! ## Team members -/

/-- The core and epoch that a worker whose team is being switched has left. -/
def Mach.stoodAt (m : Mach) (l i : Nat) : Option (Nat × Nat) :=
  ((m.susp.flatMap fun s => s.members).find? fun x => x.launch == l && x.lcid == i).map fun x => (x.core, x.epoch)

/-- The core and epoch of member j of the team of core c (08 R221): the core itself, or the core on which the launch's worker with the
member's logical index stands, or last stood (log 130). -/
def Mach.memberAt (m : Mach) (c j : Nat) : Option (Nat × Nat) :=
  let k := m.core c
  if j = k.member then some (c, k.epoch)
  else
    match k.c0.owner with
    | none => none
    | some (l, i) =>
      match m.launchOf l with
      | none => none
      | some la =>
        match la.worker (i - k.member + j) with
        | .on c' => some (c', (m.core c').epoch)
        | .waiting c' => some (c', (m.core c').epoch)
        | .retired p => p
        | .suspended => m.stoodAt l (i - k.member + j)
        | .none => none

/-- Who own-scratchpad and team-window addresses mean when a command leaves core c (08 R214). -/
def Mach.resolve (m : Mach) (c : Nat) : Resolve :=
  { self := (c, (m.core c).epoch),
    team := (rangeFrom 0 (m.core c).teamSize).map fun j => (m.memberAt c j).getD (c, (m.core c).epoch) }

/-- The core and epoch of a scratchpad target under a resolution. -/
def Resolve.of (r : Resolve) : Target → Option (Nat × Nat × Nat)
  | .own off => some (r.self.1, r.self.2, off)
  | .team j off =>
    match r.team[j]? with
    | some (c, e) => some (c, e, off)
    | none => none
  | .mem _ => none

/-! ## Page tables -/

/-- The 64-byte row a place lies in. -/
def Place.row : Place → Place
  | .spad c o => .spad c (o / 64 * 64)
  | .hbm d o => .hbm d (o / 64 * 64)
  | .host a => .host (a / 64 * 64)
  | .cxl a => .cxl (a / 64 * 64)
  | .peer i a => .peer i (a / 64 * 64)

/-- Whether the row of a place holds uncorrectable data (20 R395; log 30). -/
def Mach.badAt (m : Mach) (p : Place) : Bool := m.bad.contains p.row

/-- Whether n bytes from a on meet the row at o. -/
def rowMeets (o a n : Nat) : Bool := decide (o < a + n) && decide (a < o + 64)

/-- Whether some of n bytes at a place are uncorrectable. -/
def Mach.badIn (m : Mach) (p : Place) (n : Nat) : Bool :=
  m.bad.any fun r => match r, p with
    | .spad k o, .spad c a => k == c && rowMeets o a n
    | .hbm k o, .hbm d a => k == d && rowMeets o a n
    | .host o, .host a => rowMeets o a n
    | .cxl o, .cxl a => rowMeets o a n
    | _, _ => false

/-- Whether some of n bytes of a scratchpad are uncorrectable. -/
def Mach.badSpad (m : Mach) (c off n : Nat) : Bool := m.badIn (.spad c off) n

/-- The fault of a page table entry at a level (13 R302); none for a good table pointer or leaf. -/
def pteFault (lvl e : Nat) : Option Cause :=
  let ty := bits e 3 2
  if !bitAt e 0 then some .memPageNotPresent
  else if bitAt e 63 || bits e 53 48 != 0 || bits e 15 10 != 0 || bitAt e 1 then some .memXlatFormat
  else if ty = 3 ∨ (lvl = 0 ∧ ty ≠ 0) ∨ (lvl = 1 ∧ ty = 1) ∨ (lvl = 2 ∧ ty ≠ 1) then some .memXlatFormat
  else if ty = 0 then
    (if bits e 62 60 != 0 || bits e 55 54 != 0 || bits e 9 4 != 0 || bits e 47 36 != 0 then some .memXlatFormat else none)
  else
    let cls := bits e 55 54
    if (ty = 2 && bits e 28 16 != 0) || (bitAt e 5 && !bitAt e 4) || (bitAt e 7 && lvl = 1) ||
        (cls != 0 && bits e 62 60 != 0) || ((cls = 1 || cls = 2) && bits e 59 56 != 0) || bits e 62 60 = 7 ||
        (cls = 0 && bits e 47 36 != 0) || (cls = 3 && bits e 47 40 != 0) then some .memXlatFormat
    else none

/-- A leaf a walk reached: its value, the die and offset it lies at, the first IA it maps and the bytes it maps. -/
structure Leaf where
  val : Nat
  die : Nat
  off : Nat
  base : Nat
  span : Nat
  deriving DecidableEq, Repr

/-- An entry read at the MSU of a die. -/
def Mach.entryAt (m : Mach) (die off : Nat) : Except Cause Nat :=
  match m.homeFault die with
  | some c => .error c
  | none => if m.badAt (.hbm die off) then .error .memUncorrectable else .ok (natOfBytes (m.hbmRead die off 8))

/-- Whether the group of 32 level-2 entries around an entry forms one 2 MiB translation (13 R303). -/
def Mach.group2M (m : Mach) (die off : Nat) : Bool :=
  let g := off / 256 * 256
  let e (j : Nat) : Nat := natOfBytes (m.hbmRead die (g + 8 * j) 8)
  let frame (x : Nat) : Nat := bits x 47 16
  let rest (x : Nat) : Nat × Nat := (bits x 63 48, bits x 15 10 * 256 + bits x 7 0)
  decide (frame (e 0) % 32 = 0) &&
    (rangeFrom 0 32).all fun j =>
      (pteFault 2 (e j)).isNone && bitAt (e j) 7 && rest (e j) == rest (e 0) && frame (e j) == frame (e 0) + j

/-- The level-0 table of an address space (13 R299, R302): its die and offset. -/
def Mach.rootTable (m : Mach) (asid : Nat) : Except Cause (Nat × Nat) :=
  match m.entryAt (bits m.rootBase.toNat 3 0) (bits m.rootBase.toNat 35 17 * 2 ^ 17 + 8 * asid) with
  | .error c => .error c
  | .ok root =>
    if !bitAt root 0 then .error .memAsidInvalid
    else if bits root 63 36 != 0 || bits root 12 8 != 0 || bits root 3 1 != 0 then .error .memXlatFormat
    else .ok (bits root 7 4, bits root 35 13 * 2 ^ 13)

/-- An entry of a table at a level, without a fault of R302. -/
def Mach.goodEntry (m : Mach) (lvl die off : Nat) : Except Cause Nat :=
  match m.entryAt die off with
  | .error c => .error c
  | .ok e =>
    match pteFault lvl e with
    | some c => .error c
    | none => .ok e

/-- The table that a pointer names: its die and offset (13 R300, R301). -/
def tableOf (e : Nat) : Nat × Nat := (bits e 59 56, bits e 47 16 * 2 ^ 16)

/-- The level-0 entry of an IA. -/
def Mach.level0 (m : Mach) (asid ia : Nat) : Except Cause Nat :=
  match m.rootTable asid with
  | .error c => .error c
  | .ok t => m.goodEntry 0 t.1 (t.2 + 8 * bits ia 51 42)

/-- The level-1 entry of an IA under a level-0 entry: a pointer, or the leaf of a block. -/
def Mach.level1 (m : Mach) (e0 ia : Nat) : Except Cause (Sum Nat Leaf) :=
  let t := tableOf e0
  let off := t.2 + 8 * bits ia 41 29
  match m.goodEntry 1 t.1 off with
  | .error c => .error c
  | .ok e1 =>
    .ok (if bits e1 3 2 = 2 then .inr { val := e1, die := t.1, off := off, base := ia / 2 ^ 29 * 2 ^ 29, span := 2 ^ 29 } else .inl e1)

/-- The level-2 leaf of an IA under a level-1 pointer. -/
def Mach.level2 (m : Mach) (e1 ia : Nat) : Except Cause Leaf :=
  let t := tableOf e1
  let off := t.2 + 8 * bits ia 28 16
  match m.goodEntry 2 t.1 off with
  | .error c => .error c
  | .ok e2 => .ok { val := e2, die := t.1, off := off, base := ia / 2 ^ 16 * 2 ^ 16, span := 2 ^ 16 }

/-- The leaf of an IA under a level-0 pointer. -/
def Mach.below0 (m : Mach) (e0 ia : Nat) : Except Cause Leaf :=
  match m.level1 e0 ia with
  | .error c => .error c
  | .ok (.inr lf) => .ok lf
  | .ok (.inl e1) => m.level2 e1 ia

/-- The walk of an IA in an address space from its root (13 R299, R301, R302, R308). -/
def Mach.walk (m : Mach) (asid ia : Nat) : Except Cause Leaf :=
  match m.level0 asid ia with
  | .error c => .error c
  | .ok e0 => m.below0 e0 ia

/-- The region-table entry of an IA: SPREAD × 16 + DIE (13 R305). -/
def Mach.regionOf (m : Mach) (ia : Nat) : Nat := m.routes.rt.get 0x40 (bits ia 51 42)

/-- The translating MSU of an IA (13 R305). -/
def Mach.msuOf (m : Mach) (ia : Nat) : Nat :=
  let e := m.regionOf ia
  let k := e / 16
  (e % 16 + ia / 2 ^ 21 % 2 ^ k) % 16

/-- The home die of a granule (13 R304). -/
def Mach.homeDie (m : Mach) (home imode g : Nat) : Nat :=
  if imode = 0 then home
  else if imode ≤ 4 then home - home % 2 ^ imode + (home + g) % 2 ^ imode
  else bits (if imode = 5 then m.routes.itab0 else m.routes.itab1).toNat (4 * ((home + g) % 16) + 3) (4 * ((home + g) % 16))

/-- The physical place of an IA under a leaf (13 R300, R304). A page's address is FRAME with IA[15:0], a block's with
IA[28:0]. -/
def Mach.leafPlace (m : Mach) (lf : Leaf) (ia : Nat) : Place :=
  let low := if bits lf.val 3 2 = 2 then ia % 2 ^ 29 else ia % 2 ^ 16
  let addr := bits lf.val 47 16 * 2 ^ 16 + low
  match bits lf.val 55 54 with
  | 0 => .hbm (m.homeDie (bits lf.val 59 56) (bits lf.val 62 60) (bits ia 15 12)) addr
  | 1 => .host addr
  | 2 => .cxl addr
  | _ => .peer (bits lf.val 59 56) addr

/-- Whether a leaf gives an access its permissions (13 R308). -/
def leafAllows (acc : Acc) (v : Nat) : Bool :=
  (!acc.rd || bitAt v 4) && (!acc.wr || bitAt v 5) && (!(acc == .fetch) || bitAt v 6)

/-- The leaf with A, and for a write D, set (13 R309). -/
def leafTouched (acc : Acc) (v : Nat) : Nat := v ||| (if acc.wr then 0x300 else 0x100)

/-- The leaf of an IA that a cached translation holds (13 R303). -/
def TlbEnt.leafAt (t : TlbEnt) (ia : Nat) : Leaf :=
  match t.leaves with
  | [w] => { val := w.toNat, die := t.die, off := t.off, base := t.base, span := t.span }
  | l =>
    let j := (ia - t.base) / 2 ^ 16
    { val := (l.getD j 0).toNat, die := t.die, off := t.off + 8 * j, base := t.base + j * 2 ^ 16, span := 2 ^ 16 }

/-- Whether a cached translation of the MSU that translates an IA covers it. -/
def Mach.hits (m : Mach) (asid ia : Nat) (t : TlbEnt) : Bool :=
  t.asid == asid && t.msu == m.msuOf ia && decide (t.base ≤ ia) && decide (ia < t.base + t.span)

/-- A translation kept in its MSU's cache, in the place of one of the same span (13 R311). -/
def Mach.tlbAdd (m : Mach) (e : TlbEnt) : Mach :=
  { m with tlb := e :: m.tlb.filter fun t => !(t.asid == e.asid && t.msu == e.msu && t.base == e.base && t.span == e.span) }

/-- Two leaves of one entry that differ in A and D at most (13 R309). -/
def Leaf.alike (x y : Leaf) : Bool := { x with val := x.val ||| 0x300 } == { y with val := y.val ||| 0x300 }

/-- The leaf of page j of the group around a leaf, as a walk finds it, or as it is cached already with its A and D (13 R303, R309). -/
def Mach.groupLeaf (m : Mach) (asid : Nat) (lf : Leaf) (j : Nat) : Word :=
  let o := lf.off / 256 * 256 + 8 * j
  let b := lf.base / 2 ^ 21 * 2 ^ 21 + j * 2 ^ 16
  let l : Leaf := { val := natOfBytes (m.hbmRead lf.die o 8), die := lf.die, off := o, base := b, span := 2 ^ 16 }
  match m.tlb.find? (m.hits asid b) with
  | some t => if (t.leafAt b).alike l then W (t.leafAt b).val else W l.val
  | none => W l.val

/-- The translation that a walk to a leaf leaves in the MSU's cache: the whole group where it is one 2 MiB translation (13 R303). -/
def Mach.cached (m : Mach) (asid ia : Nat) (lf : Leaf) : TlbEnt :=
  if bits lf.val 3 2 = 1 && bitAt lf.val 7 && m.group2M lf.die lf.off then
    { asid := asid, msu := m.msuOf ia, base := lf.base / 2 ^ 21 * 2 ^ 21, span := 2 ^ 21,
      leaves := (rangeFrom 0 32).map (m.groupLeaf asid lf), die := lf.die, off := lf.off / 256 * 256 }
  else
    { asid := asid, msu := m.msuOf ia, base := lf.base, span := lf.span, leaves := [W lf.val], die := lf.die, off := lf.off }

/-- A cached translation with the leaf of an IA replaced: A and D set in the entry that the access falls in (13 R303, R309). -/
def TlbEnt.touch (t : TlbEnt) (ia v : Nat) : TlbEnt :=
  match t.leaves with
  | [_] => { t with leaves := [W v] }
  | l => { t with leaves := l.set ((ia - t.base) / 2 ^ 16) (W v) }

/-- A cached translation dropped (13 R310, R311). -/
def Mach.tlbDrop (m : Mach) (t : TlbEnt) : Mach := { m with tlb := m.tlb.filter fun e => e != t }

/-- The home's answer to an access: a read of uncorrectable data is answered with MEM_UNCORRECTABLE (13 R315). -/
def Mach.served (m : Mach) (acc : Acc) (p : Place) : Except Cause Place :=
  if (acc.rd || acc == .fetch) && m.badAt p then .error .memUncorrectable else .ok p

/-- A leaf through which lines may have reached the scalar data caches, kept until an invalidation covers it (13 R312). -/
def Mach.noteLine (m : Mach) (asid : Nat) (lf : Leaf) : Mach :=
  if m.lineMaps.any fun t => t.asid == asid && (t.leafAt lf.base).alike lf then m
  else
    { m with lineMaps :=
        { asid := asid, msu := m.msuOf lf.base, base := lf.base, span := lf.span, leaves := [W lf.val], die := lf.die, off := lf.off } ::
          m.lineMaps }

/-- What a use of a leaf leaves in its MSU's cache: A and D where they have been set, or the translation of a walk (13 R303, R309). -/
def Mach.keepLeaf (m : Mach) (held : Option TlbEnt) (set : Bool) (asid ia : Nat) (lf : Leaf) : Mach :=
  match held with
  | some t => if set then m.tlbAdd (t.touch ia lf.val) else m
  | none => m.tlbAdd (m.cached asid ia lf)

/-- The checks and the update of A and D at a leaf that a walk reached or that is cached (13 R308, R309). An access of R259 is told the
place of another class, which its instruction refuses. -/
def Mach.useLeaf (m : Mach) (held : Option TlbEnt) (asid ia : Nat) (acc : Acc) (lf : Leaf) : Mach × Except Cause Place :=
  if !leafAllows acc lf.val then (m, .error .memPermission)
  else
    let v := leafTouched acc lf.val
    let m1 := if v = lf.val then m else m.hbmWrite lf.die lf.off (bytesOfNat 8 v)
    let m2 := m1.keepLeaf held (v != lf.val) asid ia { lf with val := v }
    let p := m2.leafPlace { lf with val := v } ia
    let object := acc == .atomic || acc == .mon
    match p with
    | .hbm die _ =>
      (match m2.homeFault die with
       | some c => (m2, .error c)
       | none => (if acc == .load then m2.noteLine asid lf else m2, m2.served acc p))
    | .peer i _ =>
      if object || (acc != .fetch && bitAt (m2.peerMap.get 0 i).toNat 63) then (m2, .ok p)
      else (m2, .error .memClass)
    | _ => if object then (m2, .ok p) else if acc == .fetch then (m2, .error .memClass) else (m2, m2.served acc p)

/-! ## Cached table entries (13 R311) -/

/-- Whether a cached table entry is one of a level that leads to an IA. -/
def Mach.leads (m : Mach) (asid ia lvl : Nat) (t : TabEnt) : Bool :=
  t.asid == asid && t.msu == m.msuOf ia && t.lvl == lvl && decide (t.base ≤ ia) && decide (ia < t.base + t.span)

/-- The walk of an IA that goes on from the table entry of a level which its MSU caches. -/
def Mach.walkVia (m : Mach) (asid ia lvl : Nat) : Option (Except Cause Leaf) :=
  (m.tabs.find? (m.leads asid ia lvl)).map fun t => if lvl = 1 then m.level2 t.entry.toNat ia else m.below0 t.entry.toNat ia

/-- Whether two walks come to the same leaf or the same fault. -/
def sameWalk : Except Cause Leaf → Except Cause Leaf → Bool
  | .ok a, .ok b => a == b
  | .error a, .error b => a == b
  | _, _ => false

/-- The span of an entry at a level. -/
def tabSpan (lvl : Nat) : Nat := if lvl = 0 then 2 ^ 42 else 2 ^ 29

/-- A table entry kept in the cache of the MSU that translates an IA. -/
def Mach.tabPut (m : Mach) (asid ia lvl e : Nat) : Mach :=
  { m with tabs := { asid := asid, msu := m.msuOf ia, lvl := lvl, base := ia / tabSpan lvl * tabSpan lvl, span := tabSpan lvl, entry := W e } ::
      m.tabs.filter fun t => !m.leads asid ia lvl t }

/-- The table entries that a walk from the root passes, kept. -/
def Mach.noteTabs (m : Mach) (asid ia : Nat) : Mach :=
  match m.level0 asid ia with
  | .error _ => m
  | .ok e0 =>
    let m1 := m.tabPut asid ia 0 e0
    match m.level1 e0 ia with
    | .ok (.inl e1) => m1.tabPut asid ia 1 e1
    | _ => m1

/-- The walk of an MSU (13 R308, R311): it may go on from a table entry of level 1 or 0 that it caches; where that leads elsewhere than
the walk from the root, the cached entry serves, or has been evicted, by a free choice (log 7). -/
def Mach.walkAny (m : Mach) (asid ia : Nat) : Mach × Except Cause Leaf :=
  let fresh := m.walk asid ia
  let stale (lvl : Nat) : Option (Except Cause Leaf) := (m.walkVia asid ia lvl).filter fun r => !sameWalk r fresh
  match stale 1, stale 0 with
  | none, none => (m.noteTabs asid ia, fresh)
  | some r, _ => if Config.freeBool m.nonce then (m.tickNonce, r) else (m.tickNonce.noteTabs asid ia, fresh)
  | none, some r => if Config.freeBool m.nonce then (m.tickNonce, r) else (m.tickNonce.noteTabs asid ia, fresh)

/-! ## Translation -/

/-- A walk at the memory side (13 R308). -/
def Mach.walkUse (m : Mach) (asid ia : Nat) (acc : Acc) : Mach × Except Cause Place :=
  match m.walkAny asid ia with
  | (m1, .error c) => (m1, .error c)
  | (m1, .ok lf) => m1.useLeaf none asid ia acc lf

/-- Whether a cached leaf stands for what a walk gives: the same entry, but for A and D (13 R309). -/
def Mach.leafHolds (m : Mach) (asid ia : Nat) (l : Leaf) : Bool :=
  match m.walk asid ia with
  | .ok lf => lf.alike l
  | .error _ => false

/-- Whether an access through a cached leaf needs no update of A and D, or finds the leaf at its home as it is cached (13 R309). -/
def Mach.swaps (m : Mach) (acc : Acc) (l : Leaf) : Bool :=
  leafTouched acc l.val == l.val || ((m.homeFault l.die).isNone && natOfBytes (m.hbmRead l.die l.off 8) == l.val)

/-- Translation of an IA of the memory class (13 R305 to R311), by the MSU that the region table names; one in reset answers
MEM_HOME_RESET (R313). A cached leaf that refuses the access is dropped (R310). One that differs from what a walk gives in more than A
and D serves, or has been evicted, by a free choice (log 7). An update of A or D that finds the leaf changed walks again (R309). -/
def Mach.translate (m : Mach) (asid ia : Nat) (acc : Acc) : Mach × Except Cause Place :=
  if bitAt m.dieReset.toNat (m.msuOf ia) then (m, .error .memHomeReset)
  else
    match m.tlb.find? (m.hits asid ia) with
    | none => m.walkUse asid ia acc
    | some t =>
      let l := t.leafAt ia
      if !leafAllows acc l.val then (m.tlbDrop t).walkUse asid ia acc
      else if m.leafHolds asid ia l then
        if m.swaps acc l then m.useLeaf (some t) asid ia acc l else (m.tlbDrop t).walkUse asid ia acc
      else if Config.freeBool m.nonce && m.swaps acc l then m.tickNonce.useLeaf (some t) asid ia acc l
      else (m.tickNonce.tlbDrop t).walkUse asid ia acc

/-- The base die that answers an access with a fault (13 R305, R316): the home of a location where the access came so far, else the
translating MSU. -/
def Mach.answerer (m : Mach) (asid ia : Nat) (cause : Cause) : Nat :=
  let t := m.msuOf ia
  if (cause == .memUncorrectable || cause == .memHomeOff || cause == .memHomeReset) && !bitAt m.dieReset.toNat t then
    match m.walk asid ia with
    | .ok lf =>
      (match m.leafPlace lf ia with
       | .hbm d _ => d
       | _ => t)
    | .error _ => t
  else t

/-- The entry of a violation: what the log of 13 R316 records. -/
def Mach.viol (m : Mach) (ia asid : Nat) (acc : Acc) (cause : Cause) (c : Nat) (fw : Bool) : Viol :=
  { ia := ia, asid := asid, gen := m.gen, cause := cause, acc := acc.code, msu := m.answerer asid ia cause, core := c, fw := fw }

/-! ## Plain accesses at a home -/

/-- A peer frame (18 R373), and its entry in the list of requests that await a RESPONSE. -/
def Mach.peerSend (m : Mach) (idx ty : Nat) (addr : Nat) (w2 w3 w4 : Word) (pay : List Byte) (fo : PeerFor) : Mach :=
  let pm := (m.peerMap.get 0 idx).toNat
  let port := bits pm 51 48
  let tag := m.nextTag % 65536
  let w0 := W (ty * 2 ^ 56 + ceilDiv pay.length 64 * 2 ^ 53 + tag * 2 ^ 32 + m.devId * 2 ^ 16 + pm % 2 ^ 16)
  let m1 : Mach := { m with nextTag := tag + 1, peerReqs := m.peerReqs ++ [{ tag := tag, port := port, for_ := fo }] }
  m1.send (.frame port [w0, W addr, w2, w3, w4, 0, 0, 0] pay)

/-- A row of bytes written to a peer: one WRITE frame with the mask of its bytes (18 R374). The bytes lie within one
64-byte row. -/
def Mach.peerRow (m : Mach) (idx addr : Nat) (bs : List Byte) (fo : PeerFor) : Mach :=
  let lo := addr % 64
  let mask := (2 ^ bs.length - 1) * 2 ^ lo
  m.peerSend idx 1 (addr - lo) (W mask) 0 0
    (List.replicate lo 0 ++ bs ++ List.replicate (64 - lo - bs.length) 0) fo

/-- Bytes written to a scratchpad. -/
def Mach.spadWrite (m : Mach) (c off : Nat) (bs : List Byte) : Mach :=
  m.updCore c fun k => { k with spad := k.spad.write off bs }

/-- Bytes read from a scratchpad. -/
def Mach.spadRead (m : Mach) (c off n : Nat) : List Byte := (m.core c).spad.read off n

/-- n bytes of a peer's memory: free values (log 8). -/
def freeBytes : Nat → Nat → List Byte
  | 0, _ => []
  | n + 1, k => Config.freeByte k :: freeBytes n (k + 1)

/-- Bytes read at their home. -/
def Mach.readPlace (m : Mach) (p : Place) (n : Nat) : Mach × List Byte :=
  match p with
  | .spad c off => (m, m.spadRead c off n)
  | .hbm d off => (m, m.hbmRead d off n)
  | .host a => (m, m.hostMem.read a n)
  | .cxl a => (m, m.cxlMem.read a n)
  | .peer _ _ => ({ m with nonce := m.nonce + n }, freeBytes n m.nonce)

/-- Bytes written at their home; a write to host or CXL memory leaves on its link (10 R264), a write to a peer as a frame
(18 R374). -/
def Mach.writePlace (m : Mach) (p : Place) (bs : List Byte) : Mach :=
  match p with
  | .spad c off => m.spadWrite c off bs
  | .hbm d off => m.hbmWrite d off bs
  | .host a => Mach.send { m with hostMem := m.hostMem.write a bs } (.linkWrite .pcie0 a bs)
  | .cxl a => Mach.send { m with cxlMem := m.cxlMem.write a bs } (.linkWrite (if Config.strapCxl then .cxlIo else .pcie1) a bs)
  | .peer i a => m.peerRow i a bs .store

/-- The place an address of the same object lies at, n bytes on. -/
def Place.plus (p : Place) (n : Nat) : Place :=
  match p with
  | .spad c off => .spad c (off + n)
  | .hbm d off => .hbm d (off + n)
  | .host a => .host (a + n)
  | .cxl a => .cxl (a + n)
  | .peer i a => .peer i (a + n)

/-- The 64-byte line of a place in HBM, as the scalar data cache keys it (09 R241); none for another class. -/
def lineOf : Place → Option (Nat × Nat × Nat)
  | .hbm d off => some (d * 2 ^ 30 + off / 64, d, off / 64 * 64)
  | _ => none

/-- A scalar load at its home, through the core's data cache (09 R241): a line that is present and differs may serve it,
by a free choice; a load that goes home refreshes the line. -/
def Mach.cachedRead (m : Mach) (c : Nat) (p : Place) (n : Nat) : Mach × List Byte :=
  match lineOf p, p with
  | some (key, d, base), .hbm _ off =>
    let k := m.core c
    let line := k.dcache.get [] key
    let now := m.hbmRead d base 64
    if line = now then (m, m.hbmRead d off n)
    else if line != [] && Config.freeBool m.nonce then (m.tickNonce, (line.drop (off - base)).take n)
    else
      let m1 := if line != [] then m.tickNonce else m
      (m1.updCore c fun k => { k with dcache := k.dcache.put key now }, m.hbmRead d off n)
  | _, _ => m.readPlace p n

/-- A list with the bytes from position i replaced. -/
def patch (l : List Byte) (i : Nat) (bs : List Byte) : List Byte := l.take i ++ bs ++ l.drop (i + bs.length)

/-- The bytes of an IA that a line present in a core's scalar data cache holds, found through the translations by which lines have come in
(04 R123). -/
def Mach.cacheHit (m : Mach) (c asid ia n : Nat) : Option (List Byte) :=
  (m.lineMaps.filter fun t => t.asid == asid && decide (t.base ≤ ia) && decide (ia < t.base + t.span)).findSome? fun t =>
    let p := m.leafPlace (t.leafAt ia) ia
    match lineOf p, p with
    | some (key, _, base), .hbm _ off =>
      let line := (m.core c).dcache.get [] key
      if line = [] then none else some ((line.drop (off - base)).take n)
    | _, _ => none

/-- A scalar store at its home; the core's own line is updated (09 R241). -/
def Mach.cachedWrite (m : Mach) (c : Nat) (p : Place) (bs : List Byte) : Mach :=
  let m1 := m.writePlace p bs
  match lineOf p, p with
  | some (key, _, base), .hbm _ off =>
    m1.updCore c fun k =>
      let line := k.dcache.get [] key
      if line != [] then { k with dcache := k.dcache.put key (patch line (off - base) bs) } else k
  | _, _ => m1

/-- The lines of core c within n bytes of stack d take the bytes of their home (09 R241). -/
def Mach.freshLines (m : Mach) (c d off n : Nat) : Mach :=
  m.updCore c fun k => { k with dcache := ⟨k.dcache.l.map fun e =>
    let o := e.1 % 2 ^ 30 * 64
    if e.1 / 2 ^ 30 = d ∧ o < off + n ∧ off < o + 64 then (e.1, m.hbmRead d o 64) else e⟩ }

/-- The scalar data cache of a core is invalidated (09 R241). -/
def Mach.dropCache (m : Mach) (c : Nat) : Mach := m.updCore c fun k => { k with dcache := Tab.empty }

end Sys2Proof.Machine
end

