-- ==== Sys2Proof/Machine/Objects.lean ====
section
/-!
DEFINITION. Synchronisation objects as their homes see them (07 R192 to R198, 10 R260): barrier records, and the waits that a
write to an object releases; bytes that the device writes for firmware.
-/
namespace Sys2Proof.Machine

/-! ## Writes in the firmware's address space (15 R333; log 12) -/

/-- The IA a member's save image starts at (15 R333). -/
def swimgIa (w : Word) : Nat := bits w.toNat 51 16 * 2 ^ 16

/-- Bytes written through the firmware's address space, one 64-byte row at a time; a row that does not translate is left
out (15 R333; log 12). -/
def Mach.fwWriteRows (m : Mach) (ia : Nat) : List (List Byte) → Mach
  | [] => m
  | row :: r =>
    let m1 :=
      match m.translate 0 ia .store with
      | (m1, .ok p) => m1.writePlace p row
      | (m1, .error _) => m1
    m1.fwWriteRows (ia + row.length) r

/-- Bytes written through the firmware's address space (15 R333; log 12): the start may lie within a row. -/
def Mach.fwWrite (m : Mach) (ia : Nat) (bs : List Byte) : Mach :=
  let h := min bs.length (64 - ia % 64)
  m.fwWriteRows ia (bs.take h :: chunks 64 (ceilDiv (bs.length - h) 64) (bs.drop h))

/-! ## Writes in place at the core of a member that has stopped (15 R335; log 131) -/

/-- Pieces of bytes that lie within 64-byte rows, with their scratchpad offsets; the number bounds them. -/
def rowPieces : Nat → Nat → List Byte → List (Nat × List Byte)
  | 0, _, _ => []
  | i + 1, off, bs =>
    if bs = [] then []
    else
      let h := min bs.length (64 - off % 64)
      (off, bs.take h) :: rowPieces i (off + h) (bs.drop h)

/-- The byte mask of a part of a row, and the row with the other bytes zero. -/
def rowPart (off : Nat) (bs : List Byte) : Nat × BitVec 64 × List Byte :=
  let lo := off % 64
  (off - lo, BitVec.ofNat 64 ((2 ^ bs.length - 1) * 2 ^ lo),
    List.replicate lo 0 ++ bs ++ List.replicate (64 - lo - bs.length) 0)

/-- Bytes on their way to the diversion table of a core, one access for each row. -/
def Mach.arriveBytes (m : Mach) (thread c e off : Nat) (bs : List Byte) : Mach :=
  let arr (p : Nat × List Byte) : Arrival :=
    let q := rowPart p.1 p.2
    { core := c, epoch := e, thread := thread, kind := .bytes q.1 q.2.1 q.2.2 }
  { m with arrivals := m.arrivals ++ (rowPieces (bs.length / 64 + 2) off bs).map arr }

/-- A member that still runs writes in place at the core of one that has stopped for the switch: the bytes go into the felt image as well,
so that its scratchpad has them when it resumes (15 R335; log 131). -/
def Mach.alsoFelt (m : Mach) (fw : Bool) (c off : Nat) (bs : List Byte) : Mach :=
  let k := m.core c
  if !fw && k.closed && k.c0.run == .switching then m.arriveBytes 0 c k.epoch off bs else m

/-- The same for the bytes of an object. -/
def Mach.objFelt (m : Mach) (fw : Bool) (p : Place) (bs : List Byte) : Mach :=
  match p with
  | .spad c off => m.alsoFelt fw c off bs
  | _ => m

/-! ## Barrier records (07 R193, R194) -/

/-- The fields of a barrier record; bits [7:2] are kept. -/
structure Bar where
  gen : Nat
  expected : Nat
  arrived : Nat
  beats : Nat
  low : Nat
  deriving DecidableEq, Repr

/-- The record of 16 bytes. -/
def Bar.ofBytes (bs : List Byte) : Bar :=
  let v := natOfBytes bs
  { gen := bits v 127 96, expected := bits v 95 72, arrived := bits v 71 48, beats := bits v 47 8, low := bits v 7 0 }

/-- The 16 bytes of a record. -/
def Bar.bytes (r : Bar) : List Byte :=
  bytesOfNat 16 (r.gen * 2 ^ 96 + r.expected * 2 ^ 72 + r.arrived * 2 ^ 48 + r.beats * 2 ^ 8 + r.low)

/-- INIT. -/
def Bar.init (r : Bar) : Bool := bitAt r.low 0

/-- advance(). -/
def Bar.advance (r : Bar) : Bar :=
  if r.arrived = r.expected ∧ r.beats = 0 then { r with gen := (r.gen + 1) % 2 ^ 32, arrived := 0 } else r

/-- Beats added to a record. -/
def Bar.rise (r : Bar) (n : Nat) : Bar := { r with beats := (r.beats + n) % 2 ^ 40 }

/-- Beats taken from a record, and CERR set where a copy stopped (07 R187). -/
def Bar.fall (r : Bar) (n : Nat) (cerr : Bool) : Bar :=
  let r1 := { r with beats := (r.beats + 2 ^ 40 - n % 2 ^ 40) % 2 ^ 40,
                     low := if cerr && !bitAt r.low 1 then r.low + 2 else r.low }
  r1.advance

/-! ## Waiting contexts (07 R180, 15 R339) -/

/-- The suspended member that is a worker. -/
def Mach.suspMember (m : Mach) (l i : Nat) : Option SuspMember :=
  (m.susp.flatMap fun s => s.members).find? fun x => x.launch == l && x.lcid == i

/-- The member of a suspended team that last stood on a core with an epoch. -/
def Mach.awayAt (m : Mach) (c e : Nat) : Option SuspMember :=
  (m.susp.flatMap fun s => s.members).find? fun x => x.core == c && x.epoch == e

/-- The context of an owner, wherever it is: on its core, or kept with its suspended team. -/
def Mach.ctxOf (m : Mach) (o : Owner) : Option Ctx :=
  match m.homeOf o with
  | some (c, fw) => some (m.ctx c fw)
  | none =>
    match o with
    | .worker l i => (m.suspMember l i).map fun x => x.kept
    | _ => none

/-- A context's registers wherever it is. -/
def Mach.updOwner (m : Mach) (o : Owner) (f : Ctx → Ctx) : Mach :=
  match m.homeOf o with
  | some (c, fw) => m.updCtx c fw f
  | none =>
    match o with
    | .worker l i =>
      { m with susp := m.susp.map fun s => { s with members := s.members.map fun x =>
          if x.launch = l ∧ x.lcid = i then { x with kept := f x.kept } else x } }
    | _ => m

/-- A context's wait: the one it stands in, or the one that a handler holds back. -/
def Ctx.waitAt (x : Ctx) (kept : Bool) : Option Wait := if kept then x.waitKept.map fun p => p.2 else x.wait

/-- The context with f applied to that wait. -/
def Ctx.updWait (x : Ctx) (kept : Bool) (f : Wait → Wait) : Ctx :=
  if kept then { x with waitKept := x.waitKept.map fun p => (p.1, f p.2) } else { x with wait := x.wait.map f }

/-- Whether a request at a home is that of a context's wait. -/
def Waiter.isOf (w : Waiter) (o : Owner) (kept : Bool) : Bool := w.who == o && w.kept == kept

/-- The request of a context's wait leaves its home, or the way there. -/
def Mach.unqueue (m : Mach) (o : Owner) (kept : Bool) : Mach :=
  { m with requests := m.requests.filter fun w => !w.isOf o kept, waiters := m.waiters.filter fun w => !w.isOf o kept }

/-- The requests of an owner marked as those of a wait held back, or no longer. -/
def Mach.markKept (m : Mach) (o : Owner) (kept : Bool) : Mach :=
  let f (w : Waiter) : Waiter := if w.isOf o (!kept) then { w with kept := kept } else w
  { m with requests := m.requests.map f, waiters := m.waiters.map f }

/-- Stream elements that a wait took at issue go back to the heads of their streams, where those are still bound to the same copy
(07 R180; log 128). -/
def Wait.unread (w : Wait) (t : Tab Stream) : Tab Stream :=
  w.qs.foldl
    (fun t e =>
      let st := t.get Stream.reset e.1
      if st.bound ∧ st.copy = e.2.1 then t.put e.1 { st with fifo := e.2.2 :: st.fifo } else t) t

/-- A context leaves its wait with nothing of the bundle in effect (07 R180). -/
def Ctx.leaveWait (x : Ctx) : Ctx :=
  match x.wait with
  | some w => { x with wait := none, q := w.unread x.q }
  | none => x

/-- The instruction that waits, by its slot word. -/
def waitInstr (fw : Bool) (w : BitVec 32) : Option Instr := (decodeSlot fw 0 6 w).toOption

/-- The s registers that a waiting instruction writes: D, or the group of DEQ. -/
def waitRegs (w : BitVec 32) : List Nat :=
  match waitInstr false w with
  | some (.semwait (.s n) _ _) => [n.toNat]
  | some (.mwait (.s n) _) => [n.toNat]
  | some (.deq k _) => rangeFrom (8 * k.toNat) 8
  | _ => []

/-- The source fields of an instruction that waits (07 R180). -/
def waitSrcs (fw : Bool) (w : BitVec 32) : List Src :=
  match waitInstr fw w with
  | some (.mwait _ b) => [b]
  | some (.semwait _ a b) => [a, b]
  | some (.barwait a b) => [a, b]
  | some (.tlwait a b) => [a, b]
  | some (.deq _ a) => [a]
  | some (.enq a _) => [a]
  | some (.sadv _ b) => [b]
  | some (.cpyt _ _ b) => [b]
  | some (.csrw _ a) => [a]
  | _ => []

/-- The results of a wait that is served while its context is away go into its image: its S slots and WAITDONE (15 R339). -/
def Mach.serveAway (m : Mach) (x : SuspMember) (rs : List (Nat × Word)) : Mach :=
  let m1 := rs.foldl (fun m p => m.fwWrite (swimgIa x.swimg + 0x180 + 8 * p.1) (bytesOfWord 8 p.2)) m
  m1.fwWrite (swimgIa x.swimg + 1) [BitVec.ofNat 8 (0x04 + 0x08 + 0x10 + 32 * (x.kept.loops.length % 8))]

/-- A stream is unbound once its copy is complete and its FIFO empty (07 R188). -/
def Stream.isBound (q : Stream) : Bool := q.bound && !(q.complete && q.fifo.isEmpty)

/-- Stream n of a context (08 R235; log 127). -/
def Ctx.stream (x : Ctx) (n : Nat) : Stream := x.q.get Stream.reset n

/-- The byte of STRM for a stream (15 R334). -/
def Stream.strm (q : Stream) : Byte := BitVec.ofNat 8 (b2n q.isBound * 128 + q.fifo.length)

/-- Stream n of an absent member as its image keeps it (15 R334, R338). -/
def Mach.imgStream (m : Mach) (swimg : Word) (n : Nat) (st : Stream) : Mach :=
  (m.fwWrite (swimgIa swimg + 0x3C2000 + 512 * n) (bytesOfWords st.fifo)).fwWrite (swimgIa swimg + 0x710 + n) [st.strm]

/-- The results of a served wait in its context's registers: those that the waiting bundle would write (15 R339). -/
def Ctx.takeServed (x : Ctx) (vs : List Word) : Ctx :=
  let rs := (match x.wait with
    | some w => waitRegs w.word
    | none => []).zip vs
  { x with s := rs.foldl (fun t p => t.put p.1 p.2) x.s, wait := x.wait.map fun w => { w with done := true } }

/-- The home serves a wait: the result is on its way to the context; one that is away has it in its registers at once
(15 R339). -/
def Mach.serveWait (m : Mach) (w : Waiter) (vs : List Word) : Mach :=
  let o := w.who
  let m1 := (m.updOwner o fun x => x.updWait w.kept fun y => { y with served := some vs }).unqueue o w.kept
  match m1.homeOf o, o with
  | none, .worker l i =>
    (match m1.suspMember l i with
     | none => m1
     | some x =>
       let rs := (match x.kept.wait with
         | some w => waitRegs w.word
         | none => []).zip vs
       (m1.updOwner o fun y => y.takeServed vs).serveAway x rs)
  | _, _ => m1

/-! ## Waits that a write releases (07 R192 to R198, 10 R260) -/

/-- The value of an 8-byte object. -/
def Mach.objWord (m : Mach) (p : Place) : Word := wordOfBytes (m.readPlace p 8).2

/-- A BARWAIT for generation b is over (07 R195). -/
def barPast (gen b : BitVec 32) : Bool := decide (0 < (gen - b).toInt)

/-- A TLWAIT for b is over (07 R197). -/
def tlPast (c b : Word) : Bool := decide ((c - b).toNat < 2 ^ 63)

/-- Whether an owner is a context 1. -/
def ownerFw : Owner → Bool
  | .fw _ => true
  | .past _ => true
  | _ => false

/-- One waiter against the value its object now holds; a SEMWAIT that must wait holds back those behind it (07 R192). -/
def Mach.wakeOne (p : Mach × List Place) (w : Waiter) : Mach × List Place :=
  let (m, held) := p
  match w.kind, w.obj with
  | .sem n, some pl =>
    if held.contains pl then (m, held)
    else
      let v := m.objWord pl
      if n ≤ v then (((m.writePlace pl (bytesOfWord 8 (v - n))).objFelt (ownerFw w.who) pl (bytesOfWord 8 (v - n))).serveWait w [v - n], held) else (m, pl :: held)
  | .bar g, some pl =>
    (if barPast (BitVec.ofNat 32 (Bar.ofBytes (m.readPlace pl 16).2).gen) g then m.serveWait w [0] else m, held)
  | .tl b, some pl => (if tlPast (m.objWord pl) b then m.serveWait w [0] else m, held)
  | .mon v, some pl => (if m.objWord pl ≠ v then m.serveWait w [m.objWord pl] else m, held)
  | _, _ => (m, held)

/-- Passes over the waiters, one for each of them: a SEMWAIT served writes its semaphore, which a monitor may watch. -/
def Mach.wakePass : Nat → Mach → Mach
  | 0, m => m
  | n + 1, m => Mach.wakePass n (m.waiters.foldl Mach.wakeOne (m, [])).1

/-- Every waiter on an object is evaluated against the value that stands there (10 R260). -/
def Mach.wakeObjs (m : Mach) : Mach := if m.waiters = [] then m else Mach.wakePass m.waiters.length m

end Sys2Proof.Machine
end

