-- ==== Sys2Proof/Machine/Ops.lean ====
section
/-!
DEFINITION. The operations that every family shares: writing a destination, the loop stack (01 R13 to R16), faults held
against a context (07 R181, 15 R340), the items that an abort returns to their queues (10 R272), killing a context (14
R323), taking a trap (14 R320), aborting a region (10 R272), and returning from a trap (14 R322).
-/
namespace Sys2Proof.Machine

/-! ## Registers of a context -/

/-- s register n. -/
def Ctx.sreg (x : Ctx) (n : Nat) : Word := x.s.get 0 n
/-- The context with s register n written. -/
def Ctx.setS (x : Ctx) (n : Nat) (v : Word) : Ctx := { x with s := x.s.put n v }
/-- p register n: p0 reads 1 (01 R10). -/
def Ctx.preg (x : Ctx) (n : Nat) : Bool := n == 0 || bitAt x.p.toNat n
/-- The context with p register n written; writes to p0 are discarded (01 R10). -/
def Ctx.setP (x : Ctx) (n : Nat) (b : Bool) : Ctx :=
  if n = 0 then x
  else { x with p := if b then x.p ||| BitVec.ofNat 16 (2 ^ n) else x.p &&& ~~~ (BitVec.ofNat 16 (2 ^ n)) }
/-- The entries of the result queue of unit u, head first (01 R20). -/
def Ctx.rqOf (x : Ctx) (u : Nat) : List Word := x.rq.get [] u
/-- Latch l of unit u (01 R23). -/
def Ctx.latch (x : Ctx) (u : Nat) (l : Bool) : Word := x.lat.get 0 (2 * u + b2n l)
/-- The context with a latch written. -/
def Ctx.setLatch (x : Ctx) (u : Nat) (l : Bool) (v : Word) : Ctx := { x with lat := x.lat.put (2 * u + b2n l) v }

/-- A result written to its destination (03 R68): bit 0 to a p register; a handle appends to its unit's queue. -/
def Mach.putDst (m : Mach) (c : Nat) (fw : Bool) (d : Dst) (v : Word) : Mach :=
  match d with
  | .s n => m.updCtx c fw fun x => x.setS n.toNat v
  | .p n => m.updCtx c fw fun x => x.setP n.toNat (bitAt v.toNat 0)
  | .handle u => m.updCtx c fw fun x => { x with rq := x.rq.put u.val (x.rqOf u.val ++ [v]) }
  | .m n => m.updCore c fun k => { k with m := k.m.put n.toNat v }
  | .discard => m
  | .latch u l => m.updCtx c fw fun x => x.setLatch u.val l v

/-- Flags ORed into a context's FFLAGS (02 R46). -/
def Mach.orFlags (m : Mach) (c : Nat) (fw : Bool) (f : BitVec 5) : Mach :=
  m.updCtx c fw fun x => { x with fflags := x.fflags ||| f }

/-- One pending result written (01 R18). -/
def Mach.finishPend (m : Mach) (c : Nat) (fw : Bool) (p : Pend) : Mach := (m.putDst c fw p.dst p.val).orFlags c fw p.flags

/-- Every pending result of a context written, oldest first (01 R24). A load of a region whose fault is still to come stays
pending (04 R124). -/
def Mach.drainPend (m : Mach) (c : Nat) (fw : Bool) : Mach :=
  let ps := (m.ctx c fw).pend
  let m1 := (ps.filter fun p => p.err.isNone).foldl (fun m p => m.finishPend c fw p) m
  m1.updCtx c fw fun x => { x with pend := ps.filter fun p => p.err.isSome }

/-- The scalar result of a context's predicate written, where one is still to come (01 R24). -/
def Mach.drainEpu (m : Mach) (c : Nat) (fw : Bool) : Mach :=
  match (m.core c).epu with
  | some e =>
    if e.fw = fw then (m.putDst c fw e.dst e.count).updCore c fun k => { k with epu := some { e with dst := .discard } } else m
  | none => m

/-- Every scalar result of a context's older bundles written (01 R24). -/
def Mach.drainScalars (m : Mach) (c : Nat) (fw : Bool) : Mach := (m.drainPend c fw).drainEpu c fw

/-! ## The store queue (09 R243) -/

/-- The store at the head of a context's store queue is performed (09 R243). -/
def Mach.performStore (m : Mach) (c : Nat) (fw : Bool) : Mach :=
  match (m.ctx c fw).storeq with
  | [] => m
  | e :: r => ((m.updCtx c fw fun x => { x with storeq := r }).spadWrite e.core e.off e.data).alsoFelt fw e.core e.off e.data

/-- The first n stores of the queue are performed, in order. -/
def Mach.performStores (m : Mach) (c : Nat) (fw : Bool) : Nat → Mach
  | 0 => m
  | n + 1 => (m.performStore c fw).wakeObjs.performStores c fw n

/-- Every queued store of a context is performed, in order. -/
def Mach.drainStores (m : Mach) (c : Nat) (fw : Bool) : Mach := m.performStores c fw (m.ctx c fw).storeq.length

/-- Whether a queued store writes some of n bytes of a scratchpad. -/
def StoreEnt.hits (e : StoreEnt) (c off n : Nat) : Bool :=
  e.core == c && decide (e.off < off + n) && decide (off < e.off + e.data.length)

/-! ## The loop stack (01 R13 to R16) -/

/-- The rule of R14 at the retirement of the bundle at address a, which did not transfer control: the loop stack and the
next bundle's address. -/
def loopBack (a next : Word) : List LoopEnt → List LoopEnt × Word
  | [] => ([], next)
  | e :: r =>
    if a = e.last then
      if e.index.toNat + 1 < e.count.toNat then ({ e with index := e.index + 1 } :: r, e.start)
      else loopBack a next r
    else (e :: r, next)

/-- The rule of R15 at a transfer to target t: entries pop until t lies within the innermost body. -/
def unwind (t : Word) : List LoopEnt → List LoopEnt
  | [] => []
  | e :: r => if e.start ≤ t ∧ t ≤ e.last then e :: r else unwind t r

/-- FLEX mode of a context: the mode of the innermost entry, FIXED when the stack is empty (01 R25). -/
def Ctx.flex (x : Ctx) : Bool :=
  match x.loops with
  | [] => false
  | e :: _ => e.flex

/-! ## Held faults -/

/-- The worker's launch counts a fault logged after its halt (12 R289). -/
def Mach.countFault (m : Mach) : Owner → Mach
  | .worker l _ => m.updLaunch l fun la => { la with faults := la.faults + 1 }
  | _ => m

/-- A fault entered in the error log as lost (20 R398), with the core that held it. -/
def Mach.logLost (m : Mach) (c : Nat) (fw : Bool) (code val : Word) : Mach :=
  m.logErr (code.toNat % 256) kLost { fw := fw, loc := c, info := val }

/-- A fault of handed-on work of the context on core c: held while it runs (07 R181), added to the absent faults once it
has stopped for a switch (15 R340), logged once it has halted (12 R289). -/
def Mach.holdAt (m : Mach) (c : Nat) (fw : Bool) (code : Nat) (val : Word) : Mach :=
  let x := m.ctx c fw
  let h : Held := { code := BitVec.ofNat 8 code, val := val, tick := m.time }
  match x.run with
  | .switching =>
    if x.held.length + x.absent.length < 64 then m.updCtx c fw fun x => { x with absent := x.absent ++ [h] }
    else (m.updCtx c fw fun x => { x with absentLost := true }).logLost c fw (W code) val
  | .halted => (m.logLost c fw (W code) val).countFault (m.ownerOf c fw)
  | .killed => (m.logLost c fw (W code) val).countFault (m.ownerOf c fw)
  | _ =>
    if x.held.length < 64 then m.updCtx c fw fun x => { x with held := x.held ++ [h] }
    else (m.updCtx c fw fun x => { x with heldLost := true }).logLost c fw (W code) val

/-- An absent fault of a suspended member entered in its queue, and in the queue's image (15 R334, R340). -/
def Mach.holdAbsent (m : Mach) (mem : SuspMember) (code : Nat) (val : Word) : Mach :=
  let n := mem.kept.absent.length
  let upd (m : Mach) (f : Ctx → Ctx) : Mach :=
    { m with susp := m.susp.map fun s => { s with members := s.members.map fun x =>
        if x.launch = mem.launch ∧ x.lcid = mem.lcid then { x with kept := f x.kept } else x } }
  if n < 64 then
    let m1 := upd m fun x => { x with absent := x.absent ++ [{ code := BitVec.ofNat 8 code, val := val, tick := m.time }] }
    let m2 := m1.fwWrite (swimgIa mem.swimg + 0x800 + 32 * n) (bytesOfWords [W code, val, m.time, 0])
    m2.fwWrite (swimgIa mem.swimg + 0x7A0) [BitVec.ofNat 8 (n + 1)]
  else
    let m1 := upd m fun x => { x with absentLost := true }
    (m1.fwWrite (swimgIa mem.swimg + 0x7A1) [1]).logLost mem.core false (W code) val

/-- Whether a worker is a member of a suspended team that was killed or cancelled (15 R343). -/
def Mach.deadMember (m : Mach) (l i : Nat) : Bool :=
  m.susp.any fun s => s.dead && s.members.any fun x => x.launch == l && x.lcid == i

/-- A fault of an engine thread or a commit, held against the context that forked it (07 R181). -/
def Mach.holdFault (m : Mach) (o : Owner) (code : Nat) (val : Word) : Mach :=
  match m.homeOf o with
  | some (c, fw) => m.holdAt c fw code val
  | none =>
    match o with
    | .worker l i =>
      (match m.suspMember l i with
       | some mem => if m.deadMember l i then (m.logLost mem.core false (W code) val).countFault o else m.holdAbsent mem code val
       | none => (m.logLost 0 false (W code) val).countFault o)
    | .fw c => m.logLost c true (W code) val
    | .bare c => m.logLost c false (W code) val
    | .past c => m.logLost c true (W code) val

/-! ## Tasks that end without a commit (10 R272) -/

/-- A registered task released (10 R268). -/
def Mach.dropEnt (m : Mach) (e : Option Nat) : Mach :=
  match e with
  | some id => { m with tdt := m.tdt.filter fun t => t.id != id }
  | none => m

/-- Slots of a work queue's ring. -/
def WQ.cap (w : WQ) : Nat := 2 ^ bits w.cfg.toNat 46 42

/-- The pulp-pool offset of the slot of item index i (12 R294). -/
def WQ.slotOff (w : WQ) (i : BitVec 32) : Nat := 64 * bits w.cfg.toNat 17 0 + 64 * (i.toNat % w.cap)

/-- Bytes written into a die's pulp pool. -/
def Mach.poolWrite (m : Mach) (d off : Nat) (bs : List Byte) : Mach :=
  { m with pool := m.pool.put d ((m.pool.get Mem.empty d).write off bs) }

/-- An item put before the head of its queue: HEAD falls by 1 (10 R272). -/
def Mach.wqUnshift (m : Mach) (q : Nat) (it : QItem) : Mach :=
  let w := m.wqAt q
  (m.updWq q fun w => { w with items := it :: w.items, head := w.head - 1 }).poolWrite (bits w.cfg.toNat 49 47)
    (w.slotOff (w.head - 1)) (bytesOfWords it.words)

/-- Items that wait for room go back to the head of their queue while it has room, the latest aborted first in line
(10 R272). -/
def Mach.wqSettle (m : Mach) (q : Nat) : Mach :=
  let w := m.wqAt q
  match w.requeue with
  | [] => m
  | it :: r =>
    if (w.tail - w.head).toNat < w.cap then (m.updWq q fun w => { w with requeue := r }).wqUnshift q it else m

/-- A task's item returned to its queue (10 R272): to its head, later when the ring is full; dropped when the queue is
OFF. The answer says that it was requeued. -/
def Mach.requeue (m : Mach) (t : TaskRef) (hold : Option (Nat × Nat)) : Mach × Bool :=
  if (m.wqAt t.queue).state = 0 then (m.dropEnt t.ent, false)
  else
    let it : QItem := { words := t.item, ent := t.ent, bad := false, hold := hold }
    let m1 : Mach := { m with tdt := m.tdt.map fun e => if some e.id = t.ent then { e with st := 0 } else e }
    ((m1.updWq t.queue fun w => { w with requeue := w.requeue ++ [it] }).wqSettle t.queue, true)

/-- TID of TASKSTAT: of the task dequeued most recently and not ended, 0 without one (10 R272). -/
def Ctx.taskTid (x : Ctx) : Nat :=
  match x.tasks with
  | t :: _ => t.tid.toNat
  | [] => 0

/-- A task of a context ends: requeued or dropped, as TASKSTAT records (10 R272). -/
def Mach.endTask (m : Mach) (c : Nat) (fw : Bool) (t : TaskRef) (again : Bool) (hold : Option (Nat × Nat)) : Mach :=
  let (m1, re) := if again then m.requeue t hold else (m.dropEnt t.ent, false)
  m1.updCtx c fw fun x => { x with tasks := x.tasks.erase t, taskReq := re, taskDrop := !re }

/-- The task of the open region ends. -/
def Mach.endRegionTask (m : Mach) (c : Nat) (fw : Bool) (again : Bool) (hold : Option (Nat × Nat)) : Mach :=
  match (m.ctx c fw).region with
  | none => m
  | some r => m.endTask c fw r.task again hold

/-- Every task of a context that a kill ends goes back to its queue, the latest dequeued first, so that the queue's order
is kept (10 R272). -/
def Mach.endTasks (m : Mach) (c : Nat) (fw : Bool) : Mach :=
  (m.ctx c fw).tasks.foldl (fun m t => m.endTask c fw t true none) m

/-- Copies issued inside a region that is discarded are no longer part of a region, and those that write its buffers stop (10 R272; log
13). -/
def Mach.dropRegionCopies (m : Mach) (r : Option Region) : Mach :=
  match r with
  | none => m
  | some r =>
    let mine (k : Copy) : Bool := r.copies.contains k.id && k.inRegion
    let stays (k : Copy) : Copy :=
      if mine k then
        { k with inRegion := false, stampIa := k.stampIa.filter fun ia => iaClass ia != 0 }
      else k
    let gone (k : Copy) : Bool := mine k && iaClass (wordAt k.desc 1 + k.dstDelta).toNat == 0
    { m with copies := (m.copies.filter fun k => !gone k).map stays }

/-- The buffered effects of the open region discarded (10 R272). -/
def Mach.discardRegion (m : Mach) (c : Nat) (fw : Bool) : Mach :=
  match (m.ctx c fw).region with
  | none => m
  | some r => (m.updCtx c fw fun x => { x with region := none }).dropRegionCopies (some r)

/-! ## Killing a context (14 R323) -/

/-- Every request of an owner withdrawn from the homes (07 R180, 10 R261). -/
def Mach.withdraw (m : Mach) (o : Owner) : Mach :=
  { m with requests := m.requests.filter fun w => w.who != o, waiters := m.waiters.filter fun w => w.who != o }

/-- The queued faults of a context written to the error log (14 R323): held, absent, and held against its calls. -/
def Mach.logQueued (m : Mach) (c : Nat) (fw : Bool) : Mach :=
  let x := m.ctx c fw
  let m1 := (x.held ++ x.absent).foldl (fun m h => m.logLost c fw (W h.code.toNat) h.val) m
  let m2 := ((m1.core c).mx.held.filter fun h => h.1 == fw).foldl (fun m h => m.logLost c fw (W h.2.2.toNat) h.2.1) m1
  (m2.updCore c fun k => { k with mx := { k.mx with held := k.mx.held.filter fun h => h.1 != fw } }).updCtx c fw fun x =>
    { x with held := [], heldLost := false, absent := [], absentHeld := 0, absentLost := false }

/-- The launches that the command processor of a core prepares: taken, and no worker of them has started (20 R408). -/
def Mach.preparing (m : Mach) (c : Nat) (l : Launch) : Bool :=
  (m.sqAt l.sq).cp == some c && l.start.isNone && !l.retired

/-- A launch taken back: its shadow banks and candidates are emptied, and its queue serves its records again, out of a WAIT or an ERROR
that lay behind them (16 R355). Launches of the queue that were taken after it are passed over then. -/
def Mach.takeBack (m : Mach) (l : Launch) : Mach :=
  let m1 := m.mapCores fun k =>
    { k with shadow := k.shadow.filter fun s => s.launch != l.key,
             cands := k.cands.filter fun x => match x.what with
               | .launch s => s.launch != l.key
               | .team _ _ => true }
  let back := decide ((l.idx - (m.sqAt l.sq).next).toNat ≥ 2 ^ 31)
  let after (y : Launch) : Launch :=
    if y.sq = l.sq ∧ (y.idx - l.idx).toNat < 2 ^ 31 then { y with ahead := true } else y
  let m2 : Mach := { m1 with launches := (m1.launches.filter fun y => y.key != l.key).map after }
  let m3 := m2.updSq l.sq fun q =>
    if back then { q with next := l.idx, state := if q.state = 0 then 0 else 1 } else q
  let keep (p : Phase) : Option Phase :=
    let ks := p.launches.filter fun k => k != l.key
    if ks = [] ∧ !p.begun then none else some { p with launches := ks }
  { m3 with
    phase := m3.phase.bind keep
    phaseRec := if bitAt (wordAt l.head 0).toNat 42 then
        m3.phaseRec.map fun r => if r.sq = l.sq then { r with last := none } else r
      else m3.phaseRec }

/-- The engine threads and the routine of a context 1 that has been killed belong to it still: what they meet later goes to the error log
(14 R323). -/
def Mach.disown (m : Mach) (c : Nat) : Mach :=
  let o (x : Owner) : Owner := if x = .fw c then .past c else x
  let f (r : PeerReq) : PeerReq := match r.for_ with
    | .aop w k fw a res st q md rs => { r with for_ := .aop (o w) k fw a res st q md rs }
    | _ => r
  Mach.updCore
    { m with copies := m.copies.map fun k => { k with owner := o k.owner },
             subs := m.subs.map fun x => { x with owner := o x.owner },
             commits := m.commits.map fun k => { k with owner := o k.owner }, peerReqs := m.peerReqs.map f } c fun k =>
    { k with mx := { k.mx with rt := k.mx.rt.map fun r => { r with owner := o r.owner }
                               parked := k.mx.parked.map fun p => (p.1, p.2.1, o p.2.2) } }

/-- Context 1 of a core restarted from flash (20 R408): its own state as at core reset, KILLREC kept, launches it was
preparing abandoned, the fallback arbiter in force until its first WDOG write. How the ROM maps the image is not stated,
so the restarted context 1 stands at its entry without issuing (log 3). -/
def Mach.restartFw (m : Mach) (c : Nat) : Mach :=
  let m1 := m.logQueued c true
  let kr := (m1.ctx c true).killRec
  let m2 := (((m1.withdraw (.fw c)).disown c).rowEnd c true).updCore c fun k =>
    { k with c1 := { Ctx.reset with killRec := kr }, wdogFed := false, wdogTick := m1.time }
  (m2.launches.filter fun l => m2.preparing c l).reverse.foldl Mach.takeBack m2

/-- The team of a worker: its first logical index over the size of its team; none outside a team (12 R287). -/
def Core.teamNo (k : Core) (lcid : Nat) : Option Nat := if k.teamSize = 0 then none else some (lcid / k.teamSize)

/-- The KILLREC of a kill (14 R319). -/
def killRecOf (x : Ctx) (reason third : Nat) : Word :=
  W (2 ^ 32 + third * 2 ^ 24 + (if x.level = 2 then x.l2.cause.toNat % 256 else 0) * 2 ^ 16 +
    (if 1 ≤ x.level then x.l1.cause.toNat % 256 else 0) * 2 ^ 8 + reason)

/-- The team number of a worker by its launch (12 R287): its own index outside a team. -/
def Launch.teamOf (l : Launch) (lcid : Nat) : Nat :=
  let ts := bits (wordAt l.head 0).toNat 40 36
  if ts = 0 then lcid else lcid / ts

/-- A team that is being switched out, or is away, when it is killed or cancelled (15 R329, R343): it is no candidate any more.
A switch under way is given up, with the images written so far. Members that are away never return; each kill is logged, and so
are the faults queued for them, and the tasks that they had dequeued go back to their queues (10 R272). -/
def Mach.deadTeam (m : Mach) (l t reason : Nat) : Mach :=
  let m1 := m.mapCores fun k => { k with cands := k.cands.filter fun x => x.what != .team l t }
  match m1.susp.find? fun s => s.launch == l && s.team == t && !s.dead with
  | none => m1
  | some s =>
    if s.away then
      let lost (m : Mach) (x : SuspMember) : Mach :=
        let m1 := m.logErr reason kKilled { loc := x.core, info := killRecOf x.kept reason 0 }
        let m2 := x.kept.tasks.foldl (fun m t => (m.requeue t none).1) m1
        x.kept.absent.foldl (fun m h => m.logLost x.core false (W h.code.toNat) h.val) (m2.dropRegionCopies x.kept.region)
      let quiet (x : SuspMember) : SuspMember :=
        { x with kept := { x.kept with absent := [], absentHeld := 0, absentLost := false, wait := none, waitKept := none, tasks := [],
                                       region := none } }
      let m2 := s.members.foldl lost m1
      let m3 := s.members.foldl (fun m x => m.withdraw (.worker x.launch x.lcid)) m2
      { m3 with susp := m3.susp.map fun y =>
          if y = s then { y with dead := true, targets := [], members := y.members.map quiet } else y }
    else
      let back (w : Tab WorkerAt) : Tab WorkerAt := s.members.foldl (fun t x => t.put x.lcid (.on x.core)) w
      (Mach.updLaunch { m1 with susp := m1.susp.filter fun y => y != s } l fun la => { la with workers := back la.workers })

/-- A context is killed (14 R323): KILLREC written, levels discarded, waits withdrawn, its region and task returned,
its queued faults logged; context 1 restarts from flash. -/
def Mach.kill (m : Mach) (c : Nat) (fw : Bool) (reason third : Nat) : Mach :=
  let m0 := ((m.drainScalars c fw).drainStores c fw).rowEnd c fw
  let x := m0.ctx c fw
  let o := m0.ownerOf c fw
  let m1 := m0.logErr reason kKilled { fw := fw, loc := c, info := killRecOf x reason third }
  let m2 := (m1.withdraw o).endTasks c fw
  let m3 := (m2.discardRegion c fw).logQueued c fw
  let m4 := m3.updCtx c fw fun y =>
    { y with killRec := killRecOf x reason third, level := 0, park1 := false, park2 := false, regSusp := false,
             abortPend := false, run := .killed, wait := none, waitKept := none, resp := none, peerSt := none, pend := [], fences := [], assist := false }
  let m5 :=
    match o with
    | .worker l i =>
      let m5 := m4.updLaunch l fun la =>
        { la with killed := true, killedTeams := (match (m4.core c).teamNo i with
            | some t => if la.killedTeams.contains t then la.killedTeams else t :: la.killedTeams
            | none => la.killedTeams) }
      ((match m5.launchOf l with
        | some la => m5.deadTeam l (la.teamOf i) (Cause.code .ctxTeamKilled)
        | none => m5).updCore c fun k => { k with switchTo := false, stop := none }).updLaunch l fun la =>
          { la with workers := la.workers.put i (.on c) }
    | _ => m4
  if fw then m5.restartFw c else m5

/-! ## Taking a trap (14 R320) -/

/-- The CAUSE bit of a fault raised for an absent context (14 R319). -/
def flagAbsent : Word := W (2 ^ 63)
/-- The CAUSE bit of a held fault (14 R319). -/
def flagHeld : Word := W (2 ^ 62)

/-- The words of a saved loop stack, innermost first, with its depth in entry 0 (14 R319). -/
def lstkOf (loops : List LoopEnt) : Tab Word :=
  let ent (j : Nat) (e : LoopEnt) : List (Nat × Word) :=
    [(4 * j, e.start), (4 * j + 1, e.last), (4 * j + 2, W (e.count.toNat * 2 ^ 32 + e.index.toNat)),
     (4 * j + 3, W (b2n e.flex + (if j = 0 then 2 * loops.length else 0)))]
  ⟨(loops.zipIdx.map fun p => ent p.2 p.1).flatten⟩

/-- The loop stack that a level's LSTK words describe (14 R319, R322). -/
def loopsOf (t : Tab Word) : List LoopEnt :=
  (rangeFrom 0 (bits (t.get 0 3).toNat 3 1)).map fun j =>
    { start := t.get 0 (4 * j), last := t.get 0 (4 * j + 1), count := BitVec.ofNat 32 ((t.get 0 (4 * j + 2)).toNat / 2 ^ 32),
      index := BitVec.ofNat 32 (t.get 0 (4 * j + 2)).toNat, flex := bitAt (t.get 0 (4 * j + 3)).toNat 0 }

/-- The registers of trap level L. -/
def Ctx.levelOf (x : Ctx) (l : Nat) : TrapLevel := if l = 2 then x.l2 else x.l1

/-- The context with the registers of a level replaced. -/
def Ctx.setLevel (x : Ctx) (l : Nat) (t : TrapLevel) : Ctx := if l = 2 then { x with l2 := t } else { x with l1 := t }

/-- The park flag of level L. -/
def Ctx.park (x : Ctx) (l : Nat) : Bool := if l = 2 then x.park2 else if l = 1 then x.park1 else false

/-- The context with the park flag of level L written. -/
def Ctx.setPark (x : Ctx) (l : Nat) (b : Bool) : Ctx :=
  if l = 2 then { x with park2 := b } else if l = 1 then { x with park1 := b } else x

/-- The context as the entry of a trap leaves it (14 R320), for a level that can open. -/
def Ctx.enter (x : Ctx) (flags : Word) (code : Nat) (epc val : Word) : Ctx :=
  let l := x.level + 1
  let y := x.setLevel l { cause := flags ||| W code, epc := epc, tval := val, tscr := x.sreg 62, lstk := lstkOf x.loops }
  let z := y.setPark l false
  { z.setS 62 (x.tsave + W (512 * (l - 1))) with
    loops := [], regSusp := z.regSusp || (l == 1 && x.region.isSome), level := l, pc := x.tvec &&& ~~~ (0x3F : Word) }

/-- A trap is taken (14 R320): with no handler, or with both levels open, the context is killed. Results of older bundles
are written first (01 R24). -/
def Mach.takeTrap (m : Mach) (c : Nat) (fw : Bool) (flags : Word) (code : Nat) (epc val : Word) : Mach :=
  let m1 := ((m.drainScalars c fw).rowEnd c fw).updCtx c fw fun x => { x.leaveWait with resp := none, peerSt := none }
  let x := m1.ctx c fw
  if !bitAt x.tvec.toNat 0 then m1.kill c fw code 0
  else if x.level = 2 then m1.kill c fw (Cause.code .ctxLevelOverflow) code
  else m1.updCtx c fw fun x => x.enter flags code epc val

/-- A memory-side fault aborts the open region (10 R272): the checkpoint is restored, buffered effects are discarded, the
item is requeued or dropped, and the trap returns to the TBEGIN bundle. A region that level 1 suspends is marked, and the
trap is taken when the level closes (14 R321, R322). -/
def Mach.abortRegion (m : Mach) (c : Nat) (fw : Bool) (t : Trp) (ia : Nat) : Mach :=
  let x := m.ctx c fw
  match x.region with
  | none => m
  | some r =>
    let hold := if t.cause = .memPageNotPresent then some (x.asid, ia / 2 ^ 16) else none
    let again := t.cause = .memPageNotPresent ∨ t.cause = .memUncorrectable
    let m1 := (m.endRegionTask c fw (decide again) hold).discardRegion c fw
    if x.regSusp then
      m1.updCtx c fw fun y =>
        { y with abortPend := true,
                 region := some { r with ops := [], slots := Tab.empty, masks := Tab.empty, log := [], copies := [], aborted := some t } }
    else
      let m2 := m1.updCore c fun k => { k with epu := k.epu.map fun e => if e.fw = fw then { e with dst := .discard } else e }
      let m3 := m2.updCtx c fw fun y =>
        { y with pend := [], resp := none, wait := none, s := r.chk.s, p := r.chk.p, loops := r.chk.loops, rq := r.chk.rq,
                 lat := r.chk.lat }
      m3.takeTrap c fw 0 t.cause.code r.beginPc t.val

/-! ## Returning from a trap (14 R322) -/

/-- The waiter of a context's wait, as it stands at the object's home (07 R180). -/
def Mach.waiterOf (m : Mach) (c : Nat) (fw : Bool) (w : Wait) : Waiter :=
  { who := m.ownerOf c fw, obj := w.obj, kind := w.kind, asid := (m.ctx c fw).asid,
    det := bitAt (m.ctx c fw).detStat.toNat 0, kept := false }

/-- A context whose fault of its absence has been handled waits on at the bundle where it waited, its request in its place at the
home (15 R339, R340): a wait that has been served completes, and a fault that its home has answered meanwhile is raised there (17
R357). A handler that goes on elsewhere gives the wait up. -/
def Mach.rewait (m : Mach) (c : Nat) (fw : Bool) : Mach :=
  let x := m.ctx c fw
  match x.waitKept with
  | none => m
  | some (a, w) =>
    let o := m.ownerOf c fw
    if a = x.pc then (m.updCtx c fw fun x => { x with waitKept := none, wait := some w, resp := w.fault }).markKept o false
    else (m.updCtx c fw fun x => { x with waitKept := none, q := w.unread x.q }).unqueue o true

/-- A fault raised in a context's absence is delivered (15 R340): its wait is held back until the bundle that waits is reached again,
and its request stays where it is (R339). -/
def Mach.keepWait (m : Mach) (c : Nat) (fw : Bool) : Mach :=
  let x := m.ctx c fw
  match x.wait with
  | none => m
  | some w => (m.updCtx c fw fun x => { x with wait := none, waitKept := some (x.pc, w) }).markKept (m.ownerOf c fw) true

/-- ERET closes the innermost level, which is open and whose park flag is clear (14 R322, steps 2 to 4): the loop stack
and s62 are restored; at level 1 a region abort that is pending is taken as a new trap, else a suspended region resumes;
pc is the level's return address with the rule of 01 R15. -/
def Mach.closeLevel (m : Mach) (c : Nat) (fw : Bool) : Mach :=
  let x := m.ctx c fw
  let l := x.level
  let t := x.levelOf l
  let loops := loopsOf t.lstk
  let y := { ((x.setS 62 t.tscr).setPark l false) with loops := loops, level := l - 1 }
  match (if l = 1 ∧ x.abortPend then x.region else none) with
  | some r =>
    let z := { y with regSusp := false, abortPend := false, region := none, s := r.chk.s, p := r.chk.p,
                      loops := r.chk.loops, rq := r.chk.rq, lat := r.chk.lat }
    let a := r.aborted.getD { cause := .memUncorrectable, val := 0, viol := none }
    (m.updCtx c fw fun _ => z).takeTrap c fw 0 a.cause.code r.beginPc a.val
  | none =>
    let z := { y with regSusp := if l = 1 then false else y.regSusp, pc := t.epc, loops := unwind t.epc loops }
    if l = 1 then (m.updCtx c fw fun _ => z).rewait c fw else m.updCtx c fw fun _ => z

end Sys2Proof.Machine
end

