-- ==== Sys2Proof/Machine/Operands.lean ====
section
/-!
DEFINITION. The operand forms of a bundle: what a source field reads (03 R68 to R70), stream elements and result queues
(01 R20 to R22), operand latches (01 R23), destinations, and the three ways a bundle ends before its effect: it stalls, a
precise fault is raised, or the memory side answers with a fault.
-/
namespace Sys2Proof.Machine

/-- The outcome of a step. -/
abbrev Out := Host.Outcome State Fault Refusal

/-! ## The issuing context -/

/-- The issuing core as the bundle's sources read it. -/
def State.kp (s : State) : Core := s.pre.core s.iss.core
/-- The issuing context as the bundle's sources read it. -/
def State.xp (s : State) : Ctx := s.kp.ctx s.iss.fw
/-- The device with f applied. -/
def State.upd (s : State) (f : Mach → Mach) : State := { s with m := f s.m }
/-- The issuing core with f applied. -/
def State.updK (s : State) (f : Core → Core) : State := s.upd fun m => m.updCore s.iss.core f
/-- The issuing context with f applied. -/
def State.updX (s : State) (f : Ctx → Ctx) : State := s.upd fun m => m.updCtx s.iss.core s.iss.fw f
/-- The issuing core with the effects so far. -/
def State.kc (s : State) : Core := s.m.core s.iss.core
/-- The issuing context with the effects so far. -/
def State.xc (s : State) : Ctx := s.m.ctx s.iss.core s.iss.fw
/-- A task region of the issuing context is open, and no trap level suspends it (14 R321). -/
def State.inRegion (s : State) : Bool := s.xp.region.isSome && !s.xp.regSusp
/-- The owner name of the issuing context. -/
def State.owner (s : State) : Owner := s.pre.ownerOf s.iss.core s.iss.fw

/-! ## How a bundle ends before its effect -/

/-- The bundle does not issue in this step: nothing of it takes effect. -/
def State.stall (s : State) : State := { s with m := s.pre, iss := { s.iss with dead := true } }

/-- A precise fault of the bundle (14 R317): nothing of it has taken effect, and the trap returns to it. -/
def State.trapWith (s : State) (flags : Word) (code : Nat) (v : Word) : State :=
  { s with m := s.pre.takeTrap s.iss.core s.iss.fw flags code s.iss.addr v, iss := { s.iss with dead := true } }

/-- A precise fault of the bundle. -/
def State.trap (s : State) (c : Cause) (v : Word) : State := s.trapWith 0 c.code v

/-- The trap value of an issue check: the slot number above the slot word (03 R89). -/
def State.slotVal (s : State) : Word := W (s.iss.slot * 2 ^ 32 + s.iss.word.toNat)

/-- A fault of an issue check. -/
def State.illegal (s : State) (c : Cause) : State := s.trap c s.slotVal

/-- The memory side answers the bundle's access with a fault (04 R123, 07 R179): nothing of the bundle takes effect but what the memory
side has done to the device b that the bundle found, and the fault waits for MEMORY_ACCESS_RESPONSE. Inside a region it aborts the
region (04 R124). -/
def State.faultFrom (s : State) (b : Mach) (t : Trp) (ia : Nat) : State :=
  if s.inRegion then
    let m1 :=
      match t.viol with
      | some v => b.logViol v
      | none => b
    { s with m := m1.abortRegion s.iss.core s.iss.fw t ia, iss := { s.iss with dead := true, late := true } }
  else
    { s with m := b.updCtx s.iss.core s.iss.fw fun x => { x with resp := some t },
             iss := { s.iss with dead := true, late := true } }

/-- The memory side answers the bundle's access with a fault, and has done nothing. -/
def State.memFault (s : State) (t : Trp) (ia : Nat) : State := s.faultFrom s.pre t ia

/-- A fault to take after the bundle's effect (14 R317); the first one stands. -/
def State.after (s : State) (c : Cause) (v : Word) : State :=
  { s with iss := { s.iss with after := match s.iss.after with
      | some t => some t
      | none => some { cause := c, val := v, viol := none } } }

/-! ## Sources -/

/-- A VSTRM of a context under way holds its stream for its elements (05 R148). -/
def Core.strmBusy (k : Core) (fw : Bool) (n : Nat) : Bool :=
  k.vops.any fun v => v.fw == fw && match v.drain with
    | some d => d.q == n
    | none => false

/-- The element of stream n that the waiting instruction of a context took at issue, which every field of its bundle sees (03 R69,
07 R180; log 128). -/
def Ctx.keptElem (x : Ctx) (n : Nat) : Option Word :=
  x.wait.bind fun w => (w.qs.find? fun e => e.1 == n).map fun e => e.2.2

/-- The value a source field reads (03 R68). -/
def State.src (s : State) (a : Src) : Word :=
  match a with
  | .s n => s.xp.sreg n.toNat
  | .p n => b2w (s.xp.preg n.toNat)
  | .q n => (s.xp.keptElem n.toNat).getD ((s.xp.stream n.toNat).fifo.headD 0)
  | .handle u k => (s.xp.rqOf u.val).getD k.toNat 0
  | .m n => s.kp.m.get 0 n.toNat
  | .li n =>
    match s.xp.loops[n.val]? with
    | some e => W e.index.toNat
    | none => 0
  | .zero => 0
  | .latch u l => s.xp.latch u.val l

/-- The value a 9-bit source reads (03 R70, R66). -/
def State.src9 (s : State) (b : Src9) : Word :=
  match b with
  | .src a => s.src a
  | .imm i => i.signExtend 64
  | .lit => s.iss.lit.signExtend 64

/-- The source fields of a 9-bit source. -/
def srcs9 : Src9 → List Src
  | .src a => [a]
  | _ => []

/-- What keeps a source from being read: an empty stream makes the bundle wait, an unbound one raises ENG_STREAM_UNBOUND
(08 R235), a stream inside a region REGION_ILLEGAL_OP in S1 to S6 (07 R208), an entry beyond the queue ILLEGAL_QUEUE_UNDERRUN (01
R22). -/
def State.srcStop (s : State) (a : Src) : Option State :=
  match a with
  | .q n =>
    if s.inRegion && s.iss.slot != 0 then some (s.trap .regionIllegalOp 0)
    else if (s.xp.keptElem n.toNat).isSome then none
    else if !(s.xp.stream n.toNat).isBound then some (s.trap .engStreamUnbound 0)
    else if (s.xp.stream n.toNat).fifo.isEmpty || s.kp.strmBusy s.iss.fw n.toNat then some s.stall
    else none
  | .handle u k => if (s.xp.rqOf u.val).length ≤ k.toNat then some (s.illegal .illegalQueueUnderrun) else none
  | _ => none

/-- The first source of a list that keeps the bundle from its effect. -/
def State.firstStop (s : State) : List Src → Option State
  | [] => none
  | a :: r =>
    match s.srcStop a with
    | some t => some t
    | none => s.firstStop r

/-- The state after a source is read: a q register gives up one element, the same one to every field of the bundle that
names it (03 R69); one taken when the bundle began to wait is not taken again. -/
def State.take1 (s : State) (a : Src) : State :=
  match a with
  | .q n =>
    if (s.xp.keptElem n.toNat).isSome then s
    else s.updX fun x => { x with q := x.q.put n.toNat { x.stream n.toNat with fifo := (s.xp.stream n.toNat).fifo.tail } }
  | _ => s

/-- Go on once every source of the list can be read. -/
def State.withSrcs (s : State) (l : List Src) (k : State → Out) : Out :=
  match s.firstStop l with
  | some t => .next t
  | none => k (l.foldl State.take1 s)

/-- The value an instruction reads through its D field (04 R115, R117, 07 R201). -/
def State.dstOld (s : State) (d : Dst) : Word :=
  match d with
  | .s n => s.xp.sreg n.toNat
  | .p n => b2w (s.xp.preg n.toNat)
  | .m n => s.kp.m.get 0 n.toNat
  | _ => 0

/-! ## Latches and destinations -/

/-- A source moves into a latch of its unit (01 R23). -/
def State.latch (s : State) (u : Nat) (l : Bool) (v : Word) : State := s.updX fun x => x.setLatch u l v

/-- The sources read through A and B move into the unit's latches (01 R23). -/
def State.latchAB (s : State) (u : Nat) (a b : Word) : State := (s.latch u false a).latch u true b

/-- A result that is written later (01 R18): by SCALAR_RESULT_WRITE, LOAD_DATA_RETURN or MEMORY_ACCESS_RESPONSE. -/
def State.putLate (s : State) (kind : PendKind) (d : Dst) (v : Word) (f : BitVec 5) : State :=
  s.updX fun x => { x with pend := x.pend ++ [{ kind := kind, dst := d, val := v, flags := f, err := none }] }

/-- A result of class LAT_SB. A latch named as destination is written after every slot of the bundle has moved its
sources into latches, so it takes the later path (01 R17, R23). -/
def State.put (s : State) (d : Dst) (v : Word) : State :=
  match d with
  | .latch _ _ => s.putLate .scalar d v 0
  | _ => s.upd fun m => m.putDst s.iss.core s.iss.fw d v

/-- Control goes to t, and the loop stack is left as given. -/
def State.jump (s : State) (t : Word) (loops : List LoopEnt) : State :=
  { (s.updX fun x => { x with pc := t, loops := loops }) with iss := { s.iss with xfer := true } }

/-! ## Live-in registers of a region (10 R271) -/

/-- The first of n v registers from vd on that the open region's live-in mask names. -/
def State.clobbered (s : State) (vd n : Nat) : Option Nat :=
  if s.inRegion then
    match s.xp.region with
    | some r => (rangeFrom vd n).find? fun v => bitAt r.live.toNat v
    | none => none
  else none

/-- Go on unless a destination register is live-in to the open region (10 R271). -/
def State.withDests (s : State) (vd n : Nat) (k : State → Out) : Out :=
  match s.clobbered vd n with
  | some v => .next (s.trap .regionClobber (W v))
  | none => k s

end Sys2Proof.Machine
end

