-- ==== Sys2Proof/Machine/Memory.lean ====
section
/-!
DEFINITION. The accesses of a sequencer to memory: the checks of 04 R121, the region's renamed granules (10 R269), loads
and stores at their homes (04 R122 to R125).
-/
namespace Sys2Proof.Machine

/-! ## Checks -/

/-- The target of n bytes at va for the issuing context (08 R217). -/
def State.target (s : State) (va n : Nat) (rd wr : Bool) : Except Cause Target :=
  s.pre.mapAccess s.iss.core s.iss.fw va n rd wr

/-- The core and offset of a scratchpad target (08 R214, R221). -/
def State.spadOf (s : State) (t : Target) : Option (Nat × Nat) :=
  match (s.pre.resolve s.iss.core).of t with
  | some (c, _, off) => some (c, off)
  | none => none

/-- The issuing context has made a remote team-window access since its latest TBAR (04 R111). -/
def State.markRemote (s : State) (t : Target) : State :=
  match t with
  | .team j _ => if j = s.kp.member then s else s.updX fun x => { x with remoteSince := true }
  | _ => s

/-! ## Renamed granules (10 R269) -/

/-- The slot of the open region that renames the granule of an intermediate address. -/
def Region.slotOf (r : Region) (ia : Nat) : Option Nat :=
  (rangeFrom 0 r.writes.length).find? fun j => r.writes.getD j 0 == ia / 4096 * 4096

/-- A region store: bytes into the slot of the granule, and its mask. -/
def Region.store (r : Region) (j ia : Nat) (bs : List Byte) : Region :=
  { r with
    log := r.log ++ [(ia, bs)]
    slots := r.slots.upd Mem.empty j fun d => d.write (ia % 4096) bs
    masks := r.masks.upd Mem.empty j fun d => d.write (ia % 4096) (bs.map fun _ => 0xFF) }

/-- The IA at which slot j holds the byte of an intermediate address (10 R269). -/
def Region.slotIa (r : Region) (j ia : Nat) : Nat := r.ren + 4096 * j + ia % 4096

/-- The bytes a region load sees: the slot's where the mask is set (10 R269). -/
def Region.overlay (r : Region) (ia : Nat) (bs : List Byte) : List Byte :=
  match r.slotOf ia with
  | none => bs
  | some j =>
    let mk := (r.masks.get Mem.empty j).read (ia % 4096) bs.length
    let sl := (r.slots.get Mem.empty j).read (ia % 4096) bs.length
    (bs.zip (mk.zip sl)).map fun p => if p.2.1 = 0 then p.1 else p.2.2

/-! ## Scratchpad bytes -/

/-- Bytes of a scratchpad as the issuing sequencer reads them: its own older stores to them come first (04 R125). -/
def State.readSpad (s : State) (c off n : Nat) : State × List Byte :=
  let t := if s.xc.storeq.any fun e => e.hits c off n then s.upd fun m => m.drainStores s.iss.core s.iss.fw else s
  (t, t.m.spadRead c off n)

/-- A store enters the store queue (09 R243). -/
def State.queueStore (s : State) (c off : Nat) (bs : List Byte) : State :=
  s.updX fun x => { x with storeq := x.storeq ++ [{ core := c, off := off, data := bs }] }

/-- Every older store of the sequencer is performed. -/
def State.drained (s : State) : State := s.upd fun m => m.drainStores s.iss.core s.iss.fw

/-- The number of queued stores up to the last that p holds of. -/
def upToLast (p : StoreEnt → Bool) (l : List StoreEnt) : Nat := l.length - (l.reverse.takeWhile fun e => !p e).length

/-- The fork of an engine thread (09 R249): the older stores of its sequencer that overlap its bytes are performed, and with them those
before them in the queue. -/
def State.drainedOver (s : State) (p : StoreEnt → Bool) : State :=
  s.upd fun m => m.performStores s.iss.core s.iss.fw (upToLast p s.xc.storeq)

/-! ## Scalar loads and stores -/

/-- A load's value: sign- or zero-extended (04 R120). -/
def loadVal (sg : Bool) (bs : List Byte) : Word :=
  if sg then sextW (8 * bs.length) (natOfBytes bs) else wordOfBytes bs

/-- The fault of a memory access: its cause with the virtual address, and the violation to log (13 R316). -/
def State.memTrp (s : State) (va ia : Nat) (acc : Acc) (c : Cause) : Trp :=
  { cause := c, val := W va, viol := some (s.pre.viol ia s.xp.asid acc c s.iss.core s.iss.fw) }

/-- The memory side's fault of an access: what its walk has set of A and D stays (13 R309). -/
def State.accFault (s : State) (va ia : Nat) (acc : Acc) (c : Cause) : State :=
  s.faultFrom (s.pre.translate s.xp.asid ia acc).1 (s.memTrp va ia acc c) ia

/-! ### The stores of a region that has ended (04 R125) -/

/-- The bytes at an intermediate address, with those that a store writes over them. -/
def overStore (ia : Nat) (bs : List Byte) (e : Nat × List Byte) : List Byte :=
  bs.zipIdx.map fun p => if e.1 ≤ ia + p.2 ∧ ia + p.2 < e.1 + e.2.length then e.2.getD (ia + p.2 - e.1) 0 else p.1

/-- The bytes that a sequencer loads: those that its own regions have stored come first, until their commits perform them (04 R125). -/
def Mach.ownBytes (m : Mach) (o : Owner) (ia : Nat) (bs : List Byte) : List Byte :=
  ((m.commits.filter fun k => k.owner == o).flatMap fun k => k.stores).foldl (overStore ia) bs

/-- What is left of a store once a younger one has taken n bytes at an intermediate address. -/
def cutStore (ia n : Nat) (e : Nat × List Byte) : List (Nat × List Byte) :=
  if e.1 < ia + n ∧ ia < e.1 + e.2.length then
    [(e.1, e.2.take (ia - e.1)), (max e.1 (ia + n), e.2.drop (ia + n - e.1))].filter fun p => !p.2.isEmpty
  else [e]

/-- A younger store of a sequencer takes the place of those that its own commits have not performed: it comes after them (04 R125). -/
def Mach.supersede (m : Mach) (o : Owner) (ia n : Nat) : Mach :=
  { m with commits := m.commits.map fun k => if k.owner = o then { k with stores := k.stores.flatMap (cutStore ia n) } else k }

/-! ### Accesses -/

/-- The bytes at an intermediate address of the memory class, as a load that goes to its home gets them. -/
def State.homeLoad (s : State) (ia n : Nat) : State × Except Cause (List Byte) :=
  match s.m.translate s.xp.asid ia .load with
  | (m1, .error c) => ({ s with m := m1 }, .error c)
  | (m1, .ok p) => ({ s with m := (m1.cachedRead s.iss.core p n).1 }, .ok (m1.cachedRead s.iss.core p n).2)

/-- The bytes at an intermediate address of the memory class: a line present in the scalar data cache needs no round trip (04 R123);
where the home would answer otherwise, the line serves, or has been evicted, by a free choice (log 7). -/
def State.cacheLoad (s : State) (ia n : Nat) : State × Except Cause (List Byte) :=
  match s.m.cacheHit s.iss.core s.xp.asid ia n with
  | none => s.homeLoad ia n
  | some bs =>
    match s.homeLoad ia n with
    | (t, .ok hs) =>
      if hs = bs then (t, .ok hs)
      else if Config.freeBool s.m.nonce then (s.upd Mach.tickNonce, .ok bs) else (s.upd Mach.tickNonce).homeLoad ia n
    | (_, .error _) =>
      if Config.freeBool s.m.nonce then (s.upd Mach.tickNonce, .ok bs) else (s.upd Mach.tickNonce).homeLoad ia n

/-- The bytes that a load from memory returns (04 R123, R125). -/
def State.loadMem (s : State) (ia n : Nat) : State × Except Cause (List Byte) :=
  match s.cacheLoad ia n with
  | (t, .ok bs) => (t, .ok (s.m.ownBytes s.owner ia bs))
  | (t, .error c) => (t, .error c)

/-- A load from memory (04 R123, R124): outside a region it holds its bundle; inside one its value, or its fault, comes
with LOAD_DATA_RETURN. -/
def State.memLoad (s : State) (d : Dst) (va ia n : Nat) (sg : Bool) : Out :=
  match s.loadMem ia n with
  | (t, .ok bs) =>
    if s.inRegion then
      match s.xp.region with
      | some r => .next (t.putLate .load d (loadVal sg (r.overlay ia bs)) 0)
      | none => .next t
    else .next (t.putLate .held d (loadVal sg bs) 0)
  | (t, .error c) =>
    if s.inRegion then
      .next (t.updX fun x => { x with pend := x.pend ++
        [{ kind := .load, dst := .discard, val := W ia, flags := 0, err := some (s.memTrp va ia .load c) }] })
    else .next (s.accFault va ia .load c)

/-- A store to memory inside a region (10 R269): it is checked at the memory side as it is buffered, and a granule lies in
HBM (10 R259; log 49); its bytes go to the slot in memory too (log 71). -/
def State.regionStore (s : State) (va ia : Nat) (bs : List Byte) : State :=
  match s.xp.region with
  | none => s
  | some r =>
    match r.slotOf ia with
    | none => s.memFault { cause := .taskUndeclaredWrite, val := W va, viol := none } ia
    | some j =>
      match s.m.translate s.xp.asid ia .store with
      | (_, .error c) => s.accFault va ia .store c
      | (_, .ok (.hbm _ _)) =>
        (s.updX fun x => { x with region := x.region.map fun r => r.store j ia bs }).upd fun m => m.fwWrite (r.slotIa j ia) bs
      | (_, .ok _) => s.accFault va ia .store .memClass

/-- A store to peer memory holds its bundle until the WRITE frame that it sends is answered (04 R123, 09 R242, 18 R374). -/
def State.peerStore (s : State) (i a va ia : Nat) (bs : List Byte) : State :=
  match s.xp.peerSt with
  | none =>
    let m1 := ((s.pre.drainStores s.iss.core s.iss.fw).translate s.xp.asid ia .store).1
    let m2 := m1.peerRow i a bs (.scalar s.owner (W va))
    { s with m := m2.updCtx s.iss.core s.iss.fw fun x => { x with peerSt := some (some (m1.nextTag % 65536)) },
             iss := { s.iss with dead := true } }
  | some (some _) => s.stall
  | some none => (s.updX fun x => { x with peerSt := none }).putLate .held .discard 0 0

/-- A store to memory (04 R123, R124): outside a region it holds its bundle until the home accepts it, after every older store of its
sequencer (09 R244). -/
def State.memStore (s : State) (va ia : Nat) (bs : List Byte) : Out :=
  if s.inRegion then .next (s.regionStore va ia bs)
  else
    let t := s.drained
    match t.m.translate s.xp.asid ia .store with
    | (_, .error c) => .next (s.accFault va ia .store c)
    | (_, .ok (.peer i a)) => .next (s.peerStore i a va ia bs)
    | (m1, .ok p) =>
      .next (({ t with m := ((m1.cachedWrite s.iss.core p bs).supersede s.owner ia bs.length) } : State).putLate .held .discard 0 0)

/-- The checks of a scalar access, in order (04 R121). -/
def State.access (s : State) (va n : Nat) (rd wr : Bool) (k : Target → Out) : Out :=
  if va % n ≠ 0 then .next (s.trap .alignScalar (W va))
  else
    match s.target va n rd wr with
    | .error c => .next (s.trap c (W va))
    | .ok t => k t

/-- A scalar load meets uncorrectable scratchpad data (04 R122): precise at its bundle, or an abort of the open region;
the error log names the address. -/
def State.badLoad (s : State) (va c off : Nat) : State :=
  let log (m : Mach) : Mach :=
    m.logErr (Cause.code .memUncorrectable) kDetected
      { addr := iaOwn + off, unit := 7, fw := s.iss.fw, loc := c, info := W va }
  let t : Trp := { cause := .memUncorrectable, val := W va, viol := none }
  if s.inRegion then (s.memFault t 0).upd log else (s.trap .memUncorrectable (W va)).upd log

/-- A load from a scratchpad. -/
def State.spadLoad (s : State) (k : PendKind) (d : Dst) (va c off n : Nat) (sg : Bool) : State :=
  if s.pre.badSpad c off n then s.badLoad va c off
  else let (t, bs) := s.readSpad c off n; t.putLate k d (loadVal sg bs) 0

/-- A scalar load of n bytes (04 R120 to R124). A load from the own scratchpad has class LAT_LD; one through the team
window returns its data later. -/
def State.load (s : State) (d : Dst) (va n : Nat) (sg : Bool) : Out :=
  s.access va n true false fun tg =>
    match tg with
    | .mem ia => s.memLoad d va ia n sg
    | .own off => .next (s.spadLoad .scalar d va s.iss.core off n sg)
    | .team _ _ =>
      match s.spadOf tg with
      | none => .next (s.trap .memTeamWindow (W va))
      | some (c, off) => .next ((s.markRemote tg).spadLoad .load d va c off n sg)

/-- A scalar store of bytes (04 R120 to R124): to a scratchpad it enters the store queue and its bundle retires. -/
def State.store (s : State) (va : Nat) (bs : List Byte) : Out :=
  s.access va bs.length false true fun tg =>
    match tg with
    | .mem ia => s.memStore va ia bs
    | _ =>
      match s.spadOf tg with
      | none => .next (s.trap .memTeamWindow (W va))
      | some (c, off) => .next ((s.queueStore c off bs).markRemote tg)

end Sys2Proof.Machine
end

