-- ==== Sys2Proof/Machine/Agu.lean ====
section
/-!
DEFINITION. The address slot S3: address arithmetic (04 R119), scalar loads and stores (04 R120 to R126), and the events
that complete them.
-/
namespace Sys2Proof.Machine

/-- The sources A and B of an address are read and moved into the latches of agu (01 R23). -/
def State.agu2 (s : State) (more : List Src) (a : Src) (b : Src9) (k : State → Word → Word → Out) : Out :=
  s.withSrcs (more ++ a :: srcs9 b) fun t => k (t.latchAB uAGU.val (s.src a) (s.src9 b)) (s.src a) (s.src9 b)

/-- LEA and its scaled forms: a + (b << n) (04 R119). -/
def State.leaOp (s : State) (d : Dst) (a : Src) (b : Src9) (n : Nat) : Out :=
  s.agu2 [] a b fun t x y => .next (t.put d (x + (y <<< n)))

/-- A load of n bytes at a + b × scale (04 R120). -/
def State.loadOp (s : State) (d : Dst) (a : Src) (b : Src9) (n scale : Nat) (sg : Bool) : Out :=
  s.agu2 [] a b fun t x y => t.load d (x + y * W scale).toNat n sg

/-- A store of the low n bytes of X at a + b × scale (04 R120). -/
def State.storeOp (s : State) (x : Src) (a : Src) (b : Src9) (n scale : Nat) : Out :=
  s.agu2 [x] a b fun t p q => t.store (p + q * W scale).toNat (bytesOfWord n (s.src x))

/-- LEA (04 R119). -/
def execLea (d : Dst) (a : Src) (b : Src9) (s : State) : Out := s.leaOp d a b 0

/-- LEAH (04 R119). -/
def execLeah (d : Dst) (a : Src) (b : Src9) (s : State) : Out := s.leaOp d a b 1

/-- LEAW (04 R119). -/
def execLeaw (d : Dst) (a : Src) (b : Src9) (s : State) : Out := s.leaOp d a b 2

/-- LEAD (04 R119). -/
def execLead (d : Dst) (a : Src) (b : Src9) (s : State) : Out := s.leaOp d a b 3

/-- LD.i8 (04 R120). -/
def execLdI8 (d : Dst) (a : Src) (b : Src9) (s : State) : Out :=
  s.loadOp d a b 1 1 true

/-- LD.n8 (04 R120). -/
def execLdN8 (d : Dst) (a : Src) (b : Src9) (s : State) : Out :=
  s.loadOp d a b 1 1 false

/-- LD.i16 (04 R120). -/
def execLdI16 (d : Dst) (a : Src) (b : Src9) (s : State) : Out :=
  s.loadOp d a b 2 1 true

/-- LD.n16 (04 R120). -/
def execLdN16 (d : Dst) (a : Src) (b : Src9) (s : State) : Out :=
  s.loadOp d a b 2 1 false

/-- LD.i32 (04 R120). -/
def execLdI32 (d : Dst) (a : Src) (b : Src9) (s : State) : Out :=
  s.loadOp d a b 4 1 true

/-- LD.n32 (04 R120). -/
def execLdN32 (d : Dst) (a : Src) (b : Src9) (s : State) : Out :=
  s.loadOp d a b 4 1 false

/-- LD.64 (04 R120). -/
def execLd64 (d : Dst) (a : Src) (b : Src9) (s : State) : Out :=
  s.loadOp d a b 8 1 false

/-- LDX.i8 (04 R120). -/
def execLdxI8 (d : Dst) (a : Src) (b : Src9) (s : State) : Out :=
  s.loadOp d a b 1 1 true

/-- LDX.n8 (04 R120). -/
def execLdxN8 (d : Dst) (a : Src) (b : Src9) (s : State) : Out :=
  s.loadOp d a b 1 1 false

/-- LDX.i16 (04 R120). -/
def execLdxI16 (d : Dst) (a : Src) (b : Src9) (s : State) : Out :=
  s.loadOp d a b 2 2 true

/-- LDX.n16 (04 R120). -/
def execLdxN16 (d : Dst) (a : Src) (b : Src9) (s : State) : Out :=
  s.loadOp d a b 2 2 false

/-- LDX.i32 (04 R120). -/
def execLdxI32 (d : Dst) (a : Src) (b : Src9) (s : State) : Out :=
  s.loadOp d a b 4 4 true

/-- LDX.n32 (04 R120). -/
def execLdxN32 (d : Dst) (a : Src) (b : Src9) (s : State) : Out :=
  s.loadOp d a b 4 4 false

/-- LDX.64 (04 R120). -/
def execLdx64 (d : Dst) (a : Src) (b : Src9) (s : State) : Out :=
  s.loadOp d a b 8 8 false

/-- ST.8 (04 R120). -/
def execSt8 (x : Src) (a : Src) (b : Src9) (s : State) : Out := s.storeOp x a b 1 1

/-- ST.16 (04 R120). -/
def execSt16 (x : Src) (a : Src) (b : Src9) (s : State) : Out := s.storeOp x a b 2 1

/-- ST.32 (04 R120). -/
def execSt32 (x : Src) (a : Src) (b : Src9) (s : State) : Out := s.storeOp x a b 4 1

/-- ST.64 (04 R120). -/
def execSt64 (x : Src) (a : Src) (b : Src9) (s : State) : Out := s.storeOp x a b 8 1

/-- STX.8 (04 R120). -/
def execStx8 (x : Src) (a : Src) (b : Src9) (s : State) : Out := s.storeOp x a b 1 1

/-- STX.16 (04 R120). -/
def execStx16 (x : Src) (a : Src) (b : Src9) (s : State) : Out := s.storeOp x a b 2 2

/-- STX.32 (04 R120). -/
def execStx32 (x : Src) (a : Src) (b : Src9) (s : State) : Out := s.storeOp x a b 4 4

/-- STX.64 (04 R120). -/
def execStx64 (x : Src) (a : Src) (b : Src9) (s : State) : Out := s.storeOp x a b 8 8

/-! ## Completions -/

/-- Go on with an event of core c, which the device has. -/
def onCore (c : Nat) (k : Out) : Out := if c < Config.nCores then k else .fault (.noSuchObject "core")

/-- The oldest pending result of a kind is written, and leaves the list. -/
def Mach.finishKind (m : Mach) (c : Nat) (fw : Bool) (k : PendKind) : Mach :=
  match (m.ctx c fw).pend.find? fun p => p.kind == k with
  | none => m
  | some p => (m.updCtx c fw fun x => { x with pend := x.pend.erase p }).finishPend c fw p

/-- SCALAR_RESULT_WRITE (01 R18, R27): the oldest multi-cycle result of the context is written. -/
def execScalarResultWrite (core : Nat) (fw : Bool) (s : State) : Out :=
  onCore core (.next (s.upd fun m => m.finishKind core fw .scalar))

/-- LOAD_DATA_RETURN (04 R122, R124): the oldest such load's data is written, or its fault aborts the region. -/
def execLoadDataReturn (core : Nat) (fw : Bool) (s : State) : Out :=
  onCore core
    (match (s.m.ctx core fw).pend.find? fun p => p.kind == .load with
     | none => .next s
     | some p =>
       match p.err with
       | none => .next (s.upd fun m => m.finishKind core fw .load)
       | some t =>
         .next (s.upd fun m =>
           let m1 := match t.viol with
             | some v => m.logViol v
             | none => m
           m1.abortRegion core fw t p.val.toNat))

/-- MEMORY_ACCESS_RESPONSE (04 R123): a held access's data is written and its bundle retires, or its fault is logged and
raised at its bundle, which stands at the pc (14 R317). -/
def execMemoryAccessResponse (core : Nat) (fw : Bool) (s : State) : Out :=
  onCore core
    (match (s.m.ctx core fw).resp with
     | some t =>
       .next (s.upd fun m =>
         let m1 := match t.viol with
           | some v => m.logViol v
           | none => m
         m1.takeTrap core fw 0 t.cause.code (m.ctx core fw).pc t.val)
     | none => .next (s.upd fun m => m.finishKind core fw .held))

/-- STORE_PERFORMED (09 R243): the store at the head of the context's store queue is performed. -/
def execStorePerformed (core : Nat) (fw : Bool) (s : State) : Out :=
  onCore core (.next (s.upd fun m => m.performStore core fw))

end Sys2Proof.Machine
end

