-- ==== Sys2Proof/Machine/Flags.lean ====
section
/-!
DEFINITION. The floating-point flags (02 R46), exact values, and rounding (02 R38, R44, R45, R47): every flag that an
operation sets comes from the functions of this file.
-/
namespace Sys2Proof.Machine

/-! ## Flags (02 R46) -/

/-- Invalid operation. -/
def fNV : BitVec 5 := 0x10
/-- Division of a finite non-zero value by zero. -/
def fDZ : BitVec 5 := 0x08
/-- Overflow. -/
def fOF : BitVec 5 := 0x04
/-- Underflow. -/
def fUF : BitVec 5 := 0x02
/-- Inexact. -/
def fNX : BitVec 5 := 0x01

/-- A flag where a condition holds. -/
def flagIf (b : Bool) (f : BitVec 5) : BitVec 5 := if b then f else 0

/-- A result pattern with the flags it sets. -/
structure FR where
  val : Nat
  fl : BitVec 5
  deriving DecidableEq, Repr

/-! ## Exact values -/

/-- An exact value: (-1)^neg × m × 2^e, an infinity, or a NaN (quiet or signalling). -/
inductive Num where
  | fin (neg : Bool) (m : Nat) (e : Int)
  | inf (neg : Bool)
  | nan (sig : Bool)
  deriving DecidableEq, Repr

/-- Whether a value is a NaN. -/
def Num.isNan : Num → Bool
  | .nan _ => true
  | _ => false

/-- Whether a value is a signalling NaN. -/
def Num.isSig : Num → Bool
  | .nan s => s
  | _ => false

/-- Whether a value is infinite. -/
def Num.isInf : Num → Bool
  | .inf _ => true
  | _ => false

/-- Whether a value is a zero. -/
def Num.isZero : Num → Bool
  | .fin _ m _ => m == 0
  | _ => false

/-- The sign of a value; a NaN has none. -/
def Num.sign : Num → Bool
  | .fin n _ _ => n
  | .inf n => n
  | .nan _ => false

/-- The value with the other sign. -/
def Num.negate : Num → Num
  | .fin n m e => .fin (!n) m e
  | .inf n => .inf (!n)
  | .nan s => .nan s

/-- An integer as an exact value. -/
def Num.ofInt (x : Int) : Num := .fin (decide (x < 0)) x.natAbs 0

/-- The signed integer of a sign and a magnitude. -/
def signed (neg : Bool) (m : Nat) : Int := if neg then -(m : Int) else m

/-- The number of bits of a number. -/
def bitLen (n : Nat) : Nat := if n = 0 then 0 else Nat.log2 n + 1

/-- The comparison of two finite values, as the sign of their difference. -/
def cmpFin (n1 : Bool) (m1 : Nat) (e1 : Int) (n2 : Bool) (m2 : Nat) (e2 : Int) : Int :=
  let e := min e1 e2
  signed n1 (m1 * 2 ^ (e1 - e).toNat) - signed n2 (m2 * 2 ^ (e2 - e).toNat)

/-- The comparison of two values that are not NaN, negative for less; -0 equals +0. -/
def Num.cmp (a b : Num) : Int :=
  match a, b with
  | .fin n1 m1 e1, .fin n2 m2 e2 => cmpFin n1 m1 e1 n2 m2 e2
  | .inf n, .inf k => (if n then -1 else 1) - (if k then -1 else 1)
  | .inf n, _ => if n then -1 else 1
  | _, .inf n => if n then 1 else -1
  | _, _ => 0

/-! ## Rounding -/

/-- m × 2^e as a multiple of 2^q, rounded to nearest with ties to even, or toward zero: the multiple, and whether it is
inexact. The even neighbour is the one with an even multiple, in binary8 of precision 1 too, whose codes hold no significand bit (02 R44
leaves open which code is even there; log 120). -/
def roundAt (m : Nat) (e q : Int) (rz : Bool) : Nat × Bool :=
  if q ≤ e then (m * 2 ^ (e - q).toNat, false)
  else
    let sh := (q - e).toNat
    let r := m / 2 ^ sh
    let low := m % 2 ^ sh
    let up := !rz && (decide (2 ^ sh < 2 * low) || (2 * low == 2 ^ sh && r % 2 == 1))
    (if up then r + 1 else r, low != 0)

/-- A floating-point format on a grid: precision p, and the exponent of its smallest subnormal. -/
structure Grid where
  p : Nat
  qmin : Int
  deriving DecidableEq, Repr

/-- The weight of the last bit that a format of precision p keeps of m × 2^e, no smaller than its subnormal spacing. -/
def Grid.lsb (g : Grid) (m : Nat) (e : Int) : Int := max (e + bitLen m - g.p) g.qmin

/-- The code of r × 2^q on the grid's number line: fields exponent and trailing, with no upper bound. -/
def Grid.code (g : Grid) (r : Nat) (q : Int) : Nat :=
  if r = 0 then 0 else (q - g.qmin).toNat * 2 ^ (g.p - 1) + r

/-- A non-zero value rounded onto the grid: its unbounded code, whether it is inexact, and whether the value rounded
without a lower exponent bound is below the smallest normal (02 R38). -/
def Grid.round (g : Grid) (m : Nat) (e : Int) : Nat × Bool × Bool :=
  let q := g.lsb m e
  let r := roundAt m e q false
  let q2 : Int := e + bitLen m - g.p
  let r2 := (roundAt m e q2 false).1
  (g.code r.1 q, r.2, decide (q2 + bitLen r2 ≤ g.qmin + g.p - 1))

/-! ## IEEE formats (02 R37, R38) -/

/-- An IEEE format: its grid and its width in bits. -/
structure Flt where
  g : Grid
  w : Nat
  deriving DecidableEq, Repr

/-- f16. -/
def flt16 : Flt := { g := { p := 11, qmin := -24 }, w := 16 }
/-- bf16. -/
def fltB16 : Flt := { g := { p := 8, qmin := -133 }, w := 16 }
/-- f32. -/
def flt32 : Flt := { g := { p := 24, qmin := -149 }, w := 32 }
/-- f64. -/
def flt64 : Flt := { g := { p := 53, qmin := -1074 }, w := 64 }

/-- The pattern of +∞. -/
def Flt.infBits (F : Flt) : Nat := 2 ^ (F.w - 1) - 2 ^ (F.g.p - 1)
/-- The canonical NaN (02 R37). -/
def Flt.nanBits (F : Flt) : Nat := F.infBits + 2 ^ (F.g.p - 2)
/-- The sign bit, where a sign is set. -/
def Flt.signBit (F : Flt) (neg : Bool) : Nat := if neg then 2 ^ (F.w - 1) else 0

/-- The value of a pattern. -/
def Flt.num (F : Flt) (x : Nat) : Num :=
  let neg := bitAt x (F.w - 1)
  let t := x % 2 ^ (F.w - 1)
  let ex := t / 2 ^ (F.g.p - 1)
  let f := t % 2 ^ (F.g.p - 1)
  if F.infBits ≤ t then
    if f = 0 then .inf neg else .nan (!bitAt f (F.g.p - 2))
  else if ex = 0 then .fin neg f F.g.qmin
  else .fin neg (f + 2 ^ (F.g.p - 1)) (F.g.qmin + ex - 1)

/-- Whether a pattern is a non-zero subnormal. -/
def Flt.isSub (F : Flt) (x : Nat) : Bool :=
  let t := x % 2 ^ (F.w - 1)
  t != 0 && decide (t < 2 ^ (F.g.p - 1))

/-- The value an operation reads from a pattern; in FIXED mode a subnormal is a zero of its sign (02 R47). -/
def Flt.inp (F : Flt) (fx : Bool) (x : Nat) : Num :=
  if fx && F.isSub x then .fin (bitAt x (F.w - 1)) 0 0 else F.num x

/-- A finite value rounded once to the format (02 R38); in FIXED mode a subnormal result is a zero of its sign with UF
and NX (02 R47). -/
def Flt.enc (F : Flt) (sat fx neg : Bool) (m : Nat) (e : Int) : FR :=
  if m = 0 then { val := F.signBit neg, fl := 0 }
  else
    let (c, inex, tiny) := F.g.round m e
    if F.infBits ≤ c then { val := F.signBit neg + (if sat then F.infBits - 1 else F.infBits), fl := fOF ||| fNX }
    else if fx && F.isSub c then { val := F.signBit neg, fl := fUF ||| fNX }
    else { val := F.signBit neg + c, fl := flagIf inex fNX ||| flagIf (inex && tiny) fUF }

/-- An infinity of the format. -/
def Flt.infOf (F : Flt) (neg : Bool) : Nat := F.signBit neg + F.infBits

/-- A value written in the format (02 R38, R43): a NaN becomes canonical, and a signalling one sets NV. -/
def Flt.put (F : Flt) (sat fx : Bool) (x : Num) : FR :=
  match x with
  | .nan s => { val := F.nanBits, fl := flagIf s fNV }
  | .inf n => { val := F.infOf n, fl := 0 }
  | .fin n m e => F.enc sat fx n m e

/-! ## Operations on IEEE formats (02 R38) -/

/-- The NaN of an invalid operation. -/
def Flt.invalid (F : Flt) : FR := { val := F.nanBits, fl := fNV }

/-- The NaN that NaN operands produce. -/
def Flt.nanOf (F : Flt) (xs : List Num) : FR := { val := F.nanBits, fl := flagIf (xs.any Num.isSig) fNV }

/-- The exact sum of two finite values, with the sign of a zero sum (02 R38: round to nearest). -/
def addFin (n1 : Bool) (m1 : Nat) (e1 : Int) (n2 : Bool) (m2 : Nat) (e2 : Int) : Num :=
  let e := min e1 e2
  let s := signed n1 (m1 * 2 ^ (e1 - e).toNat) + signed n2 (m2 * 2 ^ (e2 - e).toNat)
  if s = 0 then .fin (n1 && n2) 0 0 else .fin (decide (s < 0)) s.natAbs e

/-- The exact sum of two values that are not NaN; none for ∞ - ∞. -/
def Num.add (a b : Num) : Option Num :=
  match a, b with
  | .fin n1 m1 e1, .fin n2 m2 e2 => some (addFin n1 m1 e1 n2 m2 e2)
  | .inf n, .inf k => if n == k then some (.inf n) else none
  | .inf n, _ => some (.inf n)
  | _, .inf n => some (.inf n)
  | x, _ => some x

/-- The exact product of two values that are not NaN; none for 0 × ∞. -/
def Num.mul (a b : Num) : Option Num :=
  match a, b with
  | .fin n1 m1 e1, .fin n2 m2 e2 => some (.fin (n1 != n2) (m1 * m2) (e1 + e2))
  | .inf n, y => if y.isZero then none else some (.inf (n != y.sign))
  | x, .inf n => if x.isZero then none else some (.inf (x.sign != n))
  | x, _ => some x

/-- An exact result that may be invalid, rounded. -/
def Flt.fin1 (F : Flt) (fx : Bool) : Option Num → FR
  | none => F.invalid
  | some x => F.put false fx x

/-- a + b. -/
def Flt.addN (F : Flt) (fx : Bool) (a b : Num) : FR :=
  if a.isNan || b.isNan then F.nanOf [a, b] else F.fin1 fx (a.add b)

/-- a × b. -/
def Flt.mulN (F : Flt) (fx : Bool) (a b : Num) : FR :=
  if a.isNan || b.isNan then F.nanOf [a, b] else F.fin1 fx (a.mul b)

/-- a × b + c with one rounding. A NaN operand stands before the invalid product 0 × ∞ (log 20). -/
def Flt.fmaN (F : Flt) (fx : Bool) (a b c : Num) : FR :=
  if a.isNan || b.isNan || c.isNan then F.nanOf [a, b, c]
  else
    match a.mul b with
    | none => F.invalid
    | some x => F.fin1 fx (x.add c)

/-- A quotient n ÷ d with enough bits that one rounding of it is the rounding of the exact quotient: the last bit says
whether bits were dropped. -/
def quotSticky (p n d : Nat) : Nat × Int :=
  let k := p + 3 + bitLen d
  let q := n * 2 ^ k / d
  let r := n * 2 ^ k % d
  (2 * q + b2n (r != 0), -(k : Int) - 1)

/-- a ÷ b (04 R117). -/
def Flt.divN (F : Flt) (fx : Bool) (a b : Num) : FR :=
  if a.isNan || b.isNan then F.nanOf [a, b]
  else
    let neg := a.sign != b.sign
    match a, b with
    | .inf _, .inf _ => F.invalid
    | .inf _, _ => { val := F.infOf neg, fl := 0 }
    | _, .inf _ => { val := F.signBit neg, fl := 0 }
    | .fin _ m1 e1, .fin _ m2 e2 =>
      if m2 = 0 then (if m1 = 0 then F.invalid else { val := F.infOf neg, fl := fDZ })
      else
        let (q, k) := quotSticky F.g.p m1 m2
        F.enc false fx neg q (k + e1 - e2)
    | _, _ => F.invalid

/-- The integer square root of n below 2^k, found bit by bit: the bits still to try, and the root so far. -/
def isqrtFrom : Nat → Nat → Nat → Nat
  | 0, _, r => r
  | k + 1, n, r =>
    let c := r + 2 ^ k
    isqrtFrom k n (if c * c ≤ n then c else r)

/-- The integer square root. -/
def isqrt (n : Nat) : Nat := isqrtFrom (bitLen n / 2 + 1) n 0

/-- The square root of m × 2^e with p + 3 bits or more and a last bit that says whether bits were dropped. -/
def sqrtSticky (p m : Nat) (e : Int) : Nat × Int :=
  let (m1, e1) := if e % 2 = 0 then (m, e) else (2 * m, e - 1)
  let n := m1 * 2 ^ (2 * (p + 3))
  let r := isqrt n
  (2 * r + b2n (r * r != n), e1 / 2 - ((p : Int) + 3) - 1)

/-- √a (04 R117): √-0 is -0, a number less than zero is invalid. -/
def Flt.sqrtN (F : Flt) (fx : Bool) (a : Num) : FR :=
  match a with
  | .nan s => { val := F.nanBits, fl := flagIf s fNV }
  | .inf n => if n then F.invalid else { val := F.infBits, fl := 0 }
  | .fin n m e =>
    if m = 0 then { val := F.signBit n, fl := 0 }
    else if n then F.invalid
    else
      let (r, k) := sqrtSticky F.g.p m e
      F.enc false fx false r k

/-- Whether a is before b in the order of minimum and maximum: -0 below +0 (02 R38). -/
def Num.before (a b : Num) : Bool :=
  let c := a.cmp b
  decide (c < 0) || (c == 0 && a.sign && !b.sign)

/-- The IEEE 754-2019 minimum, or with mx the maximum: NaN propagates. -/
def Flt.minMaxN (F : Flt) (fx mx : Bool) (a b : Num) : FR :=
  if a.isNan || b.isNan then F.nanOf [a, b]
  else F.put false fx (if (if mx then b.before a else a.before b) then a else b)

/-- The compares (04 R117): 0 equal, 1 less, 2 less or equal; a NaN gives 0, and sets NV where the compare is ordered or
the NaN signals. -/
def cmpN (k : Nat) (a b : Num) : FR :=
  if a.isNan || b.isNan then { val := 0, fl := flagIf (k != 0 || a.isSig || b.isSig) fNV }
  else
    let c := a.cmp b
    { val := b2n (if k = 0 then c == 0 else if k = 1 then decide (c < 0) else decide (c ≤ 0)), fl := 0 }

/-! ## Integers (02 R36, R45) -/

/-- The least value of a w-bit type. -/
def intLo (sg : Bool) (w : Nat) : Int := if sg then -(2 ^ (w - 1) : Int) else 0
/-- The greatest value of a w-bit type. -/
def intHi (sg : Bool) (w : Nat) : Int := if sg then 2 ^ (w - 1) - 1 else 2 ^ w - 1

/-- An integer clamped to the range of a type. -/
def clampInt (sg : Bool) (w : Nat) (x : Int) : Int := max (intLo sg w) (min (intHi sg w) x)

/-- An integer result: wrapped, or with SAT clamped (02 R36). -/
def intPut (sg : Bool) (w : Nat) (sat : Bool) (x : Int) : Nat := unsgn w (if sat then clampInt sg w x else x)

/-- A conversion to an integer (02 R45). -/
def toIntN (sg : Bool) (w : Nat) (rz : Bool) (x : Num) : FR :=
  match x with
  | .nan _ => { val := 0, fl := fNV }
  | .inf n => { val := unsgn w (if n then intLo sg w else intHi sg w), fl := fNV }
  | .fin n m e =>
    let (r, inex) := roundAt m e 0 rz
    let v := signed n r
    if v < intLo sg w ∨ intHi sg w < v then { val := unsgn w (clampInt sg w v), fl := fNV }
    else { val := unsgn w v, fl := flagIf inex fNX }

/-! ## The binary8 family (02 R39 to R44) -/

/-- A binary8 format: precision, whether it is unsigned, whether it has infinities. -/
structure F8 where
  p : Nat
  uns : Bool
  inf : Bool
  deriving DecidableEq, Repr

/-- The exponent bias (02 R39, R41). -/
def F8.bias (F : F8) : Nat := if F.uns then 2 ^ (8 - F.p) - 1 else 2 ^ (7 - F.p)
/-- The grid of the format. -/
def F8.g (F : F8) : Grid := { p := F.p, qmin := 2 - (F.bias : Int) - F.p }
/-- The largest finite code of positive sign (02 R40, R41). -/
def F8.top (F : F8) : Nat := if F.uns then (if F.inf then 0xFD else 0xFE) else (if F.inf then 0x7E else 0x7F)
/-- The NaN. -/
def F8.nan (F : F8) : Nat := if F.uns then 0xFF else 0x80
/-- The code of +∞, where the format has one. -/
def F8.infCode (F : F8) : Nat := if F.uns then 0xFE else 0x7F
/-- The bit of a negative sign. -/
def F8.signBit (F : F8) (neg : Bool) : Nat := if neg && !F.uns then 0x80 else 0

/-- The value of a code (02 R39, R41). -/
def F8.num (F : F8) (c : Nat) : Num :=
  if c = F.nan then .nan false
  else
    let neg := !F.uns && bitAt c 7
    let t := if F.uns then c % 256 else c % 128
    if F.inf ∧ t = F.infCode then .inf neg
    else
      let ex := t / 2 ^ (F.p - 1)
      let f := t % 2 ^ (F.p - 1)
      if ex = 0 then .fin neg f F.g.qmin else .fin neg (f + 2 ^ (F.p - 1)) (F.g.qmin + ex - 1)

/-- A conversion to a binary8 format (02 R44). -/
def F8.put (F : F8) (sat : Bool) (x : Num) : FR :=
  match x with
  | .nan s => { val := F.nan, fl := flagIf s fNV }
  | .inf n =>
    if F.uns && n then { val := if sat then 0 else F.nan, fl := fNV }
    else if F.inf then { val := F.signBit n + F.infCode, fl := 0 }
    else if sat then { val := F.signBit n + F.top, fl := 0 }
    else { val := F.nan, fl := fNV }
  | .fin n m e =>
    if m = 0 then { val := 0, fl := 0 }
    else
      let (c, inex, _) := F.g.round m e
      if F.uns && n then (if c = 0 then { val := 0, fl := 0 } else { val := if sat then 0 else F.nan, fl := fNV })
      else if F.top < c then
        { val := if sat then F.signBit n + F.top else if F.inf then F.signBit n + F.infCode else F.nan,
          fl := fOF ||| fNX }
      else
        { val := if c = 0 then 0 else F.signBit n + c,
          fl := flagIf inex fNX ||| flagIf (inex && decide (c < 2 ^ (F.p - 1))) fUF }

/-! ## Element formats (02 R34) -/

/-- The IEEE format of a floating-point VT. -/
def fltOf : VT → Flt
  | .f16 => flt16
  | .bf16 => fltB16
  | .f64 => flt64
  | _ => flt32

/-- The binary8 format of a code's type. -/
def f8Of (f : Fmt) : F8 :=
  match f.typ with
  | .f8 p => { p := p.val + 1, uns := false, inf := f.inf }
  | .g8 p => { p := p.val + 1, uns := true, inf := f.inf }
  | _ => { p := 1, uns := false, inf := false }

/-- The value of an integer pattern of a VT. -/
def intOf (t : VT) (x : Nat) : Int := if t.isSigned then sgn (8 * t.bytes) x else ((x % 2 ^ (8 * t.bytes) : Nat) : Int)

/-- The value of a pattern of a VT; fx flushes subnormals (02 R47). -/
def vtNum (t : VT) (fx : Bool) (x : Nat) : Num := if t.isFloat then (fltOf t).inp fx x else Num.ofInt (intOf t x)

/-- The value of an element of a format; raw bytes are read as their number. -/
def fmtNum (f : Fmt) (fx : Bool) (x : Nat) : Num :=
  match f.typ with
  | .vt t => vtNum t fx x
  | .raw => .fin false (x % 256) 0
  | _ => (f8Of f).num (x % 256)

/-- Whether a format's elements are integers. -/
def fmtInt (f : Fmt) : Bool :=
  match f.typ with
  | .vt t => !t.isFloat
  | _ => false

/-- A value converted into a format (02 R43): from an integer an integer wraps, or clamps with SAT; other sources follow
R38, R44 and R45. -/
def fmtPut (f : Fmt) (fx rz fromInt : Bool) (x : Num) : FR :=
  match f.typ with
  | .vt t =>
    if t.isFloat then (fltOf t).put f.sat fx x
    else if fromInt then
      match x with
      | .fin n m _ => { val := intPut t.isSigned (8 * t.bytes) f.sat (signed n m), fl := 0 }
      | _ => toIntN t.isSigned (8 * t.bytes) rz x
    else toIntN t.isSigned (8 * t.bytes) rz x
  | .raw =>
    (match x with
     | .fin _ m _ => { val := m % 256, fl := 0 }
     | _ => { val := 0, fl := 0 })
  | _ => (f8Of f).put f.sat x

/-- A format of a VT with neither attribute. -/
def vtFmt (t : VT) : Fmt := { typ := .vt t, inf := false, sat := false }

/-- An element converted between formats: fx flushes subnormal inputs and results (02 R47), rz rounds to an integer
toward zero. -/
def fmtConv (src dst : Fmt) (fx rz : Bool) (x : Nat) : FR := fmtPut dst fx rz (fmtInt src) (fmtNum src fx x)

end Sys2Proof.Machine
end

