-- ==== Sys2Proof/Machine/Alu.lean ====
section
/-!
DEFINITION. The scalar slots S1 and S2: integer operations (04 R112 to R115) and scalar floating point (04 R116 to
R118). alu0 and alu1 execute the same operations (03 R74).
-/
namespace Sys2Proof.Machine

/-! ## The shapes -/

/-- The sources of a binary operation are read and moved into its unit's latches (01 R23). -/
def State.alu2 (s : State) (u : Alu) (a : Src) (b : Src9) (k : State → Word → Word → Out) : Out :=
  s.withSrcs (a :: srcs9 b) fun t => k (t.latchAB u.unit.val (s.src a) (s.src9 b)) (s.src a) (s.src9 b)

/-- The source of a unary operation is read and moved into latch A (01 R23). -/
def State.alu1 (s : State) (u : Alu) (a : Src) (k : State → Word → Out) : Out :=
  s.withSrcs [a] fun t => k (t.latch u.unit.val false (s.src a)) (s.src a)

/-- A binary operation of class LAT_SB. -/
def State.aluSb (s : State) (u : Alu) (d : Dst) (a : Src) (b : Src9) (f : Word → Word → Word) : Out :=
  s.alu2 u a b fun t x y => .next (t.put d (f x y))

/-- A unary operation of class LAT_SB. -/
def State.aluSb1 (s : State) (u : Alu) (d : Dst) (a : Src) (f : Word → Word) : Out :=
  s.alu1 u a fun t x => .next (t.put d (f x))

/-- A binary operation of class LAT_SM. -/
def State.aluSm (s : State) (u : Alu) (d : Dst) (a : Src) (b : Src9) (f : Word → Word → Word) : Out :=
  s.alu2 u a b fun t x y => .next (t.putLate .scalar d (f x y) 0)

/-- A divide, of class LAT_SL: a divisor 0 traps at the bundle (04 R113). -/
def State.aluDiv (s : State) (u : Alu) (d : Dst) (a : Src) (b : Src9) (f : Word → Word → Word) : Out :=
  s.alu2 u a b fun t x y =>
    if y = 0 then .next (s.illegal .arithDivZero) else .next (t.putLate .scalar d (f x y) 0)

/-! ## Integer results (04 R112 to R114) -/

/-- Bits [127:64] of the signed product. -/
def mulhW (a b : Word) : Word := BitVec.ofInt 64 (a.toInt * b.toInt / 2 ^ 64)
/-- Bits [127:64] of the unsigned product. -/
def mulhuW (a b : Word) : Word := W (a.toNat * b.toNat / 2 ^ 64)
/-- A shift count: b[5:0]. -/
def cnt6 (b : Word) : Nat := b.toNat % 64
/-- Leading zeros; 64 for 0. -/
def clzW (a : Word) : Word := W (64 - bitLen a.toNat)
/-- Trailing zeros; 64 for 0. -/
def ctzW (a : Word) : Word := if a = 0 then 64 else W (bitLen (a &&& -a).toNat - 1)
/-- Set bits. -/
def popcW (a : Word) : Word := W ((rangeFrom 0 64).filter fun i => bitAt a.toNat i).length
/-- A length: 0 and anything above 64 mean 64 (04 R114). -/
def lenOf (n : Nat) : Nat := if n = 0 ∨ 64 < n then 64 else n
/-- The position of a bit field: b[5:0]. -/
def bfPos (b : Word) : Nat := bits b.toNat 5 0
/-- The length of a bit field: b[12:6]. -/
def bfLen (b : Word) : Nat := lenOf (bits b.toNat 12 6)
/-- BINS (04 R114). -/
def binsW (a b old : Word) : Word :=
  let mask := W ((2 ^ bfLen b - 1) * 2 ^ bfPos b)
  (old &&& ~~~ mask) ||| ((a <<< bfPos b) &&& mask)
/-- LIH (04 R112). -/
def lihW (a b : Word) : Word := W (b.toNat % 2 ^ 32 * 2 ^ 32 + a.toNat % 2 ^ 32)

/-! ## Integer instructions -/

/-- ADD (04 R112, R114). -/
def execAdd (u : Alu) (d : Dst) (a : Src) (b : Src9) (s : State) : Out :=
  s.aluSb u d a b fun x y => x + y

/-- SUB (04 R112, R114). -/
def execSub (u : Alu) (d : Dst) (a : Src) (b : Src9) (s : State) : Out :=
  s.aluSb u d a b fun x y => x - y

/-- AND (04 R112, R114). -/
def execAnd (u : Alu) (d : Dst) (a : Src) (b : Src9) (s : State) : Out :=
  s.aluSb u d a b fun x y => x &&& y

/-- OR (04 R112, R114). -/
def execOr (u : Alu) (d : Dst) (a : Src) (b : Src9) (s : State) : Out :=
  s.aluSb u d a b fun x y => x ||| y

/-- XOR (04 R112, R114). -/
def execXor (u : Alu) (d : Dst) (a : Src) (b : Src9) (s : State) : Out :=
  s.aluSb u d a b fun x y => x ^^^ y

/-- ANDN (04 R112, R114). -/
def execAndn (u : Alu) (d : Dst) (a : Src) (b : Src9) (s : State) : Out :=
  s.aluSb u d a b fun x y => x &&& ~~~ y

/-- SHL (04 R112, R114). -/
def execShl (u : Alu) (d : Dst) (a : Src) (b : Src9) (s : State) : Out :=
  s.aluSb u d a b fun x y => x <<< cnt6 y

/-- SHR (04 R112, R114). -/
def execShr (u : Alu) (d : Dst) (a : Src) (b : Src9) (s : State) : Out :=
  s.aluSb u d a b fun x y => x >>> cnt6 y

/-- SRA (04 R112, R114). -/
def execSra (u : Alu) (d : Dst) (a : Src) (b : Src9) (s : State) : Out :=
  s.aluSb u d a b fun x y => x.sshiftRight (cnt6 y)

/-- ROL (04 R112, R114). -/
def execRol (u : Alu) (d : Dst) (a : Src) (b : Src9) (s : State) : Out :=
  s.aluSb u d a b fun x y => x.rotateLeft (cnt6 y)

/-- ROR (04 R112, R114). -/
def execRor (u : Alu) (d : Dst) (a : Src) (b : Src9) (s : State) : Out :=
  s.aluSb u d a b fun x y => x.rotateRight (cnt6 y)

/-- MIN (04 R112, R114). -/
def execMin (u : Alu) (d : Dst) (a : Src) (b : Src9) (s : State) : Out :=
  s.aluSb u d a b fun x y => if y.toInt < x.toInt then y else x

/-- MINU (04 R112, R114). -/
def execMinu (u : Alu) (d : Dst) (a : Src) (b : Src9) (s : State) : Out :=
  s.aluSb u d a b fun x y => if y.toNat < x.toNat then y else x

/-- MAX (04 R112, R114). -/
def execMax (u : Alu) (d : Dst) (a : Src) (b : Src9) (s : State) : Out :=
  s.aluSb u d a b fun x y => if x.toInt < y.toInt then y else x

/-- MAXU (04 R112, R114). -/
def execMaxu (u : Alu) (d : Dst) (a : Src) (b : Src9) (s : State) : Out :=
  s.aluSb u d a b fun x y => if x.toNat < y.toNat then y else x

/-- CEQ (04 R112, R114). -/
def execCeq (u : Alu) (d : Dst) (a : Src) (b : Src9) (s : State) : Out :=
  s.aluSb u d a b fun x y => b2w (x == y)

/-- CNE (04 R112, R114). -/
def execCne (u : Alu) (d : Dst) (a : Src) (b : Src9) (s : State) : Out :=
  s.aluSb u d a b fun x y => b2w (x != y)

/-- CLT (04 R112, R114). -/
def execClt (u : Alu) (d : Dst) (a : Src) (b : Src9) (s : State) : Out :=
  s.aluSb u d a b fun x y => b2w (decide (x.toInt < y.toInt))

/-- CLTU (04 R112, R114). -/
def execCltu (u : Alu) (d : Dst) (a : Src) (b : Src9) (s : State) : Out :=
  s.aluSb u d a b fun x y => b2w (decide (x.toNat < y.toNat))

/-- CLE (04 R112, R114). -/
def execCle (u : Alu) (d : Dst) (a : Src) (b : Src9) (s : State) : Out :=
  s.aluSb u d a b fun x y => b2w (decide (x.toInt ≤ y.toInt))

/-- CLEU (04 R112, R114). -/
def execCleu (u : Alu) (d : Dst) (a : Src) (b : Src9) (s : State) : Out :=
  s.aluSb u d a b fun x y => b2w (decide (x.toNat ≤ y.toNat))

/-- BEXT (04 R112, R114). -/
def execBext (u : Alu) (d : Dst) (a : Src) (b : Src9) (s : State) : Out :=
  s.aluSb u d a b fun x y => sextW (bfLen y) (x.toNat / 2 ^ bfPos y)

/-- BEXTU (04 R112, R114). -/
def execBextu (u : Alu) (d : Dst) (a : Src) (b : Src9) (s : State) : Out :=
  s.aluSb u d a b fun x y => W (x.toNat / 2 ^ bfPos y % 2 ^ bfLen y)

/-- SEXT (04 R112, R114). -/
def execSext (u : Alu) (d : Dst) (a : Src) (b : Src9) (s : State) : Out :=
  s.aluSb u d a b fun x y => sextW (lenOf (bits y.toNat 6 0)) x.toNat

/-- ZEXT (04 R112, R114). -/
def execZext (u : Alu) (d : Dst) (a : Src) (b : Src9) (s : State) : Out :=
  s.aluSb u d a b fun x y => W (x.toNat % 2 ^ lenOf (bits y.toNat 6 0))

/-- LIH (04 R112, R114). -/
def execLih (u : Alu) (d : Dst) (a : Src) (b : Src9) (s : State) : Out :=
  s.aluSb u d a b fun x y => lihW x y

/-- MUL (04 R112). -/
def execMul (u : Alu) (d : Dst) (a : Src) (b : Src9) (s : State) : Out :=
  s.aluSm u d a b fun x y => x * y

/-- MULH (04 R112). -/
def execMulh (u : Alu) (d : Dst) (a : Src) (b : Src9) (s : State) : Out :=
  s.aluSm u d a b fun x y => mulhW x y

/-- MULHU (04 R112). -/
def execMulhu (u : Alu) (d : Dst) (a : Src) (b : Src9) (s : State) : Out :=
  s.aluSm u d a b fun x y => mulhuW x y

/-- DIV (04 R113). -/
def execDiv (u : Alu) (d : Dst) (a : Src) (b : Src9) (s : State) : Out :=
  s.aluDiv u d a b fun x y => x.sdiv y

/-- DIVU (04 R113). -/
def execDivu (u : Alu) (d : Dst) (a : Src) (b : Src9) (s : State) : Out :=
  s.aluDiv u d a b fun x y => x / y

/-- REM (04 R113). -/
def execRem (u : Alu) (d : Dst) (a : Src) (b : Src9) (s : State) : Out :=
  s.aluDiv u d a b fun x y => x.srem y

/-- REMU (04 R113). -/
def execRemu (u : Alu) (d : Dst) (a : Src) (b : Src9) (s : State) : Out :=
  s.aluDiv u d a b fun x y => x % y

/-- CLZ (04 R112). -/
def execClz (u : Alu) (d : Dst) (a : Src) (s : State) : Out := s.aluSb1 u d a clzW

/-- CTZ (04 R112). -/
def execCtz (u : Alu) (d : Dst) (a : Src) (s : State) : Out := s.aluSb1 u d a ctzW

/-- POPC (04 R112). -/
def execPopc (u : Alu) (d : Dst) (a : Src) (s : State) : Out := s.aluSb1 u d a popcW

/-- CMOV: D is read at issue (04 R114, R115). -/
def execCmov (u : Alu) (d : Dst) (a : Src) (b : Src9) (s : State) : Out :=
  s.aluSb u d a b fun x y => if x ≠ 0 then y else s.dstOld d

/-- CMOVZ: D is read at issue (04 R114, R115). -/
def execCmovz (u : Alu) (d : Dst) (a : Src) (b : Src9) (s : State) : Out :=
  s.aluSb u d a b fun x y => if x = 0 then y else s.dstOld d

/-- BINS: D is read at issue (04 R114, R115). -/
def execBins (u : Alu) (d : Dst) (a : Src) (b : Src9) (s : State) : Out :=
  s.aluSb u d a b fun x y => binsW x y (s.dstOld d)

/-! ## Scalar floating point (04 R116, R117) -/

/-- The two scalar formats. -/
def fltW (f64 : Bool) : Flt := if f64 then flt64 else flt32
/-- The value of a register operand. -/
def fpArg (f64 : Bool) (x : Word) : Num := (fltW f64).num x.toNat
/-- The value of a B operand: an immediate is its integer, the literal an f32 pattern (04 R116). -/
def State.fpB (s : State) (f64 : Bool) (b : Src9) : Num :=
  match b with
  | .src a => fpArg f64 (s.src a)
  | .imm i => Num.ofInt i.toInt
  | .lit => flt32.num s.iss.lit.toNat

/-- A floating-point result: written later with its flags (LAT_SM, LAT_SL; 02 R46). -/
def State.fpLate (s : State) (d : Dst) (r : FR) : State := s.putLate .scalar d (W r.val) r.fl

/-- A floating-point result of class LAT_SB. -/
def State.fpNow (s : State) (d : Dst) (r : FR) : State :=
  (s.put d (W r.val)).upd fun m => m.orFlags s.iss.core s.iss.fw r.fl

/-- A binary operation whose result comes later. -/
def State.fp2 (s : State) (f64 : Bool) (u : Alu) (d : Dst) (a : Src) (b : Src9) (f : Flt → Num → Num → FR) : Out :=
  s.alu2 u a b fun t x _ => .next (t.fpLate d (f (fltW f64) (fpArg f64 x) (s.fpB f64 b)))

/-- A binary operation of class LAT_SB. -/
def State.fpSb (s : State) (f64 : Bool) (u : Alu) (d : Dst) (a : Src) (b : Src9) (f : Flt → Num → Num → FR) : Out :=
  s.alu2 u a b fun t x _ => .next (t.fpNow d (f (fltW f64) (fpArg f64 x) (s.fpB f64 b)))

/-- FADD.f32 (04 R117). -/
def execFaddF32 (u : Alu) (d : Dst) (a : Src) (b : Src9) (s : State) : Out :=
  s.fp2 false u d a b fun F x y => F.addN false x y

/-- FSUB.f32 (04 R117). -/
def execFsubF32 (u : Alu) (d : Dst) (a : Src) (b : Src9) (s : State) : Out :=
  s.fp2 false u d a b fun F x y => F.addN false x y.negate

/-- FMUL.f32 (04 R117). -/
def execFmulF32 (u : Alu) (d : Dst) (a : Src) (b : Src9) (s : State) : Out :=
  s.fp2 false u d a b fun F x y => F.mulN false x y

/-- FMA.f32 (04 R117). -/
def execFmaF32 (u : Alu) (d : Dst) (a : Src) (b : Src9) (s : State) : Out :=
  s.fp2 false u d a b fun F x y => F.fmaN false x y (fpArg false (s.dstOld d))

/-- FDIV.f32 (04 R117). -/
def execFdivF32 (u : Alu) (d : Dst) (a : Src) (b : Src9) (s : State) : Out :=
  s.fp2 false u d a b fun F x y => F.divN false x y

/-- FMIN.f32 (04 R117). -/
def execFminF32 (u : Alu) (d : Dst) (a : Src) (b : Src9) (s : State) : Out :=
  s.fpSb false u d a b fun F x y => F.minMaxN false false x y

/-- FMAX.f32 (04 R117). -/
def execFmaxF32 (u : Alu) (d : Dst) (a : Src) (b : Src9) (s : State) : Out :=
  s.fpSb false u d a b fun F x y => F.minMaxN false true x y

/-- FCEQ.f32 (04 R117). -/
def execFceqF32 (u : Alu) (d : Dst) (a : Src) (b : Src9) (s : State) : Out :=
  s.fpSb false u d a b fun _ x y => cmpN 0 x y

/-- FCLT.f32 (04 R117). -/
def execFcltF32 (u : Alu) (d : Dst) (a : Src) (b : Src9) (s : State) : Out :=
  s.fpSb false u d a b fun _ x y => cmpN 1 x y

/-- FCLE.f32 (04 R117). -/
def execFcleF32 (u : Alu) (d : Dst) (a : Src) (b : Src9) (s : State) : Out :=
  s.fpSb false u d a b fun _ x y => cmpN 2 x y

/-- FSQRT.f32 (04 R117). -/
def execFsqrtF32 (u : Alu) (d : Dst) (a : Src) (s : State) : Out :=
  s.alu1 u a fun t x => .next (t.fpLate d ((fltW false).sqrtN false (fpArg false x)))

/-- FADD.f64 (04 R117). -/
def execFaddF64 (u : Alu) (d : Dst) (a : Src) (b : Src9) (s : State) : Out :=
  s.fp2 true u d a b fun F x y => F.addN false x y

/-- FSUB.f64 (04 R117). -/
def execFsubF64 (u : Alu) (d : Dst) (a : Src) (b : Src9) (s : State) : Out :=
  s.fp2 true u d a b fun F x y => F.addN false x y.negate

/-- FMUL.f64 (04 R117). -/
def execFmulF64 (u : Alu) (d : Dst) (a : Src) (b : Src9) (s : State) : Out :=
  s.fp2 true u d a b fun F x y => F.mulN false x y

/-- FMA.f64 (04 R117). -/
def execFmaF64 (u : Alu) (d : Dst) (a : Src) (b : Src9) (s : State) : Out :=
  s.fp2 true u d a b fun F x y => F.fmaN false x y (fpArg true (s.dstOld d))

/-- FDIV.f64 (04 R117). -/
def execFdivF64 (u : Alu) (d : Dst) (a : Src) (b : Src9) (s : State) : Out :=
  s.fp2 true u d a b fun F x y => F.divN false x y

/-- FMIN.f64 (04 R117). -/
def execFminF64 (u : Alu) (d : Dst) (a : Src) (b : Src9) (s : State) : Out :=
  s.fpSb true u d a b fun F x y => F.minMaxN false false x y

/-- FMAX.f64 (04 R117). -/
def execFmaxF64 (u : Alu) (d : Dst) (a : Src) (b : Src9) (s : State) : Out :=
  s.fpSb true u d a b fun F x y => F.minMaxN false true x y

/-- FCEQ.f64 (04 R117). -/
def execFceqF64 (u : Alu) (d : Dst) (a : Src) (b : Src9) (s : State) : Out :=
  s.fpSb true u d a b fun _ x y => cmpN 0 x y

/-- FCLT.f64 (04 R117). -/
def execFcltF64 (u : Alu) (d : Dst) (a : Src) (b : Src9) (s : State) : Out :=
  s.fpSb true u d a b fun _ x y => cmpN 1 x y

/-- FCLE.f64 (04 R117). -/
def execFcleF64 (u : Alu) (d : Dst) (a : Src) (b : Src9) (s : State) : Out :=
  s.fpSb true u d a b fun _ x y => cmpN 2 x y

/-- FSQRT.f64 (04 R117). -/
def execFsqrtF64 (u : Alu) (d : Dst) (a : Src) (s : State) : Out :=
  s.alu1 u a fun t x => .next (t.fpLate d ((fltW true).sqrtN false (fpArg true x)))

/-- The source and destination types of an FCVT selector (03 R75). -/
def fcvtTypes (sel : Nat) : VT × VT :=
  match sel with
  | 0 => (.i64, .f32)
  | 1 => (.i64, .f64)
  | 2 => (.n64, .f32)
  | 3 => (.n64, .f64)
  | 4 => (.f32, .i64)
  | 5 => (.f64, .i64)
  | 6 => (.f32, .n64)
  | 7 => (.f64, .n64)
  | 8 => (.f32, .i64)
  | 9 => (.f64, .i64)
  | 10 => (.f32, .n64)
  | 11 => (.f64, .n64)
  | 12 => (.f32, .f64)
  | _ => (.f64, .f32)

/-- FCVT (04 R118). Its B field holds an immediate, which goes to latch B (01 R23; log 21). -/
def execFcvt (u : Alu) (d : Dst) (a : Src) (sel : CvtSel) (s : State) : Out :=
  s.alu1 u a fun t x =>
    let ts := fcvtTypes sel.val
    let r := fmtConv (vtFmt ts.1) (vtFmt ts.2) false (decide (8 ≤ sel.val ∧ sel.val ≤ 11))
      (x.toNat % 2 ^ (8 * ts.1.bytes))
    .next ((t.latch u.unit.val true (W sel.val)).fpLate d r)

end Sys2Proof.Machine
end

