-- ==== Sys2Proof/Machine/Rings.lean ====
section
/-!
DEFINITION. Rings in the scratchpad (08 R222 to R228): slots, counts, mirrors, lent slots, the writes of RINGCFG, RINGPUSH
and RINGPOP, and the events of lending.
-/
namespace Sys2Proof.Machine

/-! ## Fields of RINGCFG (08 R222) -/

/-- RINGCFG of ring n. -/
def Core.ringCfgOf (k : Core) (n : Nat) : Nat := (k.ringCfg.get 0 n).toNat
/-- The counts and lent items of ring n. -/
def Core.ringOf (k : Core) (n : Nat) : RingSt := k.ring.get RingSt.reset n
/-- V. -/
def ringV (cfg : Nat) : Bool := bitAt cfg 63
/-- PROD: 0 core, 1 Mould, 2 MXU. -/
def ringProd (cfg : Nat) : Nat := bits cfg 61 60
/-- CONS: 0 core, 1 MXU, 2 Press. -/
def ringCons (cfg : Nat) : Nat := bits cfg 59 58
/-- NSLOT. -/
def ringSlots (cfg : Nat) : Nat := bits cfg 5 0
/-- SLOTB: 0 means 1,024. -/
def ringSlotb (cfg : Nat) : Nat := if bits cfg 15 6 = 0 then 1024 else bits cfg 15 6
/-- The bytes of a slot. -/
def ringBytes (cfg : Nat) : Nat := 64 * ringSlotb cfg
/-- The scratchpad offset of slot x. -/
def ringAt (cfg x : Nat) : Nat := 64 * (bits cfg 31 16 + x * ringSlotb cfg)
/-- The offset of the resident slot of the item of count x (08 R223). -/
def ringItemAt (cfg : Nat) (x : BitVec 32) : Nat := ringAt cfg (x.toNat % ringSlots cfg)

/-- The full items. -/
def RingSt.full (r : RingSt) : Nat := (r.w - r.r).toNat
/-- The free resident slots. -/
def RingSt.free (r : RingSt) (cfg : Nat) : Nat := ringSlots cfg - r.full
/-- LENT: the slots now lent, one of them perhaps not yet filled. -/
def RingSt.lentCount (r : RingSt) : Nat := r.lent.length + b2n r.granted
/-- Whether the next item to read is full and resident (08 R227). -/
def RingSt.ready (r : RingSt) : Bool := r.full != 0 && !(r.lent.any fun e => e.1 == r.r.toNat)

/-! ## Changes of the counts -/

/-- The mirror write of ring n (08 R226). A mirror word beyond the scratchpad holds nothing (log 31). -/
def Core.mirror (k : Core) (n : Nat) : Core :=
  let cfg := k.ringCfgOf n
  let off := 64 * bits cfg 47 32
  if ringV cfg && bitAt cfg 62 && decide (off + 8 ≤ Config.spadBytes) then
    { k with spad := k.spad.write off (bytesOfNat 8 ((k.ringOf n).r.toNat * 2 ^ 32 + (k.ringOf n).w.toNat)) }
  else k

/-- WCOUNT of ring n rises by a count. -/
def Core.ringPush (k : Core) (n c : Nat) : Core :=
  Core.mirror { k with ring := k.ring.put n { k.ringOf n with w := (k.ringOf n).w + BitVec.ofNat 32 c } } n

/-- Bytes of a die's pulp pool given back. -/
def Mach.unlend (m : Mach) (c bytes : Nat) : Mach := { m with lentUsed := m.lentUsed.upd 0 (coreDie c) fun x => x - bytes }

/-- The lent items that a pop passes: RCOUNT has passed what each waits for, so they move into their resident slots in ascending
count, and their lent slots go back (08 R227). -/
def Mach.passLent (m : Mach) (c n : Nat) (gone : Nat × List Byte → Bool) : Mach :=
  let cfg := (m.core c).ringCfgOf n
  let r := (m.core c).ringOf n
  let m1 := (r.lent.filter gone).foldl (fun m e => m.spadWrite c (ringItemAt cfg (BitVec.ofNat 32 e.1)) e.2) m
  let keep := r.lent.filter fun e => !gone e
  (m1.updCore c fun k => { k with ring := k.ring.put n { r with lent := keep } }).unlend c
    ((r.lent.length - keep.length) * ringBytes cfg)

/-- RCOUNT of ring n of core c rises by a count. -/
def Mach.ringPop (m : Mach) (c n cnt : Nat) : Mach :=
  let r := (m.core c).ringOf n
  let m1 := m.passLent c n fun e => decide ((BitVec.ofNat 32 e.1 - r.r).toNat < cnt)
  m1.updCore c fun k =>
    Core.mirror { k with ring := k.ring.put n { k.ringOf n with r := r.r + BitVec.ofNat 32 cnt } } n

/-! ## Lent slots (08 R227) -/

/-- Bytes of a die's pulp pool that open work queues hold. -/
def Mach.poolQueues (m : Mach) (d : Nat) : Nat :=
  (m.wq.l.map fun e => if e.2.state != 0 && bits e.2.cfg.toNat 49 47 == d then 64 * e.2.cap else 0).sum

/-- Whether the die's pulp pool has room for a slot: what work queues and lent slots leave of it (log 31). -/
def Mach.poolRoom (m : Mach) (d bytes : Nat) : Bool :=
  decide (m.poolQueues d + m.lentUsed.get 0 d + bytes ≤ Config.poolBytes)

/-- An engine producer writes an item into ring n and pushes it: into a free resident slot, giving back a lent one it was
granted meanwhile, else into that lent slot; none while it has neither. -/
def Mach.ringPut (m : Mach) (c n : Nat) (bs : List Byte) : Option Mach :=
  let k := m.core c
  let cfg := k.ringCfgOf n
  let r := k.ringOf n
  if r.free cfg != 0 then
    let m1 := (m.spadWrite c (ringItemAt cfg r.w) bs).unlend c (if r.granted then ringBytes cfg else 0)
    some (m1.updCore c fun k => Core.ringPush { k with ring := k.ring.put n { r with granted := false } } n 1)
  else if r.granted then
    some (m.updCore c fun k => Core.ringPush
      { k with ring := k.ring.put n { r with lent := r.lent ++ [(r.w.toNat, bs)], granted := false } } n 1)
  else none

/-- The oldest lent item moves into its resident slot once the consumer has come far enough. -/
def Mach.ringMove (m : Mach) (c n : Nat) : Mach :=
  let k := m.core c
  let cfg := k.ringCfgOf n
  let r := k.ringOf n
  match r.lent with
  | [] => m
  | (x, bs) :: l =>
    if (BitVec.ofNat 32 x - r.r).toNat < ringSlots cfg then
      ((m.spadWrite c (ringItemAt cfg (BitVec.ofNat 32 x)) bs).updCore c fun k =>
        { k with ring := k.ring.put n { r with lent := l } }).unlend c (ringBytes cfg)
    else m

/-- Every lent item that may move does. -/
def Mach.ringMoves (m : Mach) (c n : Nat) : Nat → Mach
  | 0 => m
  | i + 1 => (m.ringMove c n).ringMoves c n i

/-- The ring a subscription serves. -/
def Sub.ring (x : Sub) : Nat := bits (wordAt x.desc 10).toNat 3 0

/-- Whether a subscription serves ring n of core c: the context that started it stands there. -/
def Mach.serves (m : Mach) (x : Sub) (c n : Nat) : Bool :=
  x.ring == n && match m.homeOf x.owner with
    | some (k, _) => k == c
    | none => false

/-- Whether an engine producer of ring n holds a finished item that finds no free resident slot: a Mould subscription with
tiles left, or a routine (08 R227). What the routine does next is checked where it runs. -/
def Mach.wantsLent (m : Mach) (c n : Nat) : Bool :=
  let k := m.core c
  let cfg := k.ringCfgOf n
  let r := k.ringOf n
  ringV cfg && r.free cfg == 0 && !r.granted &&
    ((ringProd cfg == 1 && m.subs.any fun s => s.mould && m.serves s c n) ||
     (ringProd cfg == 2 &&
       (match k.mx.rt with
        | some rt =>
          let e := k.mx.dir.get DirEnt.reset rt.routine
          let w := (k.mx.store.get 0 (e.start + rt.pc)).toNat
          bits w 63 60 == 4 && bits w 59 56 == n
        | none => false)))

/-- The ring that a request for a lent slot is for, on its core or with its absent member: configuration and state. -/
def Mach.lentRing (m : Mach) (q : Nat × Nat × Nat) : Nat × RingSt :=
  match m.awayAt q.1 q.2.1 with
  | some y => ((y.ringCfg.get 0 q.2.2).toNat, y.ringLent.get RingSt.reset q.2.2)
  | none => ((m.core q.1).ringCfgOf q.2.2, (m.core q.1).ringOf q.2.2)

/-- Whether a ring has fewer slots lent than LEND. -/
def lendable (r : Nat × RingSt) : Bool := decide (r.2.lentCount < bits r.1 55 48)

/-- Whether a request is the first of its die's pulp pool, or may be none yet where none stands before it (08 R227): those of rings with
LEND slots lent already are passed over. -/
def Mach.lentNext (m : Mach) (q : Nat × Nat × Nat) : Bool :=
  match m.lentQ.find? fun p => coreDie p.1 == coreDie q.1 && lendable (m.lentRing p) with
  | some p => p == q
  | none => true

/-- LENT_SLOT_GRANT (08 R227): the first waiting producer is granted a lent slot while LENT is below LEND and the die's pulp pool
has room. -/
def execLentSlotGrant (core ring : Nat) (s : State) : Out :=
  onCore core <|
    let k := s.m.core core
    let cfg := k.ringCfgOf ring
    let r := k.ringOf ring
    if s.m.wantsLent core ring && lendable (cfg, r) && s.m.lentNext (core, k.epoch, ring) && s.m.poolRoom (coreDie core) (ringBytes cfg) then
      .next (s.upd fun m =>
        Mach.updCore { m with lentUsed := m.lentUsed.upd 0 (coreDie core) fun x => x + ringBytes cfg } core fun k =>
          { k with ring := k.ring.put ring { r with granted := true } })
    else .next s

/-- LENT_ITEM_MOVE (08 R227). -/
def execLentItemMove (core ring : Nat) (s : State) : Out :=
  onCore core (.next (s.upd fun m => m.ringMove core ring))

/-! ## RINGCFG, RINGPUSH, RINGPOP (08 R222 to R225) -/

/-- Whether a value of RINGCFG is refused (08 R222). -/
def ringCfgBad (v : Nat) : Bool :=
  bits v 57 56 != 0 || (ringV v && ringSlots v == 0) || decide (Config.spadBytes < ringAt v (ringSlots v)) ||
    ringProd v == 3 || ringCons v == 3

/-- A write of RINGCFG n by the issuing context (08 R222, R223). -/
def execRingcfgWrite (ring : BitVec 4) (val : Word) (s : State) : Out :=
  let n := ring.toNat
  if ringCfgBad val.toNat then .next (s.trap .illegalOperand 0)
  else if (s.pre.subs.any fun x => s.pre.serves x s.iss.core n) || s.kp.mx.rt.isSome then .next (s.trap .engRingBusy 0)
  else
    let r := s.kp.ringOf n
    .next ((s.upd fun m => m.unlend s.iss.core (r.lentCount * ringBytes (s.kp.ringCfgOf n))).updK fun k =>
      Core.mirror { k with ringCfg := k.ringCfg.put n val, ring := k.ring.put n RingSt.reset } n)

/-- The ring and the count that a write of RINGPUSH or RINGPOP names; none for a reserved bit or a count of 0. -/
def ringArg (val : Word) : Option (Nat × Nat) :=
  let v := val.toNat
  if v / 2 ^ 16 != 0 || bits v 7 4 != 0 || bits v 15 8 == 0 then none else some (bits v 3 0, bits v 15 8)

/-- RINGPUSH by the issuing context (08 R225): after every older store of its sequencer. -/
def execRingpush (val : Word) (s : State) : Out :=
  match ringArg val with
  | none => .next (s.trap .illegalOperand 0)
  | some (n, c) =>
    let cfg := s.kp.ringCfgOf n
    if !ringV cfg then .next (s.trap .engRingUndefined 0)
    else if ringProd cfg != 0 then .next (s.trap .engRingRole 0)
    else if (s.kp.ringOf n).free cfg < c then .next (s.trap .engRingOverrun 0)
    else .next (s.drained.updK fun k => k.ringPush n c)

/-- RINGPOP by the issuing context (08 R225): lent items that may now move are resident before the core's next read. -/
def execRingpop (val : Word) (s : State) : Out :=
  match ringArg val with
  | none => .next (s.trap .illegalOperand 0)
  | some (n, c) =>
    let cfg := s.kp.ringCfgOf n
    if !ringV cfg then .next (s.trap .engRingUndefined 0)
    else if ringCons cfg != 0 then .next (s.trap .engRingRole 0)
    else if (s.kp.ringOf n).full < c then .next (s.trap .engRingOverrun 0)
    else
      .next (s.upd fun m =>
        let m1 := m.ringPop s.iss.core n c
        m1.ringMoves s.iss.core n ((m1.core s.iss.core).ringOf n).lent.length)

end Sys2Proof.Machine
end

