-- ==== Sys2Proof/Machine/Elem.lean ====
section
/-!
DEFINITION. The elementwise functions (05 R142), correctly rounded: the floor of the exact value on a grid finer than half
a unit in the last place, found by integer arithmetic with an interval that narrows, decides the rounding of an irrational
result. Where the precision of the model does not decide that floor, the result is a free value (log 10).
-/
namespace Sys2Proof.Machine

/-! ## 2^x -/

/-- Bounds of 2^(2^-i) for i = 1 to n, scaled by 2^P: repeated square roots of lo and hi. -/
def exp2Roots (P : Nat) : Nat → Nat → Nat → List (Nat × Nat)
  | 0, _, _ => []
  | n + 1, lo, hi =>
    let l := isqrt (lo * 2 ^ P)
    let h := isqrt (hi * 2 ^ P) + 1
    (l, h) :: exp2Roots P n l h

/-- Bounds of the product of the roots that the bits of a fraction name, highest bit first: k bits are left. -/
def exp2Prod (P f : Nat) : Nat → List (Nat × Nat) → Nat × Nat → Nat × Nat
  | 0, _, acc => acc
  | _ + 1, [], acc => acc
  | k + 1, (l, h) :: r, acc =>
    exp2Prod P f k r (if bitAt f k then (acc.1 * l / 2 ^ P, acc.2 * h / 2 ^ P + 1) else acc)

/-- The floor of 2^(f / 2^k) × 2^g, with P bits of working precision; none where the bounds leave it open. -/
def exp2Floor (P g f k : Nat) : Option Nat :=
  let b := exp2Prod P f k (exp2Roots P k (2 * 2 ^ P) (2 * 2 ^ P)) (2 ^ P, 2 ^ P)
  if b.1 / 2 ^ (P - g) = b.2 / 2 ^ (P - g) then some (b.1 / 2 ^ (P - g)) else none

/-- The first precision that decides a floor. -/
def firstFloor (f : Nat → Option Nat) : List Nat → Option Nat
  | [] => none
  | P :: r =>
    match f P with
    | some x => some x
    | none => firstFloor f r

/-- The flags of an inexact result that is neither large nor tiny. -/
def elemFree (op : Nat) (t : VT) (x : Nat) : FR :=
  { val := (Config.elemBits op t x).toNat % 2 ^ (8 * t.bytes), fl := fNX }

/-- 2^(±m × 2^e) rounded (05 R142); x is the operand's pattern. -/
def exp2Fin (t : VT) (fx neg : Bool) (m : Nat) (e : Int) (x : Nat) : FR :=
  let F := fltOf t
  let p := F.g.p
  if m = 0 then F.enc false fx false 1 0
  else if 0 ≤ e then
    if 12 < bitLen m + e.toNat then F.enc false fx false 1 (if neg then -8192 else 8192)
    else F.enc false fx false 1 (signed neg (m * 2 ^ e.toNat))
  else if 12 < bitLen m + e then
    let r := F.enc false fx false 1 (if neg then -8192 else 8192)
    { r with fl := r.fl ||| fNX }
  else if bitLen m + e < -((p : Int) + 3) then
    F.enc false fx false (if neg then 2 ^ (p + 4) - 1 else 2 ^ (p + 4) + 1) (-(p : Int) - 4)
  else
    let k := (-e).toNat
    let a := signed neg m
    let n := a / 2 ^ k
    let f := (a % 2 ^ k).toNat
    if f = 0 then F.enc false fx false 1 n
    else
      match firstFloor (fun P => exp2Floor P (p + 3) f k) [p + 72, p + 200, p + 600] with
      | some q => F.enc false fx false (2 * q + 1) (n - (p : Int) - 4)
      | none => elemFree 0 t x

/-- VEXP2 of one element (05 R142). -/
def exp2N (t : VT) (fx : Bool) (a : Num) (x : Nat) : FR :=
  let F := fltOf t
  match a with
  | .nan s => { val := F.nanBits, fl := flagIf s fNV }
  | .inf n => { val := if n then 0 else F.infBits, fl := 0 }
  | .fin n m e => exp2Fin t fx n m e x

/-! ## log2 x -/

/-- J bits of log2 of a value in [1, 2) whose bounds are given, scaled by 2^P: each squaring gives one bit; none where the
bounds leave a bit open. -/
def log2Bits (P : Nat) : Nat → Nat → Nat → Nat → Option Nat
  | 0, _, _, acc => some acc
  | j + 1, lo, hi, acc =>
    let l := lo * lo / 2 ^ P
    let h := hi * hi / 2 ^ P + 1
    if 2 * 2 ^ P ≤ l then log2Bits P j (l / 2) (h / 2 + 1) (2 * acc + 1)
    else if h < 2 * 2 ^ P then log2Bits P j l h (2 * acc)
    else none

/-- log2 (m × 2^e) for m > 0, rounded (05 R142); x is the operand's pattern. -/
def log2Fin (t : VT) (fx : Bool) (m : Nat) (e : Int) (x : Nat) : FR :=
  let F := fltOf t
  let L := bitLen m - 1
  let E : Int := e + L
  if m = 2 ^ L then F.put false fx (Num.ofInt E)
  else
    let J := 2 * F.g.p + 8
    match firstFloor (fun P => log2Bits P J (m * 2 ^ (P - L)) (m * 2 ^ (P - L)) 0) [2 * J + 32, 3 * J + 200] with
    | some b =>
      let v : Int := 2 * (E * 2 ^ J + b) + 1
      F.enc false fx (decide (v < 0)) v.natAbs (-(J : Int) - 1)
    | none => elemFree 1 t x

/-- VLOG2 of one element (05 R142). -/
def log2N (t : VT) (fx : Bool) (a : Num) (x : Nat) : FR :=
  let F := fltOf t
  match a with
  | .nan s => { val := F.nanBits, fl := flagIf s fNV }
  | .inf n => if n then F.invalid else { val := F.infBits, fl := 0 }
  | .fin n m e =>
    if m = 0 then { val := F.infOf true, fl := fDZ }
    else if n then F.invalid
    else log2Fin t fx m e x

/-! ## 1 ÷ x and 1 ÷ √x -/

/-- VRCP of one element (05 R142). -/
def rcpN (t : VT) (fx : Bool) (a : Num) : FR := (fltOf t).divN fx (.fin false 1 0) a

/-- VRSQRT of one element (05 R142). -/
def rsqrtN (t : VT) (fx : Bool) (a : Num) : FR :=
  let F := fltOf t
  match a with
  | .nan s => { val := F.nanBits, fl := flagIf s fNV }
  | .inf n => if n then F.invalid else { val := 0, fl := 0 }
  | .fin n m e =>
    if m = 0 then { val := F.infOf n, fl := fDZ }
    else if n then F.invalid
    else
      let (m1, e1) := if e % 2 = 0 then (m, e) else (2 * m, e - 1)
      let k := F.g.p + 3 + bitLen m1
      let r := isqrt (2 ^ (2 * k) / m1)
      F.enc false fx false (2 * r + b2n (r * r * m1 != 2 ^ (2 * k))) (-(e1 / 2) - (k : Int) - 1)

/-! ## Philox-4x32-10 (05 R147) -/

/-- One round. -/
def philoxRound (c : Nat × Nat × Nat × Nat) (k : Nat × Nat) : Nat × Nat × Nat × Nat :=
  let p0 := 0xD2511F53 * c.1
  let p1 := 0xCD9E8D57 * c.2.2.1
  (Nat.xor (Nat.xor (p1 / 2 ^ 32) c.2.1) k.1, p1 % 2 ^ 32, Nat.xor (Nat.xor (p0 / 2 ^ 32) c.2.2.2) k.2, p0 % 2 ^ 32)

/-- n rounds, the key raised between them. -/
def philoxRounds : Nat → Nat × Nat × Nat × Nat → Nat × Nat → Nat × Nat × Nat × Nat
  | 0, c, _ => c
  | n + 1, c, k => philoxRounds n (philoxRound c k) ((k.1 + 0x9E3779B9) % 2 ^ 32, (k.2 + 0xBB67AE85) % 2 ^ 32)

/-- The four words of a counter block. -/
def philox (ctr : Word) (lcid x : Nat) (seed : Word) : List Nat :=
  let c := philoxRounds 10 (bits ctr.toNat 31 0, bits ctr.toNat 63 32, lcid % 2 ^ 32, x)
    (bits seed.toNat 31 0, bits seed.toNat 63 32)
  [c.1, c.2.1, c.2.2.1, c.2.2.2]

end Sys2Proof.Machine
end

