-- ==== Sys2Proof/Machine/Fetch.lean ====
section
/-!
DEFINITION. Fetching and checking a bundle: fetch lines (03 R63 to R65, 08 R218, 04 R101), the literal (R66), the
destinations of R17, and the order of issue checks of 03 R89, steps 1 to 4.
-/
namespace Sys2Proof.Machine

/-! ## Destinations of a slot (01 R17) -/

/-- A register that a slot writes (01 R17). -/
inductive Reg where
  | s (n : Nat)
  | p (n : Nat)
  | m (n : Nat)
  | lat (u : Nat) (l : Bool)
  | v (n : Nat)
  | bank (n : Nat)
  deriving DecidableEq, Repr

/-- The registers a destination field names; a result-queue entry and discard are none. -/
def dstRegs : Dst → List Reg
  | .s n => [.s n.toNat]
  | .p n => [.p n.toNat]
  | .m n => [.m n.toNat]
  | .latch u l => [.lat u.val l]
  | .handle _ => []
  | .discard => []

/-- n s registers from k on. -/
def sRun (k n : Nat) : List Reg := (rangeFrom k n).map .s
/-- Banks from b to b + n - 1 of the matrix unit. -/
def bankRun (b n : Nat) : List Reg := (rangeFrom b n).map .bank
/-- n v registers from k on. -/
def vRun (k n : Nat) : List Reg := (rangeFrom k n).map .v

/-- Every register a slot's instruction writes (01 R17). A latch counts where the D field names it; a latch that the slot's A or B source
moves into (01 R23) does not count, and a write that names it then comes last (log 119). -/
def destsOf : Instr → List Reg
  | .nop => []
  | .bc .. => []
  | .call _ => [.s 63]
  | .callr _ => [.s 63]
  | .jr .. => []
  | .ret .. => []
  | .loop .. => []
  | .adv .. => []
  | .yield .. => []
  | .hint .. => []
  | .trap .. => []
  | .eret => []
  | .halt => []
  | .bkpt .. => []
  | .add _ d _ _ => dstRegs d
  | .sub _ d _ _ => dstRegs d
  | .mul _ d _ _ => dstRegs d
  | .mulh _ d _ _ => dstRegs d
  | .mulhu _ d _ _ => dstRegs d
  | .div _ d _ _ => dstRegs d
  | .divu _ d _ _ => dstRegs d
  | .rem _ d _ _ => dstRegs d
  | .remu _ d _ _ => dstRegs d
  | .and _ d _ _ => dstRegs d
  | .or _ d _ _ => dstRegs d
  | .xor _ d _ _ => dstRegs d
  | .andn _ d _ _ => dstRegs d
  | .shl _ d _ _ => dstRegs d
  | .shr _ d _ _ => dstRegs d
  | .sra _ d _ _ => dstRegs d
  | .rol _ d _ _ => dstRegs d
  | .ror _ d _ _ => dstRegs d
  | .min _ d _ _ => dstRegs d
  | .minu _ d _ _ => dstRegs d
  | .max _ d _ _ => dstRegs d
  | .maxu _ d _ _ => dstRegs d
  | .ceq _ d _ _ => dstRegs d
  | .cne _ d _ _ => dstRegs d
  | .clt _ d _ _ => dstRegs d
  | .cltu _ d _ _ => dstRegs d
  | .cle _ d _ _ => dstRegs d
  | .cleu _ d _ _ => dstRegs d
  | .cmov _ d _ _ => dstRegs d
  | .cmovz _ d _ _ => dstRegs d
  | .bext _ d _ _ => dstRegs d
  | .bextu _ d _ _ => dstRegs d
  | .bins _ d _ _ => dstRegs d
  | .clz _ d _ => dstRegs d
  | .ctz _ d _ => dstRegs d
  | .popc _ d _ => dstRegs d
  | .sext _ d _ _ => dstRegs d
  | .zext _ d _ _ => dstRegs d
  | .lih _ d _ _ => dstRegs d
  | .faddF32 _ d _ _ => dstRegs d
  | .fsubF32 _ d _ _ => dstRegs d
  | .fmulF32 _ d _ _ => dstRegs d
  | .fmaF32 _ d _ _ => dstRegs d
  | .fdivF32 _ d _ _ => dstRegs d
  | .fsqrtF32 _ d _ => dstRegs d
  | .fminF32 _ d _ _ => dstRegs d
  | .fmaxF32 _ d _ _ => dstRegs d
  | .fceqF32 _ d _ _ => dstRegs d
  | .fcltF32 _ d _ _ => dstRegs d
  | .fcleF32 _ d _ _ => dstRegs d
  | .faddF64 _ d _ _ => dstRegs d
  | .fsubF64 _ d _ _ => dstRegs d
  | .fmulF64 _ d _ _ => dstRegs d
  | .fmaF64 _ d _ _ => dstRegs d
  | .fdivF64 _ d _ _ => dstRegs d
  | .fsqrtF64 _ d _ => dstRegs d
  | .fminF64 _ d _ _ => dstRegs d
  | .fmaxF64 _ d _ _ => dstRegs d
  | .fceqF64 _ d _ _ => dstRegs d
  | .fcltF64 _ d _ _ => dstRegs d
  | .fcleF64 _ d _ _ => dstRegs d
  | .fcvt _ d _ _ => dstRegs d
  | .lea d _ _ => dstRegs d
  | .leah d _ _ => dstRegs d
  | .leaw d _ _ => dstRegs d
  | .lead d _ _ => dstRegs d
  | .ldI8 d _ _ => dstRegs d
  | .ldN8 d _ _ => dstRegs d
  | .ldI16 d _ _ => dstRegs d
  | .ldN16 d _ _ => dstRegs d
  | .ldI32 d _ _ => dstRegs d
  | .ldN32 d _ _ => dstRegs d
  | .ld64 d _ _ => dstRegs d
  | .ldxI8 d _ _ => dstRegs d
  | .ldxN8 d _ _ => dstRegs d
  | .ldxI16 d _ _ => dstRegs d
  | .ldxN16 d _ _ => dstRegs d
  | .ldxI32 d _ _ => dstRegs d
  | .ldxN32 d _ _ => dstRegs d
  | .ldx64 d _ _ => dstRegs d
  | .st8 .. => []
  | .st16 .. => []
  | .st32 .. => []
  | .st64 .. => []
  | .stx8 .. => []
  | .stx16 .. => []
  | .stx32 .. => []
  | .stx64 .. => []
  | .vadd _ vd _ _ => [.v vd.toNat]
  | .vsub _ vd _ _ => [.v vd.toNat]
  | .vmul _ vd _ _ => [.v vd.toNat]
  | .vfma _ vd _ _ => [.v vd.toNat]
  | .vdiv _ vd _ _ => [.v vd.toNat]
  | .vmin _ vd _ _ => [.v vd.toNat]
  | .vmax _ vd _ _ => [.v vd.toNat]
  | .vadds _ vd _ _ => [.v vd.toNat]
  | .vsubs _ vd _ _ => [.v vd.toNat]
  | .vceq _ vd _ _ => [.v vd.toNat]
  | .vclt _ vd _ _ => [.v vd.toNat]
  | .vcle _ vd _ _ => [.v vd.toNat]
  | .vand vd _ _ => [.v vd.toNat]
  | .vor vd _ _ => [.v vd.toNat]
  | .vxor vd _ _ => [.v vd.toNat]
  | .vandn vd _ _ => [.v vd.toNat]
  | .vsel vd _ _ => [.v vd.toNat]
  | .vperm8 vd _ _ => [.v vd.toNat]
  | .vperm16 vd _ _ => [.v vd.toNat]
  | .vperm32 vd _ _ => [.v vd.toNat]
  | .vperm64 vd _ _ => [.v vd.toNat]
  | .vshl _ _ vd _ => [.v vd.toNat]
  | .vsrl _ _ vd _ => [.v vd.toNat]
  | .vsra _ _ vd _ => [.v vd.toNat]
  | .vtrans _ _ vd _ => [.v vd.toNat]
  | .vmov vd _ => [.v vd.toNat]
  | .vld _ vd _ _ => [.v vd.toNat]
  | .vst .. => []
  | .vgather _ vd _ _ => [.v vd.toNat]
  | .vscatter .. => []
  | .vcvt _ _ _ vd _ => [.v vd.toNat]
  | .vcvtb _ _ vd _ => [.v vd.toNat]
  | .vabs _ vd _ => [.v vd.toNat]
  | .vneg _ vd _ => [.v vd.toNat]
  | .vexp2 _ vd _ => [.v vd.toNat]
  | .vlog2 _ vd _ => [.v vd.toNat]
  | .vrcp _ vd _ => [.v vd.toNat]
  | .vrsqrt _ vd _ => [.v vd.toNat]
  | .vred _ _ d _ => dstRegs d
  | .vscan _ _ vd _ => [.v vd.toNat]
  | .vscanx _ _ vd _ => [.v vd.toNat]
  | .vbcast _ vd _ => [.v vd.toNat]
  | .vqnt _ vd _ => vRun vd.toNat 2
  | .vdqnt _ vd _ => [.v vd.toNat]
  | .vrand _ vd _ => [.v vd.toNat]
  | .vstrm _ vd _ => [.v vd.toNat]
  | .vsetvl _ d _ => dstRegs d
  | .mxset m _ _ => [.m m.toNat]
  | .mxcall d _ b _ => dstRegs d ++ [.bank b.toNat]
  | .mxwait .. => []
  | .mxacc b vd f clr => vRun vd.toNat (mxaccRegs f) ++ if clr then [.bank b.toNat] else []
  | .mxclr b pair => bankRun b.toNat (if pair then 2 else 1)
  | .mxsr .. => []
  | .mxload .. => []
  | .mxpark .. => bankRun 0 8
  | .mxunpark .. => (rangeFrom 0 8).map .m ++ bankRun 0 8
  | .uend => []
  | .umma .. => []
  | .uloop .. => []
  | .upop .. => []
  | .uout .. => []
  | .gorient2 _ vd _ d => dstRegs d ++ [.v vd.toNat]
  | .gorient3 _ vd _ d => dstRegs d ++ [.v vd.toNat]
  | .gincirc _ vd _ d => dstRegs d ++ [.v vd.toNat]
  | .ginsph _ vd _ d => dstRegs d ++ [.v vd.toNat]
  | .gsegx _ vd _ d => dstRegs d ++ [.v vd.toNat]
  | .gtie .. => []
  | .cpy d _ => dstRegs d
  | .cpyt d _ _ => dstRegs d
  | .sbind .. => []
  | .sadv .. => []
  | .mon .. => []
  | .mwait d _ => dstRegs d
  | .sempost .. => []
  | .semwait d _ _ => dstRegs d
  | .bararr d _ => dstRegs d
  | .barwait .. => []
  | .tbar => []
  | .deq k _ => sRun (8 * k.toNat) 8
  | .enq .. => []
  | .aadd _ d _ _ => dstRegs d
  | .amin _ d _ _ => dstRegs d
  | .amax _ d _ _ => dstRegs d
  | .aand _ d _ _ => dstRegs d
  | .aor _ d _ _ => dstRegs d
  | .axor _ d _ _ => dstRegs d
  | .aswap _ d _ _ => dstRegs d
  | .acas _ d _ _ => [.s d.toNat]
  | .fxadd .. => []
  | .fxread _ d _ => dstRegs d
  | .fence .. => []
  | .qmark => []
  | .tbegin .. => []
  | .tend => []
  | .tladd .. => []
  | .tlset .. => []
  | .tlwait .. => []
  | .csrr d _ => dstRegs d
  | .csrw .. => []
  | .rrw .. => []
  | .xlatinv d _ _ => dstRegs d
  | .mxsave .. => bankRun 0 8
  | .haltDone .. => []
  | .freezeCycle .. => []
  | .scalarResultWrite .. => []
  | .vectorOpComplete .. => []
  | .assistRoutine .. => []
  | .predicateComplete .. => []
  | .shadowLatchReplay .. => []
  | .deckleWindowEnd .. => []
  | .regulatorSettleDone .. => []
  | .marginEntryDeferredWrite .. => []
  | .marginEntryRefresh .. => []
  | .coreFenced .. => []
  | .teamMemberKill .. => []
  | .memoryAccessResponse .. => []
  | .waitComplete .. => []
  | .mwaitTimeout .. => []
  | .timedCopyStart .. => []
  | .copyComplete .. => []
  | .copyStop .. => []
  | .streamAppend .. => []
  | .mouldTilePush .. => []
  | .pressSlotPop .. => []
  | .subscriptionStop .. => []
  | .lentSlotGrant .. => []
  | .lentItemMove .. => []
  | .commitComplete .. => []
  | .xlatinvComplete .. => []
  | .xgenInstall => []
  | .xgenDrainDone => []
  | .baseDieReset .. => []
  | .divertedAccess => []
  | .memberSuspend .. => []
  | .teamHandover .. => []
  | .teamResume .. => []
  | .workerRetire .. => []
  | .launchRecordWrite .. => []
  | .phaseBoundaryCommit => []
  | .replicaTimeout => []
  | .sqHeadRecord .. => []
  | .sqWaitRecord .. => []
  | .sqWaitSatisfied .. => []
  | .sqNopRecord .. => []
  | .fallbackLaunch .. => []
  | .watchdogExpiry .. => []
  | .deviceReset => []
  | .thermalLimit => []
  | .linkRateStep .. => []
  | .linkRetrainDone .. => []
  | .flitCrcRetry .. => []
  | .patrolScrub .. => []
  | .selfTestComplete .. => []
  | .peerWriteFrame .. => []
  | .peerAtomicFrame .. => []
  | .peerResponseFrame .. => []
  | .peerDigestFrame .. => []
  | .hostMemoryWrite .. => []
  | .hostMemoryRead .. => []
  | .hostRegisterWrite .. => []
  | .sqEnable .. => []
  | .sqDisable .. => []
  | .sqTailWrite .. => []
  | .sqRestart .. => []
  | .cancelLaunch .. => []
  | .cancelPhase .. => []
  | .cancelGraph .. => []
  | .cancelJob .. => []
  | .pstateWrite .. => []
  | .diegateSet .. => []
  | .dieGated .. => []
  | .diegateClear .. => []
  | .hbmsrSet .. => []
  | .hbmSelfRefreshEntry .. => []
  | .hbmsrClear .. => []
  | .powerOff => []
  | .dkcfgWrite .. => []
  | .coreFenceCmd .. => []
  | .coreUnfenceCmd .. => []
  | .selfTestStart .. => []
  | .bootSnow => []
  | .bootEnroll .. => []
  | .bootRevoke .. => []
  | .bootOwneronly => []
  | .bootReflash .. => []
  | .bootSetsvn => []
  | .attgo => []
  | .debugHaltreq .. => []
  | .debugResume .. => []
  | .debugAttach .. => []
  | .ringcfgWrite .. => []
  | .ringpush .. => []
  | .ringpop .. => []
  | .mouldgo .. => []
  | .pressgo .. => []
  | .peeraop .. => []
  | .mxmodeWrite .. => []
  | .vlWrite .. => []
  | .wqOpen => []
  | .wqClose => []
  | .wqReset => []
  | .wqRestart .. => []
  | .wqTailWrite .. => []
  | .replcmdCommit => []
  | .replcmdDiscard => []
  | .wdogWrite .. => []
  | .loadDataReturn .. => []
  | .storePerformed .. => []
  | .copyStart .. => []
  | .waitRequestArrival .. => []
  | .peerPortDown .. => []
  | .powerLoss => []
  | .msixVectorUnmask .. => []
  | .parkImageWriteDone .. => []

/-- The unit of a queue destination. -/
def dstQueue : Dst → Option Nat
  | .handle u => some u.val
  | _ => none

/-- The unit whose result queue a slot reserves an entry of, if it reserves one (01 R17, R21). -/
def reserves : Instr → Option Nat
  | .nop => none
  | .bc .. => none
  | .call .. => none
  | .callr .. => none
  | .jr .. => none
  | .ret .. => none
  | .loop .. => none
  | .adv .. => none
  | .yield .. => none
  | .hint .. => none
  | .trap .. => none
  | .eret => none
  | .halt => none
  | .bkpt .. => none
  | .add _ d _ _ => dstQueue d
  | .sub _ d _ _ => dstQueue d
  | .mul _ d _ _ => dstQueue d
  | .mulh _ d _ _ => dstQueue d
  | .mulhu _ d _ _ => dstQueue d
  | .div _ d _ _ => dstQueue d
  | .divu _ d _ _ => dstQueue d
  | .rem _ d _ _ => dstQueue d
  | .remu _ d _ _ => dstQueue d
  | .and _ d _ _ => dstQueue d
  | .or _ d _ _ => dstQueue d
  | .xor _ d _ _ => dstQueue d
  | .andn _ d _ _ => dstQueue d
  | .shl _ d _ _ => dstQueue d
  | .shr _ d _ _ => dstQueue d
  | .sra _ d _ _ => dstQueue d
  | .rol _ d _ _ => dstQueue d
  | .ror _ d _ _ => dstQueue d
  | .min _ d _ _ => dstQueue d
  | .minu _ d _ _ => dstQueue d
  | .max _ d _ _ => dstQueue d
  | .maxu _ d _ _ => dstQueue d
  | .ceq _ d _ _ => dstQueue d
  | .cne _ d _ _ => dstQueue d
  | .clt _ d _ _ => dstQueue d
  | .cltu _ d _ _ => dstQueue d
  | .cle _ d _ _ => dstQueue d
  | .cleu _ d _ _ => dstQueue d
  | .cmov _ d _ _ => dstQueue d
  | .cmovz _ d _ _ => dstQueue d
  | .bext _ d _ _ => dstQueue d
  | .bextu _ d _ _ => dstQueue d
  | .bins _ d _ _ => dstQueue d
  | .clz _ d _ => dstQueue d
  | .ctz _ d _ => dstQueue d
  | .popc _ d _ => dstQueue d
  | .sext _ d _ _ => dstQueue d
  | .zext _ d _ _ => dstQueue d
  | .lih _ d _ _ => dstQueue d
  | .faddF32 _ d _ _ => dstQueue d
  | .fsubF32 _ d _ _ => dstQueue d
  | .fmulF32 _ d _ _ => dstQueue d
  | .fmaF32 _ d _ _ => dstQueue d
  | .fdivF32 _ d _ _ => dstQueue d
  | .fsqrtF32 _ d _ => dstQueue d
  | .fminF32 _ d _ _ => dstQueue d
  | .fmaxF32 _ d _ _ => dstQueue d
  | .fceqF32 _ d _ _ => dstQueue d
  | .fcltF32 _ d _ _ => dstQueue d
  | .fcleF32 _ d _ _ => dstQueue d
  | .faddF64 _ d _ _ => dstQueue d
  | .fsubF64 _ d _ _ => dstQueue d
  | .fmulF64 _ d _ _ => dstQueue d
  | .fmaF64 _ d _ _ => dstQueue d
  | .fdivF64 _ d _ _ => dstQueue d
  | .fsqrtF64 _ d _ => dstQueue d
  | .fminF64 _ d _ _ => dstQueue d
  | .fmaxF64 _ d _ _ => dstQueue d
  | .fceqF64 _ d _ _ => dstQueue d
  | .fcltF64 _ d _ _ => dstQueue d
  | .fcleF64 _ d _ _ => dstQueue d
  | .fcvt _ d _ _ => dstQueue d
  | .lea d _ _ => dstQueue d
  | .leah d _ _ => dstQueue d
  | .leaw d _ _ => dstQueue d
  | .lead d _ _ => dstQueue d
  | .ldI8 d _ _ => dstQueue d
  | .ldN8 d _ _ => dstQueue d
  | .ldI16 d _ _ => dstQueue d
  | .ldN16 d _ _ => dstQueue d
  | .ldI32 d _ _ => dstQueue d
  | .ldN32 d _ _ => dstQueue d
  | .ld64 d _ _ => dstQueue d
  | .ldxI8 d _ _ => dstQueue d
  | .ldxN8 d _ _ => dstQueue d
  | .ldxI16 d _ _ => dstQueue d
  | .ldxN16 d _ _ => dstQueue d
  | .ldxI32 d _ _ => dstQueue d
  | .ldxN32 d _ _ => dstQueue d
  | .ldx64 d _ _ => dstQueue d
  | .st8 .. => none
  | .st16 .. => none
  | .st32 .. => none
  | .st64 .. => none
  | .stx8 .. => none
  | .stx16 .. => none
  | .stx32 .. => none
  | .stx64 .. => none
  | .vadd .. => none
  | .vsub .. => none
  | .vmul .. => none
  | .vfma .. => none
  | .vdiv .. => none
  | .vmin .. => none
  | .vmax .. => none
  | .vadds .. => none
  | .vsubs .. => none
  | .vceq .. => none
  | .vclt .. => none
  | .vcle .. => none
  | .vand .. => none
  | .vor .. => none
  | .vxor .. => none
  | .vandn .. => none
  | .vsel .. => none
  | .vperm8 .. => none
  | .vperm16 .. => none
  | .vperm32 .. => none
  | .vperm64 .. => none
  | .vshl .. => none
  | .vsrl .. => none
  | .vsra .. => none
  | .vtrans .. => none
  | .vmov .. => none
  | .vld .. => none
  | .vst .. => none
  | .vgather .. => none
  | .vscatter .. => none
  | .vcvt .. => none
  | .vcvtb .. => none
  | .vabs .. => none
  | .vneg .. => none
  | .vexp2 .. => none
  | .vlog2 .. => none
  | .vrcp .. => none
  | .vrsqrt .. => none
  | .vred _ _ d _ => dstQueue d
  | .vscan .. => none
  | .vscanx .. => none
  | .vbcast .. => none
  | .vqnt .. => none
  | .vdqnt .. => none
  | .vrand .. => none
  | .vstrm .. => none
  | .vsetvl _ d _ => dstQueue d
  | .mxset .. => none
  | .mxcall d _ _ _ => dstQueue d
  | .mxwait .. => none
  | .mxacc .. => none
  | .mxclr .. => none
  | .mxsr .. => none
  | .mxload .. => none
  | .mxpark .. => none
  | .mxunpark .. => none
  | .uend => none
  | .umma .. => none
  | .uloop .. => none
  | .upop .. => none
  | .uout .. => none
  | .gorient2 _ _ _ d => dstQueue d
  | .gorient3 _ _ _ d => dstQueue d
  | .gincirc _ _ _ d => dstQueue d
  | .ginsph _ _ _ d => dstQueue d
  | .gsegx _ _ _ d => dstQueue d
  | .gtie .. => none
  | .cpy d _ => dstQueue d
  | .cpyt d _ _ => dstQueue d
  | .sbind .. => none
  | .sadv .. => none
  | .mon .. => none
  | .mwait d _ => dstQueue d
  | .sempost .. => none
  | .semwait d _ _ => dstQueue d
  | .bararr d _ => dstQueue d
  | .barwait .. => none
  | .tbar => none
  | .deq .. => none
  | .enq .. => none
  | .aadd _ d _ _ => dstQueue d
  | .amin _ d _ _ => dstQueue d
  | .amax _ d _ _ => dstQueue d
  | .aand _ d _ _ => dstQueue d
  | .aor _ d _ _ => dstQueue d
  | .axor _ d _ _ => dstQueue d
  | .aswap _ d _ _ => dstQueue d
  | .acas .. => none
  | .fxadd .. => none
  | .fxread _ d _ => dstQueue d
  | .fence .. => none
  | .qmark => none
  | .tbegin .. => none
  | .tend => none
  | .tladd .. => none
  | .tlset .. => none
  | .tlwait .. => none
  | .csrr d _ => dstQueue d
  | .csrw .. => none
  | .rrw .. => none
  | .xlatinv d _ _ => dstQueue d
  | .mxsave .. => none
  | .haltDone .. => none
  | .freezeCycle .. => none
  | .scalarResultWrite .. => none
  | .vectorOpComplete .. => none
  | .assistRoutine .. => none
  | .predicateComplete .. => none
  | .shadowLatchReplay .. => none
  | .deckleWindowEnd .. => none
  | .regulatorSettleDone .. => none
  | .marginEntryDeferredWrite .. => none
  | .marginEntryRefresh .. => none
  | .coreFenced .. => none
  | .teamMemberKill .. => none
  | .memoryAccessResponse .. => none
  | .waitComplete .. => none
  | .mwaitTimeout .. => none
  | .timedCopyStart .. => none
  | .copyComplete .. => none
  | .copyStop .. => none
  | .streamAppend .. => none
  | .mouldTilePush .. => none
  | .pressSlotPop .. => none
  | .subscriptionStop .. => none
  | .lentSlotGrant .. => none
  | .lentItemMove .. => none
  | .commitComplete .. => none
  | .xlatinvComplete .. => none
  | .xgenInstall => none
  | .xgenDrainDone => none
  | .baseDieReset .. => none
  | .divertedAccess => none
  | .memberSuspend .. => none
  | .teamHandover .. => none
  | .teamResume .. => none
  | .workerRetire .. => none
  | .launchRecordWrite .. => none
  | .phaseBoundaryCommit => none
  | .replicaTimeout => none
  | .sqHeadRecord .. => none
  | .sqWaitRecord .. => none
  | .sqWaitSatisfied .. => none
  | .sqNopRecord .. => none
  | .fallbackLaunch .. => none
  | .watchdogExpiry .. => none
  | .deviceReset => none
  | .thermalLimit => none
  | .linkRateStep .. => none
  | .linkRetrainDone .. => none
  | .flitCrcRetry .. => none
  | .patrolScrub .. => none
  | .selfTestComplete .. => none
  | .peerWriteFrame .. => none
  | .peerAtomicFrame .. => none
  | .peerResponseFrame .. => none
  | .peerDigestFrame .. => none
  | .hostMemoryWrite .. => none
  | .hostMemoryRead .. => none
  | .hostRegisterWrite .. => none
  | .sqEnable .. => none
  | .sqDisable .. => none
  | .sqTailWrite .. => none
  | .sqRestart .. => none
  | .cancelLaunch .. => none
  | .cancelPhase .. => none
  | .cancelGraph .. => none
  | .cancelJob .. => none
  | .pstateWrite .. => none
  | .diegateSet .. => none
  | .dieGated .. => none
  | .diegateClear .. => none
  | .hbmsrSet .. => none
  | .hbmSelfRefreshEntry .. => none
  | .hbmsrClear .. => none
  | .powerOff => none
  | .dkcfgWrite .. => none
  | .coreFenceCmd .. => none
  | .coreUnfenceCmd .. => none
  | .selfTestStart .. => none
  | .bootSnow => none
  | .bootEnroll .. => none
  | .bootRevoke .. => none
  | .bootOwneronly => none
  | .bootReflash .. => none
  | .bootSetsvn => none
  | .attgo => none
  | .debugHaltreq .. => none
  | .debugResume .. => none
  | .debugAttach .. => none
  | .ringcfgWrite .. => none
  | .ringpush .. => none
  | .ringpop .. => none
  | .mouldgo .. => none
  | .pressgo .. => none
  | .peeraop .. => none
  | .mxmodeWrite .. => none
  | .vlWrite .. => none
  | .wqOpen => none
  | .wqClose => none
  | .wqReset => none
  | .wqRestart .. => none
  | .wqTailWrite .. => none
  | .replcmdCommit => none
  | .replcmdDiscard => none
  | .wdogWrite .. => none
  | .loadDataReturn .. => none
  | .storePerformed .. => none
  | .copyStart .. => none
  | .waitRequestArrival .. => none
  | .peerPortDown .. => none
  | .powerLoss => none
  | .msixVectorUnmask .. => none
  | .parkImageWriteDone .. => none

/-- The source fields of a slot, as the bundle reads them (03 R68): a store's data, a load's address and so on. -/
def srcsOf : Instr → List Src
  | .nop => []
  | .bc .. => []
  | .call .. => []
  | .callr a => [a]
  | .jr a => [a]
  | .ret a => [a]
  | .loop _ cnt _ => srcs9 cnt
  | .adv .. => []
  | .yield .. => []
  | .hint .. => []
  | .trap .. => []
  | .eret => []
  | .halt => []
  | .bkpt .. => []
  | .add _ _ a b => [a] ++ srcs9 b
  | .sub _ _ a b => [a] ++ srcs9 b
  | .mul _ _ a b => [a] ++ srcs9 b
  | .mulh _ _ a b => [a] ++ srcs9 b
  | .mulhu _ _ a b => [a] ++ srcs9 b
  | .div _ _ a b => [a] ++ srcs9 b
  | .divu _ _ a b => [a] ++ srcs9 b
  | .rem _ _ a b => [a] ++ srcs9 b
  | .remu _ _ a b => [a] ++ srcs9 b
  | .and _ _ a b => [a] ++ srcs9 b
  | .or _ _ a b => [a] ++ srcs9 b
  | .xor _ _ a b => [a] ++ srcs9 b
  | .andn _ _ a b => [a] ++ srcs9 b
  | .shl _ _ a b => [a] ++ srcs9 b
  | .shr _ _ a b => [a] ++ srcs9 b
  | .sra _ _ a b => [a] ++ srcs9 b
  | .rol _ _ a b => [a] ++ srcs9 b
  | .ror _ _ a b => [a] ++ srcs9 b
  | .min _ _ a b => [a] ++ srcs9 b
  | .minu _ _ a b => [a] ++ srcs9 b
  | .max _ _ a b => [a] ++ srcs9 b
  | .maxu _ _ a b => [a] ++ srcs9 b
  | .ceq _ _ a b => [a] ++ srcs9 b
  | .cne _ _ a b => [a] ++ srcs9 b
  | .clt _ _ a b => [a] ++ srcs9 b
  | .cltu _ _ a b => [a] ++ srcs9 b
  | .cle _ _ a b => [a] ++ srcs9 b
  | .cleu _ _ a b => [a] ++ srcs9 b
  | .cmov _ _ a b => [a] ++ srcs9 b
  | .cmovz _ _ a b => [a] ++ srcs9 b
  | .bext _ _ a b => [a] ++ srcs9 b
  | .bextu _ _ a b => [a] ++ srcs9 b
  | .bins _ _ a b => [a] ++ srcs9 b
  | .clz _ _ a => [a]
  | .ctz _ _ a => [a]
  | .popc _ _ a => [a]
  | .sext _ _ a b => [a] ++ srcs9 b
  | .zext _ _ a b => [a] ++ srcs9 b
  | .lih _ _ a b => [a] ++ srcs9 b
  | .faddF32 _ _ a b => [a] ++ srcs9 b
  | .fsubF32 _ _ a b => [a] ++ srcs9 b
  | .fmulF32 _ _ a b => [a] ++ srcs9 b
  | .fmaF32 _ _ a b => [a] ++ srcs9 b
  | .fdivF32 _ _ a b => [a] ++ srcs9 b
  | .fsqrtF32 _ _ a => [a]
  | .fminF32 _ _ a b => [a] ++ srcs9 b
  | .fmaxF32 _ _ a b => [a] ++ srcs9 b
  | .fceqF32 _ _ a b => [a] ++ srcs9 b
  | .fcltF32 _ _ a b => [a] ++ srcs9 b
  | .fcleF32 _ _ a b => [a] ++ srcs9 b
  | .faddF64 _ _ a b => [a] ++ srcs9 b
  | .fsubF64 _ _ a b => [a] ++ srcs9 b
  | .fmulF64 _ _ a b => [a] ++ srcs9 b
  | .fmaF64 _ _ a b => [a] ++ srcs9 b
  | .fdivF64 _ _ a b => [a] ++ srcs9 b
  | .fsqrtF64 _ _ a => [a]
  | .fminF64 _ _ a b => [a] ++ srcs9 b
  | .fmaxF64 _ _ a b => [a] ++ srcs9 b
  | .fceqF64 _ _ a b => [a] ++ srcs9 b
  | .fcltF64 _ _ a b => [a] ++ srcs9 b
  | .fcleF64 _ _ a b => [a] ++ srcs9 b
  | .fcvt _ _ a _ => [a]
  | .lea _ a b => [a] ++ srcs9 b
  | .leah _ a b => [a] ++ srcs9 b
  | .leaw _ a b => [a] ++ srcs9 b
  | .lead _ a b => [a] ++ srcs9 b
  | .ldI8 _ a b => [a] ++ srcs9 b
  | .ldN8 _ a b => [a] ++ srcs9 b
  | .ldI16 _ a b => [a] ++ srcs9 b
  | .ldN16 _ a b => [a] ++ srcs9 b
  | .ldI32 _ a b => [a] ++ srcs9 b
  | .ldN32 _ a b => [a] ++ srcs9 b
  | .ld64 _ a b => [a] ++ srcs9 b
  | .ldxI8 _ a b => [a] ++ srcs9 b
  | .ldxN8 _ a b => [a] ++ srcs9 b
  | .ldxI16 _ a b => [a] ++ srcs9 b
  | .ldxN16 _ a b => [a] ++ srcs9 b
  | .ldxI32 _ a b => [a] ++ srcs9 b
  | .ldxN32 _ a b => [a] ++ srcs9 b
  | .ldx64 _ a b => [a] ++ srcs9 b
  | .st8 x a b => [x] ++ [a] ++ srcs9 b
  | .st16 x a b => [x] ++ [a] ++ srcs9 b
  | .st32 x a b => [x] ++ [a] ++ srcs9 b
  | .st64 x a b => [x] ++ [a] ++ srcs9 b
  | .stx8 x a b => [x] ++ [a] ++ srcs9 b
  | .stx16 x a b => [x] ++ [a] ++ srcs9 b
  | .stx32 x a b => [x] ++ [a] ++ srcs9 b
  | .stx64 x a b => [x] ++ [a] ++ srcs9 b
  | .vadd .. => []
  | .vsub .. => []
  | .vmul .. => []
  | .vfma .. => []
  | .vdiv .. => []
  | .vmin .. => []
  | .vmax .. => []
  | .vadds .. => []
  | .vsubs .. => []
  | .vceq .. => []
  | .vclt .. => []
  | .vcle .. => []
  | .vand .. => []
  | .vor .. => []
  | .vxor .. => []
  | .vandn .. => []
  | .vsel .. => []
  | .vperm8 .. => []
  | .vperm16 .. => []
  | .vperm32 .. => []
  | .vperm64 .. => []
  | .vshl .. => []
  | .vsrl .. => []
  | .vsra .. => []
  | .vtrans .. => []
  | .vmov .. => []
  | .vld _ _ a c => [a] ++ [c]
  | .vst _ _ a c => [a] ++ [c]
  | .vgather _ _ a _ => [a]
  | .vscatter _ _ a _ => [a]
  | .vcvt .. => []
  | .vcvtb .. => []
  | .vabs .. => []
  | .vneg .. => []
  | .vexp2 .. => []
  | .vlog2 .. => []
  | .vrcp .. => []
  | .vrsqrt .. => []
  | .vred .. => []
  | .vscan .. => []
  | .vscanx .. => []
  | .vbcast _ _ a => [a]
  | .vqnt .. => []
  | .vdqnt .. => []
  | .vrand _ _ a => [a]
  | .vstrm .. => []
  | .vsetvl _ _ a => [a]
  | .mxset _ _ b => srcs9 b
  | .mxcall .. => []
  | .mxwait a => [a]
  | .mxacc .. => []
  | .mxclr .. => []
  | .mxsr .. => []
  | .mxload _ a _ => [a]
  | .mxpark a => [a]
  | .mxunpark a => [a]
  | .uend => []
  | .umma .. => []
  | .uloop .. => []
  | .upop .. => []
  | .uout .. => []
  | .gorient2 .. => []
  | .gorient3 .. => []
  | .gincirc .. => []
  | .ginsph .. => []
  | .gsegx .. => []
  | .gtie a => [a]
  | .cpy .. => []
  | .cpyt _ _ b => [b]
  | .sbind .. => []
  | .sadv _ b => [b]
  | .mon a => [a]
  | .mwait _ b => [b]
  | .sempost a b => [a] ++ [b]
  | .semwait _ a b => [a] ++ [b]
  | .bararr _ a => [a]
  | .barwait a b => [a] ++ [b]
  | .tbar => []
  | .deq _ a => [a]
  | .enq a _ => [a]
  | .aadd _ _ a b => [a] ++ [b]
  | .amin _ _ a b => [a] ++ [b]
  | .amax _ _ a b => [a] ++ [b]
  | .aand _ _ a b => [a] ++ [b]
  | .aor _ _ a b => [a] ++ [b]
  | .axor _ _ a b => [a] ++ [b]
  | .aswap _ _ a b => [a] ++ [b]
  | .acas _ _ a b => [a] ++ [b]
  | .fxadd _ a b => [a] ++ [b]
  | .fxread _ _ a => [a]
  | .fence .. => []
  | .qmark => []
  | .tbegin .. => []
  | .tend => []
  | .tladd a b => [a] ++ [b]
  | .tlset a b => [a] ++ [b]
  | .tlwait a b => [a] ++ [b]
  | .csrr .. => []
  | .csrw _ a => [a]
  | .rrw .. => []
  | .xlatinv _ a b => [a] ++ [b]
  | .mxsave a => [a]
  | .haltDone .. => []
  | .freezeCycle .. => []
  | .scalarResultWrite .. => []
  | .vectorOpComplete .. => []
  | .assistRoutine .. => []
  | .predicateComplete .. => []
  | .shadowLatchReplay .. => []
  | .deckleWindowEnd .. => []
  | .regulatorSettleDone .. => []
  | .marginEntryDeferredWrite .. => []
  | .marginEntryRefresh .. => []
  | .coreFenced .. => []
  | .teamMemberKill .. => []
  | .memoryAccessResponse .. => []
  | .waitComplete .. => []
  | .mwaitTimeout .. => []
  | .timedCopyStart .. => []
  | .copyComplete .. => []
  | .copyStop .. => []
  | .streamAppend .. => []
  | .mouldTilePush .. => []
  | .pressSlotPop .. => []
  | .subscriptionStop .. => []
  | .lentSlotGrant .. => []
  | .lentItemMove .. => []
  | .commitComplete .. => []
  | .xlatinvComplete .. => []
  | .xgenInstall => []
  | .xgenDrainDone => []
  | .baseDieReset .. => []
  | .divertedAccess => []
  | .memberSuspend .. => []
  | .teamHandover .. => []
  | .teamResume .. => []
  | .workerRetire .. => []
  | .launchRecordWrite .. => []
  | .phaseBoundaryCommit => []
  | .replicaTimeout => []
  | .sqHeadRecord .. => []
  | .sqWaitRecord .. => []
  | .sqWaitSatisfied .. => []
  | .sqNopRecord .. => []
  | .fallbackLaunch .. => []
  | .watchdogExpiry .. => []
  | .deviceReset => []
  | .thermalLimit => []
  | .linkRateStep .. => []
  | .linkRetrainDone .. => []
  | .flitCrcRetry .. => []
  | .patrolScrub .. => []
  | .selfTestComplete .. => []
  | .peerWriteFrame .. => []
  | .peerAtomicFrame .. => []
  | .peerResponseFrame .. => []
  | .peerDigestFrame .. => []
  | .hostMemoryWrite .. => []
  | .hostMemoryRead .. => []
  | .hostRegisterWrite .. => []
  | .sqEnable .. => []
  | .sqDisable .. => []
  | .sqTailWrite .. => []
  | .sqRestart .. => []
  | .cancelLaunch .. => []
  | .cancelPhase .. => []
  | .cancelGraph .. => []
  | .cancelJob .. => []
  | .pstateWrite .. => []
  | .diegateSet .. => []
  | .dieGated .. => []
  | .diegateClear .. => []
  | .hbmsrSet .. => []
  | .hbmSelfRefreshEntry .. => []
  | .hbmsrClear .. => []
  | .powerOff => []
  | .dkcfgWrite .. => []
  | .coreFenceCmd .. => []
  | .coreUnfenceCmd .. => []
  | .selfTestStart .. => []
  | .bootSnow => []
  | .bootEnroll .. => []
  | .bootRevoke .. => []
  | .bootOwneronly => []
  | .bootReflash .. => []
  | .bootSetsvn => []
  | .attgo => []
  | .debugHaltreq .. => []
  | .debugResume .. => []
  | .debugAttach .. => []
  | .ringcfgWrite .. => []
  | .ringpush .. => []
  | .ringpop .. => []
  | .mouldgo .. => []
  | .pressgo .. => []
  | .peeraop .. => []
  | .mxmodeWrite .. => []
  | .vlWrite .. => []
  | .wqOpen => []
  | .wqClose => []
  | .wqReset => []
  | .wqRestart .. => []
  | .wqTailWrite .. => []
  | .replcmdCommit => []
  | .replcmdDiscard => []
  | .wdogWrite .. => []
  | .loadDataReturn .. => []
  | .storePerformed .. => []
  | .copyStart .. => []
  | .waitRequestArrival .. => []
  | .peerPortDown .. => []
  | .powerLoss => []
  | .msixVectorUnmask .. => []
  | .parkImageWriteDone .. => []

/-! ## Fetching (03 R63, R64, 08 R218) -/

/-- A line of 64 bytes that reaches the core's instruction cache under a key: a line that is present and differs may serve the
fetch, by a free choice (07 R205, 09 R238; log 7). -/
def Mach.fetched (m : Mach) (c key : Nat) (now : List Byte) : Mach × List Byte :=
  let line := (m.core c).icache.get [] key
  if line = now then (m, now)
  else if line != [] && Config.freeBool m.nonce then (m.tickNonce, line)
  else
    let m1 := if line != [] then m.tickNonce else m
    (m1.updCore c fun k => { k with icache := k.icache.put key now }, now)

/-- The fetch line that holds an address, through the context's ranges with X: its 64 bytes, or the fault of 08 R218 or
of the memory side (13 R308). -/
def Mach.fetchLine (m : Mach) (c : Nat) (fw : Bool) (va : Word) : Mach × Except Trp (List Byte) :=
  let base := va.toNat / 64 * 64
  let x := m.ctx c fw
  match mapVa x.ranges base 64 false false true with
  | none => (m, .error { cause := .memFetchRange, val := va, viol := none })
  | some ia =>
    match iaTarget ia with
    | .own off =>
      if m.badSpad c off 64 then (m, .error { cause := .memUncorrectable, val := va, viol := none })
      else let (m1, bs) := m.fetched c (2 ^ 40 + off / 64) (m.spadRead c off 64); (m1, .ok bs)
    | .team _ _ => (m, .error { cause := .memFetchRange, val := va, viol := none })
    | .mem ia =>
      match m.translate x.asid ia .fetch with
      | (m1, .error e) => (m1, .error { cause := e, val := va, viol := some (m.viol ia x.asid .fetch e c fw) })
      | (m1, .ok p) =>
        let (m2, bs) := m1.readPlace p 64
        let (m3, l) := m2.fetched c (((lineOf p).map fun k => k.1).getD 0) bs
        (m3, .ok l)

/-- The bits of a byte that are set. -/
def popByte (h : Byte) : Nat := ((rangeFrom 0 8).filter fun i => bitAt h.toNat i).length

/-- The length of a bundle with header h (03 R63). -/
def bundleLen (h : Byte) : Nat := 1 + 4 * popByte h

/-- The words of a bundle's present slots, in slot order (03 R63). -/
def slotWords (h : Byte) (bs : List Byte) : List (Nat × BitVec 32) :=
  ((rangeFrom 0 8).filter fun i => bitAt h.toNat i).zipIdx.map fun p =>
    (p.1, BitVec.ofNat 32 (natOfBytes ((bs.drop (4 * p.2)).take 4)))

/-- Whether a slot word's literal-capable field asks for the literal (03 R66). -/
def asksLit (slot : Nat) (w : BitVec 32) : Bool :=
  match slot with
  | 0 => fld w 26 6 == 0x06 && fld w 16 9 == 0x180
  | 1 => fld w 0 9 == 0x180
  | 2 => fld w 0 9 == 0x180
  | 3 => fld w 0 9 == 0x180
  | 5 => fld w 27 5 == 0x00 && fld w 9 9 == 0x180
  | _ => false

/-- A decoded slot: its number, word and instruction. -/
structure Slot where
  n : Nat
  w : BitVec 32
  i : Instr
  deriving DecidableEq, Repr

/-- The trap value of a fault at slot n with word w (03 R89). -/
def slotValOf (n : Nat) (w : BitVec 32) : Word := W (n * 2 ^ 32 + w.toNat)

/-- The slots decoded, in ascending order; the first slot that fails gives its cause and trap value (03 R89, step 3). -/
def decodeSlots (fw : Bool) (len : Nat) : List (Nat × BitVec 32) → Except (Cause × Word) (List Slot)
  | [] => .ok []
  | (n, w) :: r =>
    match decodeSlot fw len n w with
    | .error c => .error (c, slotValOf n w)
    | .ok i =>
      match decodeSlots fw len r with
      | .error e => .error e
      | .ok l => .ok ({ n := n, w := w, i := i } :: l)

/-- The first slot whose destinations overlap those of a lower-numbered slot (03 R89, 01 R17). -/
def conflict (seen : List Reg) : List Slot → Option Slot
  | [] => none
  | s :: r =>
    let d := destsOf s.i
    if d.any fun x => seen.contains x then some s else conflict (d ++ seen) r

/-- The slots of a bundle whose header is h and whose bytes after the header are bs, o bytes into its line, after the
checks of 03 R89, steps 1 to 4. -/
def checkBundle (fw : Bool) (o : Nat) (h : Byte) (bs : List Byte) : Except (Cause × Word) (List Slot × BitVec 32) :=
  let len := bundleLen h
  let hv : Word := W (7 * 2 ^ 32 + h.toNat)
  if 64 < o + len then .error (.illegalBundle, hv)
  else
    let ws := slotWords h bs
    let code := ws.filter fun p => p.1 < 7
    let lits := ws.filter fun p => p.1 = 7
    let asks := (code.filter fun p => asksLit p.1 p.2).length
    if asks ≠ lits.length then .error (.illegalLiteral, hv)
    else
      match decodeSlots fw len code with
      | .error e => .error e
      | .ok l =>
        match conflict [] l with
        | some s => .error (.illegalWriteConflict, slotValOf s.n s.w)
        | none => .ok (l, match lits with
          | p :: _ => p.2
          | [] => 0)

end Sys2Proof.Machine
end

