-- ==== Sys2Proof/Machine/Vector.lean ====
section
/-!
DEFINITION. The vector slot S4 (chapter 05). Each instruction reads its source elements and writes its destination
elements in its step; its flags, and the elements an assist completes, wait for VECTOR_OP_COMPLETE.
-/
namespace Sys2Proof.Machine

/-! ## Lengths and elements (05 R127, R128) -/

/-- COUNT of VL. -/
def Ctx.vlCount (x : Ctx) : Nat := bits x.vl.toNat 13 0
/-- VT of VL. -/
def Ctx.vlType (x : Ctx) : VT := (VT.dec (BitVec.ofNat 4 (bits x.vl.toNat 19 16))).getD .i8
/-- The VL word of a count and a type. -/
def vlWord (n : Nat) (t : VT) : Word := W (t.enc.toNat * 2 ^ 16 + n)
/-- The capacity of a register in elements of w bytes. -/
def vcap (w : Nat) : Nat := Config.vBytes / w

/-- The number of elements an instruction processes whose widest element has w bytes (05 R128). -/
def State.vn (s : State) (w : Nat) : Nat := min s.xp.vlCount (vcap w)

/-- The width of an instruction that carries no type: that of VL.VT (05 R128). -/
def State.vw (s : State) : Nat := s.xp.vlType.bytes

/-- v register r of a core. -/
def Core.vreg (k : Core) (r : Nat) : Mem := k.v.get Mem.empty r

/-- The first n elements of w bytes of a memory from an offset. -/
def elemsOf (m : Mem) (off w n : Nat) : List Nat := (chunks w n (m.read off (w * n))).map natOfBytes

/-- The first n elements of w bytes of a v register, as the bundle's sources. -/
def State.velems (s : State) (r : BitVec 8) (w n : Nat) : List Nat := elemsOf (s.kp.vreg r.toNat) 0 w n

/-- The bytes of elements. -/
def elemBytes (w : Nat) : List Nat → List Byte
  | [] => []
  | x :: r => bytesOfNat w x ++ elemBytes w r

/-- Bytes written into v register r from an offset on. -/
def Core.vwrite (k : Core) (r off : Nat) (bs : List Byte) : Core :=
  { k with v := k.v.put r ((k.vreg r).write off bs) }

/-- Elements of w bytes written to the first elements of v register r. -/
def State.vput (s : State) (r : BitVec 8) (w : Nat) (xs : List Nat) : State :=
  s.updK fun k => k.vwrite r.toNat 0 (elemBytes w xs)

/-! ## Flushing, assists and completion (02 R47 to R49, 05 R130, R131) -/

/-- A subnormal input is read as zero: FIXED mode (02 R47). -/
def State.fxIn (s : State) : Bool := !s.xp.flex

/-- A subnormal result of type t is written as zero: FIXED mode, or context 1 with f32 or f64 (02 R47, R49). -/
def State.fxOut (s : State) (t : VT) : Bool := !s.xp.flex || (s.iss.fw && (t == .f32 || t == .f64))

/-- A subnormal result of type t is completed by an assist: FLEX mode, context 0, f32 or f64 (02 R48). -/
def State.assists (s : State) (t : VT) : Bool := s.xp.flex && !s.iss.fw && (t == .f32 || t == .f64)

/-- The flags of results. -/
def orAll : List FR → BitVec 5
  | [] => 0
  | r :: l => r.fl ||| orAll l

/-- An operation that writes v registers vds is under way until VECTOR_OP_COMPLETE, in the matrix unit if mx. -/
def State.vopOn (s : State) (mx : Bool) (vds : List Nat) (f : BitVec 5) (marks : List (Nat × Nat × List Byte)) (assist : Bool) : State :=
  s.updK fun k => { k with vops := k.vops ++
    [{ fw := s.iss.fw, flags := f, assist := assist, queued := false, marks := marks, drain := none, vds := vds, mx := mx }] }

/-- An operation of the vector unit that writes v registers vds is under way until VECTOR_OP_COMPLETE. -/
def State.vop (s : State) (vds : List Nat) (f : BitVec 5) (marks : List (Nat × Nat × List Byte)) (assist : Bool) : State :=
  s.vopOn false vds f marks assist

/-- Results of a computation written to vd: a subnormal that an assist completes is written as zero and marked. -/
def State.vresult (s : State) (t : VT) (vd : BitVec 8) (rs : List FR) : State :=
  let w := t.bytes
  let marked (r : FR) : Bool := s.assists t && (fltOf t).isSub r.val
  let marks := (rs.zipIdx.filter fun p => marked p.1).map fun p => (vd.toNat, w * p.2, bytesOfNat w p.1.val)
  (s.vput vd w (rs.map fun r => if marked r then 0 else r.val)).vop [vd.toNat] (orAll rs) marks (!marks.isEmpty)

/-- Moved elements written to vd: no flag, no assist (05 R131). -/
def State.vmoved (s : State) (vd : BitVec 8) (w : Nat) (xs : List Nat) : State := (s.vput vd w xs).vop [vd.toNat] 0 [] false

/-- Go on with the destination of a vector instruction, unless it is live-in to the open region. -/
def State.vdst (s : State) (vd : BitVec 8) (n : Nat) (k : State → Out) : Out := s.withDests vd.toNat n k

/-! ## Shapes -/

/-- An operation on the elements of two registers. -/
def State.v2 (s : State) (t rt : VT) (vd va vb : BitVec 8) (f : Nat → Nat → FR) : Out :=
  s.vdst vd 1 fun s =>
    let n := s.vn t.bytes
    .next (s.vresult rt vd ((s.velems va t.bytes n).zipWith f (s.velems vb t.bytes n)))

/-- Arithmetic: g on floating-point values, h on integers. -/
def State.varith (s : State) (t : VT) (vd va vb : BitVec 8) (sat : Bool) (g : Flt → Bool → Num → Num → FR)
    (h : Int → Int → Int) : Out :=
  s.v2 t t vd va vb fun x y =>
    if t.isFloat then g (fltOf t) (s.fxOut t) ((fltOf t).inp s.fxIn x) ((fltOf t).inp s.fxIn y)
    else { val := intPut t.isSigned (8 * t.bytes) sat (h (intOf t x) (intOf t y)), fl := 0 }

/-- A compare: all ones for true (05 R133). -/
def State.vcmp (s : State) (t : VT) (vd va vb : BitVec 8) (c : Nat) : Out :=
  s.vdst vd 1 fun s =>
    let n := s.vn t.bytes
    let f (x y : Nat) : FR :=
      let r := cmpN c (vtNum t s.fxIn x) (vtNum t s.fxIn y)
      { r with val := if r.val = 0 then 0 else 2 ^ (8 * t.bytes) - 1 }
    let rs := (s.velems va t.bytes n).zipWith f (s.velems vb t.bytes n)
    .next ((s.vput vd t.bytes (rs.map fun r => r.val)).vop [vd.toNat] (orAll rs) [] false)

/-- A bitwise operation on the elements of VL.VT (05 R134). -/
def State.vbits (s : State) (vd va vb : BitVec 8) (f : Nat → Nat → Nat → Nat) : Out :=
  s.vdst vd 1 fun s =>
    let w := s.vw
    let n := s.vn w
    .next (s.vmoved vd w
      ((s.velems vd w n).zipWith (fun d p => f d p.1 p.2) ((s.velems va w n).zip (s.velems vb w n))))

/-- An operation on the elements of one register. -/
def State.vmap (s : State) (w : Nat) (vd va : BitVec 8) (f : Nat → Nat) : Out :=
  s.vdst vd 1 fun s => .next (s.vmoved vd w ((s.velems va w (s.vn w)).map f))

/-- An elementwise function (05 R142). -/
def State.vfun (s : State) (t : VT) (vd va : BitVec 8) (f : State → Nat → FR) : Out :=
  s.vdst vd 1 fun s => .next (s.vresult t vd ((s.velems va t.bytes (s.vn t.bytes)).map (f s)))

/-- The value of a floating-point element as an instruction reads it. -/
def State.vin (s : State) (t : VT) (x : Nat) : Num := (fltOf t).inp s.fxIn x

/-! ## Arithmetic and compares (05 R133) -/

/-- VADD (05 R133). -/
def execVadd (t : VT) (vd va vb : BitVec 8) (s : State) : Out :=
  s.varith t vd va vb false (fun F fx a b => F.addN fx a b) (fun a b => a + b)

/-- VSUB (05 R133). -/
def execVsub (t : VT) (vd va vb : BitVec 8) (s : State) : Out :=
  s.varith t vd va vb false (fun F fx a b => F.addN fx a b.negate) (fun a b => a - b)

/-- VMUL (05 R133). -/
def execVmul (t : VT) (vd va vb : BitVec 8) (s : State) : Out :=
  s.varith t vd va vb false (fun F fx a b => F.mulN fx a b) (fun a b => a * b)

/-- VDIV (05 R133). Its types are floating-point (03 R80). -/
def execVdiv (t : VT) (vd va vb : BitVec 8) (s : State) : Out :=
  s.varith t vd va vb false (fun F fx a b => F.divN fx a b) (fun _ b => b)

/-- VMIN (05 R133). -/
def execVmin (t : VT) (vd va vb : BitVec 8) (s : State) : Out :=
  s.varith t vd va vb false (fun F fx a b => F.minMaxN fx false a b) (fun a b => min a b)

/-- VMAX (05 R133). -/
def execVmax (t : VT) (vd va vb : BitVec 8) (s : State) : Out :=
  s.varith t vd va vb false (fun F fx a b => F.minMaxN fx true a b) (fun a b => max a b)

/-- VADDS (05 R133). Its types are integers (03 R80). -/
def execVadds (t : VT) (vd va vb : BitVec 8) (s : State) : Out :=
  s.varith t vd va vb true (fun F fx a b => F.addN fx a b) (fun a b => a + b)

/-- VSUBS (05 R133). Its types are integers (03 R80). -/
def execVsubs (t : VT) (vd va vb : BitVec 8) (s : State) : Out :=
  s.varith t vd va vb true (fun F fx a b => F.addN fx a b.negate) (fun a b => a - b)

/-- VFMA: a × b + d with one rounding (05 R133). -/
def execVfma (t : VT) (vd va vb : BitVec 8) (s : State) : Out :=
  s.vdst vd 1 fun s =>
    let w := t.bytes
    let n := s.vn w
    let f (d : Nat) (p : Nat × Nat) : FR := (fltOf t).fmaN (s.fxOut t) (s.vin t p.1) (s.vin t p.2) (s.vin t d)
    .next (s.vresult t vd ((s.velems vd w n).zipWith f ((s.velems va w n).zip (s.velems vb w n))))

/-- VCEQ (05 R133). -/
def execVceq (t : VT) (vd va vb : BitVec 8) (s : State) : Out := s.vcmp t vd va vb 0

/-- VCLT (05 R133). -/
def execVclt (t : VT) (vd va vb : BitVec 8) (s : State) : Out := s.vcmp t vd va vb 1

/-- VCLE (05 R133). -/
def execVcle (t : VT) (vd va vb : BitVec 8) (s : State) : Out := s.vcmp t vd va vb 2

/-! ## Bitwise operations, shifts and rearrangement (05 R134) -/

/-- VAND (05 R134). -/
def execVand (vd va vb : BitVec 8) (s : State) : Out := s.vbits vd va vb (fun _ a b => Nat.land a b)

/-- VOR (05 R134). -/
def execVor (vd va vb : BitVec 8) (s : State) : Out := s.vbits vd va vb (fun _ a b => Nat.lor a b)

/-- VXOR (05 R134). -/
def execVxor (vd va vb : BitVec 8) (s : State) : Out := s.vbits vd va vb (fun _ a b => Nat.xor a b)

/-- VANDN (05 R134). -/
def execVandn (vd va vb : BitVec 8) (s : State) : Out := s.vbits vd va vb (fun _ a b => a - Nat.land a b)

/-- VSEL (05 R134). -/
def execVsel (vd va vb : BitVec 8) (s : State) : Out := s.vbits vd va vb (fun d a b => Nat.lor (Nat.land d a) (b - Nat.land d b))

/-- VPERM: element k of VA with k the n16 index of VB, 0 past the register (05 R134). -/
def State.vperm (s : State) (w : Nat) (vd va vb : BitVec 8) : Out :=
  s.vdst vd 1 fun s =>
    let n := s.vn (max w 2)
    let src := s.kp.vreg va.toNat
    let pick (k : Nat) : Nat := if vcap w ≤ k then 0 else src.num (k * w) w
    .next (s.vmoved vd w ((s.velems vb 2 n).map pick))

/-- VPERM of 8-bit elements (05 R134). -/
def execVperm8 (vd va vb : BitVec 8) (s : State) : Out := s.vperm 1 vd va vb

/-- VPERM of 16-bit elements (05 R134). -/
def execVperm16 (vd va vb : BitVec 8) (s : State) : Out := s.vperm 2 vd va vb

/-- VPERM of 32-bit elements (05 R134). -/
def execVperm32 (vd va vb : BitVec 8) (s : State) : Out := s.vperm 4 vd va vb

/-- VPERM of 64-bit elements (05 R134). -/
def execVperm64 (vd va vb : BitVec 8) (s : State) : Out := s.vperm 8 vd va vb

/-- VSHL (05 R134). -/
def execVshl (w : Width) (n : BitVec 6) (vd va : BitVec 8) (s : State) : Out :=
  s.vmap w.bytes vd va fun x => x * 2 ^ n.toNat % 2 ^ (8 * w.bytes)

/-- VSRL (05 R134). -/
def execVsrl (w : Width) (n : BitVec 6) (vd va : BitVec 8) (s : State) : Out :=
  s.vmap w.bytes vd va fun x => x / 2 ^ n.toNat

/-- VSRA (05 R134). -/
def execVsra (w : Width) (n : BitVec 6) (vd va : BitVec 8) (s : State) : Out :=
  s.vmap w.bytes vd va fun x => unsgn (8 * w.bytes) (sgn (8 * w.bytes) x / 2 ^ n.toNat)

/-- VTRANS: VD[j × r + i] = VA[i × q + j] with r rows and q columns (05 R134). -/
def execVtrans (w : Width) (rows : BitVec 6) (vd va : BitVec 8) (s : State) : Out :=
  s.vdst vd 1 fun s =>
    let r := rows.toNat + 1
    let q := s.vn w.bytes / r
    let xs := s.velems va w.bytes (r * q)
    .next (s.vmoved vd w.bytes ((rangeFrom 0 (r * q)).map fun d => xs.getD (d % r * q + d / r) 0))

/-- VMOV (05 R134). -/
def execVmov (vd va : BitVec 8) (s : State) : Out := s.vmap s.vw vd va fun x => x

/-! ## Scratchpad transfers (05 R135 to R138) -/

/-- The scratchpad offset of an element, or the fault and its address (05 R136, 08 R217). -/
def State.velemAddr (s : State) (va w : Nat) (wr : Bool) : Except (Cause × Word) Nat :=
  if va % w ≠ 0 then .error (.alignVector, W va)
  else
    match s.target va w (!wr) wr with
    | .error c => .error (c, W va)
    | .ok (.own off) => .ok off
    | .ok _ => .error (.memVectorTarget, W va)

/-- The step of 05 R136 that a cause belongs to: a bad member of the team window stands with MEM_RANGE (08 R217). -/
def vstepOf : Cause → Nat
  | .alignVector => 1
  | .memVectorTarget => 3
  | _ => 2

/-- The first element of a list that fails a step of 05 R136. -/
def vfails (n : Nat) (rs : List (Except (Cause × Word) Nat)) : Option (Cause × Word) :=
  rs.findSome? fun r => match r with
    | .error e => if vstepOf e.1 = n then some e else none
    | .ok _ => none

/-- The offsets of the elements, or the lowest-indexed failure of the first step that fails (05 R136). -/
def State.velemAddrs (s : State) (w : Nat) (wr : Bool) (vas : List Nat) : Except (Cause × Word) (List Nat) :=
  let rs := vas.map fun va => s.velemAddr va w wr
  match (vfails 1 rs).orElse fun _ => (vfails 2 rs).orElse fun _ => vfails 3 rs with
  | some e => .error e
  | none => .ok (rs.map fun r => match r with
    | .ok o => o
    | .error _ => 0)

/-- The virtual addresses of a strided transfer (05 R135). -/
def strided (a st : Word) (w n : Nat) : List Nat :=
  let d : Word := if st = 0 then W w else st
  (rangeFrom 0 n).map fun i => (a + W i * d).toNat

/-- A transfer at addresses that have passed their checks, or its fault. -/
def State.vaccess (s : State) (w : Nat) (wr : Bool) (vas : List Nat) (k : State → List Nat → Out) : Out :=
  match s.velemAddrs w wr vas with
  | .error e => .next (s.trap e.1 e.2)
  | .ok offs => k s.drained offs

/-- The base and the stride are multiples of the width (05 R136, step 1): a misaligned base fails at element 0, a misaligned stride at
element 1. Where no element fails, because too few move, the trap value is the base (log 118). -/
def State.vstride (s : State) (a st : Word) (w : Nat) (vas : List Nat) (k : Out) : Out :=
  if a.toNat % w ≠ 0 then .next (s.trap .alignVector (W (vas.getD 0 a.toNat)))
  else if st.toNat % w ≠ 0 then .next (s.trap .alignVector (W (vas.getD 1 a.toNat)))
  else k

/-- A vector read has met uncorrectable data at an address and its offset (05 R139): the error log names the intermediate address, and
once the bundle has retired its region aborts (10 R272) or its context is killed. -/
def State.doomed (s : State) (va off : Nat) : State :=
  let t := s.upd fun m => m.logErr (Cause.code .memUncorrectable) kDetected
    { addr := iaOwn + off, unit := 7, fw := s.iss.fw, loc := s.iss.core, info := W (iaOwn + off) }
  { t with iss := { t.iss with doom := some (t.iss.doom.getD { cause := .memUncorrectable, val := W va, viol := none }) } }

/-- Elements read from the scratchpad into vd, at their addresses and offsets; an uncorrectable one is written as zero (05 R139). -/
def State.vloadAt (s : State) (w : Nat) (vd : BitVec 8) (vas offs : List Nat) : State :=
  let bad (o : Nat) : Bool := s.pre.badSpad s.iss.core o w
  let t := ((vas.zip offs).filter fun p => bad p.2).foldl (fun s p => s.doomed p.1 p.2) s
  t.vmoved vd w (offs.map fun o => if bad o then 0 else natOfBytes (s.m.spadRead s.iss.core o w))

/-- Elements written to the scratchpad in ascending index order (05 R138); each write lets the waits it satisfies go on (10 R260). -/
def State.vstoreAt (s : State) (w : Nat) (xs : List Nat) (offs : List Nat) : State :=
  let t := s.upd fun m => (offs.zip xs).foldl (fun m p => (m.spadWrite s.iss.core p.1 (bytesOfNat w p.2)).wakeObjs) m
  t.vop [] 0 [] false

/-- VLD (05 R135). -/
def execVld (w : Width) (vd : BitVec 8) (a c : Src) (s : State) : Out :=
  s.withSrcs [a, c] fun t =>
    (t.latchAB uVU.val (s.src a) (s.src c)).vdst vd 1 fun t =>
      let vas := strided (s.src a) (s.src c) w.bytes (s.vn w.bytes)
      t.vstride (s.src a) (s.src c) w.bytes vas (t.vaccess w.bytes false vas fun t offs => .next (t.vloadAt w.bytes vd vas offs))

/-- VST (05 R135). -/
def execVst (w : Width) (vd : BitVec 8) (a c : Src) (s : State) : Out :=
  s.withSrcs [a, c] fun t =>
    let t := t.latchAB uVU.val (s.src a) (s.src c)
    let n := s.vn w.bytes
    let vas := strided (s.src a) (s.src c) w.bytes n
    t.vstride (s.src a) (s.src c) w.bytes vas
      (t.vaccess w.bytes true vas fun t offs => .next (t.vstoreAt w.bytes (s.velems vd w.bytes n) offs))

/-- The addresses of a gather or scatter (05 R135). -/
def State.gatherVas (s : State) (a : Word) (vc : BitVec 8) (n : Nat) : List Nat :=
  (s.velems vc 4 n).map fun o => (a + W o).toNat

/-- VGATHER (05 R135, R136). -/
def execVgather (w : Width) (vd : BitVec 8) (a : Src) (vc : BitVec 8) (s : State) : Out :=
  s.withSrcs [a] fun t =>
    (t.latch uVU.val false (s.src a)).vdst vd 1 fun t =>
      let vas := s.gatherVas (s.src a) vc (s.vn (max w.bytes 4))
      t.vstride (s.src a) 0 w.bytes vas (t.vaccess w.bytes false vas fun t offs => .next (t.vloadAt w.bytes vd vas offs))

/-- VSCATTER (05 R135, R136). -/
def execVscatter (w : Width) (vd : BitVec 8) (a : Src) (vc : BitVec 8) (s : State) : Out :=
  s.withSrcs [a] fun t =>
    let t := t.latch uVU.val false (s.src a)
    let n := s.vn (max w.bytes 4)
    let vas := s.gatherVas (s.src a) vc n
    t.vstride (s.src a) 0 w.bytes vas
      (t.vaccess w.bytes true vas fun t offs => .next (t.vstoreAt w.bytes (s.velems vd w.bytes n) offs))

/-! ## Conversions (05 R140, R141) -/

/-- A format's results written to vd; an f32 or f64 result may need an assist. -/
def State.vconv (s : State) (f : Fmt) (vd : BitVec 8) (rs : List FR) : State :=
  match f.typ with
  | .vt t => s.vresult t vd rs
  | _ => (s.vput vd f.bytes (rs.map fun r => r.val)).vop [vd.toNat] (orAll rs) [] false

/-- Whether results of a format are flushed. -/
def State.fxFmt (s : State) (f : Fmt) : Bool :=
  match f.typ with
  | .vt t => s.fxOut t
  | _ => false

/-- VCVT (05 R140). -/
def execVcvt (st : VT) (rz : Bool) (dt : Fmt) (vd va : BitVec 8) (s : State) : Out :=
  s.vdst vd 1 fun s =>
    let n := s.vn (max st.bytes dt.bytes)
    let f (x : Nat) : FR := fmtPut dt (s.fxFmt dt) rz (!st.isFloat) (vtNum st s.fxIn x)
    .next (s.vconv dt vd ((s.velems va st.bytes n).map f))

/-- VCVTB (05 R141). -/
def execVcvtb (dt : VT) (st : Fmt) (vd va : BitVec 8) (s : State) : Out :=
  s.vdst vd 1 fun s =>
    let n := s.vn dt.bytes
    let f (x : Nat) : FR := (fltOf dt).put false (s.fxOut dt) ((f8Of st).num x)
    .next (s.vresult dt vd ((s.velems va 1 n).map f))

/-! ## Elementwise functions (05 R142) -/

/-- VABS: the sign bit is cleared; an integer wraps. -/
def execVabs (t : VT) (vd va : BitVec 8) (s : State) : Out :=
  s.vfun t vd va fun s x =>
    if t.isFloat then
      let a := s.vin t x
      (fltOf t).put false (s.fxOut t) (if a.sign then a.negate else a)
    else { val := unsgn (8 * t.bytes) (intOf t x).natAbs, fl := 0 }

/-- VNEG: the sign bit changes; an integer wraps. -/
def execVneg (t : VT) (vd va : BitVec 8) (s : State) : Out :=
  s.vfun t vd va fun s x =>
    if t.isFloat then (fltOf t).put false (s.fxOut t) (s.vin t x).negate
    else { val := unsgn (8 * t.bytes) (-intOf t x), fl := 0 }

/-- VEXP2. -/
def execVexp2 (t : VT) (vd va : BitVec 8) (s : State) : Out :=
  s.vfun t vd va fun s x => exp2N t (s.fxOut t) (s.vin t x) x

/-- VLOG2. -/
def execVlog2 (t : VT) (vd va : BitVec 8) (s : State) : Out :=
  s.vfun t vd va fun s x => log2N t (s.fxOut t) (s.vin t x) x

/-- VRCP. -/
def execVrcp (t : VT) (vd va : BitVec 8) (s : State) : Out :=
  s.vfun t vd va fun s x => rcpN t (s.fxOut t) (s.vin t x)

/-- VRSQRT. -/
def execVrsqrt (t : VT) (vd va : BitVec 8) (s : State) : Out :=
  s.vfun t vd va fun s x => rsqrtN t (s.fxOut t) (s.vin t x)

/-! ## Reductions and scans (02 R55, R56, 05 R143) -/

/-- One step of a reduction: intermediate values are never flushed on reading, results as R47 and R49 say. -/
def redStep (t : VT) (op : RedOp) (fx : Bool) (a b : Nat) : FR :=
  let F := fltOf t
  let w := 8 * t.bytes
  let int (x : Int) : FR := { val := unsgn w x, fl := 0 }
  match op with
  | .add => if t.isFloat then F.addN fx (F.num a) (F.num b) else int (intOf t a + intOf t b)
  | .min => if t.isFloat then F.minMaxN fx false (F.num a) (F.num b) else int (min (intOf t a) (intOf t b))
  | .max => if t.isFloat then F.minMaxN fx true (F.num a) (F.num b) else int (max (intOf t a) (intOf t b))
  | .and => { val := Nat.land a b, fl := 0 }
  | .or => { val := Nat.lor a b, fl := 0 }
  | .xor => { val := Nat.xor a b, fl := 0 }

/-- The identity of an operation (02 R55). -/
def redIdent (t : VT) (op : RedOp) : Nat :=
  let w := 8 * t.bytes
  match op with
  | .min => if t.isFloat then (fltOf t).infOf false else unsgn w (intHi t.isSigned w)
  | .max => if t.isFloat then (fltOf t).infOf true else unsgn w (intLo t.isSigned w)
  | .and => 2 ^ w - 1
  | _ => 0

/-- An element converted to the format of the reduction (02 R55, R47). -/
def State.redIn (s : State) (t : VT) (x : Nat) : FR :=
  if t.isFloat then (fltOf t).put false s.fxIn (s.vin t x) else { val := x, fl := 0 }

/-- What a reduction gathers beside its values: flags, and whether a step gave a subnormal. -/
def redAcc (t : VT) (acc : BitVec 5 × Bool) (r : FR) : BitVec 5 × Bool :=
  (acc.1 ||| r.fl, acc.2 || (t.isFloat && (fltOf t).isSub r.val))

/-- One level of the tree of R55: pairs combined, an odd last element passed up. -/
def redLevel (t : VT) (op : RedOp) (fx : Bool) : List Nat → BitVec 5 × Bool → List Nat × BitVec 5 × Bool
  | a :: b :: r, acc =>
    let x := redStep t op fx a b
    let (l, acc1) := redLevel t op fx r (redAcc t acc x)
    (x.val :: l, acc1)
  | l, acc => (l, acc)

/-- The tree of R55, with as many levels left as given. -/
def redTree (t : VT) (op : RedOp) (fx : Bool) : Nat → List Nat → BitVec 5 × Bool → Nat × BitVec 5 × Bool
  | 0, l, acc => (l.headD 0, acc)
  | k + 1, l, acc =>
    match l with
    | _ :: _ :: _ => let (l1, acc1) := redLevel t op fx l acc; redTree t op fx k l1 acc1
    | _ => (l.headD 0, acc)

/-- A result that context 1 in FLEX mode flushes although no step computed it (02 R49). -/
def State.redOut (s : State) (t : VT) (x : Nat) : FR :=
  if t.isFloat && s.fxOut t && (fltOf t).isSub x then
    { val := (fltOf t).signBit (bitAt x (8 * t.bytes - 1)), fl := fUF ||| fNX }
  else { val := x, fl := 0 }

/-- The scalar that a reduction writes (05 R143). -/
def redScalar (t : VT) (x : Nat) : Word := if t.isSigned then sextW (8 * t.bytes) x else W x

/-- VRED (05 R143). A scalar result that takes part in an assist stays pending until the routine has served it (R131). -/
def execVred (op : RedOp) (t : VT) (d : Dst) (va : BitVec 8) (s : State) : Out :=
  let n := s.vn t.bytes
  let ins := (s.velems va t.bytes n).map (s.redIn t)
  let acc0 := (orAll ins, false)
  let (x, f, sub) := if n = 0 then (redIdent t op, acc0) else redTree t op (s.fxOut t) 14 (ins.map fun r => r.val) acc0
  let r := s.redOut t x
  let assist := s.assists t && sub
  .next ((s.putLate (if assist then .assist else .scalar) d (redScalar t r.val) (f ||| r.fl)).vop [] 0 [] assist)

/-- The inclusive scan of R56 from a first value on. -/
def scanFrom (t : VT) (op : RedOp) (fx : Bool) : Nat → List Nat → BitVec 5 × Bool → List Nat × BitVec 5 × Bool
  | a, [], acc => ([a], acc)
  | a, b :: r, acc =>
    let x := redStep t op fx a b
    let (l, acc1) := scanFrom t op fx x.val r (redAcc t acc x)
    (a :: l, acc1)

/-- The inclusive scan of elements, with its flags and whether a step gave a subnormal. -/
def State.scanOf (s : State) (op : RedOp) (t : VT) (xs : List Nat) : List Nat × BitVec 5 × Bool :=
  let ins := xs.map (s.redIn t)
  match ins with
  | [] => ([], 0, false)
  | a :: r =>
    let a1 := s.redOut t a.val
    scanFrom t op (s.fxOut t) a1.val (r.map fun x => x.val) (orAll ins ||| a1.fl, false)

/-- The results of a scan written; a scan that needs an assist is marked whole (05 R131). -/
def State.vscanPut (s : State) (t : VT) (vd : BitVec 8) (xs : List Nat) (f : BitVec 5) (sub : Bool) : State :=
  let w := t.bytes
  if s.assists t && sub then
    (s.vput vd w (xs.map fun _ => 0)).vop [vd.toNat] f (xs.zipIdx.map fun p => (vd.toNat, w * p.2, bytesOfNat w p.1)) true
  else (s.vput vd w xs).vop [vd.toNat] f [] false

/-- VSCAN, inclusive (05 R143). -/
def execVscan (op : RedOp) (t : VT) (vd va : BitVec 8) (s : State) : Out :=
  s.vdst vd 1 fun s =>
    let (xs, f, sub) := s.scanOf op t (s.velems va t.bytes (s.vn t.bytes))
    .next (s.vscanPut t vd xs f sub)

/-- VSCANX, exclusive (05 R143). -/
def execVscanx (op : RedOp) (t : VT) (vd va : BitVec 8) (s : State) : Out :=
  s.vdst vd 1 fun s =>
    let n := s.vn t.bytes
    let (xs, f, sub) := s.scanOf op t (s.velems va t.bytes (n - 1))
    .next (s.vscanPut t vd (if n = 0 then [] else redIdent t op :: xs) f sub)

/-! ## Broadcast, quantisation, random numbers, streams (05 R144 to R148) -/

/-- VBCAST (05 R144). -/
def execVbcast (t : VT) (vd : BitVec 8) (a : Src) (s : State) : Out :=
  s.withSrcs [a] fun t1 =>
    (t1.latch uVU.val false (s.src a)).vdst vd 1 fun t1 =>
      .next (t1.vmoved vd t.bytes (List.replicate (s.vn t.bytes) ((s.src a).toNat % 2 ^ (8 * t.bytes))))

/-- The exponent of the largest finite value of a binary8 format: its floored logarithm (02 R51). -/
def F8.emax (F : F8) : Int :=
  match F.num F.top with
  | .fin _ m e => e + bitLen m - 1
  | _ => 0

/-- The floored logarithm of a finite value, least for zero. -/
def Num.flog : Num → Option Int
  | .fin _ m e => if m = 0 then none else some (e + bitLen m - 1)
  | _ => none

/-- The greatest floored logarithm of a block. -/
def maxLog : List Num → Option Int
  | [] => none
  | x :: r =>
    match x.flog, maxLog r with
    | some a, some b => some (max a b)
    | some a, none => some a
    | none, y => y

/-- A value scaled by 2^k. -/
def Num.scale (k : Int) : Num → Num
  | .fin n m e => .fin n m (e + k)
  | x => x

/-- One block quantised: its codes and its scale (02 R51). A signalling NaN sets NV under R38 (log 22). -/
def quantBlock (F : F8) (xs : List Num) : List FR × Nat :=
  if xs.any fun x => x.isNan || x.isInf then
    (xs.map fun x => { val := F.nan, fl := flagIf x.isSig fNV }, 0xFF)
  else
    match maxLog xs with
    | none => (xs.map fun _ => { val := 0, fl := 0 }, 0x7F)
    | some l =>
      let k := max (-126) (min 127 (l - F.emax))
      (xs.map fun x => F.put true (x.scale (-k)), (k + 127).toNat)

/-- VQNT (05 R145). -/
def execVqnt (f : Fmt) (vd va : BitVec 8) (s : State) : Out :=
  s.vdst vd 2 fun s =>
    let n := s.vn 4
    let xs := (s.velems va 4 n).map (s.vin .f32)
    let bl := (chunks 64 (ceilDiv n 64) xs).map (quantBlock (f8Of f))
    let rs := (bl.map fun b => b.1).flatten
    let t := (s.vput vd 1 (rs.map fun r => r.val)).vput (vd + 1) 1 (bl.map fun b => b.2)
    .next (t.vop [vd.toNat, vd.toNat + 1] (orAll rs) [] false)

/-- The value of a code under a scale (02 R50). -/
def scaled (F : F8) (code scale : Nat) : Num :=
  let x := F.num code
  if scale = 0xFF then .nan false
  else if scale = 0 then (if x.isNan || x.isInf then .nan false else .fin x.sign 0 0)
  else x.scale ((scale : Int) - 127)

/-- VDQNT (05 R145). -/
def execVdqnt (f : Fmt) (vd va : BitVec 8) (s : State) : Out :=
  s.vdst vd 1 fun s =>
    let n := s.vn 4
    let sc := s.velems (va + 1) 1 (ceilDiv n 64)
    let g (p : Nat × Nat) : FR := flt32.put false (s.fxOut .f32) (scaled (f8Of f) p.1 (sc.getD (p.2 / 64) 0x7F))
    .next (s.vresult .f32 vd ((s.velems va 1 n).zipIdx.map g))

/-- Element i of VRAND: a word of the counter's block, or its upper 24 bits as an exact f32 fraction (05 R147). In a region of a
deterministic phase the task's identifier stands for the core and the context (16 R353). -/
def State.randElem (s : State) (t : VT) (a : Word) (i : Nat) : Nat :=
  let tid := s.xp.taskTid
  let who := if bitAt s.xp.detStat.toNat 0 && s.inRegion then (tid % 2 ^ 32, tid / 2 ^ 32)
    else (s.xp.lcid.toNat, b2n s.iss.fw)
  let r := (philox (s.xp.rngCtr + a + W (i / 4)) who.1 who.2 s.xp.rngSeed).getD (i % 4) 0
  if t = .n32 then r else (flt32.enc false false false (r / 256) (-24)).val

/-- VRAND (05 R147). -/
def execVrand (t : VT) (vd : BitVec 8) (a : Src) (s : State) : Out :=
  s.withSrcs [a] fun t1 =>
    (t1.latch uVU.val false (s.src a)).vdst vd 1 fun t1 =>
      .next (t1.vmoved vd 4 ((rangeFrom 0 (s.vn 4)).map (s.randElem t (s.src a))))

/-- The drains of a core take the elements their streams hold (05 R148). -/
def Core.feedOne (k : Core) (i : Nat) : Core :=
  match k.vops[i]? with
  | none => k
  | some v =>
    match v.drain with
    | none => k
    | some d =>
      let st := (k.ctx v.fw).stream d.q
      let n := min (d.want - d.got) st.fifo.length
      let bs := ((st.fifo.take n).map fun e => bytesOfWord d.w e).flatten
      let k1 := k.vwrite d.vd (d.w * d.got) bs
      let x := k1.ctx v.fw
      { k1.setCtx v.fw { x with q := x.q.put d.q { st with fifo := st.fifo.drop n } } with
        vops := k1.vops.set i { v with drain := some { d with got := d.got + n } } }

/-- Every drain of a core takes what its stream holds. -/
def Core.feed (k : Core) : Core := (rangeFrom 0 k.vops.length).foldl Core.feedOne k

/-- VSTRM (05 R148): it takes the elements present once the scalar sources of its bundle have taken theirs, and the rest as they
arrive. -/
def execVstrm (t : VT) (vd : BitVec 8) (q : BitVec 4) (s : State) : Out :=
  if s.inRegion then .next (s.trap .regionIllegalOp 0)
  else if !(s.xp.stream q.toNat).isBound then .next (s.trap .engStreamUnbound 0)
  else if s.kp.strmBusy s.iss.fw q.toNat then .next s.stall
  else
    s.vdst vd 1 fun s =>
      .next (s.updK fun k => { k with vops := k.vops ++
        [{ fw := s.iss.fw, flags := 0, assist := false, queued := false, marks := [],
           drain := some { q := q.toNat, vd := vd.toNat, w := t.bytes, want := s.vn t.bytes, got := 0 },
           vds := [vd.toNat], mx := false }] })

/-- VSETVL (05 R132). -/
def execVsetvl (t : VT) (d : Dst) (a : Src) (s : State) : Out :=
  s.withSrcs [a] fun t1 =>
    let n := min (s.src a).toNat (vcap t.bytes)
    .next (((t1.latch uVU.val false (s.src a)).updX fun x => { x with vl := vlWord n t }).put d (W n))

/-- The value that a write of VL stores: COUNT clamped to the capacity of the written type; none for a type code from 12 on
(05 R127). -/
def vlStored (v : Word) : Option Word :=
  match VT.dec (BitVec.ofNat 4 (bits v.toNat 19 16)) with
  | none => none
  | some t => some (vlWord (min (bits v.toNat 13 0) (vcap t.bytes)) t)

/-- A CSRW of VL by the issuing context (05 R127): a type code from 12 on raises ILLEGAL_FORMAT. -/
def execVlWrite (val : Word) (s : State) : Out :=
  match vlStored val with
  | none => .next (s.trap .illegalFormat 0)
  | some w => .next (s.updX fun x => { x with vl := w })

end Sys2Proof.Machine
end

