-- ==== Sys2Proof/Machine/Matrix.lean ====
section
/-!
DEFINITION. The matrix unit (06 R149 to R168): its mode, banks and tags, the step of a routine, the microwords, the S5
instructions, and the park image.
-/
namespace Sys2Proof.Machine

/-! ## Mode and banks (06 R151, R152) -/

/-- The accumulator format of an MXMODE word. -/
def mxAcc (w : Word) : Fmt := (Fmt.dec (BitVec.ofNat 8 (bits w.toNat 15 8))).getD (vtFmt .f32)
/-- The operand format of an MXMODE word. -/
def mxOp (w : Word) : Fmt := (Fmt.dec (BitVec.ofNat 8 (bits w.toNat 7 0))).getD (vtFmt .f16)
/-- The semiring of an MXMODE word. -/
def mxSemi (w : Word) : Semi := (Semi.dec (BitVec.ofNat 4 (bits w.toNat 19 16))).getD .plusTimes
/-- The MXMODE word of a combination. -/
def mxWord (semi : Semi) (acc op : Fmt) : Word := W (semi.enc.toNat * 2 ^ 16 + acc.enc.toNat * 2 ^ 8 + op.enc.toNat)

/-- The element type of an accumulator format; none for raw bits. -/
def accType (f : Fmt) : Option VT :=
  match f.typ with
  | .vt t => some t
  | _ => none

/-- Whether a tile of the format needs a pair of banks. -/
def accPair (f : Fmt) : Bool :=
  match accType f with
  | some t => t.bytes == 4
  | none => false

/-- The tag of a tile of the format (06 R152). -/
def accTag (f : Fmt) : Nat :=
  match accType f with
  | some .f16 => 1
  | some .bf16 => 2
  | some .f32 => 3
  | some .i32 => 4
  | some .n32 => 5
  | _ => 6

/-- The element type of a tag's tile; none for raw bits, EMPTY and high halves. -/
def tagType (t : Nat) : Option VT :=
  match t with
  | 1 => some .f16
  | 2 => some .bf16
  | 3 => some .f32
  | 4 => some .i32
  | 5 => some .n32
  | _ => none

/-- Whether a tag is the low half of a pair. -/
def tagPair (t : Nat) : Bool := t == 3 || t == 4 || t == 5

/-- The tag of bank b. -/
def MxUnit.tag (x : MxUnit) (b : Nat) : Nat := x.tags.get 0 b
/-- The bytes of bank b. -/
def MxUnit.bank (x : MxUnit) (b : Nat) : Mem := x.acc.get Mem.empty b

/-- The bytes of a tile at bank b: one bank, or a pair in ascending order. -/
def MxUnit.tileBytes (x : MxUnit) (b : Nat) (pair : Bool) : List Byte :=
  (x.bank b).read 0 Config.bankBytes ++ (if pair then (x.bank (b + 1)).read 0 Config.bankBytes else [])

/-- The cells of a tile of a type at bank b, in cell order. -/
def MxUnit.cells (x : MxUnit) (b : Nat) (t : VT) : List Nat :=
  (chunks t.bytes 16384 (x.tileBytes b (t.bytes == 4))).map natOfBytes

/-- The unit with the bytes of a tile written at bank b, and its tags set. -/
def MxUnit.setTile (x : MxUnit) (b : Nat) (f : Fmt) (bs : List Byte) : MxUnit :=
  let a := x.acc.put b (Mem.empty.write 0 (bs.take Config.bankBytes))
  let t := x.tags.put b (accTag f)
  if accPair f then
    { x with acc := a.put (b + 1) (Mem.empty.write 0 (bs.drop Config.bankBytes)), tags := t.put (b + 1) 7 }
  else { x with acc := a, tags := t }

/-- Bank b made EMPTY, and with it the other half of its pair (06 R152). -/
def MxUnit.clear (x : MxUnit) (b : Nat) : MxUnit :=
  let t := x.tags.put b 0
  { x with tags := if tagPair (x.tag b) then t.put (b + 1) 0 else if x.tag b = 7 then t.put (b - 1) 0 else t }

/-- MXBANKS (06 R152). -/
def MxUnit.banksWord (x : MxUnit) : Word := W ((rangeFrom 0 8).map fun b => x.tag b * 2 ^ (4 * b)).sum

/-! ## One step (02 R52 to R54, 06 R153, R156) -/

/-- K per step (06 R151). -/
def mxK (op : Fmt) : Nat := if op.typ.isF8 then 64 else if op.typ == .raw then 512 else 32

/-- The rows of an operand tile, or the columns of a B tile, as exact values under their scales (06 R153, 02 R50). -/
def tileRows (op : Fmt) (fx : Bool) (bs : List Byte) : List (List Num) :=
  let k := mxK op
  let w := op.bytes
  let rows := (chunks (k * w) 128 bs).map fun r => (chunks w k r).map natOfBytes
  if op.typ.isF8 then
    let F := f8Of op
    (rows.zip (bs.drop 8192)).map fun p => p.1.map fun c => scaled F c p.2.toNat
  else rows.map fun r => r.map fun c => fmtNum op fx c

/-- A product added to an exact sum; a NaN, 0 × ∞ and ∞ - ∞ give NaN (02 R52). -/
def dotAdd (t a b : Num) : Num :=
  if t.isNan || a.isNan || b.isNan then .nan false
  else
    match a.mul b with
    | none => .nan false
    | some p =>
      match t.add p with
      | none => .nan false
      | some x => x

/-- The exact sum of products of two lists. -/
def dotSum : List Num → List Num → Num → Num
  | a :: as, b :: bs, t => dotSum as bs (dotAdd t a b)
  | _, _, t => t

/-- The exact block value: a finite zero is +0 (02 R52). -/
def blockVal (a b : List Num) : Num :=
  let t := dotSum a b (.fin false 0 0)
  if t.isZero then .fin false 0 0 else t

/-- A value, or an invalid result, rounded once into an accumulator cell. -/
def accPut (t : VT) (sat fx : Bool) : Option Num → Nat
  | none => if t.isFloat then (fltOf t).nanBits else 0
  | some x =>
    if t.isFloat then ((fltOf t).put sat fx x).val
    else
      match x with
      | .fin n m e => intPut t.isSigned 32 false (signed n (m * 2 ^ e.toNat))
      | _ => 0

/-- One update of a plus-times cell: an IEEE addition of the exact block value. -/
def plusCell (t : VT) (sat fx : Bool) (x : Nat) (v : Num) : Nat :=
  let a := (fltOf t).inp fx x
  accPut t sat fx (if a.isNan || v.isNan then none else a.add v)

/-- The groups of K that a plus-times step adds one after another: one scale block, or exact groups of 16. -/
def plusGroups (op : Fmt) (row : List Num) : List (List Num) :=
  if op.typ.isF8 then [row] else chunks 16 2 row

/-- The ⊗ of a semiring on exact values; none where it has no value (02 R54). -/
def semTimes (s : Semi) (a b : Num) : Option Num :=
  if a.isNan || b.isNan then none
  else
    match s with
    | .minPlus => a.add b
    | .maxPlus => a.add b
    | .maxTimes => a.mul b
    | .minMax => some (if b.before a then a else b)
    | .maxMin => some (if a.before b then a else b)
    | _ => a.mul b

/-- Whether the ⊕ of a semiring is the maximum. -/
def semMax : Semi → Bool
  | .maxPlus => true
  | .maxTimes => true
  | .maxMin => true
  | _ => false

/-- The ⊕ of a semiring on cells (02 R54). -/
def semPlus (t : VT) (mx fx : Bool) (x y : Nat) : Nat :=
  if t.isFloat then ((fltOf t).minMaxN fx mx ((fltOf t).inp fx x) ((fltOf t).num y)).val
  else
    let a := intOf t x
    let b := intOf t y
    unsgn 32 (if mx then max a b else min a b)

/-- A cell updated over K in ascending order. -/
def semCell (s : Semi) (t : VT) (sat fx : Bool) : Nat → List Num → List Num → Nat
  | x, a :: as, b :: bs => semCell s t sat fx (semPlus t (semMax s) fx x (accPut t sat fx (semTimes s a b))) as bs
  | x, _, _ => x

/-- The ⊕ identity of a routine's semiring (02 R54). -/
def semIdent (s : Semi) (t : VT) : Nat :=
  match s with
  | .plusTimes => 0
  | .orAnd => 0
  | _ => redIdent t (if semMax s then .max else .min)

/-- The bits of a row of 512. -/
def bitRows (bs : List Byte) : List Nat := (chunks 64 128 bs).map natOfBytes

/-- The bytes of an or-and step: cell (i, j) is bit i × 128 + j (06 R152). -/
def orAndBytes (old : List Byte) (a b : List Byte) : List Byte :=
  let cols := bitRows b
  let olds := (chunks 16 128 old).map natOfBytes
  ((bitRows a).zip olds).flatMap fun p =>
    let fresh := (cols.zipIdx.map fun q => if Nat.land p.1 q.1 = 0 then 0 else 2 ^ q.2).sum
    bytesOfNat 16 (Nat.lor p.2 fresh)

/-- The cells of a tile after one step. -/
def stepCells (s : Semi) (t : VT) (op : Fmt) (sat fx : Bool) (old : List Nat) (a b : List Byte) : List Nat :=
  let rows := tileRows op fx a
  let cols := tileRows op fx b
  let cell (row col : List Num) (x : Nat) : Nat :=
    if s == .plusTimes then
      ((plusGroups op row).zip (plusGroups op col)).foldl (fun x g => plusCell t sat fx x (blockVal g.1 g.2)) x
    else semCell s t sat fx x row col
  (rows.zip (chunks 128 128 old)).flatMap fun p => (cols.zip p.2).map fun q => cell p.1 q.1 q.2

/-- One step into the tile at bank b under an MXMODE word (06 R156). An EMPTY bank starts from the identity. -/
def MxUnit.step (x : MxUnit) (mode : Word) (flex : Bool) (b : Nat) (sa sb : List Byte) : MxUnit :=
  let acc := mxAcc mode
  let empty := x.tag b == 0
  match accType acc with
  | none =>
    let old := if empty then List.replicate 2048 0 else (x.bank b).read 0 2048
    x.setTile b acc (orAndBytes old sa sb)
  | some t =>
    let old := if empty then List.replicate 16384 (semIdent (mxSemi mode) t) else x.cells b t
    x.setTile b acc (elemBytes t.bytes (stepCells (mxSemi mode) t (mxOp mode) acc.sat (!flex) old sa sb))

/-- The bytes of an operand slot that a step reads (06 R153). -/
def mxSlotBytes (op : Fmt) : Nat := if op.typ.isF8 then 8320 else 8192

/-! ## Routines (06 R155, R156, R160) -/

/-- A part of an m register under a FIELD code (06 R150). -/
def mPart (v : Word) (f : BitVec 6) : Nat :=
  let w := 8 * 2 ^ (f.toNat / 16)
  v.toNat / 2 ^ (f.toNat % 16 * w) % 2 ^ w

/-- The back edge at a microword that has retired: the loop entries and the next index. -/
def uBack (pc : Nat) : List ULoop → List ULoop × Nat
  | [] => ([], pc + 1)
  | e :: r =>
    if pc = e.last then
      if e.index + 1 < e.count then ({ e with index := e.index + 1 } :: r, e.start) else uBack pc r
    else (e :: r, pc + 1)

/-- The matrix unit of core c with f applied. -/
def Mach.updMx (m : Mach) (c : Nat) (f : MxUnit → MxUnit) : Mach := m.updCore c fun k => { k with mx := f k.mx }

/-- The open routine ends. -/
def Mach.uEnd (m : Mach) (c : Nat) : Mach := m.updMx c fun x => { x with rt := none }

/-- The open routine goes on at index pc with the given loop entries: past the end of its microwords it ends (06 R156). -/
def Mach.uGo (m : Mach) (c pc : Nat) (loops : List ULoop) : Mach :=
  m.updMx c fun x => { x with rt := x.rt.bind fun r =>
    if pc < (x.dir.get DirEnt.reset r.routine).len then some { r with loops := loops, pc := pc } else none }

/-- The open routine goes on after the microword at index pc. -/
def Mach.uNext (m : Mach) (c pc : Nat) : Mach :=
  match (m.core c).mx.rt with
  | some r => m.uGo c (uBack pc r.loops).2 (uBack pc r.loops).1
  | none => m

/-- A fault stops the open routine before its microword takes effect (06 R160): held against the call, or logged once the
context that issued it has halted or been killed. -/
def Mach.uFault (m : Mach) (c : Nat) (r : Routine) (cause : Cause) : Mach :=
  let m1 := m.uEnd c
  let run := (m.ctx c r.fw).run
  if m.homeOf r.owner == some (c, r.fw) && run != .halted && run != .killed then
    m1.updMx c fun x => { x with held := x.held ++ [(r.fw, r.call, BitVec.ofNat 8 cause.code)] }
  else (m1.logLost c r.fw (W cause.code) r.call).countFault r.owner

/-- Go on with the open routine of the core; nothing happens where none is open, or where the unit is being parked. -/
def State.withRt (s : State) (k : Routine → State) : Out :=
  match s.kc.mx.rt, s.kc.mx.parkBusy with
  | some r, none => .next (k r)
  | _, _ => .next s

/-- UEND (06 R156): the routine ends. -/
def execUend (s : State) : Out := s.withRt fun _ => s.upd fun m => m.uEnd s.iss.core

/-- A ring that the unit reads is not defined (08 R224), or its slots are too small. -/
def ringReadFault (cfg need : Nat) : Option Cause :=
  if !ringV cfg || ringCons cfg != 1 then some .mxRingUndefined
  else if ringBytes cfg < need then some .mxRingSlot
  else none

/-- UMMA (06 R156): once both rings hold a full slot at the read position, one step, and the pops. -/
def execUmma (ra rb : BitVec 4) (popa popb : Bool) (s : State) : Out :=
  s.withRt fun r =>
    let c := s.iss.core
    let need := mxSlotBytes (mxOp r.mode)
    let ca := s.kc.ringCfgOf ra.toNat
    let cb := s.kc.ringCfgOf rb.toNat
    match ringReadFault ca need, ringReadFault cb need with
    | some e, _ => s.upd fun m => m.uFault c r e
    | none, some e => s.upd fun m => m.uFault c r e
    | none, none =>
      let qa := s.kc.ringOf ra.toNat
      let qb := s.kc.ringOf rb.toNat
      if !(qa.ready && qb.ready) then s
      else
        let oa := ringItemAt ca qa.r
        let ob := ringItemAt cb qb.r
        if s.m.badSpad c oa need || s.m.badSpad c ob need then s.upd fun m => m.uFault c r .memUncorrectable
        else
          s.upd fun m =>
            let m1 := m.updMx c fun x => x.step r.mode r.flex r.bank (m.spadRead c oa need) (m.spadRead c ob need)
            let m2 := if popa then m1.ringPop c ra.toNat 1 else m1
            let m3 := if popb then m2.ringPop c rb.toNat 1 else m2
            m3.uNext c r.pc

/-- ULOOP (06 R156): the captured m registers are counted from PBASE. -/
def execUloop (src : Bool) (mrel : BitVec 3) (mfield : BitVec 6) (body : BitVec 8) (count : BitVec 32) (s : State) : Out :=
  s.withRt fun r =>
    let c := s.iss.core
    let n := if src then mPart (r.m.get 0 ((r.pbase + mrel.toNat) % 8)) mfield else count.toNat
    let last := r.pc + body.toNat
    if n = 0 then s.upd fun m => m.uNext c last
    else
      s.upd fun m => m.uGo c (r.pc + 1) ({ start := r.pc + 1, last := last, count := n, index := 0 } :: r.loops)

/-- UPOP (06 R156): once the ring holds N full slots, they are popped. -/
def execUpop (ring : BitVec 4) (n : BitVec 8) (s : State) : Out :=
  s.withRt fun r =>
    let c := s.iss.core
    match ringReadFault (s.kc.ringCfgOf ring.toNat) 0 with
    | some e => s.upd fun m => m.uFault c r e
    | none =>
      if (s.kc.ringOf ring.toNat).full < n.toNat then s
      else s.upd fun m => (m.ringPop c ring.toNat n.toNat).uNext c r.pc

/-- Whether a format pairs with a tag (06 R156, R162): raw with raw, and EMPTY with every format. -/
def tagPairs (tag : Nat) (f : Fmt) : Bool := tag == 0 || (tag == 6) == (f.typ == .raw)

/-- The results of a readout of the tile at bank b in a format: cells converted, zeros from an EMPTY bank. -/
def MxUnit.readout (x : MxUnit) (b : Nat) (f : Fmt) (fxIn fxOut : Bool) : List FR :=
  match tagType (x.tag b) with
  | some t => (x.cells b t).map fun c => fmtPut f fxOut false (!t.isFloat) (vtNum t fxIn c)
  | none => List.replicate 16384 { val := 0, fl := 0 }

/-- The bytes of a readout: 2,048 bytes for raw. -/
def MxUnit.drain (x : MxUnit) (b : Nat) (f : Fmt) (fx : Bool) : List Byte :=
  if f.typ == .raw then
    if x.tag b = 0 then List.replicate 2048 0 else (x.bank b).read 0 2048
  else elemBytes f.bytes ((x.readout b f fx fx).map fun r => r.val)

/-- The bytes that a readout writes. -/
def drainBytes (f : Fmt) : Nat := if f.typ == .raw then 2048 else 16384 * f.bytes

/-- UOUT (06 R156): every cell converted into a free or lent slot, which is pushed. -/
def execUout (ring : BitVec 4) (f : Fmt) (clr : Bool) (s : State) : Out :=
  s.withRt fun r =>
    let c := s.iss.core
    let cfg := s.kc.ringCfgOf ring.toNat
    let x := s.kc.mx
    if !ringV cfg || ringProd cfg != 2 then s.upd fun m => m.uFault c r .mxRingUndefined
    else if ringBytes cfg < drainBytes f then s.upd fun m => m.uFault c r .mxRingSlot
    else if !tagPairs (x.tag r.bank) f then s.upd fun m => m.uFault c r .mxBankFormat
    else
      match s.m.ringPut c ring.toNat (x.drain r.bank f (!r.flex)) with
      | none => s
      | some m1 =>
        let m2 := if clr then m1.updMx c fun x => x.clear r.bank else m1
        { s with m := m2.uNext c r.pc }

/-- The microword that the open routine of a core runs next: none past the end of its routine (06 R156). -/
def Core.microword (k : Core) : Option (BitVec 64) :=
  match k.mx.rt with
  | none => none
  | some r =>
    let e := k.mx.dir.get DirEnt.reset r.routine
    if r.pc < e.len then some (k.mx.store.get 0 (e.start + r.pc)) else none

/-! ## S5 instructions (06 R150 to R163) -/

/-- An MXU instruction of a handler that has not parked the unit (06 R165). -/
def State.notParked (s : State) : Bool := s.xp.level != 0 && !s.xp.park s.xp.level

/-- Go on with an instruction that needs no unit. -/
def State.mxAny (s : State) (k : Out) : Out := if s.notParked then .next (s.trap .mxNotParked 0) else k

/-- Whether the unit is occupied: a routine is open, or an image is being written (06 R149). -/
def MxUnit.busy (x : MxUnit) : Bool := x.rt.isSome || x.parkBusy.isSome

/-- Go on with an instruction that needs the unit, once it is free (06 R149, R158). -/
def State.mxUnit (s : State) (k : Out) : Out := if s.kp.mx.busy then .next s.stall else s.mxAny k

/-- A word with one part replaced (06 R150). -/
def setPart (v : Word) (f : BitVec 6) (b : Word) : Word :=
  let w := 8 * 2 ^ (f.toNat / 16)
  let lo := f.toNat % 16 * w
  W (v.toNat - mPart v f * 2 ^ lo + b.toNat % 2 ^ w * 2 ^ lo)

/-- MXSET (06 R150). -/
def execMxset (m : BitVec 3) (field : BitVec 6) (b : Src9) (s : State) : Out :=
  s.mxAny (s.withSrcs (srcs9 b) fun t =>
    .next ((t.latch uMX.val true (s.src9 b)).updK fun k =>
      { k with m := k.m.put m.toNat (setPart (s.kp.m.get 0 m.toNat) field (s.src9 b)) }))

/-- MXSR (06 R151). -/
def execMxsr (semi : Semi) (acc op : Fmt) (s : State) : Out :=
  s.mxAny (.next (s.upd fun m => m.updMx s.iss.core fun x => { x with mode := mxWord semi acc op }))

/-- Whether an MXMODE value holds a legal combination (06 R151). -/
def mxModeLegal (v : Word) : Bool :=
  v.toNat / 2 ^ 20 == 0 &&
  match Semi.dec (BitVec.ofNat 4 (bits v.toNat 19 16)), Fmt.dec (BitVec.ofNat 8 (bits v.toNat 15 8)),
    Fmt.dec (BitVec.ofNat 8 (bits v.toNat 7 0)) with
  | some s, some a, some o => mxModeOk s a o
  | _, _, _ => false

/-- A CSRW of MXMODE by context 1, checked as MXSR (06 R151); context 0 takes PRIV_CSR. Reserved bits hold 0 (00 R5). -/
def execMxmodeWrite (val : Word) (s : State) : Out :=
  if !s.iss.fw then .next (s.trap .privCsr 0)
  else if !mxModeLegal (W (val.toNat % 2 ^ 20)) then .next (s.trap .illegalFormat 0)
  else .next (s.upd fun m => m.updMx s.iss.core fun x => { x with mode := W (val.toNat % 2 ^ 20) })

/-- Whether a queued store overlaps a slot or the mirror word of a ring that the matrix unit reads or writes (09 R249). -/
def Core.mxHits (k : Core) (c : Nat) (e : StoreEnt) : Bool :=
  (rangeFrom 0 16).any fun n =>
    let cfg := k.ringCfgOf n
    ringV cfg && (ringCons cfg == 1 || ringProd cfg == 2) &&
      (e.hits c (ringAt cfg 0) (ringSlots cfg * ringBytes cfg) || (bitAt cfg 62 && e.hits c (64 * bits cfg 47 32) 8))

/-- MXCALL (06 R158): a fork (09 R249). -/
def execMxcall (d : Dst) (routine : BitVec 8) (bank pbase : BitVec 3) (s : State) : Out :=
  s.mxUnit (
    let x := s.kp.mx
    let acc := mxAcc x.mode
    let b := bank.toNat
    if !(x.dir.get DirEnt.reset routine.toNat).valid then .next (s.trap .mxNotLoaded 0)
    else if accPair acc && b % 2 == 1 then .next (s.trap .illegalOperand 0)
    else if x.tag b != 0 && x.tag b != accTag acc then .next (s.trap .mxBankFormat 0)
    else
      let call := x.seq + 1
      let rt : Routine := { call := call, fw := s.iss.fw, owner := s.owner, routine := routine.toNat, pc := 0, bank := b,
                            pbase := pbase.toNat, flex := s.xp.flex, mode := x.mode, m := s.kp.m, loops := [] }
      .next (((s.drainedOver fun e => s.kp.mxHits s.iss.core e).upd fun m =>
        m.updMx s.iss.core fun y => { y with seq := call, rt := some rt }).put d call))

/-- MXWAIT (06 R161): the bundle issues once every call numbered c or earlier has ended. A call not yet issued raises ILLEGAL_OPERAND in
slot order, with trap value 0 (log 121). -/
def execMxwait (a : Src) (s : State) : Out :=
  s.mxAny (s.withSrcs [a] fun t =>
    let c := s.src a
    if 0 < (c - s.kp.mx.seq).toInt then .next (s.trap .illegalOperand 0)
    else
      match s.kp.mx.rt with
      | some r => if 0 ≤ (c - r.call).toInt then .next s.stall else .next (t.latch uMX.val false c)
      | none => .next (t.latch uMX.val false c))

/-- The registers that a readout writes, from their bytes. -/
def Core.vrun (k : Core) (vd : Nat) : List (List Byte) → Core
  | [] => k
  | bs :: r => (k.vwrite vd 0 bs).vrun (vd + 1) r

/-- MXACC (06 R162). A readout sets no flag (02 R46); in FLEX mode f32 and f64 subnormals take the assist (02 R48). -/
def execMxacc (bank : BitVec 3) (vd : BitVec 8) (f : Fmt) (clr : Bool) (s : State) : Out :=
  s.mxUnit (
    let x := s.kp.mx
    let b := bank.toNat
    if x.tag b == 7 || !tagPairs (x.tag b) f then .next (s.trap .mxBankFormat 0)
    else
      s.withDests vd.toNat (mxaccRegs f) fun t =>
        let sub (v : Nat) : Bool :=
          match f.typ with
          | .vt ty => s.assists ty && (fltOf ty).isSub v
          | _ => false
        let vals := (x.readout b f s.fxIn (s.fxFmt f)).map fun r => r.val
        let bs :=
          if f.typ == .raw then x.drain b f s.fxIn
          else elemBytes f.bytes (vals.map fun v => if sub v then 0 else v)
        let marks := if f.typ == .raw then [] else
          (vals.zipIdx.filter fun p => sub p.1).map fun p =>
            (vd.toNat + p.2 * f.bytes / Config.vBytes, p.2 * f.bytes % Config.vBytes, bytesOfNat f.bytes p.1)
        let t1 := t.updK fun k => k.vrun vd.toNat (chunks Config.vBytes (ceilDiv bs.length Config.vBytes) bs)
        let t2 := if clr then t1.upd fun m => m.updMx s.iss.core fun x => x.clear b else t1
        .next (t2.vopOn true (rangeFrom vd.toNat (mxaccRegs f)) 0 marks (!marks.isEmpty)))

/-- MXCLR (06 R163). -/
def execMxclr (bank : BitVec 3) (pair : Bool) (s : State) : Out :=
  s.mxUnit (.next (s.upd fun m => m.updMx s.iss.core fun x =>
    let y := x.clear bank.toNat
    if pair then y.clear (bank.toNat + 1) else y))

/-! ## MXLOAD (06 R154, R155) -/

/-- The index of the first microword that fails the load checks: the words from index i on, the number of words, and the
last indices of the enclosing bodies. -/
def badMicro (len : Nat) : Nat → List Nat → List Word → Option Nat
  | _, _, [] => none
  | i, encl, w :: r =>
    let inside := encl.filter fun l => decide (i ≤ l)
    match decodeMicro w with
    | .error _ => some i
    | .ok (.uloop _ _ _ body _) =>
      let last := i + body.toNat
      if len ≤ last || 4 ≤ inside.length || inside.any fun l => decide (l < last) then some i
      else badMicro len (i + 1) (last :: inside) r
    | .ok _ => badMicro len (i + 1) inside r

/-- Whether len microwords from s on are free of the valid routines. -/
def MxUnit.free (x : MxUnit) (s len : Nat) : Bool :=
  decide (s + len ≤ 8192) && x.dir.l.all fun e =>
    !e.2.valid || decide (s + len ≤ e.2.start) || decide (e.2.start + e.2.len ≤ s)

/-- The lowest start of len free microwords: 0, or the end of a routine (06 R154). -/
def MxUnit.fit (x : MxUnit) (len : Nat) : Option Nat :=
  let ends := 0 :: ((x.dir.l.filter fun e => e.2.valid).map fun e => e.2.start + e.2.len)
  (ends.filter fun s => x.free s len).foldl (fun a s => some (match a with
    | some b => min b s
    | none => s)) none

/-- A routine placed in the store; none where no room is left (06 R154). -/
def MxUnit.place (x : MxUnit) (routine : Nat) (ws : List Word) : Option MxUnit :=
  let y := { x with dir := x.dir.put routine DirEnt.reset }
  match y.fit ws.length with
  | none => none
  | some st =>
    some { y with
      store := (ws.zipIdx).foldl (fun t p => t.put (st + p.2) p.1) y.store
      dir := y.dir.put routine { valid := true, start := st, len := ws.length } }

/-- The addresses of n pieces of w bytes from a on. -/
def piecesFrom (a : Word) (w n : Nat) : List Word := (rangeFrom 0 n).map fun i => a + W (w * i)

/-- The targets of pieces of w bytes: MEM_RANGE, then MEM_TEAM_WINDOW (08 R217), then MEM_MX_TARGET where a piece fails the given check
(06 R154, R165), each with the address of the piece that fails. -/
def State.mxTargets (s : State) (vas : List Word) (w : Nat) (wr : Bool) (ok : Target → Bool) :
    Except (Cause × Word) (List Target) :=
  let ts := vas.map fun va => (va, s.target va.toNat w (!wr) wr)
  let bad (c : Cause) : Option (Cause × Word) :=
    (ts.find? fun p => match p.2 with
      | .error e => e == c
      | .ok _ => false).map fun p => (c, p.1)
  match (bad .memRange).orElse fun _ => bad .memTeamWindow with
  | some e => .error e
  | none =>
    let l := ts.map fun p => (p.1, match p.2 with
      | .ok t => t
      | .error _ => .own 0)
    match l.find? fun p => !ok p.2 with
    | some p => .error (.memMxTarget, p.1)
    | none => .ok (l.map fun p => p.2)

/-- The offset of an own-scratchpad target. -/
def Target.off : Target → Nat
  | .own o => o
  | .team _ o => o
  | .mem a => a

/-- MXLOAD (06 R154). It reads the bytes of an S3 store of its own bundle. -/
def execMxload (routine : BitVec 8) (a : Src) (len : BitVec 8) (s : State) : Out :=
  s.mxUnit (s.withSrcs [a] fun t =>
    let n := if len = 0 then 256 else len.toNat
    let va := s.src a
    if va.toNat % 8 ≠ 0 then .next (s.trap .alignMxload 0)
    else
      match s.mxTargets (piecesFrom va 8 n) 8 false Target.isOwn with
      | .error c => .next (s.trap c.1 0)
      | .ok ts =>
        if ts.any fun x => s.pre.badSpad s.iss.core x.off 8 then .next (s.trap .memUncorrectable 0)
        else
          let t := t.drained
          let ws := ts.map fun x => wordOfBytes (t.m.spadRead s.iss.core x.off 8)
          match badMicro n 0 [] ws with
          | some i => .next (s.trap .mxBadMicroword (W i))
          | none =>
            match s.kp.mx.place routine.toNat ws with
            | none => .next (s.trap .mxStoreFull 0)
            | some x =>
              .next ((t.latch uMX.val false va).upd fun m => m.updMx s.iss.core fun y =>
                { y with store := x.store, dir := x.dir }))

/-! ## The park image (06 R165 to R167, 07 R213) -/

/-- The bytes of the park image. -/
def parkBytes : Nat := 0x41000

/-- The fault held against the calls of a context. -/
def MxUnit.heldOf (x : MxUnit) (fw : Bool) : Option (Word × BitVec 8) :=
  (x.held.find? fun h => h.1 == fw).map fun h => h.2

/-- The loop entries of the image, innermost first (06 R166). A count or an index that does not fit its four bytes loses its upper bits
(log 33). -/
def ULoop.words (e : ULoop) : List Word := [W (e.count % 2 ^ 32 + e.index % 2 ^ 32 * 2 ^ 32), W (e.start % 256 + e.last % 256 * 256)]

/-- The word at offset 0x4_00A0 of the image (06 R166). -/
def Routine.infoWord (r : Routine) : Word :=
  W (r.routine + r.pc % 256 * 2 ^ 8 + r.bank * 2 ^ 16 + r.pbase * 2 ^ 19 + b2n r.flex * 2 ^ 22 + r.loops.length * 2 ^ 23)

/-- Eight words of a table. -/
def eightWords (t : Tab Word) : List Word := (rangeFrom 0 8).map fun i => t.get 0 i

/-- The words of the image from offset 0x4_0000 on; a held fault is that of the given context. The call number is that of an open
routine rather than of a held fault, and bytes 0x4_00E8 to 0x4_00FF are zero (06 R166; log 33). -/
def Core.parkWords (k : Core) (who : Bool) : List Word :=
  let x := k.mx
  let h := x.heldOf who
  let fault := match h with
    | some p => 2 + 256 * p.2.toNat
    | none => 0
  let call := match x.rt, h with
    | some r, _ => r.call
    | none, some p => p.1
    | none, none => 0
  [x.mode, x.banksWord, W (b2n x.rt.isSome + fault), call] ++ eightWords k.m ++
    (match x.rt with
     | some r => eightWords r.m ++ [r.infoWord] ++ ((r.loops.flatMap ULoop.words) ++ List.replicate 8 0).take 8
     | none => List.replicate 17 0) ++
    [0, 0, 0] ++ (rangeFrom 0 16).map fun n => W (k.ringOf n).r.toNat

/-- The park image (06 R166). An EMPTY bank is written as zeros, which is what MXACC reads from it (log 33). -/
def Core.parkImage (k : Core) (who : Bool) : Mem :=
  ⟨(rangeFrom 0 8).flatMap (fun b =>
      if k.mx.tag b = 0 then [] else ((k.mx.bank b).slice 0 Config.bankBytes (b * Config.bankBytes)).cells) ++
    cellsOf 0x40000 (bytesOfWords (k.parkWords who))⟩

/-- One 4 KiB page written at its home by a sequencer of core k, whose own lines follow (09 R241). -/
def Mach.putPage (m : Mach) (k : Nat) (p : Place) (page : Mem) : Mach :=
  match p with
  | .spad c o => m.updCore c fun k => { k with spad := k.spad.splice o 4096 page }
  | .hbm d o => ({ m with hbm := m.hbm.put d ((m.stack d).splice o 4096 page) } : Mach).freshLines k d o 4096
  | _ => ((chunks 64 64 (page.read 0 4096)).zipIdx).foldl (fun m r => m.writePlace (p.plus (64 * r.2)) r.1) m

/-- One 4 KiB page read at its home. -/
def Mach.getPage (m : Mach) (p : Place) : Mach × Mem :=
  match p with
  | .spad c o => (m, (m.core c).spad.slice o 4096 0)
  | .hbm d o => (m, (m.stack d).slice o 4096 0)
  | _ => let (m1, bs) := m.readPlace p 4096; (m1, Mem.empty.write 0 bs)

/-- The place of a page of the issuing context, for a load or a store; the cause where the memory side refuses it. -/
def Mach.pagePlace (m : Mach) (c asid : Nat) (t : Target) (acc : Acc) : Mach × Except Cause Place :=
  match t with
  | .mem ia => m.translate asid ia acc
  | t => (m, .ok (.spad c t.off))

/-- The pages of an image written one after another: the first that the memory side refuses, with its cause. -/
def Mach.putPages (m : Mach) (c asid : Nat) (img : Mem) : List (Nat × Target) → Mach × Option (Nat × Target × Cause)
  | [] => (m, none)
  | (i, t) :: r =>
    match m.pagePlace c asid t .store with
    | (m1, .error e) => (m1, some (i, t, e))
    | (m1, .ok p) => (m1.putPage c p (img.slice (4096 * i) 4096 0)).putPages c asid img r

/-- The pages of an image read one after another. -/
def Mach.getPages (m : Mach) (c asid : Nat) (img : Mem) : List (Nat × Target) → Mach × Except (Nat × Target × Cause) Mem
  | [] => (m, .ok img)
  | (i, t) :: r =>
    match m.pagePlace c asid t .load with
    | (m1, .error e) => (m1, .error (i, t, e))
    | (m1, .ok p) =>
      if m1.badIn p 4096 then (m1, .error (i, t, .memUncorrectable))
      else
        let (m2, pg) := m1.getPage p
        m2.getPages c asid ⟨img.cells ++ (pg.slice 0 4096 (4096 * i)).cells⟩ r

/-- Whether a target is not in the team window. -/
def Target.notTeam : Target → Bool
  | .team _ _ => false
  | _ => true

/-- The checks of an image's address (06 R165, R167), then go on with its pages. The trap value is the failing address for MXSAVE, an
instruction of S6 (07 R178), and 0 for those of S5 (log 67). -/
def State.parkAt (s : State) (va : Word) (wr eng : Bool) (k : List (Nat × Target) → Out) : Out :=
  let val (a : Word) : Word := if eng then a else 0
  if va.toNat % 4096 ≠ 0 then .next (s.trap .alignMxpark (val va))
  else
    match s.mxTargets (piecesFrom va 4096 65) 4096 wr Target.notTeam with
    | .error c => .next (s.trap c.1 (val c.2))
    | .ok ts => k ((rangeFrom 0 65).zip ts)

/-- A page of an image that the memory side refuses: the pages before it stand, and nothing else of the bundle (06 R165). -/
def State.parkFault (s : State) (m : Mach) (va : Word) (acc : Acc) (f : Nat × Target × Cause) : State :=
  let a := va.toNat + 4096 * f.1
  let t := s.memTrp a f.2.1.off acc f.2.2
  ({ s with pre := m } : State).memFault (if f.2.1.isOwn then { t with viol := none } else t) f.2.1.off

/-- The image is written, and the sequencer waits for the acknowledgements (06 R165); level is the trap level whose park flag is to be
set, 0 for none. Inside a region no write granules can name the image's pages (10 R269). -/
def State.parkTo (s : State) (t : State) (va : Word) (who : Bool) (level : Nat) (pages : List (Nat × Target)) : Out :=
  let c := s.iss.core
  if s.inRegion && pages.any fun p => !p.2.isOwn then
    .next (s.memFault { cause := .taskUndeclaredWrite, val := va, viol := none } 0)
  else
    let t := t.drained
    match t.m.putPages c s.xp.asid ((t.m.core c).parkImage who) pages with
    | (_, some f) => .next (s.parkFault (s.pre.putPages c s.xp.asid (s.kp.parkImage who) pages).1 va .store f)
    | (m1, none) =>
      .next { t with m := m1.updMx c fun x => { x with
        parkBusy := some (s.iss.fw, level)
        parked := (match x.rt with
          | some r => (r.call, r.fw, r.owner) :: x.parked
          | none => x.parked) } }

/-- MXPARK (06 R165). A microword is one step of the model, so a routine always stands at a step boundary. -/
def execMxpark (a : Src) (s : State) : Out :=
  if s.kp.mx.parkBusy.isSome then .next s.stall
  else
    s.withSrcs [a] fun t =>
      let va := s.src a
      s.parkAt va true false fun pages =>
        if s.xp.level != 0 && s.xp.park s.xp.level then .next (s.trap .mxNotParked 0)
        else s.parkTo (t.latch uMX.val false va) va s.iss.fw s.xp.level pages

/-- MXSAVE (07 R213): the image as MXPARK writes it; no park flag. Its scalar source goes to the latch of eng. -/
def execMxsave (a : Src) (s : State) : Out :=
  if s.kp.mx.parkBusy.isSome then .next s.stall
  else
    s.withSrcs [a] fun t =>
      let va := s.src a
      s.parkAt va true true fun pages => s.parkTo (t.latch 5 false va) va false 0 pages

/-- PARK_IMAGE_WRITE_DONE (06 R165): the unit resets, the park flag of the level that issued MXPARK is set (14 R325), the sequencer is
released. Held faults stay held. -/
def execParkImageWriteDone (core : Nat) (fw : Bool) (s : State) : Out :=
  onCore core
    (match (s.m.core core).mx.parkBusy with
     | some (f, level) =>
       if f != fw then .next s
       else
         .next (s.upd fun m =>
           let m1 := m.updMx core fun x =>
             { x with tags := Tab.empty, mode := mxModeReset, rt := none, parkBusy := none }
           m1.updCtx core fw fun x => if level ≤ x.level then x.setPark level true else x)
     | none => .next s)

/-- Whether the tags of an image are ones the device writes (06 R152, R167). -/
def tagsOk (v : Nat) : Bool :=
  v / 2 ^ 32 == 0 && (rangeFrom 0 8).all fun b =>
    let t := bits v (4 * b + 3) (4 * b)
    decide (t ≤ 7) && (!tagPair t || (b % 2 == 0 && bits v (4 * b + 7) (4 * b + 4) == 7)) &&
      (t != 7 || (b % 2 == 1 && tagPair (bits v (4 * b - 1) (4 * b - 4))))

/-- Whether an image is one the device writes: fields marked zero hold zero, and the tags, the mode and the loop depth are
legal (06 R167). -/
def imageOk (img : Mem) : Bool :=
  let w (o : Nat) : Nat := img.num (0x40000 + o) 8
  mxModeLegal (W (w 0)) && tagsOk (w 8) && w 0x10 / 2 ^ 16 == 0 && bits (w 0x10) 7 2 == 0 && w 0xA0 / 2 ^ 26 == 0 &&
    decide (bits (w 0xA0) 25 23 ≤ 4) && ((rangeFrom 0 4).all fun j => w (0xA8 + 16 * j + 8) / 2 ^ 16 == 0) &&
    ((rangeFrom 0 16).all fun n => w (0x100 + 8 * n) / 2 ^ 32 == 0) &&
    (cellsBelow 0x41000 (cellsFrom 0x40180 img.cells)).isEmpty

/-- The routine that an image holds open (06 R166, R167): its mode is the restored MXMODE, and whoever opened its call owns
it, else the context that restores it (log 33). -/
def imageRoutine (img : Mem) (parked : List (Word × Bool × Owner)) (fw : Bool) (o : Owner) : Routine :=
  let w (j : Nat) : Nat := img.num (0x40000 + j) 8
  let i := w 0xA0
  let ent (j : Nat) : ULoop :=
    { start := bits (w (0xA8 + 16 * j + 8)) 7 0, last := bits (w (0xA8 + 16 * j + 8)) 15 8,
      count := bits (w (0xA8 + 16 * j)) 31 0, index := w (0xA8 + 16 * j) / 2 ^ 32 }
  let call := W (w 0x18)
  let who := ((parked.find? fun p => p.1 == call).map fun p => p.2).getD (fw, o)
  { call := call, fw := who.1, owner := who.2, routine := bits i 7 0, pc := bits i 15 8, bank := bits i 18 16,
    pbase := bits i 21 19, flex := bitAt i 22, mode := W (w 0),
    m := ⟨(rangeFrom 0 8).map fun j => (j, W (w (0x60 + 8 * j)))⟩, loops := (rangeFrom 0 (bits i 25 23)).map ent }

/-- The core with a park image restored (06 R167): banks, tags, mode, m registers, the read positions of rings that the
unit consumes (08 R228), the open routine, and a held fault, which is held once. -/
def Core.restoreMx (k : Core) (img : Mem) (fw : Bool) (o : Owner) : Core :=
  let w (j : Nat) : Nat := img.num (0x40000 + j) 8
  let x := k.mx
  let h := (fw, W (w 0x18), BitVec.ofNat 8 (bits (w 0x10) 15 8))
  let mx : MxUnit :=
    { x with
      mode := W (w 0)
      tags := ⟨(rangeFrom 0 8).map fun b => (b, bits (w 8) (4 * b + 3) (4 * b))⟩
      acc := ⟨(rangeFrom 0 8).map fun b => (b, img.slice (b * Config.bankBytes) Config.bankBytes 0)⟩
      rt := if bitAt (w 0x10) 0 then some (imageRoutine img x.parked fw o) else none
      held := if bitAt (w 0x10) 1 && !x.held.contains h then x.held ++ [h] else x.held
      parked := x.parked.filter fun p => p.1 != W (w 0x18) }
  let k1 := { k with mx := mx, m := ⟨(rangeFrom 0 8).map fun j => (j, W (w (0x20 + 8 * j)))⟩ }
  (rangeFrom 0 16).foldl (fun k n =>
    if ringCons (k.ringCfgOf n) == 1 then
      Core.mirror { k with ring := k.ring.put n { k.ringOf n with r := BitVec.ofNat 32 (w (0x100 + 8 * n)) } } n
    else k) k1

/-- MXUNPARK (06 R167): it waits for the handler's own call to end. -/
def execMxunpark (a : Src) (s : State) : Out :=
  if s.kp.mx.busy then .next s.stall
  else
    s.withSrcs [a] fun t =>
      let va := s.src a
      s.parkAt va false false fun pages =>
        if !s.xp.park s.xp.level then .next (s.trap .mxNotParked 0)
        else
          let t := t.drained
          match t.m.getPages s.iss.core s.xp.asid Mem.empty pages with
          | (m1, .error f) => .next (s.parkFault { s.pre with tlb := m1.tlb, tabs := m1.tabs, lineMaps := m1.lineMaps, nonce := m1.nonce } va .load f)
          | (m1, .ok img) =>
            if !imageOk img then .next (s.trap .mxBadImage 0)
            else
              .next ((({ t with m := m1 } : State).latch uMX.val false va).updK fun k =>
                (k.restoreMx img s.iss.fw s.owner).setCtx s.iss.fw
                  (((k.restoreMx img s.iss.fw s.owner).ctx s.iss.fw).setPark s.xp.level false))

end Sys2Proof.Machine
end

