-- ==== Sys2Proof/Machine/Geo.lean ====
section
/-!
DEFINITION. The exact predicates (06 R169 to R176): determinants over polynomials in the perturbation ε, whose constant
terms are the exact values; classification of segments; the S5 instructions and their completion.
-/
namespace Sys2Proof.Machine

/-! ## Sparse polynomials in ε: exponent and coefficient, exponents rising, no coefficient 0 -/

/-- A polynomial in ε. -/
abbrev Poly := List (Nat × Int)

/-- A term added to a polynomial. -/
def polyTerm (e : Nat) (c : Int) : Poly → Poly
  | [] => if c = 0 then [] else [(e, c)]
  | (i, d) :: r =>
    if e < i then (if c = 0 then (i, d) :: r else (e, c) :: (i, d) :: r)
    else if e = i then (if c + d = 0 then r else (i, c + d) :: r)
    else (i, d) :: polyTerm e c r

/-- The sum. -/
def polyAdd (a b : Poly) : Poly := a.foldl (fun p t => polyTerm t.1 t.2 p) b
/-- The difference. -/
def polySub (a b : Poly) : Poly := b.foldl (fun p t => polyTerm t.1 (-t.2) p) a
/-- The product. -/
def polyMul (a b : Poly) : Poly :=
  a.foldl (fun p t => b.foldl (fun p u => polyTerm (t.1 + u.1) (t.2 * u.2) p) p) []

/-- The sign for all small enough ε > 0: that of the lowest-order coefficient (06 R173). -/
def polySign : Poly → Int
  | [] => 0
  | (_, c) :: _ => c.sign

/-- A 2 × 2 determinant. -/
def det2 (a b c d : Poly) : Poly := polySub (polyMul a d) (polyMul b c)

/-- The k-th entry of a row. -/
def ent (r : List Poly) (k : Nat) : Poly := r.getD k []

/-- A 3 × 3 determinant of rows, in columns i, j, k. -/
def det3 (r1 r2 r3 : List Poly) (i j k : Nat) : Poly :=
  polyAdd (polySub (polyMul (ent r1 i) (det2 (ent r2 j) (ent r2 k) (ent r3 j) (ent r3 k)))
      (polyMul (ent r1 j) (det2 (ent r2 i) (ent r2 k) (ent r3 i) (ent r3 k))))
    (polyMul (ent r1 k) (det2 (ent r2 i) (ent r2 j) (ent r3 i) (ent r3 j)))

/-- A 4 × 4 determinant of rows. -/
def det4 (r1 r2 r3 r4 : List Poly) : Poly :=
  polySub
    (polyAdd (polySub (polyMul (ent r1 0) (det3 r2 r3 r4 1 2 3)) (polyMul (ent r1 1) (det3 r2 r3 r4 0 2 3)))
      (polyMul (ent r1 2) (det3 r2 r3 r4 0 1 3)))
    (polyMul (ent r1 3) (det3 r2 r3 r4 0 1 2))

/-! ## Determinants (06 R170) -/

/-- A point: its coordinates. -/
abbrev Pt := List Poly

/-- The point at an index. -/
def ptAt (ps : List Pt) (i : Nat) : Pt := ps.getD i []

/-- The difference of two points. -/
def ptSub (a b : Pt) : Pt := a.zipWith polySub b

/-- The difference, with the square of its length behind it. -/
def ptLift (a b : Pt) : List Poly :=
  let d := ptSub a b
  d ++ [d.foldl (fun t x => polyAdd t (polyMul x x)) []]

/-- GORIENT2: (bx-ax)(cy-ay) - (by-ay)(cx-ax). -/
def orient2Det (ps : List Pt) : Poly :=
  let u := ptSub (ptAt ps 1) (ptAt ps 0)
  let v := ptSub (ptAt ps 2) (ptAt ps 0)
  det2 (ent u 0) (ent u 1) (ent v 0) (ent v 1)

/-- GORIENT3: rows a-d, b-d, c-d. -/
def orient3Det (ps : List Pt) : Poly :=
  let r (i : Nat) : List Poly := ptSub (ptAt ps i) (ptAt ps 3)
  det3 (r 0) (r 1) (r 2) 0 1 2

/-- GINCIRC: rows (p-d, |p-d|²) for p = a, b, c. -/
def incircDet (ps : List Pt) : Poly :=
  let r (i : Nat) : List Poly := ptLift (ptAt ps i) (ptAt ps 3)
  det3 (r 0) (r 1) (r 2) 0 1 2

/-- GINSPH: rows (p-e, |p-e|²) for p = a, b, c, d. -/
def insphDet (ps : List Pt) : Poly :=
  let r (i : Nat) : List Poly := ptLift (ptAt ps i) (ptAt ps 4)
  det4 (r 0) (r 1) (r 2) (r 3)

/-! ## Points of a lane -/

/-- A coordinate as an integer at a common exponent. -/
def scaledInt (e0 : Int) : Num → Int
  | .fin n m e => signed n (m * 2 ^ (e - e0).toNat)
  | _ => 0

/-- The exponent of a value. -/
def Num.exp : Num → Int
  | .fin _ _ e => e
  | _ => 0

/-- The coordinates of a lane as integers, scaled by one power of 2, which changes no sign. -/
def laneInts (xs : List Num) : List Int :=
  let e0 := (xs.map Num.exp).foldl min 0
  xs.map (scaledInt e0)

/-- The lexicographic order of coordinate lists: negative, zero or positive. -/
def lexCmp : List Int → List Int → Int
  | a :: as, b :: bs => if a = b then lexCmp as bs else a - b
  | _, _ => 0

/-- The rank of point i: ascending lexicographic order, equal points by position (06 R173). -/
def rankOf (ps : List (List Int)) (i : Nat) : Nat :=
  ((ps.zipIdx).filter fun q =>
    let c := lexCmp q.1 (ps.getD i [])
    decide (c < 0) || (c == 0 && decide (q.2 < i))).length

/-- A constant. -/
def polyConst (x : Int) : Poly := if x = 0 then [] else [(0, x)]

/-- The exact points. -/
def exactPts (ps : List (List Int)) : List Pt := ps.map fun p => p.map polyConst

/-- The perturbed points: coordinate d of the point of rank j plus ε^(2^(j × D + d)) (06 R173). -/
def perturbedPts (dim : Nat) (ps : List (List Int)) : List Pt :=
  ps.zipIdx.map fun p =>
    let j := rankOf ps p.2
    p.1.zipIdx.map fun c => polyTerm (2 ^ (j * dim + c.2)) 1 (polyConst c.1)

/-! ## Results (06 R171, R174) -/

/-- The result byte of a sign. -/
def signByte (s : Int) (plus minus : Nat) : Nat := if s < 0 then minus else plus

/-- The result of a determinant lane: its byte, and whether the lane is an exact zero. -/
def detLane (det : List Pt → Poly) (dim : Nat) (tie : Bool) (ps : List (List Int)) : Nat × Bool :=
  let s := polySign (det (exactPts ps))
  if s != 0 then (signByte s 0x01 0xFF, false)
  else if tie then (signByte (polySign (det (perturbedPts dim ps))) 0x02 0xFE, true)
  else (0x00, true)

/-- The sign of the orientation of three points of a lane. -/
def orientOf (ps : List Pt) (i j k : Nat) : Int := polySign (orient2Det [ptAt ps i, ptAt ps j, ptAt ps k])

/-- The four orientations of GSEGX: (p, q, r), (p, q, s), (r, s, p), (r, s, q). -/
def segOrients (ps : List Pt) : List Int :=
  [orientOf ps 0 1 2, orientOf ps 0 1 3, orientOf ps 2 3 0, orientOf ps 2 3 1]

/-- The lesser of two points. -/
def lexMin (a b : List Int) : List Int := if lexCmp a b ≤ 0 then a else b
/-- The greater of two points. -/
def lexMax (a b : List Int) : List Int := if lexCmp a b ≤ 0 then b else a

/-- The class of two segments on one line, from the ends of the part they share (06 R171). -/
def segCollinear (p q r s : List Int) : Nat :=
  let lo := lexMax (lexMin p q) (lexMin r s)
  let hi := lexMin (lexMax p q) (lexMax r s)
  let c := lexCmp lo hi
  if 0 < c then 0 else if c = 0 then 2 else 3

/-- The class of two closed segments (06 R171). A segment whose endpoints coincide is a point: its two orientations are
zero, so the other two decide whether it lies on the other's line. -/
def segClass (ps : List (List Int)) : Nat :=
  let o := segOrients (exactPts ps)
  let z := o.map fun x => decide (x = 0)
  let a := o.getD 0 0
  let b := o.getD 1 0
  let c := o.getD 2 0
  let d := o.getD 3 0
  let pt (i : Nat) : List Int := ps.getD i []
  if z.all id then segCollinear (pt 0) (pt 1) (pt 2) (pt 3)
  else if a * b ≤ 0 && c * d ≤ 0 then (if z.any id then 2 else 1)
  else 0

/-- The result of a GSEGX lane: mode 1 classifies the perturbed segments (06 R173, R174). -/
def segLane (tie : Bool) (ps : List (List Int)) : Nat × Bool :=
  let exact := segOrients (exactPts ps)
  let zero := exact.any fun x => decide (x = 0)
  if tie && zero then
    let o := segOrients (perturbedPts 2 ps)
    let cross := o.getD 0 0 != o.getD 1 0 && o.getD 2 0 != o.getD 3 0
    (if cross then 0x05 else 0x04, true)
  else (segClass ps, zero)

/-! ## The instructions (06 R169, R175) -/

/-- The element type of a predicate format. -/
def gfType : GF → VT
  | .f32 => .f32
  | .f64 => .f64
  | .i32 => .i32
  | .i64 => .i64

/-- The values of lane i in k operand registers. -/
def State.laneNums (s : State) (g : GF) (va : BitVec 8) (k i : Nat) : List Num :=
  (rangeFrom 0 k).map fun j => vtNum (gfType g) false ((s.kp.vreg (va.toNat + j)).num (i * g.bytes) g.bytes)

/-- The lowest lane with a NaN or an infinity, with the lowest register offset of one: lane + offset × 2^16 (06 R175). -/
def State.geoBad (s : State) (g : GF) (va : BitVec 8) (k n : Nat) : Option Nat :=
  (rangeFrom 0 n).findSome? fun i =>
    ((s.laneNums g va k i).zipIdx.find? fun p => p.1.isNan || p.1.isInf).map fun p => i + p.2 * 2 ^ 16

/-- A predicate (06 R169 to R176): its results wait for PREDICATE_COMPLETE. -/
def State.geo (s : State) (g : GF) (vd va : BitVec 8) (d : Dst) (k dim : Nat) (lane : Bool → List (List Int) → Nat × Bool) :
    Out :=
  s.withDests vd.toNat 1 fun s =>
    let n := s.vn g.bytes
    match (if g.isFloat then s.geoBad g va k n else none) with
    | some v => .next (s.trap .geoNonfinite (W v))
    | none =>
      let rs := (rangeFrom 0 n).map fun i =>
        let xs := laneInts (s.laneNums g va k i)
        lane s.xp.geocfg (chunks dim (k / dim) xs)
      let op : EpuOp :=
        { fw := s.iss.fw, vd := vd.toNat, res := rs.map fun r => BitVec.ofNat 8 r.1, dst := d,
          count := W (rs.filter fun r => r.2).length }
      .next (s.updK fun c => { c with epu := some op })

/-- GORIENT2 (06 R170). -/
def execGorient2 (g : GF) (vd va : BitVec 8) (d : Dst) (s : State) : Out :=
  s.geo g vd va d kOrient2 2 (detLane orient2Det 2)

/-- GORIENT3 (06 R170). -/
def execGorient3 (g : GF) (vd va : BitVec 8) (d : Dst) (s : State) : Out :=
  s.geo g vd va d kOrient3 3 (detLane orient3Det 3)

/-- GINCIRC (06 R170). -/
def execGincirc (g : GF) (vd va : BitVec 8) (d : Dst) (s : State) : Out :=
  s.geo g vd va d kIncirc 2 (detLane incircDet 2)

/-- GINSPH (06 R170). -/
def execGinsph (g : GF) (vd va : BitVec 8) (d : Dst) (s : State) : Out :=
  s.geo g vd va d kInsph 3 (detLane insphDet 3)

/-- GSEGX (06 R171). -/
def execGsegx (g : GF) (vd va : BitVec 8) (d : Dst) (s : State) : Out := s.geo g vd va d kSegx 2 segLane

/-- GTIE (06 R172). A value above 1 raises ILLEGAL_OPERAND in slot order, with trap value 0 (log 121). -/
def execGtie (a : Src) (s : State) : Out :=
  s.withSrcs [a] fun t =>
    if 1 < (s.src a).toNat then .next (s.trap .illegalOperand 0)
    else .next (t.updX fun x => { x with geocfg := bitAt (s.src a).toNat 0 })

/-- PREDICATE_COMPLETE (06 R176): VD and D are written. -/
def execPredicateComplete (core : Nat) (s : State) : Out :=
  onCore core
    (match (s.m.core core).epu with
     | none => .next s
     | some e =>
       .next (s.upd fun m => (m.updCore core fun k => ({ k with epu := none } : Core).vwrite e.vd 0 e.res).putDst core e.fw
         e.dst e.count))

end Sys2Proof.Machine
end

