-- ==== Sys2Proof/Machine/Margin.lean ====
section
/-!
DEFINITION. Deckle, replay and fencing (01 R30, 19 R381 to R392): the step of a core's regulator, windows of retired bundles,
raises and probes, the entry in flash, and the events of these. A cycle of a core (01 R12, R29).
-/
namespace Sys2Proof.Machine

/-! ## Cycles of a core -/

/-- A core cycle of weight w, in which context 1 issued if fw (01 R12, R29): it enters the window of the last 63 cycles, and
the issue window of 64. -/
def Core.cycle (k : Core) (w : Nat) (fw : Bool) : Core :=
  let pos := (k.winPos + 1) % 64
  { k with cycles := k.cycles + 1, weights := (w :: k.weights).take 63, winPos := pos,
           fwCount := if pos = 0 then 0 else k.fwCount + b2n fw, used := k.used + 1,
           margin := { k.margin with half := k.margin.half - 1 } }

/-- Idle cycles of a core. -/
def Core.idleCycles (k : Core) : Nat → Core
  | 0 => k
  | n + 1 => (k.cycle 0 false).idleCycles n

/-- The weights of the last 63 cycles. -/
def Core.windowSum (k : Core) : Nat := k.weights.sum

/-- A context that stands on a core, or is to start there: what keeps a core from being fenced or gated (18 R378, 19 R391). -/
def Core.holds (k : Core) : Bool :=
  k.c0.owner.isSome || k.shadow.isSome || !k.cands.isEmpty ||
    (k.c0.run != .idle && k.c0.run != .halted && k.c0.run != .killed)

/-- Whether a core has power: it is not FENCED, its die not gated, the package not off (18 R378, R380, 19 R391). -/
def Mach.powered (m : Mach) (c : Nat) : Bool :=
  !m.power.off && !bitAt m.power.gated.toNat (coreDie c) && (m.core c).margin.state != 2

/-! ## The envelope (19 R384) -/

/-- CLEAN. -/
def Mach.dkClean (m : Mach) : Nat := bits m.dkcfg.toNat 39 32
/-- LIMIT. -/
def Mach.dkLimit (m : Mach) : Nat := bits m.dkcfg.toNat 31 24
/-- FREEZE. -/
def Mach.dkFreeze (m : Mach) : Bool := bitAt m.dkcfg.toNat 16
/-- VMAX. -/
def Mach.dkMax (m : Mach) : Nat := bits m.dkcfg.toNat 14 8
/-- VMIN. -/
def Mach.dkMin (m : Mach) : Nat := bits m.dkcfg.toNat 6 0

/-- The device with f applied to a core's margin state. -/
def Mach.updMargin (m : Mach) (c : Nat) (f : Margin → Margin) : Mach :=
  m.updCore c fun k => { k with margin := f k.margin }

/-- Ticks a step change settles over (19 R383). -/
def settleTicks : Word := 200

/-- A step change (19 R383): it settles over 200 ticks from the request. -/
def Mach.stepTo (m : Mach) (c s : Nat) : Mach :=
  m.updMargin c fun g => if s = g.step then g else { g with step := s, settle := some (m.time + settleTicks) }

/-! ## The entry in flash (19 R389, R390) -/

/-- One bit of CRC-32, reflected. -/
def crcBit (x : Nat) : Nat := if x % 2 = 1 then Nat.xor (x / 2) 0xEDB88320 else x / 2

/-- CRC-32 (IEEE 802.3) of bytes, from a running value. -/
def crcFrom (x : Nat) : List Byte → Nat
  | [] => x
  | b :: r => crcFrom ((rangeFrom 0 8).foldl (fun y _ => crcBit y) (Nat.xor x b.toNat)) r

/-- CRC-32 (IEEE 802.3) of bytes. -/
def crc32 (bs : List Byte) : Nat := Nat.xor (crcFrom 0xFFFFFFFF bs) 0xFFFFFFFF

/-- Ticks of an hour. -/
def hourTicks : Nat := 3600000000000
/-- Ticks after its last write before which a raise is not written (19 R390). -/
def deferTicks : Nat := 600000000000

/-- The power-on hours of a core, and the ticks beyond the last whole hour (19 R390). Without power the remainder is kept. -/
def Mach.hoursOf (m : Mach) (c : Nat) : Nat × Nat :=
  let g := (m.core c).margin
  if m.powered c then
    let t := (m.time - g.hoursTick).toNat
    (g.hours + t / hourTicks, t % hourTicks)
  else (g.hours, g.hoursTick.toNat)

/-- The hours of a core settled when it loses power: the remainder of an hour is kept. -/
def Mach.stopHours (m : Mach) (c : Nat) : Mach :=
  let h := m.hoursOf c
  m.updMargin c fun g => { g with hours := h.1, hoursTick := W h.2 }

/-- The hours of a core run on from the remainder it kept. -/
def Mach.runHours (m : Mach) (c : Nat) : Mach :=
  m.updMargin c fun g => { g with hoursTick := m.time - g.hoursTick }

/-- AGE (19 R388). -/
def ageOf (floor floor0 hours : Nat) : Nat :=
  min 65535 ((floor - floor0) * 256 * 1000 / max hours 1)

/-- The words of a core's entry (19 R389). -/
def Margin.entry (g : Margin) (c : Nat) : List Word :=
  let ws := [W (2 ^ 56 + (if g.state = 2 then 2 ^ 48 + g.reason * 2 ^ 40 else 0) + g.step * 2 ^ 25 + g.floor * 2 ^ 18 +
      g.floor0 * 2 ^ 11 + c), W (g.hours * 2 ^ 32 + g.age * 2 ^ 16 + g.raises), W g.seq]
  ws ++ [W (crc32 (bytesOfWords ws))]

/-- Whether a flash copy is good. -/
def copyGood (ws : List Word) : Bool :=
  ws.length == 4 && (wordAt ws 3).toNat % 2 ^ 32 == crc32 (bytesOfWords (ws.take 3))

/-- The copy that a boot takes: good, with the higher SEQ; none where neither is good. -/
def Margin.stored (g : Margin) : Option (List Word) :=
  match copyGood g.copyA, copyGood g.copyB with
  | true, true => some (if (wordAt g.copyA 2).toNat < (wordAt g.copyB 2).toNat then g.copyB else g.copyA)
  | true, false => some g.copyA
  | false, true => some g.copyB
  | false, false => none

/-- A core's entry is written with the values now current, to the copy not written last; the write clears DIRTY. -/
def Mach.writeEntry (m : Mach) (c : Nat) : Mach :=
  let h := m.hoursOf c
  m.updMargin c fun g =>
    let toB := copyGood g.copyA && (!copyGood g.copyB || decide ((wordAt g.copyB 2).toNat < (wordAt g.copyA 2).toNat))
    let g1 := { g with seq := g.seq + 1, hours := h.1, hoursTick := if m.powered c then m.time - W h.2 else W h.2,
                       age := ageOf g.floor g.floor0 h.1, dirty := false, lastWrite := m.time }
    if toB then { g1 with copyB := g1.entry c } else { g1 with copyA := g1.entry c }

/-- note_raise (19 R390). -/
def Mach.noteRaise (m : Mach) (c : Nat) : Mach :=
  let m1 := m.updMargin c fun g => { g with raises := min 65535 (g.raises + 1) }
  if deferTicks ≤ (m.time - (m.core c).margin.lastWrite).toNat then m1.writeEntry c
  else m1.updMargin c fun g => { g with dirty := true }

/-! ## Fencing (19 R391, R392) -/

/-- A core becomes FENCEPEND, with the first reason that applies. -/
def Mach.fencePending (m : Mach) (c : Nat) (reason : Cause) : Mach :=
  m.updMargin c fun g => if g.state = 0 then { g with state := 1, reason := reason.code } else g

/-- The enabled count: the cores that are neither FENCEPEND nor FENCED. Every core that no event has touched is enabled. -/
def Mach.enabledCount (m : Mach) : Nat :=
  Config.nCores - (m.cores.l.filter fun e => decide (e.1 < Config.nCores) && e.2.margin.state != 0).length

/-- A core that raises RAS_SCU_MISMATCH or RAS_VU_RESIDUE twice within 2^20 retired bundles becomes FENCEPEND (20 R396). -/
def Mach.rasSeen (m : Mach) (c : Nat) (cause : Cause) : Mach :=
  let g := (m.core c).margin
  let m1 := m.updMargin c fun g => { g with lastRas := some g.total }
  match g.lastRas with
  | some t => if g.total - t ≤ 2 ^ 20 then m1.fencePending c cause else m1
  | none => m1

/-! ## Windows (19 R385) -/

/-- A raise by one step: a probe under way has failed. FLOOR reaching 96 fences the core (19 R391). -/
def Mach.raiseStep (m : Mach) (c : Nat) : Mach :=
  let m1 := m.updMargin c fun g =>
    match g.probe with
    | some p => { g with floor := p + 1, probe := none }
    | none => g
  let m2 := if 96 ≤ (m1.core c).margin.floor then m1.fencePending c .rasMarginLimit else m1
  (m2.stepTo c (min ((m2.core c).margin.step + 1) m2.dkMax)).noteRaise c

/-- A new window starts; four raising windows in a row at 96 fence the core. -/
def Mach.newWindow (m : Mach) (c : Nat) : Mach :=
  let m1 := if (m.core c).margin.overs = 4 then m.fencePending c .rasMarginLimit else m
  m1.updMargin c fun g => { g with wrep := 0, retired := 0 }

/-- A window that ends with a raise. A core that stands at a VMAX below 96 after it is marked OVER (19 R391; log 133). -/
def Mach.windowRaise (m : Mach) (c : Nat) : Mach :=
  let m1 :=
    if m.dkFreeze then m.updMargin c fun g => { g with isOver := true }
    else
      let m1 := m.raiseStep c
      if (m1.core c).margin.step = m1.dkMax then
        m1.updMargin c fun g => if m1.dkMax = 96 then { g with overs := g.overs + 1 } else { g with isOver := true }
      else m1
  (m1.updMargin c fun g => { g with cleanRun := 0 }).newWindow c

/-- A window that ends without a raise: CLEANRUN, a probe that held, the learned floor, a new probe. -/
def Mach.windowClean (m : Mach) (c : Nat) : Mach :=
  let clean := m.dkClean
  let m1 := m.updMargin c fun g =>
    let g1 := { g with overs := 0, cleanRun := if g.wrep ≤ m.dkLimit / 8 then g.cleanRun + 1 else 0 }
    let g2 := if g1.probe.isSome && decide (clean ≤ g1.cleanRun) then { g1 with probe := none } else g1
    if 65536 ≤ g2.cleanRun ∧ g2.step = g2.floor ∧ 0 < g2.floor then { g2 with floor := g2.floor - 1 } else g2
  let g := (m1.core c).margin
  let m2 :=
    if clean ≤ g.cleanRun ∧ g.probe = none ∧ !g.hold ∧ !m.dkFreeze ∧ max g.floor m.dkMin < g.step then
      (m1.stepTo c (g.step - 1)).updMargin c fun g => { g with probe := some g.step, cleanRun := 0 }
    else m1
  m2.newWindow c

/-- A bundle of a context retires (19 R382, R385): its replays in a row end. -/
def Mach.retireBundle (m : Mach) (c : Nat) (fw : Bool) : Mach :=
  m.updMargin c fun g =>
    Margin.rowEnd { g with retired := g.retired + 1, total := g.total + 1 } fw

/-! ## Events -/

/-- The core of an event must exist. -/
def State.atCore (s : State) (c : Nat) (ok : Bool) (f : Mach → Mach) : Out :=
  onCore c (.next (if ok then s.upd f else s))

/-- The replays in a row of the bundle that a context has next. -/
def Margin.row (g : Margin) (fw : Bool) : Nat := if fw then g.row1 else g.row0

/-- The raise of 19 R382 as 21 R405 completes it: it sets CLEANRUN to 0 and ends no window; under FREEZE it sets OVER alone. -/
def Mach.rowRaise (m : Mach) (c : Nat) : Mach :=
  if m.dkFreeze then m.updMargin c fun g => { g with isOver := true }
  else (m.raiseStep c).updMargin c fun g => { g with cleanRun := 0 }

/-- The raises and the four periods of a bundle replayed again and again (19 R382): at 64 in a row the core is at VMAX, or it is
frozen at whatever step (21 R405). -/
def Mach.replayRow (m : Mach) (c : Nat) (fw : Bool) : Mach :=
  let m1 := m.updMargin c fun g => if fw then { g with row1 := g.row1 + 1 } else { g with row0 := g.row0 + 1 }
  let n := (m1.core c).margin.row fw
  let m2 := if n % 8 = 0 then m1.rowRaise c else m1
  if 64 ≤ n ∧ ((m2.core c).margin.step = m2.dkMax ∨ m2.dkFreeze) then
    (m2.updMargin c fun g =>
      let g1 := { g with isOver := true }
      if fw then { g1 with four1 := true } else { g1 with four0 := true }).logErr (Cause.code .rasMarginLimit) kDetected
      { fw := fw, loc := c }
  else m2

/-- SHADOW_LATCH_REPLAY (01 R30, R31, 19 R381, R382, R385, 21 R405): the next bundle of a context is squashed, the core stalls for 2 to 4
cycles and then runs 32 cycles at half rate; the bundle issues again. Only time and the counts change. A bundle that runs at
four periods a cycle is not replayed. -/
def execShadowLatchReplay (core : Nat) (fw : Bool) (stall : Nat) (s : State) : Out :=
  let g := (s.m.core core).margin
  let four := if fw then g.four1 else g.four0
  let ok := (s.m.ctx core fw).run == .running && s.m.powered core && decide (2 ≤ stall) && decide (stall ≤ 4) && !four
  s.atCore core ok fun m =>
    let m1 := m.updCore core fun k =>
      let k1 := { k with replayCnt := k.replayCnt + 1 }.idleCycles stall
      { k1 with margin := { k1.margin with half := 32, wrep := k1.margin.wrep + 1 } }
    let m2 := m1.replayRow core fw
    if m2.dkLimit < (m2.core core).margin.wrep then m2.windowRaise core else m2

/-- DECKLE_WINDOW_END (19 R385): 2^20 bundles have retired in the window. -/
def execDeckleWindowEnd (core : Nat) (s : State) : Out :=
  s.atCore core (decide (2 ^ 20 ≤ (s.m.core core).margin.retired)) fun m => m.windowClean core

/-- REGULATOR_SETTLE_DONE (19 R383). -/
def execRegulatorSettleDone (core : Nat) (s : State) : Out :=
  let due := match (s.m.core core).margin.settle with
    | some t => decide (0 ≤ (s.m.time - t).toInt)
    | none => false
  s.atCore core due fun m => m.updMargin core fun g => { g with settle := none }

/-- MARGIN_ENTRY_DEFERRED_WRITE (19 R390). -/
def execMarginEntryDeferredWrite (core : Nat) (s : State) : Out :=
  let g := (s.m.core core).margin
  s.atCore core (g.dirty && !s.m.power.off && decide (deferTicks ≤ (s.m.time - g.lastWrite).toNat)) fun m =>
    m.writeEntry core

/-- MARGIN_ENTRY_REFRESH (19 R390). -/
def execMarginEntryRefresh (core : Nat) (s : State) : Out :=
  let g := (s.m.core core).margin
  s.atCore core (!s.m.power.off && decide (24 * hourTicks ≤ (s.m.time - g.lastWrite).toNat)) fun m => m.writeEntry core

/-- CORE_FENCED (19 R391): a FENCEPEND core without context or candidate is fenced: its entry is written with STATE 1, the
error log names it, and it loses power. -/
def execCoreFenced (core : Nat) (s : State) : Out :=
  let k := s.m.core core
  s.atCore core (k.margin.state == 1 && !k.holds) fun m =>
    let m1 := (m.stopHours core).updCore core fun k =>
      { k with margin := { k.margin with state := 2 }, c0 := { k.c0 with run := .idle }, c1 := { k.c1 with run := .idle } }
    (m1.writeEntry core).logErr (Cause.code .rasCoreFenced) kDetected { loc := core }

/-- CORE_FENCE_CMD (19 R391). -/
def execCoreFenceCmd (core : Nat) (s : State) : Out :=
  s.atCore core true fun m => m.fencePending core .rasCoreFenced

/-- CORE_UNFENCE_CMD (19 R392): it takes effect at the next device reset. -/
def execCoreUnfenceCmd (core : Nat) (s : State) : Out :=
  s.atCore core true fun m =>
    m.updMargin core fun g => if g.state = 0 then g else { g with unfence := true }

/-- A core's step held within the envelope, as one step change (19 R384). -/
def Mach.clampStep (m : Mach) (c : Nat) : Mach :=
  let s := (m.core c).margin.step
  let t := max m.dkMin (min s m.dkMax)
  if t = s then m else m.stepTo c t

/-- A write of DKCFG (19 R384): VMIN above VMAX is ignored; a code above 96 stores 96, a CLEAN or LIMIT of 0 stores 1. -/
def Mach.setDkcfg (m : Mach) (val : Word) : Mach :=
  let v := val.toNat
  let lo := bits v 6 0
  let hi := bits v 14 8
  if hi < lo then m
  else
    let r := W (max 1 (bits v 39 32) * 2 ^ 32 + max 1 (bits v 31 24) * 2 ^ 24 + bits v 16 16 * 2 ^ 16 + min hi 96 * 2 ^ 8 +
      min lo 96)
    (rangeFrom 0 Config.nCores).foldl (fun m c => m.clampStep c) { m with dkcfg := r }

/-- DKCFG_WRITE (19 R384). -/
def execDkcfgWrite (val : Word) (s : State) : Out := .next (s.upd fun m => m.setDkcfg val)

/-- A core raised by n steps, no higher than VMAX (19 R383, R386). -/
def Mach.raiseBy (m : Mach) (n c : Nat) : Mach :=
  let s := (m.core c).margin.step
  let t := min (s + n) m.dkMax
  if t ≤ s then m else m.stepTo c t

/-- A write of PSTATE (18 R377, 19 R383): a change toward a higher clock raises every core by 4 steps; the change itself shows in
time only. -/
def Mach.setPstate (m : Mach) (val : BitVec 2) : Mach :=
  let m1 : Mach := { m with power := { m.power with pstate := val } }
  if val.toNat < m.power.pstate.toNat then (rangeFrom 0 Config.nCores).foldl (fun m c => m.raiseBy 4 c) m1 else m1

/-- PSTATE_WRITE (18 R377, 19 R383). -/
def execPstateWrite (val : BitVec 2) (s : State) : Out := .next (s.upd fun m => m.setPstate val)

/-- MSTAT of a core (19 R392). -/
def Margin.stat (g : Margin) : Word :=
  W (g.age * 2 ^ 32 + g.state * 2 ^ 30 + b2n (decide (g.step < g.floor)) * 2 ^ 29 + b2n g.isOver * 2 ^ 28 +
    b2n g.dirty * 2 ^ 27 + g.floor * 2 ^ 16 + g.step * 2 ^ 8 + min 255 g.wrep)

/-- A core as a boot takes it up (19 R389, R390, R392): from the good flash copy with the higher SEQ; where neither is good the
loss is logged. An UNFENCE of a core that is FENCED or FENCEPEND takes effect if the core passes self-test: STEP is 96. -/
def Mach.bootMargin (m : Mach) (c : Nat) (pass : Bool) : Mach :=
  let g := (m.core c).margin
  let base : Margin := { Margin.reset with floor0 := g.floor0, copyA := g.copyA, copyB := g.copyB, hoursTick := m.time }
  match g.stored with
  | none =>
    (m.updMargin c fun _ => { base with floor := g.floor0 }).logErr (Cause.code .rasMarginEntry) kDetected
      { site := 4, loc := c }
  | some ws =>
    let w0 := (wordAt ws 0).toNat
    let w1 := (wordAt ws 1).toNat
    let fenced := bits w0 49 48 = 1
    let free := g.unfence && pass
    let h := { base with floor0 := bits w0 17 11, hours := w1 / 2 ^ 32, age := bits w1 31 16, raises := bits w1 15 0,
                         seq := (wordAt ws 2).toNat, lastWrite := g.lastWrite }
    if (fenced || g.state = 1) && free then m.updMargin c fun _ => { h with floor := h.floor0 }
    else if fenced then
      m.updMargin c fun _ => { h with floor := bits w0 24 18, step := bits w0 31 25, state := 2, reason := bits w0 47 40,
                                      hoursTick := 0 }
    else m.updMargin c fun _ => { h with floor := bits w0 24 18, step := min (bits w0 31 25 + 2) m.dkMax }

end Sys2Proof.Machine
end

