-- ==== Sys2Proof/Machine/Sync.lean ====
section
/-!
DEFINITION. Synchronisation objects and atomics (07 R177 to R180, R190 to R206, 02 R57 to R61, 10 R259 to R261): what each
operation does at its object's home, the checks of an S6 instruction, waits, and the instructions.
-/
namespace Sys2Proof.Machine

/-- The latches of eng stand behind those of the other five units (01 R23). -/
def lENG : Nat := 5

/-! ## What an operation does at its home -/

/-- The effect of an operation at its object's home: the object's bytes, the value for D, and a fault that is raised once
the operation has taken effect (07 R179). -/
structure HomeOut where
  bytes : List Byte
  val : Word
  after : Option Cause
  deriving DecidableEq, Repr

/-- An operation on 8 bytes. -/
def home8 (new val : Word) : Except Cause HomeOut := .ok { bytes := bytesOfWord 8 new, val := val, after := none }

/-- SEMPOST (07 R192). -/
def semPost (b : Word) (old : List Byte) : Except Cause HomeOut :=
  let v := wordOfBytes old
  if 2 ^ 64 ≤ v.toNat + b.toNat then .error .syncSemOverflow else home8 (v + b) 0

/-- TLADD (07 R197). -/
def tlAdd (b : Word) (old : List Byte) : Except Cause HomeOut := home8 (wordOfBytes old + b) 0

/-- TLSET (07 R197). -/
def tlSet (b : Word) (_old : List Byte) : Except Cause HomeOut := home8 b 0

/-! ### Barrier records (07 R194) -/

/-- BARARR. -/
def barArr (old : List Byte) : Except Cause HomeOut :=
  let r := Bar.ofBytes old
  if !r.init then .error .syncBarrierUninit
  else if r.arrived = r.expected then .error .syncBarrierOverrun
  else .ok { bytes := (Bar.advance { r with arrived := r.arrived + 1 }).bytes, val := W r.gen, after := none }

/-! ### Atomics (07 R201) -/

/-- The width of an atomic in bytes. -/
def atomBytes : AtomT → Nat
  | .i32 => 4
  | .i64 => 8
  | .n32 => 4
  | .n64 => 8

/-- Whether an atomic is unsigned. -/
def atomUns : AtomT → Bool
  | .i32 => false
  | .i64 => false
  | .n32 => true
  | .n64 => true

/-- The value of w bytes as the atomic's MOD reads it. -/
def atomInt (t : AtomT) (x : Nat) : Int := if atomUns t then (x % 2 ^ (8 * atomBytes t) : Nat) else sgn (8 * atomBytes t) x

/-- An atomic at its home: f gives the new value from the old one. -/
def atomAt (t : AtomT) (f : Nat → Nat) (old : List Byte) : Except Cause HomeOut :=
  let o := natOfBytes old
  .ok { bytes := bytesOfNat (atomBytes t) (f o), val := if atomUns t then W o else sextW (8 * atomBytes t) o, after := none }

/-- AADD's new value. -/
def amoAdd (t : AtomT) (x o : Nat) : Nat := (o + x) % 2 ^ (8 * atomBytes t)
/-- AMIN's new value. -/
def amoMin (t : AtomT) (x o : Nat) : Nat := if atomInt t x < atomInt t o then x else o
/-- AMAX's new value. -/
def amoMax (t : AtomT) (x o : Nat) : Nat := if atomInt t o < atomInt t x then x else o
/-- AAND's new value. -/
def amoAnd (_t : AtomT) (x o : Nat) : Nat := Nat.land o x
/-- AOR's new value. -/
def amoOr (_t : AtomT) (x o : Nat) : Nat := Nat.lor o x
/-- AXOR's new value. -/
def amoXor (_t : AtomT) (x o : Nat) : Nat := Nat.xor o x
/-- ASWAP's new value. -/
def amoSwap (_t : AtomT) (x _o : Nat) : Nat := x

/-! ### Fixed-point cells (02 R57 to R60) -/

/-- The exponent E of a cell. -/
def cellE (old : List Byte) : Int := sgn 8 (old.getD 1 0).toNat
/-- The status byte of a cell. -/
def cellSt (old : List Byte) : Nat := (old.getD 0 0).toNat
/-- VALUE of a cell. -/
def cellVal (old : List Byte) : Int := sgn 448 (natOfBytes (old.drop 8))
/-- A cell with its status byte and VALUE replaced. -/
def cellPut (old : List Byte) (st : Nat) (v : Int) : List Byte :=
  BitVec.ofNat 8 st :: (old.drop 1).take 7 ++ bytesOfNat 56 (unsgn 448 v)

/-- FXADD at its home (02 R58): x is the addend. -/
def fxAdd (x : Num) (old : List Byte) : Except Cause HomeOut :=
  let st := cellSt old
  if !bitAt st 0 then .error .fxcellUninit
  else
    match x with
    | .fin n m e =>
      if bitAt st 1 then .ok { bytes := old, val := 0, after := none }
      else
        let k := (roundAt m (e - cellE old) 0 false).1
        let v := cellVal old + signed n k
        if 2 ^ 447 - 1 < v then .ok { bytes := cellPut old (st + 2) (2 ^ 447 - 1), val := 0, after := some .fxcellOverflow }
        else if v < -(2 ^ 447 : Int) then
          .ok { bytes := cellPut old (st + 2) (-(2 ^ 447 : Int)), val := 0, after := some .fxcellOverflow }
        else .ok { bytes := cellPut old st v, val := 0, after := none }
    | _ =>
      if bitAt st 2 then .ok { bytes := old, val := 0, after := none }
      else .ok { bytes := cellPut old (st + 4) (cellVal old), val := 0, after := some .fxcellNonfinite }

/-- FXREAD at its home (02 R60). -/
def fxRead (F : Flt) (old : List Byte) : Except Cause HomeOut :=
  let st := cellSt old
  if !bitAt st 0 then .error .fxcellUninit
  else
    let v := cellVal old
    let x : Num := if bitAt st 2 then .nan false else .fin (decide (v < 0)) v.natAbs (cellE old)
    .ok { bytes := old, val := W (F.put false false x).val, after := none }

/-- The addend of an FXADD. -/
def fxAddend (f64 : Bool) (b : Word) : Num := if f64 then flt64.num b.toNat else flt32.num (b.toNat % 2 ^ 32)

/-! ## Checks and homes of an S6 instruction (07 R178, R179, 10 R259) -/

/-- A fault that an object's home answers with: nothing of the bundle takes effect (07 R179). -/
def State.homeFault (s : State) (c : Cause) (v : Word) : State := s.memFault { cause := c, val := v, viol := none } 0

/-- Whether the issuing context is in a deterministic phase (16 R346). -/
def State.det (s : State) : Bool := bitAt s.xp.detStat.toNat 0

/-- The ALIGN fault, then MEM_RANGE, of an object of n bytes; then its address and target. -/
def State.objAt (s : State) (va : Word) (n : Nat) (al : Cause) (rd wr : Bool) (k : Nat → Target → Out) : Out :=
  if va.toNat % n ≠ 0 then .next (s.trap al va)
  else
    match mapVa s.xp.ranges va.toNat n rd wr false with
    | none => .next (s.trap .memRange va)
    | some ia =>
      match s.target va.toNat n rd wr with
      | .error c => .next (s.trap c va)
      | .ok t => k ia t

/-- The home of an object, after every older store of the sequencer (09 R244); cls is raised where the object may not lie
(10 R259). -/
def State.homeAt (s : State) (va : Word) (n : Nat) (acc : Acc) (cls : Cause) (t : Target) (k : State → Place → Out) : Out :=
  match s.spadOf t with
  | some (c, off) =>
    if s.pre.badSpad c off n then .next (s.homeFault .memUncorrectable va)
    else k ((s.drained.markRemote t).upd Mach.wakeObjs) (.spad c off)
  | none =>
    match t with
    | .mem ia =>
      let s1 := s.drained.upd Mach.wakeObjs
      (match s1.m.translate s.xp.asid ia acc with
       | (_, .error c) => .next (s.accFault va.toNat ia acc c)
       | (m1, .ok p) =>
         match p with
         | .hbm _ _ => k { s1 with m := m1 } p
         | _ => .next (s.accFault va.toNat ia acc cls))
    | _ => .next (s.trap .memTeamWindow va)

/-- An operation at its home: the bundle is held until the home answers (07 R179). -/
def State.atHome (s : State) (p : Place) (n : Nat) (d : Dst) (op : List Byte → Except Cause HomeOut) : Out :=
  match op (s.m.readPlace p n).2 with
  | .error c => .next (s.homeFault c 0)
  | .ok h =>
    let t := (s.upd fun m => (m.cachedWrite s.iss.core p h.bytes).objFelt s.iss.fw p h.bytes).putLate .held d h.val 0
    .next (match h.after with
      | some c => t.after c 0
      | none => t)

/-- An operation buffered in the open region (07 R208). -/
def State.buffer (s : State) (va : Word) (ia : Nat) (opnd : Word) (q : Nat) (item : List Word) : State :=
  s.updX fun x => { x with region := x.region.map fun r => { r with ops := r.ops ++
    [{ word := s.iss.word, va := va, ia := ia, opnd := opnd, queue := q, item := item, grans := none }] } }

/-- The cache is invalidated whole by an acquire of device scope (09 R241). -/
def State.acquire (s : State) (p : Place) : State :=
  match p with
  | .spad _ _ => s
  | _ => s.upd fun m => m.dropCache s.iss.core

/-- A posted operation on an object: buffered in a region, with no value returned; else performed at its home. -/
def State.posted (s : State) (d : Dst) (a b : Src) (n : Nat) (al cls : Cause) (acc : Acc)
    (op : Word → List Byte → Except Cause HomeOut) : Out :=
  if s.inRegion && d != .discard then .next (s.trap .regionIllegalOp 0)
  else
    s.withSrcs [a, b] fun t =>
      let va := s.src a
      let t := t.latchAB lENG va (s.src b)
      s.objAt va n al true true fun ia tg =>
        if s.inRegion then .next (t.buffer va ia (s.src b) 0 [])
        else t.homeAt va n acc cls tg fun t p => t.atHome p n d (op (s.src b))

/-! ## Waits (07 R180) -/

/-- The stream elements that the operands of the instruction in issue take, each with the copy it came from: those kept from an earlier
wait of the bundle, and those now at the heads of their streams (07 R180, 03 R69). -/
def State.takenNow (s : State) : List (Nat × Nat × Word) :=
  ((waitSrcs s.iss.fw s.iss.word).filterMap fun a => match a with
    | .q n => if (s.xp.keptElem n.toNat).isSome then none else some (n.toNat, (s.xp.stream n.toNat).copy, s.src (.q n))
    | _ => none).eraseDups

/-- The bundle waits (07 R180): its own operands have been read, nothing else of it takes effect, and its request is on the way to the
object's home. -/
def State.waitFor (s : State) (kind : WaitKind) (va : Word) (obj : Option Place) (ticks : Option Word) : State :=
  let o := s.owner
  let now := s.takenNow
  let old := match s.xp.wait with
    | some w => w.qs
    | none => []
  let w : Wait := { kind := kind, va := va, obj := obj, word := s.iss.word, deadline := ticks.map fun b => (s.pre.time, b),
                    arrived := false, served := none, granted := false, seq := s.pre.nextId, qs := old ++ now, fault := none,
                    done := false }
  let pop (t : Tab Stream) (e : Nat × Nat × Word) : Tab Stream :=
    t.upd Stream.reset e.1 fun st => { st with fifo := st.fifo.tail }
  let m1 := s.pre.updCtx s.iss.core s.iss.fw fun x => { x with wait := some w, q := now.foldl pop x.q }
  { s with m := { m1 with nextId := m1.nextId + 1,
                          requests := m1.requests ++
                            [{ who := o, obj := obj, kind := kind, asid := s.xp.asid, det := s.det, kept := false }] },
           iss := { s.iss with dead := true } }

/-- What the home gave a waiting instruction that may now complete. -/
def State.granted (s : State) : Option (List Word) :=
  match s.xp.wait with
  | some w => if w.granted then w.served else none
  | none => none

/-- Whether the results of the wait stand in their registers already, since it was served in the context's absence (15 R339). -/
def State.waitDone (s : State) : Bool :=
  match s.xp.wait with
  | some w => w.done
  | none => false

/-- The wait of the issuing context is over. -/
def State.endWait (s : State) : State := s.updX fun x => { x with wait := none }

/-- A wait that its object's home has served: the bundle completes with the value the home gave, an acquire; else the
instruction goes to its home. d is the destination of the instruction, discarded where it has been written already (15 R339). -/
def State.regrant (s t : State) (d : Dst) (k : Out) (f : State → Dst → Word → State) : Out :=
  match s.granted with
  | none => k
  | some vs =>
    let u := t.endWait.drained
    let v :=
      match s.xp.wait.bind fun w => w.obj with
      | some (.spad c _) => if c = s.iss.core then u else u.updX fun x => { x with remoteSince := true }
      | some p => u.acquire p
      | none => u
    .next (f v (if s.waitDone then .discard else d) (wordAt vs 0))

/-- Whether an earlier SEMWAIT waits on an object (07 R192). -/
def Mach.semBusy (m : Mach) (p : Place) : Bool :=
  m.waiters.any fun w => w.obj == some p && match w.kind with
    | .sem _ => true
    | _ => false

/-! ## Monitors (07 R190, R191) -/

/-- MON. -/
def execMon (a : Src) (s : State) : Out :=
  s.withSrcs [a] fun t =>
    let va := s.src a
    let t := t.latch lENG false va
    s.objAt va 8 .alignSync true false fun _ tg =>
      t.homeAt va 8 .mon .memSyncTarget tg fun t _ =>
        .next ((t.updX fun x => { x with monStat := va + 1 }).putLate .held .discard 0 0)

/-- The monitor takes a value, which MWAIT returns. -/
def State.monTake (s : State) (d : Dst) (v : Word) : State :=
  s.updX (fun x => { x with monVal := v, monStat := x.monStat ||| 2 }) |>.putLate .held d v 0

/-- MWAIT. -/
def execMwait (d : Dst) (b : Src) (s : State) : Out :=
  if s.inRegion then .next (s.trap .regionIllegalOp 0)
  else
    s.withSrcs [b] fun t =>
      let t := t.latch lENG true (s.src b)
      if !bitAt s.xp.monStat.toNat 0 then .next (s.trap .syncNoMonitor 0)
      else
        let va := W (s.xp.monStat.toNat / 8 * 8)
        s.regrant t d (s.objAt va 8 .alignSync true false fun _ tg =>
          t.homeAt va 8 .mon .memSyncTarget tg fun t p =>
            let v := t.m.objWord p
            if !bitAt s.xp.monStat.toNat 1 || v != s.xp.monVal then .next ((t.acquire p).monTake d v)
            else
              .next (s.waitFor (.mon s.xp.monVal) va (some p)
                (if s.src b = 0 then none else some (s.src b)))) State.monTake

/-! ## Semaphores, barrier records, timelines (07 R192 to R198) -/

/-- SEMPOST (07 R192). -/
def execSempost (a b : Src) (s : State) : Out := s.posted .discard a b 8 .alignSync .memSyncTarget .atomic semPost

/-- SEMWAIT (07 R192). -/
def execSemwait (d : Dst) (a b : Src) (s : State) : Out :=
  if s.inRegion then .next (s.trap .regionIllegalOp 0)
  else
    s.withSrcs [a, b] fun t =>
      let va := s.src a
      let n := s.src b
      let t := t.latchAB lENG va n
      s.regrant t d (s.objAt va 8 .alignSync true true fun _ tg =>
        t.homeAt va 8 .atomic .memSyncTarget tg fun t p =>
          let v := t.m.objWord p
          if n = 0 || (n ≤ v && !s.pre.semBusy p) then
            .next (((t.upd fun m => (m.cachedWrite s.iss.core p (bytesOfWord 8 (v - n))).objFelt s.iss.fw p (bytesOfWord 8 (v - n))).acquire
              p).putLate .held d (v - n) 0)
          else .next (s.waitFor (.sem n) va (some p) none)) fun u d v => u.putLate .held d v 0

/-- BARARR (07 R194). In a region its D is discard (07 R208). -/
def execBararr (d : Dst) (a : Src) (s : State) : Out :=
  if s.inRegion && d != .discard then .next (s.trap .regionIllegalOp 0)
  else
    s.withSrcs [a] fun t =>
      let va := s.src a
      let t := t.latch lENG false va
      s.objAt va 16 .alignSync true true fun ia tg =>
        if s.inRegion then .next (t.buffer va ia 0 0 [])
        else t.homeAt va 16 .atomic .memSyncTarget tg fun t p => t.atHome p 16 d barArr

/-- BARWAIT (07 R195). -/
def execBarwait (a b : Src) (s : State) : Out :=
  if s.inRegion then .next (s.trap .regionIllegalOp 0)
  else
    s.withSrcs [a, b] fun t =>
      let va := s.src a
      let g := BitVec.ofNat 32 (s.src b).toNat
      let t := t.latchAB lENG va (s.src b)
      s.regrant t .discard (s.objAt va 16 .alignSync true true fun _ tg =>
        t.homeAt va 16 .atomic .memSyncTarget tg fun t p =>
          let r := Bar.ofBytes (t.m.readPlace p 16).2
          if !r.init then .next (s.homeFault .syncBarrierUninit 0)
          else if barPast (BitVec.ofNat 32 r.gen) g then .next ((t.acquire p).putLate .held .discard 0 0)
          else .next (s.waitFor (.bar g) va (some p) none)) fun u _ _ => u.putLate .held .discard 0 0

/-- TLADD (07 R197). -/
def execTladd (a b : Src) (s : State) : Out := s.posted .discard a b 8 .alignSync .memSyncTarget .atomic tlAdd

/-- TLSET (07 R197). -/
def execTlset (a b : Src) (s : State) : Out := s.posted .discard a b 8 .alignSync .memSyncTarget .atomic tlSet

/-- TLWAIT (07 R197, R198). -/
def execTlwait (a b : Src) (s : State) : Out :=
  if s.inRegion then .next (s.trap .regionIllegalOp 0)
  else
    s.withSrcs [a, b] fun t =>
      let va := s.src a
      let t := t.latchAB lENG va (s.src b)
      s.regrant t .discard (s.objAt va 8 .alignSync true true fun _ tg =>
        t.homeAt va 8 .atomic .memSyncTarget tg fun t p =>
          if tlPast (t.m.objWord p) (s.src b) then .next ((t.acquire p).putLate .held .discard 0 0)
          else .next (s.waitFor (.tl (s.src b)) va (some p) none)) fun u _ _ => u.putLate .held .discard 0 0

/-! ## The team barrier (07 R196) -/

/-- Whether a member of the team of core c has issued its n-th TBAR. -/
def Mach.hasTbar (m : Mach) (c n j : Nat) : Bool :=
  match m.memberAt c j with
  | some (c', _) =>
    let x := m.ctx c' false
    let mine := m.ctx c false
    (c' == c || (x.owner.isSome && x.owner.map (fun p => p.1) == mine.owner.map (fun p => p.1) &&
      x.owner.map (fun p => p.2) == mine.owner.map (fun p => p.2 - (m.core c).member + j))) && decide (n ≤ x.tbarIssued)
  | none => false

/-- Whether every member of the team of core c but the core itself has issued its n-th TBAR. -/
def Mach.teamTbar (m : Mach) (c n : Nat) : Bool :=
  ((rangeFrom 0 (m.core c).teamSize).filter fun j => j != (m.core c).member).all fun j => m.hasTbar c n j

/-- Whether a copy of an owner still writes to the team window: its arrival does not count before it has landed (07 R196). -/
def Mach.teamCopies (m : Mach) (o : Owner) : Bool :=
  m.copies.any fun k => k.owner == o && iaClass (wordAt k.desc 1 + k.dstDelta).toNat == 2

/-- TBAR: release and acquire at team scope. A member that arrives last completes at once, and so does a TBAR outside a team or of context
1, which is no member (log 126). -/
def execTbar (s : State) : Out :=
  if s.inRegion then .next (s.trap .regionIllegalOp 0)
  else if s.iss.fw || s.kp.teamSize = 0 then .next s.drained
  else
    let done (t : State) : State := t.updX fun x => { x with tbarDone := x.tbarDone + 1, remoteSince := false }
    match s.granted with
    | some _ => .next (done s.drained.endWait)
    | none =>
      if s.pre.teamTbar s.iss.core (s.xp.tbarIssued + 1) && !s.pre.teamCopies s.owner then
        .next (done (s.drained.updX fun x => { x with tbarIssued := x.tbarIssued + 1 }))
      else .next (s.waitFor .tbar 0 none none)

/-! ## Atomics and fixed-point cells (07 R201, R202) -/

/-- An atomic of two operands. -/
def State.amo (s : State) (t : AtomT) (d : Dst) (a b : Src) (f : AtomT → Nat → Nat → Nat) : Out :=
  s.posted d a b (atomBytes t) .alignAtomic .memAtomicTarget .atomic fun x =>
    atomAt t (f t (x.toNat % 2 ^ (8 * atomBytes t)))

/-- AADD. -/
def execAadd (t : AtomT) (d : Dst) (a b : Src) (s : State) : Out := s.amo t d a b amoAdd

/-- AMIN. -/
def execAmin (t : AtomT) (d : Dst) (a b : Src) (s : State) : Out := s.amo t d a b amoMin

/-- AMAX. -/
def execAmax (t : AtomT) (d : Dst) (a b : Src) (s : State) : Out := s.amo t d a b amoMax

/-- AAND. -/
def execAand (t : AtomT) (d : Dst) (a b : Src) (s : State) : Out := s.amo t d a b amoAnd

/-- AOR. -/
def execAor (t : AtomT) (d : Dst) (a b : Src) (s : State) : Out := s.amo t d a b amoOr

/-- AXOR. -/
def execAxor (t : AtomT) (d : Dst) (a b : Src) (s : State) : Out := s.amo t d a b amoXor

/-- ASWAP: DET_ATOMIC_ORDER in a deterministic phase (16 R350). -/
def execAswap (t : AtomT) (d : Dst) (a b : Src) (s : State) : Out :=
  if s.det then .next (s.trap .detAtomicOrder 0) else s.amo t d a b amoSwap

/-- ACAS: D is read at issue, and is never buffered (07 R201, R208). -/
def execAcas (t : AtomT) (d : BitVec 6) (a b : Src) (s : State) : Out :=
  if s.det then .next (s.trap .detAtomicOrder 0)
  else if s.inRegion then .next (s.trap .regionIllegalOp 0)
  else
    let w := 2 ^ (8 * atomBytes t)
    let want := (s.xp.sreg d.toNat).toNat % w
    s.posted (.s d) a b (atomBytes t) .alignAtomic .memAtomicTarget .atomic fun x =>
      atomAt t fun o => if o = want then x.toNat % w else o

/-- Go on unless a cell lies in a scratchpad (10 R259). -/
def State.cellAt (s : State) (va : Word) (rd wr : Bool) (k : Nat → Target → Out) : Out :=
  s.objAt va 64 .alignFxcell rd wr fun ia tg =>
    match tg with
    | .mem _ => k ia tg
    | _ => .next (s.trap .memAtomicTarget va)

/-- FXADD (02 R58, 07 R202): an overflow enters the cell's address in the error log. -/
def execFxadd (f64 : Bool) (a b : Src) (s : State) : Out :=
  s.withSrcs [a, b] fun t =>
    let va := s.src a
    let t := t.latchAB lENG va (s.src b)
    s.cellAt va true true fun ia tg =>
      if s.inRegion then .next (t.buffer va ia (s.src b) 0 [])
      else
        t.homeAt va 64 .atomic .memAtomicTarget tg fun t p =>
          let op := fxAdd (fxAddend f64 (s.src b))
          let spills :=
            match op (t.m.readPlace p 64).2 with
            | .ok h => h.after == some Cause.fxcellOverflow
            | .error _ => false
          match t.atHome p 64 .discard op with
          | .next u =>
            .next (if spills then u.upd fun m => m.logErr (Cause.code .fxcellOverflow) kDetected
                { addr := ia, fw := s.iss.fw, loc := s.iss.core, info := W ia }
              else u)
          | o => o

/-- FXREAD (02 R60, 07 R202): it sets no flag. -/
def execFxread (f64 : Bool) (d : Dst) (a : Src) (s : State) : Out :=
  if s.inRegion then .next (s.trap .regionIllegalOp 0)
  else
    s.withSrcs [a] fun t =>
      let va := s.src a
      let t := t.latch lENG false va
      s.cellAt va true false fun _ tg =>
        t.homeAt va 64 .mon .memAtomicTarget tg fun t p =>
          t.atHome p 64 d (fxRead (if f64 then flt64 else flt32))

/-! ## FENCE and QMARK (07 R205, R206) -/

/-- QMARK: every older store leaves the queue, and every older load is performed (09 R247); loads are performed as they
issue (log 7). -/
def execQmark (s : State) : Out := .next s.drained

end Sys2Proof.Machine
end

