-- ==== Sys2Proof/Machine/Queues.lean ====
section
/-!
DEFINITION. Task items and granule lists (10 R265, R266), the dependence table (10 R267, R268), device work queues (12 R294,
R295, 17 R356, R357), DEQ and ENQ (07 R199, R200), and the effects of the work-queue registers.
-/
namespace Sys2Proof.Machine

/-! ## Answers to a waiting context (07 R180, 15 R340) -/

/-- The streams that a wait took elements of, as an absent member's image keeps them. -/
def Mach.imgStreams (m : Mach) (o : Owner) (w : Option Wait) : Mach :=
  match o, w with
  | .worker l i, some w =>
    (match m.suspMember l i with
     | some x => w.qs.foldl (fun m e => m.imgStream x.swimg e.1 (x.kept.stream e.1)) m
     | none => m)
  | _, _ => m

/-- The home answers a wait with a fault: it is raised at the bundle, at once or when its handler returns there, or held for an absent
context, whose bundle then issues anew (15 R340, 17 R357). -/
def Mach.failWait (m : Mach) (o : Owner) (kept : Bool) (c : Cause) (v : Word) : Mach :=
  let t : Trp := { cause := c, val := v, viol := none }
  let m1 := m.unqueue o kept
  if kept then m1.updOwner o fun x => x.updWait true fun w => { w with fault := some t }
  else
    match m1.homeOf o with
    | some (k, fw) =>
      if (m1.ctx k fw).run = .switching then (m1.updCtx k fw Ctx.leaveWait).holdAt k fw c.code v
      else m1.updCtx k fw fun x => { x with resp := some t }
    | none =>
      let w := (m1.ctxOf o).bind fun x => x.wait
      ((m1.updOwner o Ctx.leaveWait).imgStreams o w).holdFault o c.code v

/-! ## Items (10 R265) -/

/-- TID of an item. -/
def itemTid (ws : List Word) : Nat := (wordAt ws 0).toNat / 2 ^ 16
/-- TYPE of an item. -/
def itemType (ws : List Word) : Nat := bits (wordAt ws 0).toNat 15 12
/-- NR of an item. -/
def itemNr (ws : List Word) : Nat := bits (wordAt ws 0).toNat 11 7
/-- NW of an item. -/
def itemNw (ws : List Word) : Nat := bits (wordAt ws 0).toNat 6 2

/-- Who reads an item's list or performs an operation: the core and context it names, its address space, its range
registers, and what scratchpad addresses mean. -/
structure Agent where
  core : Nat
  fw : Bool
  asid : Nat
  ranges : Tab Word
  res : Resolve
  deriving DecidableEq, Repr

/-- The issuing context as an agent. -/
def Mach.agent (m : Mach) (c : Nat) (fw : Bool) : Agent :=
  let x := m.ctx c fw
  { core := c, fw := fw, asid := x.asid, ranges := x.ranges, res := m.resolve c }

/-- A memory fault met by an agent, with its violation. -/
def Mach.agentTrp (m : Mach) (g : Agent) (va ia : Nat) (acc : Acc) (c : Cause) : Trp :=
  { cause := c, val := W va, viol := some (m.viol ia g.asid acc c g.core g.fw) }

/-- A word read at an intermediate address. -/
def Mach.iaWord (m : Mach) (g : Agent) (va ia : Nat) : Mach × Except Trp Word :=
  match g.res.of (iaTarget ia) with
  | some (c, _, off) =>
    if m.badSpad c off 8 then (m, .error { cause := .memUncorrectable, val := W va, viol := none })
    else (m, .ok (wordOfBytes (m.spadRead c off 8)))
  | none =>
    match iaTarget ia with
    | .mem ia =>
      (match m.translate g.asid ia .load with
       | (m1, .error c) => (m1, .error (m1.agentTrp g va ia .load c))
       | (m1, .ok p) => let (m2, bs) := m1.readPlace p 8; (m2, .ok (wordOfBytes bs)))
    | _ => (m, .error { cause := .memTeamWindow, val := W va, viol := none })

/-- n words read from an intermediate address on; va is what a trap value reports for the first. -/
def Mach.iaWords (g : Agent) : Nat → Nat → Nat → Mach → Mach × Except Trp (List Word)
  | 0, _, _, m => (m, .ok [])
  | n + 1, va, ia, m =>
    match m.iaWord g va ia with
    | (m1, .error t) => (m1, .error t)
    | (m1, .ok w) =>
      match Mach.iaWords g n (va + 8) (ia + 8) m1 with
      | (m2, .error t) => (m2, .error t)
      | (m2, .ok ws) => (m2, .ok (w :: ws))

/-- A fault of R266 with its trap value. -/
def badItem (c : Cause) (v : Word) : Trp := { cause := c, val := v, viol := none }

/-- The first entry with bits [11:0] set. -/
def oddGranule (ws : List Word) : Option Nat := (rangeFrom 0 ws.length).find? fun i => (wordAt ws i).toNat % 4096 != 0

/-- The granules of entries that lie in the memory class, mapped by f. -/
def mapGranules (f : Nat → Option Nat) : List Word → Except Trp (List Nat)
  | [] => .ok []
  | e :: r =>
    match (f e.toNat).filter fun ia => iaClass ia == 0 with
    | none => .error (badItem .taskBadGranule e)
    | some ia =>
      match mapGranules f r with
      | .error t => .error t
      | .ok l => .ok (ia :: l)

/-- The granule list of a TYPE 0x2 item, read at an address of which listIa gives the intermediate one (10 R266). -/
def Mach.granuleList (m : Mach) (g : Agent) (ws : List Word) (listIa : Nat → Nat → Option Nat) (map : Nat → Option Nat) :
    Mach × Except Trp (List Nat) :=
  let nr := itemNr ws
  let nw := itemNw ws
  let gl := (wordAt ws 1).toNat
  if 16 < nr ∨ 16 < nw ∨ (wordAt ws 0).toNat % 4 ≠ 0 then (m, .error (badItem .taskBadItem 0))
  else if nr + nw = 0 then (m, .ok [])
  else if gl % 8 ≠ 0 then (m, .error (badItem .taskBadItem 0))
  else
    match listIa gl (8 * (nr + nw)) with
    | none => (m, .error (badItem .memRange (W gl)))
    | some ia =>
      match Mach.iaWords g (nr + nw) gl ia m with
      | (m1, .error t) => (m1, .error t)
      | (m1, .ok es) =>
        match oddGranule es with
        | some i => (m1, .error (badItem .taskBadItem (W i)))
        | none => (m1, mapGranules map es)

/-- The place of an IA as its page table gives it: none for a scratchpad or an address that does not translate. -/
def Mach.placeOf (m : Mach) (asid ia : Nat) : Option Place :=
  if iaClass ia = 0 then
    match m.walk asid ia with
    | .ok lf => some (m.leafPlace lf ia)
    | .error _ => none
  else none

/-- Whether a granule's page is of another class than HBM (10 R259). -/
def Mach.offHbm (m : Mach) (asid ia : Nat) : Bool :=
  match m.placeOf asid ia with
  | some (.hbm _ _) => false
  | some _ => true
  | none => false

/-- The granules of an item that an agent enqueues; none to read for other types (10 R266). -/
def Mach.enqGranules (m : Mach) (g : Agent) (ws : List Word) : Mach × Except Trp (List Nat) :=
  if itemType ws = 2 then
    m.granuleList g ws (fun va n => mapVa g.ranges va n true false false)
      (fun va => ((covering g.ranges va 4096).map fun i => rangeIa g.ranges i va).filter fun ia => !m.offHbm g.asid ia)
  else (m, .ok [])

/-! ## The dependence table (10 R267, R268) -/

/-- Whether two lists of granules meet. -/
def meets (a b : List Nat) : Bool := a.any fun x => b.contains x

/-- Whether two tasks may name one granule: a granule is a page of an address space (10 R268; log 129). -/
def TdtEnt.near (t e : TdtEnt) : Bool := !t.noEdges && t.asid == e.asid

/-- The tasks of the same table that were submitted before entry id. -/
def Mach.earlier (m : Mach) (e : TdtEnt) : List TdtEnt :=
  (m.tdt.takeWhile fun t => t.id != e.id).filter fun t => t.die == e.die

/-- The entry of a task. -/
def Mach.entOf (m : Mach) (id : Option Nat) : Option TdtEnt :=
  match id with
  | some n => m.tdt.find? fun t => t.id == n
  | none => none

/-- Whether an earlier task whose write this task reads has not committed (10 R268). -/
def Mach.tdtReady (m : Mach) (e : TdtEnt) : Bool :=
  e.noEdges || !((m.earlier e).any fun t => t.near e && meets t.writes e.reads)

/-- Whether the task's commit may begin (10 R268). -/
def Mach.tdtCommit (m : Mach) (e : TdtEnt) : Bool :=
  e.noEdges || !((m.earlier e).any fun t => t.near e && (meets t.writes e.writes || meets t.reads e.writes))

/-- The entries a die's table holds. -/
def Mach.tdtUsed (m : Mach) (d : Nat) : Nat := ((m.tdt.filter fun t => t.die == d).map fun t => t.size).sum

/-- Whether an item is ready (10 R267): a plain item is; a task under R268, and in a deterministic phase at once (16 R348); a
task whose page is still to come is not (13 R314), and a bad item never is. -/
def Mach.itemReady (m : Mach) (det : Bool) (it : QItem) : Bool :=
  !it.bad && it.hold.isNone &&
    match m.entOf it.ent with
    | some e => det || m.tdtReady e
    | none => true

/-! ## Queues -/

/-- Full slots of a queue's ring. -/
def WQ.len (w : WQ) : Nat := (w.tail - w.head).toNat

/-- The queue has stopped or been reset: every DEQ and ENQ that waits on it, or is on its way, faults (17 R357). -/
def Mach.failQueue (m : Mach) (q : Nat) (c : Cause) : Mach :=
  let on (w : Waiter) : Bool :=
    match w.kind with
    | .deq n => n == q
    | .enq n _ _ => n == q
    | _ => false
  (m.waiters.filter on).foldl (fun m w => m.failWait w.who w.kept c 0) m

/-- The queue enters ERROR in the action that makes a bad item its head (17 R356). -/
def Mach.wqCheck (m : Mach) (q : Nat) : Mach :=
  let w := m.wqAt q
  match w.items with
  | it :: _ =>
    if it.bad && (w.state == 1 || w.state == 2) then
      (m.updWq q fun w => { w with prev := w.state, state := 3 }).failQueue q .syncQueueError
    else m
  | [] => m

/-- The items of a queue laid into the slots of its ring from its head on. -/
def Mach.poolSync (m : Mach) (q n : Nat) : Mach :=
  let w := m.wqAt q
  ((w.items.take n).zipIdx).foldl
    (fun m p => m.poolWrite (bits w.cfg.toNat 49 47) (w.slotOff (w.head + BitVec.ofNat 32 p.2)) (bytesOfWords p.1.words)) m

/-- Item i leaves its queue: HEAD rises by 1, and the items it passed move up one slot (10 R267; log 40). -/
def Mach.wqTake (m : Mach) (q i : Nat) : Mach :=
  let m1 := m.updWq q fun w => { w with items := w.items.eraseIdx i, head := w.head + 1 }
  ((m1.poolSync q i).wqSettle q).wqCheck q

/-- An item is appended, and a task registered in the table of the queue's die (10 R267). -/
def Mach.wqPlace (m : Mach) (q : Nat) (words : List Word) (grans : List Nat) (bad det : Bool) : Mach :=
  let w := m.wqAt q
  let task := itemType words == 2
  let d := bits w.cfg.toNat 49 47
  let ent : TdtEnt :=
    { id := m.nextId, die := d, queue := q, tid := BitVec.ofNat 48 (itemTid words), reads := grans.take (itemNr words),
      writes := grans.drop (itemNr words), asid := bits w.cfg.toNat 63 50, size := if bad then 1 else 1 + itemNr words + itemNw words, st := 0,
      noEdges := det }
  let m1 : Mach := if task then { m with tdt := m.tdt ++ [ent], nextId := m.nextId + 1 } else m
  let it : QItem :=
    { words := words, ent := if task then some ent.id else none,
      bad := bad || (itemType words != 1 && itemType words != 2), hold := none }
  let m2 := (m1.updWq q fun w => { w with items := w.items ++ [it], tail := w.tail + 1 }).poolWrite d (w.slotOff w.tail)
    (bytesOfWords words)
  let m3 : Mach := { m2 with phase := m2.phase.map fun ph => if det then ph else { ph with outside := ph.outside ++ [(q, it)] } }
  m3.wqCheck q

/-- DEQ and ENQ of a phase's workers are recorded (16 R349). -/
def Mach.traffic (m : Mach) (det : Bool) (q : Nat) (enq : Bool) (words : List Word) : Mach :=
  { m with phase := m.phase.map fun ph => if det then { ph with traffic := ph.traffic ++ [(q, enq, words)] } else ph }

/-- The checks of R199 that a queue's home makes, after its number. -/
def Mach.queueGate (m : Mach) (asid q : Nat) : Option Cause :=
  let w := m.wqAt q
  if bits w.cfg.toNat 63 50 ≠ asid then some .syncQueuePerm
  else if w.state = 0 then some .syncQueueState
  else if w.state = 3 then some .syncQueueError
  else none

/-- The oldest ready item of a queue for a DEQ (10 R267). -/
def Mach.readyItem (m : Mach) (q : Nat) (det : Bool) : Option Nat :=
  let w := m.wqAt q
  if w.state = 1 ∨ w.state = 2 then
    (rangeFrom 0 w.items.length).find? fun i => match w.items[i]? with
      | some it => m.itemReady det it
      | none => false
  else none

/-- A DEQ of an owner as its queue's home serves it: the words it delivers, and the device after. A task taken is the
owner's, and its entry leaves the queued state; a closed queue with no item delivers zeros (07 R199). -/
def Mach.deqServe (m : Mach) (o : Owner) (q : Nat) (det : Bool) : Option (List Word × Mach) :=
  let w := m.wqAt q
  match m.readyItem q det with
  | some i =>
    (match w.items[i]? with
     | none => none
     | some it =>
       let m1 := (m.wqTake q i).traffic det q false it.words
       let mark (e : TdtEnt) : TdtEnt := if it.ent = some e.id then { e with st := 1, noEdges := e.noEdges || det } else e
       let m2 : Mach := { m1 with tdt := m1.tdt.map mark }
       let t : TaskRef := { tid := BitVec.ofNat 48 (itemTid it.words), queue := q, item := it.words, ent := it.ent }
       some (it.words, if itemType it.words = 2 then m2.updOwner o (fun x => { x with tasks := t :: x.tasks }) else m2))
  | none =>
    if w.state = 2 ∧ w.items = [] then some (List.replicate 8 0, m.traffic det q false (List.replicate 8 0)) else none

/-- Whether a queue accepts an item now: it is open, its ring has a slot and its die's table the entries (10 R267). -/
def Mach.enqRoom (m : Mach) (q : Nat) (words : List Word) : Bool :=
  let w := m.wqAt q
  w.state == 1 && decide (w.len < w.cap) && w.requeue.isEmpty &&
    (itemType words != 2 || decide (m.tdtUsed (bits w.cfg.toNat 49 47) + 1 + itemNr words + itemNw words ≤ 65536))

/-- An item as its queue's home accepts it. -/
def Mach.enqServe (m : Mach) (q : Nat) (words : List Word) (grans : List Nat) (det : Bool) : Mach :=
  (m.wqPlace q words grans false det).traffic det q true words

/-- Whether an earlier DEQ waits on a queue. -/
def Mach.deqBusy (m : Mach) (q : Nat) : Bool :=
  m.waiters.any fun w => match w.kind with
    | .deq n => n == q
    | _ => false

/-- Whether an earlier ENQ waits on a queue. -/
def Mach.enqBusy (m : Mach) (q : Nat) : Bool :=
  m.waiters.any fun w => match w.kind with
    | .enq n _ _ => n == q
    | _ => false

/-! ## DEQ and ENQ (07 R199, R200) -/

/-- The eight words of DEQ, written to a group of registers when its answer comes. -/
def State.putGroup (s : State) (k : Nat) (ws : List Word) : State :=
  ws.zipIdx.foldl (fun s p => s.putLate .held (.s (BitVec.ofNat 6 (8 * k + p.2))) p.1 0) s

/-- DEQ is an acquire of device scope (07 R203). -/
def State.deqDone (s : State) (k : Nat) (ws : List Word) : State :=
  (s.upd fun m => m.dropCache s.iss.core).putGroup k ws

/-- DEQ. -/
def execDeq (k : BitVec 3) (a : Src) (s : State) : Out :=
  if s.inRegion then .next (s.trap .regionIllegalOp 0)
  else
    s.withSrcs [a] fun t =>
      let q := (s.src a).toNat
      let t := t.latch lENG false (s.src a)
      match s.granted with
      | some ws =>
        .next (if s.waitDone then t.endWait.deqDone k.toNat [] else t.endWait.deqDone k.toNat ws)
      | none =>
        if Config.nWq ≤ q then .next (s.trap .syncQueueRange 0)
        else
          match s.pre.queueGate s.xp.asid q with
          | some c => .next (s.trap c 0)
          | none =>
            match (if s.pre.deqBusy q then none else t.drained.m.deqServe s.owner q s.det) with
            | some (ws, m1) => .next (({ t with m := m1 } : State).deqDone k.toNat ws)
            | none => .next (s.waitFor (.deq q) 0 none none)

/-- The eight words of a group of registers. -/
def State.group8 (s : State) (k : Nat) : List Word := (rangeFrom (8 * k) 8).map s.xp.sreg

/-- The outcome of a fault met while an item is checked. -/
def State.itemFault (s : State) (t : Trp) : State :=
  match t.viol with
  | some v => s.memFault t v.ia
  | none => s.trap t.cause t.val

/-- ENQ: a release. A buffered one has its item's granules checked at its commit (07 R208, 10 R266; log 41). -/
def execEnq (a : Src) (k : BitVec 3) (s : State) : Out :=
  s.withSrcs [a] fun t =>
    let q := (s.src a).toNat
    let ws := s.group8 k.toNat
    let t := t.latch lENG false (s.src a)
    match s.granted with
    | some _ => .next t.endWait.drained
    | none =>
      if Config.nWq ≤ q then .next (s.trap .syncQueueRange 0)
      else
        match s.pre.queueGate s.xp.asid q with
        | some c => .next (s.trap c 0)
        | none =>
          if ws.all fun w => w == 0 then .next (s.trap .syncQueueItem 0)
          else if (s.pre.wqAt q).state = 2 then .next (s.trap .syncQueueClosed 0)
          else if s.inRegion then .next (t.buffer 0 0 (s.src a) q ws)
          else
            match t.drained.m.enqGranules (s.pre.agent s.iss.core s.iss.fw) ws with
            | (_, .error f) => .next (s.itemFault f)
            | (m1, .ok gs) =>
              if m1.enqRoom q ws && !s.pre.enqBusy q then .next { t with m := m1.enqServe q ws gs s.det }
              else .next (s.waitFor (.enq q ws gs) 0 none none)

/-! ## The registers of work queues (12 R294, R295) -/

/-- The queue that WQSEL of the issuing core names. -/
def State.wqNo (s : State) : Nat := s.kp.wqSel.toNat % Config.nWq

/-- Every item of a list leaves the dependence table. -/
def Mach.dropItems (m : Mach) (l : List QItem) : Mach := l.foldl (fun m it => m.dropEnt it.ent) m

/-- WQCTL command OPEN. -/
def execWqOpen (s : State) : Out :=
  let q := s.wqNo
  let w := s.pre.wqAt q
  if w.state = 0 then
    .next (s.upd fun m => m.updWq q fun w => { w with state := 1, head := 0, tail := 0, items := [], requeue := [] })
  else if w.state = 2 then .next (s.upd fun m => m.updWq q fun w => { w with state := 1 })
  else .next (s.trap .syncQueueState 0)

/-- WQCTL command CLOSE: an ENQ that waits for room raises SYNC_QUEUE_CLOSED (log 42). -/
def execWqClose (s : State) : Out :=
  let q := s.wqNo
  if (s.pre.wqAt q).state = 1 then
    .next (s.upd fun m =>
      let m1 := m.updWq q fun w => { w with state := 2 }
      (m1.waiters.filter fun w => match w.kind with
        | .enq n _ _ => n == q
        | _ => false).foldl (fun m w => m.failWait w.who w.kept .syncQueueClosed 0) m1)
  else .next (s.trap .syncQueueState 0)

/-- WQCTL command RESET. -/
def execWqReset (s : State) : Out :=
  let q := s.wqNo
  .next (s.upd fun m =>
    let w := m.wqAt q
    ((m.dropItems (w.items ++ w.requeue)).updWq q fun w => { w with state := 0, items := [], requeue := [] }).failQueue q
      .syncQueueState)

/-- WQCTL command RESTART: an index outside HEAD to TAIL raises ILLEGAL_OPERAND. -/
def execWqRestart (arg : BitVec 32) (s : State) : Out :=
  let q := s.wqNo
  let w := s.pre.wqAt q
  let n := (arg - w.head).toNat
  if w.state ≠ 3 then .next (s.trap .syncQueueState 0)
  else if w.len < n then .next (s.trap .illegalOperand 0)
  else
    .next (s.upd fun m =>
      (((m.dropItems (w.items.take n)).updWq q fun w =>
        { w with items := w.items.drop n, head := arg, state := w.prev }).wqSettle q).wqCheck q)

/-- One item that a TAIL write places (12 R294, 10 R266): its words lie in the pool, its list is read in the queue's address
space, and one that fails is registered as failing, with no granules. -/
def Mach.placeItem (m : Mach) (q c : Nat) : Mach :=
  let w := m.wqAt q
  let d := bits w.cfg.toNat 49 47
  let ws := wordsOfBytes 8 ((m.pool.get Mem.empty d).read (w.slotOff w.tail) 64)
  if itemType ws = 2 then
    let g : Agent :=
      { core := c, fw := true, asid := bits w.cfg.toNat 63 50, ranges := Tab.empty, res := { self := (c, 0), team := [] } }
    let inMem (ia : Nat) : Option Nat := if iaClass ia = 0 then some ia else none
    let granule (ia : Nat) : Option Nat := (inMem ia).filter fun i => !m.offHbm g.asid i
    match m.granuleList g ws (fun ia n => if iaClass (ia + n - 1) = 0 then inMem ia else none) granule with
    | (m1, .ok gs) => m1.wqPlace q ws gs false false
    | (m1, .error t) =>
      let m2 := match t.viol with
        | some v => m1.logViol v
        | none => m1
      m2.wqPlace q ws [] true false
  else m.wqPlace q ws [] false false

/-- n items placed one after another. -/
def Mach.placeItems (q c : Nat) : Nat → Mach → Mach
  | 0, m => m
  | n + 1, m => Mach.placeItems q c n (m.placeItem q c)

/-- A write of WQIDX.TAIL (12 R294): items that the pool already holds are placed; a lower TAIL takes back the last ones.
In OFF the register takes the value and nothing is placed; a TAIL more than 2^LOG past HEAD is ignored (log 43). -/
def execWqTailWrite (tail : BitVec 32) (s : State) : Out :=
  let q := s.wqNo
  let w := s.pre.wqAt q
  let n := (tail - w.head).toNat
  if w.state = 0 then .next (s.upd fun m => m.updWq q fun w => { w with tail := tail })
  else if w.cap < n then .next s
  else if w.len ≤ n then .next (s.upd fun m => Mach.placeItems q s.iss.core (n - w.len) m)
  else
    .next (s.upd fun m => (m.dropItems (w.items.drop n)).updWq q fun w => { w with items := w.items.take n, tail := tail })

/-- A write of WQCFG (12 R294): in OFF only; a LOG out of range stores 4. -/
def State.wqCfgWrite (s : State) (v : Word) : State :=
  let q := s.wqNo
  if (s.pre.wqAt q).state ≠ 0 then s.trap .syncQueueBusy 0
  else
    let lg := bits v.toNat 46 42
    let l := if 4 ≤ lg ∧ lg ≤ 16 then lg else 4
    let r := W (bits v.toNat 63 47 * 2 ^ 47 + l * 2 ^ 42 + bits v.toNat 17 0)
    s.upd fun m => m.updWq q fun w => { w with cfg := r }

end Sys2Proof.Machine
end

