-- ==== Sys2Proof/Machine/Copies.lean ====
section
/-!
DEFINITION. Block copies and streams (07 R182 to R189, 08 R233 to R235): the layout record, the accesses of engine threads to
memory and scratchpads (with the diversion of 15 R335), landing, completion and stop, and CPY, CPYT, SBIND, SADV.
-/
namespace Sys2Proof.Machine

/-! ## Accesses of engine threads (15 R335, R338) -/

/-- Whether a core's scratchpad accepts an access of an epoch: it is open, and the epoch is its own (15 R335). -/
def Mach.accepts (m : Mach) (c e : Nat) : Bool := !(m.core c).closed && (m.core c).epoch == e

/-- The IA at which a member's image keeps its scratchpad (15 R334). -/
def imgSpad (w : Word) : Nat := swimgIa w + 0x242000

/-- Bytes read through the firmware's address space; none where the address does not translate. -/
def Mach.fwRead (m : Mach) (ia n : Nat) : Mach × Option (List Byte) :=
  match m.translate 0 ia .load with
  | (m1, .ok p) => let (m2, bs) := m1.readPlace p n; (m2, some bs)
  | (m1, .error _) => (m1, none)

/-- Whether the descriptor in a member's image names n bytes at a scratchpad offset: one of its NRANGE ranges holds them
(15 R330, R334). -/
def descNames (d : List Word) (off n : Nat) : Bool :=
  (rangeFrom 0 (bits (wordAt d 5).toNat 3 0)).any fun j =>
    let w := (wordAt d (6 + j)).toNat
    decide (w % 2 ^ 32 ≤ off) && decide (off + n ≤ w % 2 ^ 32 + w / 2 ^ 32)

/-- One piece of an absent member's scratchpad: the bytes of its image that the descriptor d names, the others zero (15 R338; log 44). -/
def Mach.awayPiece (m : Mach) (x : SuspMember) (d : List Word) (off n : Nat) : Mach × List Byte :=
  match m.fwRead (imgSpad x.swimg + off) n with
  | (m1, some bs) => (m1, bs.zipIdx.map fun p => if descNames d (off + p.2) 1 then p.1 else 0)
  | (m1, none) => (m1, List.replicate n 0)

/-- Scratchpad bytes of an absent member as an engine reads them: its image's where its descriptor names them, else zeros
(15 R338; log 44). -/
def Mach.readAway (m : Mach) (x : SuspMember) (off n : Nat) : Mach × List Byte :=
  let zeros := List.replicate n 0
  match m.fwRead (swimgIa x.swimg + 0x720) 64 with
  | (m1, none) => (m1, zeros)
  | (m1, some d0) =>
    match m1.fwRead (swimgIa x.swimg + 0x760) 64 with
    | (m2, none) => (m2, zeros)
    | (m2, some d1) =>
      let d := wordsOfBytes 16 (d0 ++ d1)
      (rowPieces (n / 64 + 2) off zeros).foldl
        (fun r p => let (m3, bs) := r.1.awayPiece x d p.1 p.2.length; (m3, r.2 ++ bs)) (m2, [])

/-- Bytes of a scratchpad as an engine thread of an epoch reads them. An epoch that a diversion entry forwards is read at the
core that it names (15 R335). The number bounds the chain of forwardings. -/
def Mach.engSpadRead (off n : Nat) : Nat → Nat → Nat → Mach → Mach × Except Cause (List Byte)
  | 0, _, _, m => (m, .ok (List.replicate n 0))
  | i + 1, c, e, m =>
    if m.accepts c e then
      (if m.badSpad c off n then (m, .error .memUncorrectable) else (m, .ok (m.spadRead c off n)))
    else
      match (m.core c).divs.find? fun d => d.epoch == e && d.state == 3 with
      | some d => Mach.engSpadRead off n i d.newCore d.newEpoch m
      | none =>
        match m.awayAt c e with
        | some x => let (m1, bs) := m.readAway x off n; (m1, .ok bs)
        | none => if m.badSpad c off n then (m, .error .memUncorrectable) else (m, .ok (m.spadRead c off n))

/-- Bytes read by an engine thread at an intermediate address; they lie within one page. -/
def Mach.engRead (m : Mach) (asid : Nat) (res : Resolve) (acc : Acc) (ia n : Nat) : Mach × Except Cause (List Byte) :=
  match res.of (iaTarget ia) with
  | some (c, e, off) =>
    if off + n ≤ Config.spadBytes then Mach.engSpadRead off n 64 c e m else (m, .error .memTeamWindow)
  | none =>
    match iaTarget ia with
    | .mem ia =>
      (match m.translate asid ia acc with
       | (m1, .error c) => (m1, .error c)
       | (m1, .ok p) => let (m2, bs) := m1.readPlace p n; (m2, .ok bs))
    | _ => (m, .error .memTeamWindow)

/-- Whether an access of an engine thread is still on its way to a scratchpad, or waits there (15 R337). -/
def Mach.inFlight (m : Mach) (thread : Nat) : Bool := (m.arrivals ++ m.heldArr).any fun a => a.thread == thread

/-- Bytes within one 64-byte row of a scratchpad, written by an engine thread of an epoch: they land, or are on their way
to the core's diversion table (15 R335). -/
def Mach.engSpadWrite (m : Mach) (thread c e off : Nat) (bs : List Byte) : Mach :=
  if m.accepts c e then m.spadWrite c off bs else m.arriveBytes thread c e off bs

/-- The engine thread that a request belongs to; 0 for none. -/
def PeerFor.thread : PeerFor → Nat
  | .copy id _ => id
  | .sub id _ => id
  | _ => 0

/-- Bytes written by an engine thread at an intermediate address; they lie within one 64-byte row. The second result says
whether an answer of a peer is to come. -/
def Mach.engWrite (m : Mach) (asid : Nat) (res : Resolve) (acc : Acc) (ia : Nat) (bs : List Byte) (fo : PeerFor) :
    Mach × Except Cause Bool :=
  match res.of (iaTarget ia) with
  | some (c, e, off) =>
    if off + bs.length ≤ Config.spadBytes then (m.engSpadWrite fo.thread c e off bs, .ok false) else (m, .error .memTeamWindow)
  | none =>
    match iaTarget ia with
    | .mem ia =>
      (match m.translate asid ia acc with
       | (m1, .error c) => (m1, .error c)
       | (m1, .ok (.peer i a)) => (m1.peerRow i a bs fo, .ok true)
       | (m1, .ok p) => (m1.writePlace p bs, .ok false))
    | _ => (m, .error .memTeamWindow)

/-- A stamp written by an engine thread at an intermediate address; a memory side that refuses it logs the violation (13 R316). -/
def Mach.stampWrite (m : Mach) (g : Agent) (acc : Acc) (ia : Nat) (w : Word) : Mach :=
  match m.engWrite g.asid g.res acc ia (bytesOfWord 8 w) .store with
  | (m1, .ok _) => m1
  | (m1, .error c) => if iaClass ia = 0 then m1.logViol (m1.viol ia g.asid acc c g.core g.fw) else m1

/-- A barrier record's 16 bytes replaced by what f makes of them. -/
def Mach.onBar (m : Mach) (p : Place) (f : Bar → Bar) : Mach :=
  m.writePlace p (Bar.bytes (f (Bar.ofBytes (m.readPlace p 16).2)))

/-- Beats taken from a record by an engine thread (07 R186, R194); a record of an absent context takes them at the merge
(15 R336). A record whose address no longer translates takes nothing; its violation is logged (log 45). -/
def Mach.engBeats (m : Mach) (g : Agent) (ia n : Nat) (cerr : Bool) : Mach :=
  match g.res.of (iaTarget ia) with
  | some (c, e, off) =>
    if m.accepts c e then m.onBar (.spad c off) fun r => r.fall n cerr
    else { m with arrivals := m.arrivals ++ [{ core := c, epoch := e, thread := 0, kind := .beats off n cerr }] }
  | none =>
    match m.translate g.asid ia .atomic with
    | (m1, .ok (.hbm d o)) => m1.onBar (.hbm d o) fun r => r.fall n cerr
    | (m1, .ok _) => m1
    | (m1, .error c) => m1.logViol (m1.viol ia g.asid .atomic c g.core g.fw)

/-! ## The layout record (07 R182) -/

/-- Raw elements. -/
def rawFmt : Fmt := { typ := .raw, inf := false, sat := false }
/-- The format that a code names; a reserved code, which ILLEGAL_FORMAT refuses after the checks that need a width, counts as raw (log
123). -/
def fmtOfCode (c : Nat) : Fmt := (Fmt.dec (BitVec.ofNat 8 c)).getD rawFmt
/-- SFMT. -/
def cSfmt (d : List Word) : Nat := bits (wordAt d 7).toNat 7 0
/-- DFMT. -/
def cDfmt (d : List Word) : Nat := bits (wordAt d 7).toNat 15 8
/-- ws. -/
def cWs (d : List Word) : Nat := (fmtOfCode (cSfmt d)).bytes
/-- wd. -/
def cWd (d : List Word) : Nat := (fmtOfCode (cDfmt d)).bytes
/-- N0. -/
def cN0 (d : List Word) : Nat := bits (wordAt d 2).toNat 31 0
/-- N1. -/
def cN1 (d : List Word) : Nat := max 1 (bits (wordAt d 2).toNat 47 32)
/-- N2. -/
def cN2 (d : List Word) : Nat := max 1 (bits (wordAt d 2).toNat 63 48)
/-- The middle stride of word w. -/
def cStr1 (d : List Word) (w : Nat) : Int := sgn 32 (wordAt d w).toNat
/-- The outer stride of word w. -/
def cStr2 (d : List Word) (w : Nat) : Int := sgn 32 ((wordAt d w).toNat / 2 ^ 32)
/-- The beats of a row. -/
def cRowBeats (d : List Word) : Nat := ceilDiv (cN0 d * cWd d) 64
/-- The beats of a copy (07 R183). -/
def cBeats (d : List Word) : Nat := cN1 d * cN2 d * cRowBeats d
/-- The elements of a copy. -/
def cTotal (d : List Word) : Nat := cN0 d * cN1 d * cN2 d

/-- The virtual address of element i of one end: its base, its width, the word of its strides (07 R183). -/
def cAddr (d : List Word) (base : Word) (w sw i : Nat) : Word :=
  let e0 := i % cN0 d
  let e1 := i / cN0 d % cN1 d
  let e2 := i / cN0 d / cN1 d
  base + BitVec.ofInt 64 ((e0 * w : Nat) + e1 * cStr1 d sw + e2 * cStr2 d sw)

/-- The beats whose bytes have landed once n elements have. -/
def cLanded (d : List Word) (n : Nat) : Nat :=
  if cN0 d = 0 then 0
  else
    let rows := n / cN0 d
    rows * cRowBeats d + n % cN0 d * cWd d / 64

/-- An element converted (02 R62): the destination element's bytes. -/
def convElem (sf df : Nat) (bs : List Byte) : List Byte :=
  let s := fmtOfCode sf
  let t := fmtOfCode df
  if sf = df ∨ (s.typ = .raw ∧ t.typ = .raw) then bs
  else if s.typ = .raw ∨ t.typ = .raw then (bs ++ List.replicate t.bytes 0).take t.bytes
  else bytesOfNat t.bytes (fmtConv s t false false (natOfBytes bs)).val

/-- The lowest and highest byte of one end, as offsets from its base (07 R185). -/
def cSpan (d : List Word) (w sw : Nat) : Int × Int :=
  let a := (cN1 d - 1 : Nat) * cStr1 d sw
  let b := (cN2 d - 1 : Nat) * cStr2 d sw
  (min 0 a + min 0 b, max 0 a + max 0 b + (cN0 d * w : Nat) - 1)

/-! ## Landing -/

/-- The issuing context of a copy as an agent; its range registers are not read again. -/
def Copy.agent (k : Copy) : Agent := { core := k.core, fw := k.fw, asid := k.asid, ranges := Tab.empty, res := k.res }

/-- A copy of the device. -/
def Mach.copyOf (m : Mach) (id : Nat) : Option Copy := m.copies.find? fun k => k.id == id

/-- The device with f applied to a copy. -/
def Mach.updCopy (m : Mach) (id : Nat) (f : Copy → Copy) : Mach :=
  { m with copies := m.copies.map fun k => if k.id = id then f k else k }

/-- A copy leaves the device. -/
def Mach.dropCopy (m : Mach) (id : Nat) : Mach := { m with copies := m.copies.filter fun k => k.id != id }

/-- The fault of a copy at an address. -/
def Mach.copyTrp (m : Mach) (k : Copy) (va : Word) (ia : Nat) (acc : Acc) (c : Cause) : Trp :=
  m.agentTrp k.agent va.toNat ia acc c

/-- n source elements from element i on (07 R183), each read at its home. -/
def Mach.copyRead (k : Copy) : Nat → Nat → Mach → Mach × Except Trp (List (List Byte))
  | 0, _, m => (m, .ok [])
  | n + 1, i, m =>
    let va := cAddr k.desc (wordAt k.desc 0) (cWs k.desc) 3 i
    let ia := (va + k.srcDelta).toNat
    match m.engRead k.asid k.res .copyRd ia (cWs k.desc) with
    | (m1, .error c) => (m1, .error (m1.copyTrp k va ia .copyRd c))
    | (m1, .ok bs) =>
      match Mach.copyRead k n (i + 1) m1 with
      | (m2, .error t) => (m2, .error t)
      | (m2, .ok r) => (m2, .ok (bs :: r))

/-- Bytes that a copy of an open region writes to memory: they go to the renamed granule (10 R269). -/
def Mach.regionPut (m : Mach) (c : Nat) (fw : Bool) (va : Word) (ia : Nat) (bs : List Byte) : Mach × Except Trp Bool :=
  match (m.ctx c fw).region with
  | none => (m, .ok false)
  | some r =>
    match r.slotOf ia with
    | none => (m, .error { cause := .taskUndeclaredWrite, val := va, viol := none })
    | some j =>
      match m.translate (m.ctx c fw).asid ia .copyWr with
      | (_, .error e) => (m, .error { cause := e, val := va, viol := some (m.viol ia (m.ctx c fw).asid .copyWr e c fw) })
      | (_, .ok (.hbm _ _)) =>
        ((m.updCtx c fw fun x => { x with region := x.region.map fun r => r.store j ia bs }).fwWrite (r.slotIa j ia) bs, .ok false)
      | (_, .ok _) => (m, .error { cause := .memClass, val := va, viol := some (m.viol ia (m.ctx c fw).asid .copyWr .memClass c fw) })

/-- Bytes that a copy writes at an address, within one 64-byte row. -/
def Mach.copyWrite (m : Mach) (k : Copy) (va : Word) (ia : Nat) (bs : List Byte) : Mach × Except Trp Bool :=
  if k.inRegion && iaClass ia == 0 then m.regionPut k.core k.fw va ia bs
  else
    match m.engWrite k.asid k.res .copyWr ia bs (.copy k.id ia) with
    | (m1, .error c) => (m1, .error (m1.copyTrp k va ia .copyWr c))
    | (m1, .ok b) => (m1, .ok b)

/-- The stream of the context that made a binding, wherever it is, with f applied; an absent one is kept in its image too
(15 R338). -/
def Mach.updStream (m : Mach) (k : Copy) (q : Nat) (f : Stream → Stream) : Mach :=
  let m1 := m.updOwner k.owner fun x => { x with q := x.q.put q (f (x.stream q)) }
  match m.homeOf k.owner, k.owner with
  | none, .worker l i =>
    (match m1.suspMember l i with
     | some x => m1.imgStream x.swimg q (x.kept.stream q)
     | none => m1)
  | _, _ => m1

/-- The stream of a binding, wherever its context is. -/
def Mach.streamOf (m : Mach) (k : Copy) (q : Nat) : Stream :=
  match m.ctxOf k.owner with
  | some x => x.stream q
  | none => Stream.reset

/-- The drains of a binding's core take what its stream holds (05 R148). -/
def Mach.feedOwner (m : Mach) (o : Owner) : Mach :=
  match m.homeOf o with
  | some (c, _) => m.updCore c Core.feed
  | none => m

/-- The elements from element i on whose destination bytes lie in one row of the copy and one 64-byte row of memory. -/
def cChunk (k : Copy) (i : Nat) : Nat :=
  let d := k.desc
  match k.kind with
  | .sbind _ => 1
  | _ =>
    let a := ((cAddr d (wordAt d 1) (cWd d) 4 i) + k.dstDelta).toNat
    max 1 (min (cN0 d - i % cN0 d) ((64 - a % 64) / cWd d))

/-- A copy that a fault stops (07 R187); COPY_STOP does the rest. -/
def Mach.failCopy (m : Mach) (k : Copy) (t : Trp) : Mach := m.updCopy k.id fun k => { k with st := .failed t }

/-- The beats whose bytes have landed fall from a copy's record (07 R186): none while a WRITE frame of the copy is unanswered, or while a
row of it is on its way to a closed scratchpad. -/
def Mach.settleBeats (m : Mach) (id : Nat) : Mach :=
  match m.copyOf id with
  | none => m
  | some k =>
    if k.inRegion ∨ k.waitTags ≠ 0 ∨ m.inFlight id ∨ k.moved = cTotal k.desc then m
    else
      let b := cLanded k.desc k.moved - k.beatsDone
      let m1 := m.updCopy id fun k => { k with beatsDone := k.beatsDone + b }
      match k.barIa with
      | some ia => if b = 0 then m1 else m1.engBeats k.agent ia b false
      | none => m1

/-- n elements of a copy have landed, or are on their way to a peer: it moves on. -/
def Mach.landed (m : Mach) (k : Copy) (n : Nat) : Mach :=
  (m.updCopy k.id fun k => { k with moved := k.moved + n }).settleBeats k.id

/-- The next elements of a copy that is moving land, up to one row of 64 destination bytes; a stream takes one element, and
none while its FIFO holds 64 (07 R188). A copy one of whose rows waits to be diverted waits with it (15 R337). -/
def Mach.land1 (m : Mach) (id : Nat) : Mach :=
  match m.copyOf id with
  | none => m
  | some k =>
    if k.st = .active ∧ k.moved < cTotal k.desc ∧ !m.inFlight id then
      let n := cChunk k k.moved
      match k.kind with
      | .sbind q =>
        if 64 ≤ (m.streamOf k q).fifo.length then m
        else
          (match Mach.copyRead k 1 k.moved m with
           | (m1, .error t) => m1.failCopy k t
           | (m1, .ok es) =>
             let e := wordOfBytes (es.flatMap fun bs => convElem (cSfmt k.desc) (cDfmt k.desc) bs)
             ((m1.updStream k q fun s => { s with fifo := s.fifo ++ [e] }).landed k 1).feedOwner k.owner)
      | _ =>
        (match Mach.copyRead k n k.moved m with
         | (m1, .error t) => m1.failCopy k t
         | (m1, .ok es) =>
           let bs := es.flatMap fun bs => convElem (cSfmt k.desc) (cDfmt k.desc) bs
           let va := cAddr k.desc (wordAt k.desc 1) (cWd k.desc) 4 k.moved
           match m1.copyWrite k va (va + k.dstDelta).toNat bs with
           | (m2, .error t) => m2.failCopy k t
           | (m2, .ok peer) =>
             (if peer then m2.updCopy k.id fun k => { k with waitTags := k.waitTags + 1 } else m2).landed k n)
    else m

/-- Landing, n times. -/
def Mach.landN (id : Nat) : Nat → Mach → Mach
  | 0, m => m
  | n + 1, m => Mach.landN id n (m.land1 id).wakeObjs

/-! ## Completion and stop -/

/-- The stamp of a copy: ERR and its sequence number (07 R186). -/
def Copy.stampWord (k : Copy) (err : Bool) : Word := W (b2n err * 2 ^ 63 + k.seq.toNat % 2 ^ 63)

/-- A stream binding ends: no element is to come (07 R188). -/
def Mach.endStream (m : Mach) (k : Copy) : Mach :=
  match k.kind with
  | .sbind q => m.updStream k q fun s => if s.copy = k.id then { s with complete := true } else s
  | _ => m

/-- The stop of a copy (07 R187): stamp with ERR, the remaining beats and CERR, the violation, and the held fault. Inside an
open region the fault aborts the task instead (07 R208). -/
def Mach.stopCopy (m : Mach) (k : Copy) (t : Trp) : Mach :=
  let m1 := match t.viol with
    | some v => m.logViol v
    | none => m
  if k.inRegion then
    (m1.dropCopy k.id).abortRegion k.core k.fw t (match t.viol with
      | some v => v.ia
      | none => 0)
  else
    let m2 := match k.stampIa with
      | some ia => m1.stampWrite k.agent .copyWr ia (k.stampWord true)
      | none => m1
    let m3 := match k.barIa with
      | some ia => m2.engBeats k.agent ia (cBeats k.desc - k.beatsDone) true
      | none => m2
    ((m3.endStream k).dropCopy k.id).holdFault k.owner (Cause.code .engCopyError) k.seq

/-- A complete copy (07 R186): the stamp, then the last beats, which wait for a stamp that is on its way to a closed scratchpad (15 R337).
A stamp whose write faults ends the copy as a stop does (log 46). -/
def Mach.finishCopy (m : Mach) (k : Copy) : Mach :=
  let done (m : Mach) : Mach :=
    let m1 := match k.barIa with
      | some ia => if k.inRegion then m else m.engBeats k.agent ia (cBeats k.desc - k.beatsDone) false
      | none => m
    (m1.endStream k).dropCopy k.id
  match k.stampIa with
  | none => done m
  | some ia =>
    match m.copyWrite k (wordAt k.desc 5) ia (bytesOfWord 8 (k.stampWord false)) with
    | (m1, .error t) => m1.stopCopy { k with stampIa := none } t
    | (m1, .ok _) => if m1.inFlight k.id then m1.updCopy k.id fun k => { k with stampIa := none } else done m1

/-! ## Issue checks (07 R185) -/

/-- Where a copy's ends, its stamp and its record lie (07 R185). -/
structure CopyMap where
  src : Word
  dst : Word
  stamp : Option Nat
  bar : Option Nat
  deriving DecidableEq, Repr

/-- ALIGN_COPY of a layout record, with the address that fails; a misaligned stride is told by the base address of its end (log 124). -/
def alignCopy (d : List Word) : Option Word :=
  let off (w : Nat) (x : Int) : Bool := x % w != 0
  if (wordAt d 0).toNat % cWs d ≠ 0 ∨ off (cWs d) (cStr1 d 3) ∨ off (cWs d) (cStr2 d 3) then some (wordAt d 0)
  else if (wordAt d 1).toNat % cWd d ≠ 0 ∨ off (cWd d) (cStr1 d 4) ∨ off (cWd d) (cStr2 d 4) then some (wordAt d 1)
  else if (wordAt d 5).toNat % 8 ≠ 0 then some (wordAt d 5)
  else if (wordAt d 6).toNat % 16 ≠ 0 then some (wordAt d 6)
  else none

/-- The IA of an interval of virtual addresses that lies in one range with a permission. -/
def State.spanIa (s : State) (base : Word) (lo hi : Int) (wr : Bool) : Option Nat :=
  let a := (base.toNat : Int) + lo
  let b := (base.toNat : Int) + hi
  if a < 0 ∨ 2 ^ 64 ≤ b then none else mapVa s.xp.ranges a.toNat (b - a + 1).toNat (!wr) wr false

/-- Whether n bytes of the team window lie in one member of the issuing core's team (08 R217). -/
def State.inMember (s : State) (ia n : Nat) : Bool :=
  let o := ia - iaTeam
  decide (o / 0x200000 < s.kp.teamSize) && decide (o % 0x200000 + n ≤ Config.spadBytes)

/-- One end of a copy, its rows of rowb bytes at base plus multiples of the strides: the difference from virtual to
intermediate address, MEM_RANGE with its base address (log 124), or MEM_TEAM_WINDOW at the first row that has bytes outside every
member. -/
def State.endMap (s : State) (d : List Word) (base : Word) (w sw : Nat) (wr : Bool) : Except (Cause × Word) Word :=
  let (lo, hi) := cSpan d w sw
  match s.spanIa base lo hi wr with
  | none => .error (.memRange, base)
  | some ia =>
    let delta := W ia - (base + BitVec.ofInt 64 lo)
    if iaClass ia = 2 then
      let row (r : Nat) : Word := cAddr d base w sw (r * cN0 d)
      match (rangeFrom 0 (cN1 d * cN2 d)).find? fun r => !s.inMember (row r + delta).toNat (cN0 d * w) with
      | some r => .error (.memTeamWindow, row r)
      | none => .ok delta
    else .ok delta

/-- The IA of a stamp or record of n bytes; none for address 0. -/
def State.spotMap (s : State) (va : Word) (n : Nat) : Except (Cause × Word) (Option Nat) :=
  if va = 0 then .ok none
  else
    match s.target va.toNat n false true, mapVa s.xp.ranges va.toNat n false true false with
    | .error c, _ => .error (c, va)
    | .ok _, some ia => .ok (some ia)
    | .ok _, none => .error (.memRange, va)

/-- The address checks of a layout record. -/
def State.copyMap (s : State) (d : List Word) (stream : Bool) : Except (Cause × Word) CopyMap :=
  let src := if cN0 d = 0 then .ok 0 else s.endMap d (wordAt d 0) (cWs d) 3 false
  let dst := if cN0 d = 0 ∨ stream then .ok 0 else s.endMap d (wordAt d 1) (cWd d) 4 true
  match src, dst, s.spotMap (wordAt d 5) 8, s.spotMap (wordAt d 6) 16 with
  | .error e, _, _, _ => .error e
  | _, .error e, _, _ => .error e
  | _, _, .error e, _ => .error e
  | _, _, _, .error e => .error e
  | .ok a, .ok b, .ok c, .ok e => .ok { src := a, dst := b, stamp := c, bar := e }

/-- Whether a layout record breaks the rules of ENG_BAD_RECORD that its words show. -/
def badRecord (d : List Word) (stream : Bool) : Bool :=
  (wordAt d 7).toNat / 2 ^ 16 != 0 || decide (2 ^ 32 < cBeats d) || (stream && (wordAt d 1 != 0 || wordAt d 4 != 0))

/-- A copy's record gains its beats at the record's home, when the copy issues (07 R186). A home that may hold no record
raises ENG_BAD_RECORD (10 R259). -/
def Mach.raiseBeats (m : Mach) (g : Agent) (va : Word) (ia n : Nat) : Mach × Except Trp Unit :=
  match g.res.of (iaTarget ia) with
  | some (c, _, off) => (m.onBar (.spad c off) fun r => r.rise n, .ok ())
  | none =>
    match m.translate g.asid ia .atomic with
    | (m1, .ok (.hbm d o)) => (m1.onBar (.hbm d o) fun r => r.rise n, .ok ())
    | (m1, .ok _) => (m1, .error { cause := .engBadRecord, val := 0, viol := none })
    | (m1, .error c) => (m1, .error (m1.agentTrp g va.toNat ia .atomic c))

/-! ## Engines (08 R233) -/

/-- The I/O die that carries a place: 16 and 17 stand for I/O dies 0 and 1. -/
def Mach.ioDie (m : Mach) : Option Place → Option Nat
  | some (.host _) => some 16
  | some (.cxl _) => some 17
  | some (.peer i _) => some (16 + bits (m.peerMap.get 0 i).toNat 51 48 / 6)
  | _ => none

/-- The stack of a place in HBM. -/
def hbmDie : Option Place → Option Nat
  | some (.hbm d _) => some d
  | _ => none

/-- The near base die of a core. -/
def nearDie (c : Nat) : Nat := 2 * coreDie c + b2n (decide (3 ≤ coreRow c))

/-- The engine of a copy from one IA to another. -/
def Mach.engineOf (m : Mach) (c asid src dst : Nat) : Nat :=
  let p := m.placeOf asid src
  let q := m.placeOf asid dst
  ((m.ioDie p).orElse fun _ => (m.ioDie q).orElse fun _ => (hbmDie p).orElse fun _ => hbmDie q).getD (nearDie c)

/-- The engine a copy runs on. -/
def Mach.copyEngine (m : Mach) (k : Copy) : Nat :=
  m.engineOf k.core k.asid (wordAt k.desc 0 + k.srcDelta).toNat
    (match k.kind with
     | .sbind _ => iaOwn
     | _ => (wordAt k.desc 1 + k.dstDelta).toNat)

/-- The copies of an owner that have not begun to move data. -/
def Mach.queuedCopies (m : Mach) (o : Owner) : Nat := (m.copies.filter fun k => k.owner == o && k.st == .queued).length

/-- The copies in the timed buffer of an engine. -/
def Mach.timedCopies (m : Mach) (e : Nat) : Nat := (m.copies.filter fun k => k.st == .timed && m.copyEngine k == e).length

/-- Whether a copy finds its command queue or its timed buffer full (07 R184). -/
def Mach.copyFull (m : Mach) (o : Owner) (timed : Bool) (engine : Nat) : Bool :=
  if timed then decide (256 ≤ m.timedCopies engine) else decide (64 ≤ m.queuedCopies o)

/-! ## CPY, CPYT, SBIND (07 R184, R188) -/

/-- Whether a queued store writes some of n bytes at an intermediate address. -/
def StoreEnt.meets (res : Resolve) (ia n : Nat) (e : StoreEnt) : Bool :=
  match res.of (iaTarget ia) with
  | some (c, _, off) => e.hits c off n
  | none => false

/-- Whether a queued store overlaps bytes that a copy reads or writes: its rows, its stamp, its record (09 R249). -/
def Copy.hits (k : Copy) (e : StoreEnt) : Bool :=
  let d := k.desc
  let rows (base delta : Word) (w sw : Nat) : Bool :=
    (rangeFrom 0 (cN1 d * cN2 d)).any fun r => e.meets k.res (cAddr d base w sw (r * cN0 d) + delta).toNat (cN0 d * w)
  let dst := match k.kind with
    | .sbind _ => false
    | _ => rows (wordAt d 1) k.dstDelta (cWd d) 4
  (cN0 d != 0 && (rows (wordAt d 0) k.srcDelta (cWs d) 3 || dst)) || k.stampIa.any (fun ia => e.meets k.res ia 8) ||
    k.barIa.any fun ia => e.meets k.res ia 16

/-- A copy through another member's part of the team window counts as a remote access of its context (04 R111). -/
def State.markCopy (s : State) (k : Copy) : State :=
  let far (ia : Nat) : Bool := match iaTarget ia with
    | .team j _ => j != s.kp.member
    | _ => false
  let d := k.desc
  let rows (base delta : Word) (w sw : Nat) : Bool :=
    (rangeFrom 0 (cN1 d * cN2 d)).any fun r => far (cAddr d base w sw (r * cN0 d) + delta).toNat
  let dst := match k.kind with
    | .sbind _ => false
    | _ => rows (wordAt d 1) k.dstDelta (cWd d) 4
  if (cN0 d != 0 && (rows (wordAt d 0) k.srcDelta (cWs d) 3 || dst)) || k.stampIa.any far || k.barIa.any far then
    s.updX fun x => { x with remoteSince := true }
  else s

/-- A copy that passed every check issues: its sequence number, its beats, its place in a queue. -/
def State.forkCopy (s t : State) (d : List Word) (cm : CopyMap) (kind : CopyKind) (dst : Option Dst) : Out :=
  let g := s.pre.agent s.iss.core s.iss.fw
  let seq := W ((s.xp.cpySeq.toNat + 1) % 2 ^ 63)
  let st : CopySt :=
    match kind with
    | .cpyt tick => if 0 < (tick - s.pre.time).toInt then .timed else .active
    | _ => .queued
  let k : Copy :=
    { id := t.m.nextId, kind := kind, st := st, owner := s.owner, core := s.iss.core, fw := s.iss.fw, asid := s.xp.asid,
      seq := seq, desc := d, srcDelta := cm.src, dstDelta := cm.dst, stampIa := cm.stamp, barIa := cm.bar, res := g.res,
      moved := 0, beatsDone := 0, inRegion := s.inRegion, waitTags := 0 }
  let t0 := (t.drainedOver k.hits).markCopy k
  let raised : Mach × Except Trp Unit :=
    match cm.bar with
    | some ia => t0.m.raiseBeats g (wordAt d 6) ia (if s.inRegion then 0 else cBeats d)
    | none => (t0.m, .ok ())
  match raised with
  | (_, .error f) => .next (s.itemFault f)
  | (m1, .ok _) =>
    let t1 : State := { t0 with m := { m1 with nextId := m1.nextId + 1, copies := m1.copies ++ [k] } }
    let t2 := t1.updX fun x => { x with cpySeq := seq }
    let t3 :=
      match kind with
      | .sbind q => t2.updX fun x =>
          { x with q := x.q.put q { bound := true, copy := k.id, complete := false, fifo := [] } }
      | _ => t2
    let t4 :=
      if s.inRegion then
        let t4 := t3.updX fun x => { x with region := x.region.map fun r => { r with copies := k.id :: r.copies } }
        match cm.bar with
        | some ia => t4.buffer (wordAt d 6) ia (W (cBeats d)) 0 []
        | none => t4
      else t3
    let t5 := match dst with
      | some x => t4.put x seq
      | none => t4
    .next (if cTotal d = 0 then t5.upd fun m => m.finishCopy k else t5)

/-- The common part of CPY, CPYT and SBIND. -/
def State.copyOp (s t : State) (k : BitVec 3) (kind : CopyKind) (dst : Option Dst) : Out :=
  let d := s.group8 k.toNat
  let stream := dst.isNone
  match alignCopy d with
  | some v => .next (s.trap .alignCopy v)
  | none =>
    match s.copyMap d stream with
    | .error (c, v) => .next (s.trap c v)
    | .ok cm =>
      let reserved (c : Nat) : Bool := (Fmt.dec (BitVec.ofNat 8 c)).isNone
      let timed := match kind with
        | .cpyt _ => true
        | _ => false
      let busy := match kind with
        | .sbind q => (s.xp.stream q).isBound
        | _ => false
      let engine := s.pre.engineOf s.iss.core s.xp.asid (wordAt d 0 + cm.src).toNat
        (if stream then iaOwn else (wordAt d 1 + cm.dst).toNat)
      if reserved (cSfmt d) || reserved (cDfmt d) then .next (s.trap .illegalFormat 0)
      else if badRecord d stream then .next (s.trap .engBadRecord 0)
      else if busy then .next (s.trap .engStreamBusy 0)
      else if s.pre.copyFull s.owner timed engine then .next (s.waitFor (.room timed engine) 0 none none)
      else s.forkCopy t.endWait d cm kind dst

/-- CPY. -/
def execCpy (d : Dst) (k : BitVec 3) (s : State) : Out := s.copyOp s k .cpy (some d)

/-- CPYT. -/
def execCpyt (d : Dst) (k : BitVec 3) (b : Src) (s : State) : Out :=
  s.withSrcs [b] fun t => s.copyOp (t.latch lENG true (s.src b)) k (.cpyt (s.src b)) (some d)

/-- SBIND. -/
def execSbind (q : BitVec 4) (k : BitVec 3) (s : State) : Out :=
  if s.inRegion then .next (s.trap .regionIllegalOp 0) else s.copyOp s k (.sbind q.toNat) none

/-! ## Events of copies -/

/-- COPY_START (07 R184): the oldest queued copy of its context begins to move data. -/
def execCopyStart (id : Nat) (s : State) : Out :=
  match s.m.copyOf id with
  | none => .next s
  | some k =>
    match s.m.copies.find? fun j => j.owner == k.owner && j.st == .queued with
    | some j => .next (if j.id = id then s.upd fun m => m.updCopy id fun k => { k with st := .active } else s)
    | none => .next s

/-- The tick a timed copy waits for. -/
def Copy.tick (k : Copy) : Word :=
  match k.kind with
  | .cpyt t => t
  | _ => 0

/-- Whether timed copy j starts before timed copy k, which stands behind it in issue order if late holds (07 R184). -/
def Copy.ahead (now : Word) (j k : Copy) (late : Bool) : Bool :=
  let a := (j.tick - now).toInt
  let b := (k.tick - now).toInt
  decide (a < b) || (a == b && late)

/-- TIMED_COPY_START (07 R184): a timed copy whose tick has come, and before which none starts. -/
def execTimedCopyStart (id : Nat) (s : State) : Out :=
  match s.m.copyOf id with
  | none => .next s
  | some k =>
    let timed := s.m.copies.filter fun j => j.st == .timed
    let before := timed.takeWhile fun j => j.id != id
    let after := (timed.dropWhile fun j => j.id != id).drop 1
    if k.st = .timed ∧ (k.tick - s.m.time).toInt ≤ 0 ∧
        !(before.any fun j => j.ahead s.m.time k true) ∧ !(after.any fun j => j.ahead s.m.time k false) then
      .next (s.upd fun m => m.updCopy id fun k => { k with st := .active })
    else .next s

/-- COPY_COMPLETE (07 R186): what is left of the copy lands, and if all of it has, and every answer of a peer has come, the
copy is complete. -/
def execCopyComplete (id : Nat) (s : State) : Out :=
  match s.m.copyOf id with
  | none => .next s
  | some k =>
    let m1 := Mach.landN id (cTotal k.desc - k.moved) s.m
    match m1.copyOf id with
    | none => .next { s with m := m1 }
    | some k1 =>
      .next { s with m := if k1.st = .active ∧ k1.moved = cTotal k1.desc ∧ k1.waitTags = 0 ∧ !m1.inFlight id then m1.finishCopy k1 else m1 }

/-- COPY_STOP (07 R187): a copy that a memory-side fault has met stops, once every RESPONSE to its frames has come (18 R374) and
every row of it has arrived. -/
def execCopyStop (id : Nat) (s : State) : Out :=
  match s.m.copyOf id with
  | none => .next s
  | some k =>
    match k.st with
    | .failed t => .next (if k.waitTags = 0 ∧ !s.m.inFlight id then s.upd fun m => m.stopCopy k t else s)
    | _ => .next s

/-- STREAM_APPEND (07 R188): the next element of a stream binding enters its FIFO. -/
def execStreamAppend (id : Nat) (s : State) : Out :=
  match s.m.copyOf id with
  | none => .next s
  | some k =>
    match k.kind with
    | .sbind _ => .next (s.upd fun m => m.land1 id)
    | _ => .next s

/-! ## SADV (07 R189) -/

/-- SADV ends: elements it could not discard are reported after the effect. -/
def State.sadvEnd (s : State) (left : Nat) : State := if left = 0 then s else s.after .engStreamUnbound (W left)

/-- SADV. One of b = 0 names its stream all the same: an unbound one raises ENG_STREAM_UNBOUND (log 125). -/
def execSadv (q : BitVec 4) (b : Src) (s : State) : Out :=
  if s.inRegion then .next (s.trap .regionIllegalOp 0)
  else
    s.withSrcs [b] fun t =>
      let n := (s.src b).toNat
      let t := t.latch lENG true (s.src b)
      match s.granted with
      | some vs => .next (t.endWait.sadvEnd (wordAt vs 0).toNat)
      | none =>
        let st := t.xc.stream q.toNat
        if !(s.xp.stream q.toNat).isBound then .next (s.trap .engStreamUnbound 0)
        else if n = 0 then .next t
        else if s.kp.strmBusy s.iss.fw q.toNat then .next s.stall
        else if n ≤ st.fifo.length ∨ st.complete then
          .next ((t.updX fun x => { x with q := x.q.put q.toNat { st with fifo := st.fifo.drop n } }).sadvEnd (n - st.fifo.length))
        else .next (s.waitFor (.sadv q.toNat n) 0 none none)

end Sys2Proof.Machine
end

