-- ==== Sys2Proof/Machine/Subs.lean ====
section
/-!
DEFINITION. Mould and Press subscriptions (08 R229 to R232, 15 R338) and remote atomics (18 R375): the records, the writes of
MOULDGO, PRESSGO and PEERAOP, and the events of tiles.
-/
namespace Sys2Proof.Machine

/-! ## The subscription record (08 R229, R230) -/

/-- MFMT. -/
def uMfmt (d : List Word) : Nat := bits (wordAt d 10).toNat 15 8
/-- SCB. -/
def uScb (d : List Word) : Nat := bits (wordAt d 10).toNat 23 16
/-- ROWS. -/
def uRows (d : List Word) : Nat := bits (wordAt d 5).toNat 47 32
/-- ROWB. -/
def uRowb (d : List Word) : Nat := bits (wordAt d 5).toNat 31 0
/-- T0. -/
def uT0 (d : List Word) : Nat := bits (wordAt d 4).toNat 31 0
/-- T1. -/
def uT1 (d : List Word) : Nat := max 1 (bits (wordAt d 4).toNat 63 32)
/-- The tiles of a subscription. -/
def uTiles (d : List Word) : Nat := uT0 d * uT1 d
/-- wm. -/
def uWm (d : List Word) : Nat := (fmtOfCode (uMfmt d)).bytes
/-- The bytes a tile uses in a slot whose bank has format code f. -/
def uSlotBytes (d : List Word) (f : Nat) : Nat := uRows d * (uRowb d * (fmtOfCode f).bytes / uWm d) + uScb d
/-- The code of the bank that holds the first byte of an item's resident slot (08 R230). -/
def Core.slotFmt (k : Core) (cfg : Nat) (x : BitVec 32) : Nat := k.bfmt.get 0x0F (ringItemAt cfg x / 0x10000)

/-- The virtual address of row r of tile i. -/
def uRowVa (d : List Word) (i r : Nat) : Word :=
  wordAt d 0 + W (i % uT0 d) * wordAt d 2 + W (i / uT0 d) * wordAt d 3 + W r * wordAt d 1

/-- The virtual address of the scale bytes of tile i. -/
def uScaleVa (d : List Word) (i : Nat) : Word :=
  wordAt d 6 + BitVec.ofInt 64 ((i % uT0 d : Nat) * sgn 32 (wordAt d 7).toNat + (i / uT0 d : Nat) * sgn 32 ((wordAt d 7).toNat / 2 ^ 32))

/-- The least and greatest of n multiples of a stride. -/
def strideSpan (n : Nat) (st : Int) : Int × Int := (min 0 ((n - 1 : Nat) * st), max 0 ((n - 1 : Nat) * st))

/-- The lowest and highest data byte as offsets from ADDR. -/
def uSpan (d : List Word) : Int × Int :=
  let a := strideSpan (uRows d) (wordAt d 1).toInt
  let b := strideSpan (uT0 d) (wordAt d 2).toInt
  let c := strideSpan (uT1 d) (wordAt d 3).toInt
  (a.1 + b.1 + c.1, a.2 + b.2 + c.2 + uRowb d - 1)

/-- The lowest and highest scale byte as offsets from SCALE. -/
def uScaleSpan (d : List Word) : Int × Int :=
  let b := strideSpan (uT0 d) (sgn 32 (wordAt d 7).toNat)
  let c := strideSpan (uT1 d) (sgn 32 ((wordAt d 7).toNat / 2 ^ 32))
  (b.1 + c.1, b.2 + c.2 + uScb d - 1)

/-- ALIGN_COPY of a record, with the address that fails. -/
def alignSub (d : List Word) : Option Word :=
  let off (w : Word) : Bool := w.toNat % uWm d != 0
  if off (wordAt d 0) || off (wordAt d 1) || off (wordAt d 2) || off (wordAt d 3) || uRowb d % uWm d != 0 then some (wordAt d 0)
  else if (wordAt d 8).toNat % 8 ≠ 0 then some (wordAt d 8)
  else if (wordAt d 9).toNat % 16 ≠ 0 then some (wordAt d 9)
  else none

/-- The difference from virtual to intermediate address of an interval; no team-window address (08 R221; log 47). -/
def State.subMap (s : State) (base : Word) (sp : Int × Int) (wr : Bool) : Except (Cause × Word) Word :=
  if sp.2 < sp.1 then .ok 0
  else
    match s.spanIa base sp.1 sp.2 wr with
    | none => .error (.memRange, base)
    | some ia => if iaClass ia = 2 then .error (.memTeamWindow, base) else .ok (W ia - (base + BitVec.ofInt 64 sp.1))

/-- The address checks of a record (08 R230, step 2). -/
def State.subMaps (s : State) (d : List Word) (mould : Bool) : Except (Cause × Word) (Word × CopyMap) :=
  let data := if uTiles d = 0 ∨ uRowb d = 0 then .ok 0 else s.subMap (wordAt d 0) (uSpan d) (!mould)
  let scale := if uTiles d = 0 ∨ uScb d = 0 then .ok 0 else s.subMap (wordAt d 6) (uScaleSpan d) (!mould)
  match data, scale, s.spotMap (wordAt d 8) 8, s.spotMap (wordAt d 9) 16 with
  | .error e, _, _, _ => .error e
  | _, .error e, _, _ => .error e
  | _, _, .error e, _ => .error e
  | _, _, _, .error e => .error e
  | .ok a, .ok b, .ok c, .ok e => .ok (b, { src := a, dst := a, stamp := c, bar := e })

/-- The codes of the banks of a ring's resident slots. -/
def Core.ringFmts (k : Core) (cfg : Nat) : List Nat :=
  if ringV cfg then (rangeFrom 0 (ringSlots cfg)).map fun x => k.slotFmt cfg (BitVec.ofNat 32 x) else []

/-- Whether the bank of one of the ring's resident slots holds a reserved format code (08 R230, step 4). -/
def badBank (k : Core) (d : List Word) : Bool :=
  (k.ringFmts (k.ringCfgOf (bits (wordAt d 10).toNat 3 0))).any fun f => (Fmt.dec (BitVec.ofNat 8 f)).isNone

/-- ENG_BAD_RECORD of a record (08 R230, step 3). -/
def badSub (k : Core) (d : List Word) : Bool :=
  let cfg := k.ringCfgOf (bits (wordAt d 10).toNat 3 0)
  (wordAt d 5).toNat / 2 ^ 48 != 0 || (wordAt d 10).toNat / 2 ^ 24 != 0 || bits (wordAt d 10).toNat 7 4 != 0 ||
    (rangeFrom 11 5).any (fun j => wordAt d j != 0) || uRows d == 0 || decide (2 ^ 32 ≤ uTiles d) ||
    (k.ringFmts cfg).any fun f =>
      uRowb d * (fmtOfCode f).bytes % uWm d != 0 || decide (ringBytes cfg < uSlotBytes d f)

/-- The ring faults of a subscription (08 R230, steps 5 to 7). -/
def State.subRing (s : State) (d : List Word) (mould : Bool) : Option Cause :=
  let n := bits (wordAt d 10).toNat 3 0
  let cfg := s.kp.ringCfgOf n
  if !ringV cfg then some .engRingUndefined
  else if (if mould then ringProd cfg != 1 else ringCons cfg != 2) then some .engRingRole
  else if s.pre.subs.any fun x => s.pre.serves x s.iss.core n then some .engRingBusy
  else if 4 ≤ (s.pre.subs.filter fun x => x.mould == mould && s.pre.serves x s.iss.core x.ring).length then some .engSubBusy
  else none

/-- A subscription leaves the device. -/
def Mach.dropSub (m : Mach) (id : Nat) : Mach := { m with subs := m.subs.filter fun x => x.id != id }

/-- The device with f applied to a subscription. -/
def Mach.updSub (m : Mach) (id : Nat) (f : Sub → Sub) : Mach :=
  { m with subs := m.subs.map fun x => if x.id = id then f x else x }

/-- A subscription of the device. -/
def Mach.subOf (m : Mach) (id : Nat) : Option Sub := m.subs.find? fun x => x.id == id

/-- The issuing context of a subscription as an agent. -/
def Sub.agent (x : Sub) : Agent := { core := x.core, fw := x.fw, asid := x.asid, ranges := Tab.empty, res := x.res }

/-- The stamp of a subscription (08 R231, R232). -/
def Mach.subStamp (m : Mach) (x : Sub) (w : Word) : Mach :=
  match x.stampIa with
  | some ia => m.stampWrite x.agent (if x.mould then .copyWr else .pressWr) ia w
  | none => m

/-- Beats that a subscription takes from its record. -/
def Mach.subBeats (m : Mach) (x : Sub) (n : Nat) (cerr : Bool) : Mach :=
  match x.barIa with
  | some ia => m.engBeats x.agent ia n cerr
  | none => m

/-- A subscription that has moved its last tile becomes inactive (08 R231). A stopped one has written its stamp. -/
def Mach.endSub (m : Mach) (x : Sub) : Mach :=
  if x.tile < uTiles x.desc ∨ x.owed ≠ 0 ∨ x.waitTags ≠ 0 ∨ (x.err.isSome ∧ !x.stopped) then m
  else (if x.stopped then m else m.subStamp x (W (uTiles x.desc))).dropSub x.id

/-- endSub for the subscription as the device holds it. -/
def Mach.endSubOf (m : Mach) (id : Nat) : Mach :=
  match m.subOf id with
  | some x => m.endSub x
  | none => m

/-- The n words of a record at an address that the issuing context may read, as the memory of a state t holds them; none where the memory
side refuses the read. -/
def State.recordAt (s t : State) (va : Word) (n : Nat) : Option (List Word) :=
  match mapVa s.xp.ranges va.toNat (8 * n) true false false with
  | none => none
  | some ia => (Mach.iaWords (s.pre.agent s.iss.core s.iss.fw) n va.toNat ia t.m).2.toOption

/-- A subscription that passed every check starts: its beats, its place among those of its ring. -/
def State.forkSub (s t : State) (d : List Word) (mould : Bool) (scale : Word) (cm : CopyMap) : Out :=
  let g := s.pre.agent s.iss.core s.iss.fw
  let n := bits (wordAt d 10).toNat 3 0
  let cfg := s.kp.ringCfgOf n
  let first := if mould then (s.kp.ringOf n).w else (s.kp.ringOf n).r
  let share := ceilDiv (uSlotBytes d (s.kp.slotFmt cfg first)) 64
  let x : Sub :=
    { id := t.m.nextId, mould := mould, owner := s.owner, core := s.iss.core, fw := s.iss.fw, asid := s.xp.asid,
      desc := d, addrDelta := cm.src, scaleDelta := scale, stampIa := cm.stamp, barIa := cm.bar, res := g.res,
      tile := 0, whole := 0, err := none, stopped := false, beatsLeft := uTiles d * share, owed := 0,
      waitTags := 0 }
  let raised : Mach × Except Trp Unit :=
    match cm.bar with
    | some ia => t.m.raiseBeats g (wordAt d 9) ia x.beatsLeft
    | none => (t.m, .ok ())
  match raised with
  | (_, .error f) => .next (s.itemFault f)
  | (m1, .ok _) =>
    .next { t with m := Mach.endSubOf { m1 with nextId := m1.nextId + 1, subs := m1.subs ++ [x] } x.id }

/-- The start of a subscription by a write of MOULDGO or PRESSGO: the checks of 08 R230 in their order; own says that the record lies in
the own scratchpad. The record is captured after every older store of the sequencer (R229). -/
def State.subChecks (s t : State) (d : List Word) (mould own : Bool) : Out :=
  match alignSub d with
  | some v => .next (s.trap .alignCopy v)
  | none =>
    match s.subMaps d mould with
    | .error (c, v) => .next (s.trap c v)
    | .ok (scale, cm) =>
      if !own || badSub s.kp d then .next (s.trap .engBadRecord 0)
      else if (Fmt.dec (BitVec.ofNat 8 (uMfmt d))).isNone || badBank s.kp d then .next (s.trap .illegalFormat 0)
      else
        match s.subRing d mould with
        | some c => .next (s.trap c 0)
        | none => s.forkSub t d mould scale cm

/-- The start of a subscription by a write of MOULDGO or PRESSGO (08 R229, R230). -/
def State.startSub (s : State) (val : Word) (mould : Bool) : Out :=
  if val.toNat % 128 ≠ 0 then .next (s.trap .alignCopy val)
  else
    match s.target val.toNat 128 true false with
    | .error c => .next (s.trap c val)
    | .ok tg =>
      match s.recordAt s.drained val 16 with
      | some d => s.subChecks s.drained d mould tg.isOwn
      | none => .next (if tg.isOwn then s.trap .memUncorrectable val else s.trap .engBadRecord 0)

/-- A write of MOULDGO (08 R229). -/
def execMouldgo (val : Word) (s : State) : Out := s.startSub val true

/-- A write of PRESSGO (08 R229). -/
def execPressgo (val : Word) (s : State) : Out := s.startSub val false

/-! ## Rows in memory -/

/-- n bytes from an IA on, read in pieces that lie within 64-byte rows; the number bounds the pieces. -/
def Mach.engReads (asid : Nat) (res : Resolve) (acc : Acc) : Nat → Nat → Nat → Mach → Mach × Except (Cause × Nat) (List Byte)
  | 0, _, _, m => (m, .ok [])
  | i + 1, ia, n, m =>
    if n = 0 then (m, .ok [])
    else
      let h := min n (64 - ia % 64)
      match m.engRead asid res acc ia h with
      | (m1, .error c) => (m1, .error (c, ia))
      | (m1, .ok bs) =>
        match Mach.engReads asid res acc i (ia + h) (n - h) m1 with
        | (m2, .error e) => (m2, .error e)
        | (m2, .ok r) => (m2, .ok (bs ++ r))

/-- Bytes written from an IA on, in pieces that lie within 64-byte rows; the answers of a peer still to come. -/
def Mach.engWrites (asid : Nat) (res : Resolve) (acc : Acc) (fo : Nat → PeerFor) :
    Nat → Nat → List Byte → Mach → Mach × Except (Cause × Nat) Nat
  | 0, _, _, m => (m, .ok 0)
  | i + 1, ia, bs, m =>
    if bs = [] then (m, .ok 0)
    else
      let h := min bs.length (64 - ia % 64)
      match m.engWrite asid res acc ia (bs.take h) (fo ia) with
      | (m1, .error c) => (m1, .error (c, ia))
      | (m1, .ok peer) =>
        match Mach.engWrites asid res acc fo i (ia + h) (bs.drop h) m1 with
        | (m2, .error e) => (m2, .error e)
        | (m2, .ok k) => (m2, .ok (k + b2n peer))

/-- The elements of bytes converted from one format code to another (02 R62). -/
def convBytes (sf df : Nat) (bs : List Byte) : List Byte :=
  let w := (fmtOfCode sf).bytes
  (chunks w (bs.length / w) bs).flatMap (convElem sf df)

/-- The rows of a tile from row r on, n of them, read and converted to a bank's format, with the scale bytes after them. -/
def Mach.tileRows (x : Sub) (f : Nat) : Nat → Nat → Mach → Mach × Except (Cause × Nat) (List Byte)
  | 0, _, m =>
    if uScb x.desc = 0 then (m, .ok [])
    else Mach.engReads x.asid x.res .mouldRd (uScb x.desc / 64 + 2) (uScaleVa x.desc x.tile + x.scaleDelta).toNat (uScb x.desc) m
  | n + 1, r, m =>
    match Mach.engReads x.asid x.res .mouldRd (uRowb x.desc / 64 + 2) (uRowVa x.desc x.tile r + x.addrDelta).toNat
        (uRowb x.desc) m with
    | (m1, .error e) => (m1, .error e)
    | (m1, .ok bs) =>
      match Mach.tileRows x f n (r + 1) m1 with
      | (m2, .error e) => (m2, .error e)
      | (m2, .ok rest) => (m2, .ok (convBytes (uMfmt x.desc) f bs ++ rest))

/-- The fault that stops a subscription, with its violation. -/
def Mach.subTrp (m : Mach) (x : Sub) (ia : Nat) (acc : Acc) (c : Cause) : Trp := m.agentTrp x.agent 0 ia acc c

/-! ## Tiles of a Mould (08 R230, R232, 15 R338) -/

/-- A stopped Mould's tile: element bytes zero, scale bytes 0x7F (08 R232). -/
def zeroTile (d : List Word) (f : Nat) : List Byte :=
  List.replicate (uSlotBytes d f - uScb d) 0 ++ List.replicate (uScb d) 0x7F

/-- A tile pushed: the subscription counts it, and its share of the beats falls; the stamp is a step of its own (08 R231). -/
def Mach.tilePushed (m : Mach) (x : Sub) (whole : Bool) : Mach :=
  let left := uTiles x.desc - x.tile
  let share := if left = 0 then 0 else x.beatsLeft / left
  let m1 := m.updSub x.id fun y =>
    { y with tile := y.tile + 1, whole := y.whole + b2n whole, beatsLeft := y.beatsLeft - (if x.stopped then 0 else share) }
  if x.stopped then m1 else m1.subBeats x share false

/-- The members of suspended teams with f applied to one. -/
def Mach.updMember (m : Mach) (l i : Nat) (f : SuspMember → SuspMember) : Mach :=
  let g (y : SuspMember) : SuspMember := if y.launch = l ∧ y.lcid = i then f y else y
  { m with susp := m.susp.map fun s => { s with members := s.members.map g } }

/-- An item of an absent context's ring (15 R338): its bytes and its push are on their way to the diversion table; with no
free slot it takes a lent one. None while it has neither. -/
def Mach.absentPut (m : Mach) (x : Sub) (y : SuspMember) (cfg : Nat) (bs : List Byte) : Option Mach :=
  let r := y.ringLent.get RingSt.reset x.ring
  let e := y.epoch
  let push : Arrival := { core := y.core, epoch := e, thread := x.id, kind := .push x.ring 1 }
  if r.free cfg != 0 then
    let m0 := m.arriveBytes x.id y.core e (ringItemAt cfg r.w) bs
    let m1 : Mach := { m0 with arrivals := m0.arrivals ++ [push] }
    some (m1.updMember y.launch y.lcid fun z => { z with ringLent := z.ringLent.put x.ring { r with w := r.w + 1 } })
  else if lendable (cfg, r) ∧ m.lentNext (y.core, y.epoch, x.ring) ∧ m.poolRoom (coreDie y.core) (ringBytes cfg) then
    let used := m.lentUsed.upd 0 (coreDie y.core) (fun n => n + ringBytes cfg)
    let m1 : Mach := { m with arrivals := m.arrivals ++ [push], lentUsed := used }
    some (m1.updMember y.launch y.lcid fun z =>
      { z with ringLent := z.ringLent.put x.ring { r with w := r.w + 1, lent := r.lent ++ [(r.w.toNat, bs)] } })
  else none

/-- Where the ring of a subscription is: on a core, with its configuration and count of the next item; or with an absent
member. -/
inductive RingAt where
  | core (c : Nat)
  | away (y : SuspMember)
  | none
  deriving DecidableEq, Repr

/-- Where the ring of a subscription is. It waits while its context's core is closed, from the stop on (15 R335), and while diverted
accesses of its epoch are still on their way to a resumed core.
The ring of a worker that has retired stays on the core it stood on until that core takes another epoch (08 R232; log 130). -/
def Mach.ringAtOf (m : Mach) (x : Sub) : RingAt :=
  match m.homeOf x.owner with
  | some (c, fw) =>
    if (!fw && (m.ctx c false).run == .switching) ||
        (m.arrivals ++ m.heldArr).any fun a => a.core == x.res.self.1 && a.epoch == x.res.self.2 then .none
    else .core c
  | none =>
    match x.owner with
    | .worker l i =>
      (match m.suspMember l i with
       | some y => .away y
       | none =>
         match (m.launchOf l).map fun la => la.worker i with
         | some (WorkerAt.retired (some (c, e))) => if (m.core c).epoch = e then .core c else .none
         | _ => .none)
    | _ => .none

/-- The format of a bank of an absent member, as its image's BFMT words were saved. -/
def SuspMember.slotFmt (y : SuspMember) (cfg : Nat) (x : BitVec 32) : Nat :=
  y.bfmt.get 0x0F (ringItemAt cfg x / 0x10000)

/-- The configuration of a subscription's ring. -/
def Mach.ringCfgAt (m : Mach) (x : Sub) : RingAt → Nat
  | .core c => (m.core c).ringCfgOf x.ring
  | .away y => (y.ringCfg.get 0 x.ring).toNat
  | .none => 0

/-- An item put into a subscription's ring. -/
def Mach.subPut (m : Mach) (x : Sub) (a : RingAt) (cfg : Nat) (bs : List Byte) : Option Mach :=
  match a with
  | .core c => m.ringPut c x.ring bs
  | .away y => m.absentPut x y cfg bs
  | .none => Option.none

/-- Whether a subscription's ring can take an item now. -/
def Mach.canPut (m : Mach) (x : Sub) (a : RingAt) (cfg : Nat) : Bool := (m.subPut x a cfg []).isSome

/-- The code of the bank of a Mould's next item. -/
def Mach.nextFmt (m : Mach) (x : Sub) (a : RingAt) (cfg : Nat) : Nat :=
  match a with
  | .core c => (m.core c).slotFmt cfg ((m.core c).ringOf x.ring).w
  | .away y => y.slotFmt cfg (y.ringLent.get RingSt.reset x.ring).w
  | .none => 0x0F

/-- MOULD_TILE_PUSH (08 R230): a tile is fetched once a slot awaits it, written and pushed; after the last one the
subscription ends (R231). A fault stops it, and it then pushes zero tiles (08 R232). -/
def execMouldTilePush (id : Nat) (s : State) : Out :=
  match s.m.subOf id with
  | none => .next s
  | some x =>
    let a := s.m.ringAtOf x
    let cfg := s.m.ringCfgAt x a
    if !x.mould then .next s
    else if uTiles x.desc ≤ x.tile then .next (if s.m.inFlight id then s else s.upd fun m => m.endSub x)
    else if (x.err.isSome ∧ !x.stopped) ∨ s.m.inFlight id ∨ !s.m.canPut x a cfg then .next s
    else
      let f := s.m.nextFmt x a cfg
      let put (m : Mach) (bs : List Byte) (whole : Bool) : Mach :=
        match m.subPut x a cfg bs with
        | some m1 => m1.tilePushed x whole
        | none => m
      if x.stopped then .next (s.upd fun m => put m (zeroTile x.desc f) false)
      else
        match Mach.tileRows x f (uRows x.desc) 0 s.m with
        | (m1, .ok bs) => .next { s with m := put m1 bs true }
        | (m1, .error (c, ia)) =>
          .next { s with m := m1.updSub id fun y => { y with err := some (m1.subTrp x ia .mouldRd c) } }

/-! ## Slots of a Press -/

/-- Whether the next item a Press reads is full and resident. -/
def RingSt.pressReady (r : RingSt) (owed : Nat) : Bool :=
  decide (owed < r.full) && !(r.lent.any fun e => e.1 == (r.r + BitVec.ofNat 32 owed).toNat)

/-- The ring state that a Press reads: in its context's absence none beyond the slots pushed before the suspension (15 R338). -/
def Mach.ringStAt (m : Mach) (x : Sub) : RingAt → RingSt
  | .core c => (m.core c).ringOf x.ring
  | .away y => { y.ringLent.get RingSt.reset x.ring with w := y.pushed.get 0 x.ring }
  | .none => RingSt.reset

/-- The bytes of a slot as a Press reads them. -/
def Mach.pressRead (m : Mach) (a : RingAt) (off n : Nat) : Mach × Except Cause (List Byte) :=
  match a with
  | .core c => if m.badSpad c off n then (m, .error .memUncorrectable) else (m, .ok (m.spadRead c off n))
  | .away y => let (m1, bs) := m.readAway y off n; (m1, .ok bs)
  | .none => (m, .ok (List.replicate n 0))

/-- The rows of a tile from row r on, and then the scale bytes, converted and written at their addresses. -/
def Mach.pressRows (x : Sub) (f : Nat) : Nat → Nat → List Byte → Mach → Mach × Except (Cause × Nat) Nat
  | 0, _, bs, m =>
    if uScb x.desc = 0 then (m, .ok 0)
    else
      Mach.engWrites x.asid x.res .pressWr (.sub x.id) (uScb x.desc / 64 + 2) (uScaleVa x.desc x.tile + x.scaleDelta).toNat
        (bs.take (uScb x.desc)) m
  | n + 1, r, bs, m =>
    let w := uRowb x.desc * (fmtOfCode f).bytes / uWm x.desc
    match Mach.engWrites x.asid x.res .pressWr (.sub x.id) (uRowb x.desc / 64 + 2)
        (uRowVa x.desc x.tile r + x.addrDelta).toNat (convBytes f (uMfmt x.desc) (bs.take w)) m with
    | (m1, .error e) => (m1, .error e)
    | (m1, .ok k) =>
      match Mach.pressRows x f n (r + 1) (bs.drop w) m1 with
      | (m2, .error e) => (m2, .error e)
      | (m2, .ok j) => (m2, .ok (k + j))

/-- A Press pops the oldest slot it has read, once its writes have been performed and its context is on a core (15 R338). -/
def Mach.pressPop (m : Mach) (x : Sub) (a : RingAt) : Mach :=
  match a with
  | .core c =>
    if x.owed = 0 ∨ x.waitTags ≠ 0 ∨ m.inFlight x.id then m
    else
      let left := uTiles x.desc - (x.tile - x.owed)
      let share := if left = 0 then 0 else x.beatsLeft / left
      let m1 := (m.ringPop c x.ring 1).updSub x.id fun y =>
        { y with owed := y.owed - 1, whole := y.whole + b2n (!x.stopped),
                 beatsLeft := y.beatsLeft - (if x.stopped then 0 else share) }
      (if x.stopped then m1 else m1.subBeats x share false).endSubOf x.id
  | _ => m

/-- A Press reads the next full slot and writes its rows and scales; a stopped one writes nothing (08 R232). -/
def Mach.pressTile (m : Mach) (x : Sub) (a : RingAt) : Mach :=
  let cfg := m.ringCfgAt x a
  let r := m.ringStAt x a
  if uTiles x.desc ≤ x.tile ∨ (x.err.isSome ∧ !x.stopped) ∨ m.inFlight x.id ∨ !r.pressReady x.owed then m
  else
    let it := r.r + BitVec.ofNat 32 x.owed
    let f := match a with
      | .core c => (m.core c).slotFmt cfg it
      | .away y => y.slotFmt cfg it
      | .none => 0x0F
    let next (m : Mach) (k : Nat) : Mach :=
      m.updSub x.id fun y => { y with tile := y.tile + 1, owed := y.owed + 1, waitTags := y.waitTags + k }
    if x.stopped then next m 0
    else
      match m.pressRead a (ringItemAt cfg it) (uSlotBytes x.desc f) with
      | (m1, .error c) => m1.updSub x.id fun y => { y with err := some (m1.subTrp x (iaOwn + ringItemAt cfg it) .pressWr c) }
      | (m1, .ok bs) =>
        match Mach.pressRows x f (uRows x.desc) 0 bs m1 with
        | (m2, .ok k) => next m2 k
        | (m2, .error (c, ia)) => m2.updSub x.id fun y => { y with err := some (m2.subTrp x ia .pressWr c) }

/-- PRESS_SLOT_POP (08 R230): the next full slot is read and its rows are written; it is popped once every write has been
performed. -/
def execPressSlotPop (id : Nat) (s : State) : Out :=
  match s.m.subOf id with
  | none => .next s
  | some x =>
    if x.mould then .next s
    else
      let a := s.m.ringAtOf x
      let away := match a with
        | .away _ => true
        | _ => false
      let m1 := if x.owed == 0 || away then s.m.pressTile x a else s.m
      match m1.subOf id with
      | none => .next { s with m := m1 }
      | some y => .next { s with m := m1.pressPop y a }

/-! ## The stop (08 R232) -/

/-- STOP of a ring, wherever it is. -/
def Mach.setStop (m : Mach) (x : Sub) : Mach :=
  match m.ringAtOf x with
  | .core c => m.updCore c fun k => { k with ring := k.ring.put x.ring { k.ringOf x.ring with stop := true } }
  | .away y =>
    (m.updMember y.launch y.lcid fun z =>
      { z with ringLent := z.ringLent.put x.ring { z.ringLent.get RingSt.reset x.ring with stop := true } }).fwWrite
      (swimgIa y.swimg + 0x6F0 + 2 * x.ring + 1) [1]
  | .none => m

/-- SUBSCRIPTION_STOP (08 R232), once every RESPONSE to its frames has come (18 R374) and its ring is in reach. -/
def execSubscriptionStop (id : Nat) (s : State) : Out :=
  match s.m.subOf id with
  | none => .next s
  | some x =>
    match x.err with
    | none => .next s
    | some t =>
      if x.stopped ∨ x.waitTags ≠ 0 ∨ s.m.inFlight id ∨ ((s.m.homeOf x.owner).isSome ∧ s.m.ringAtOf x = .none) then .next s
      else
        .next (s.upd fun m =>
          let m1 := match t.viol with
            | some v => m.logViol v
            | none => m
          let m2 := ((m1.setStop x).subStamp x (W (2 ^ 63 + x.whole))).subBeats x x.beatsLeft true
          let m3 := m2.updSub id fun y => { y with stopped := true, beatsLeft := 0 }
          (m3.holdFault x.owner (if x.mould then Cause.code .engMouldError else Cause.code .engPressError) 0).endSubOf id)

/-! ## Requests for lent slots (08 R227) -/

/-- The requests that stand: producers with a finished item and no free slot, on their cores and of absent members. -/
def Mach.lentWants (m : Mach) : List (Nat × Nat × Nat) :=
  (m.cores.keys.flatMap fun c =>
    ((rangeFrom 0 16).filter fun n => m.wantsLent c n).map fun n => (c, (m.core c).epoch, n)) ++
  m.subs.filterMap fun x => match m.ringAtOf x with
    | .away y =>
      if x.mould && decide (x.tile < uTiles x.desc) && (y.ringLent.get RingSt.reset x.ring).free (y.ringCfg.get 0 x.ring).toNat == 0 then
        some (y.core, y.epoch, x.ring)
      else none
    | _ => none

/-- The requests in arrival order: those that stand no more leave, new ones come last. -/
def Mach.noteLent (m : Mach) : Mach :=
  let w := m.lentWants
  let keep := m.lentQ.filter fun q => w.contains q
  { m with lentQ := keep ++ w.filter fun q => !keep.contains q }

end Sys2Proof.Machine
end

