-- ==== Sys2Proof/Machine/Tasks.lean ====
section
/-!
DEFINITION. Task regions (07 R207 to R209, 10 R269 to R272): TBEGIN, TEND, the commit of a region (09 R253) and its end in the
phase log of a deterministic phase (16 R349); FENCE (07 R205).
-/
namespace Sys2Proof.Machine

/-! ## Buffered operations at their homes (07 R208, 09 R253) -/

/-- What a buffered operation does at its home: the bytes of its object, the fault where the object may not lie (10 R259), and the
operation; none for one that is no operation on an object. -/
def homeOp (i : Instr) (b : Word) : Option (Nat × Cause × (List Byte → Except Cause HomeOut)) :=
  let amo (t : AtomT) (f : AtomT → Nat → Nat → Nat) : Option (Nat × Cause × (List Byte → Except Cause HomeOut)) :=
    some (atomBytes t, .memAtomicTarget, atomAt t (f t (b.toNat % 2 ^ (8 * atomBytes t))))
  match i with
  | .aadd t _ _ _ => amo t amoAdd
  | .amin t _ _ _ => amo t amoMin
  | .amax t _ _ _ => amo t amoMax
  | .aand t _ _ _ => amo t amoAnd
  | .aor t _ _ _ => amo t amoOr
  | .axor t _ _ _ => amo t amoXor
  | .aswap t _ _ _ => amo t amoSwap
  | .fxadd f64 _ _ => some (64, .memAtomicTarget, fxAdd (fxAddend f64 b))
  | .sempost _ _ => some (8, .memSyncTarget, semPost b)
  | .bararr _ _ => some (16, .memSyncTarget, barArr)
  | .tladd _ _ => some (8, .memSyncTarget, tlAdd b)
  | .tlset _ _ => some (8, .memSyncTarget, tlSet b)
  | _ => none

/-- The instruction that buffered an operation. -/
def BufOp.instr (o : BufOp) : Instr := ((decodeSlot false 0 6 o.word).toOption).getD .nop

/-- The place of an address that a commit reaches: a scratchpad through the entries that forward its epoch; none while it
cannot be reached, and a fault of the memory side. The number bounds the chain of forwardings. -/
def Mach.spadNow : Nat → Nat → Nat → Mach → Option Nat
  | 0, _, _, _ => none
  | i + 1, c, e, m =>
    if m.accepts c e then some c
    else
      match (m.core c).divs.find? fun d => d.epoch == e && d.state == 3 with
      | some d => Mach.spadNow i d.newCore d.newEpoch m
      | none => none

/-- How a commit finds the home of an operation. -/
inductive HomeAns where
  | place (m : Mach) (p : Place)
  | later
  | gone
  | fault (m : Mach) (c : Cause)
  deriving DecidableEq, Repr

/-- The home of an operation of a commit; cls is its fault where the object may not lie, and a cell lies in memory (10 R259). An object
in the scratchpad of an absent context is reached once it has resumed; of a context that never will, the operation is dropped (log
50). -/
def Mach.commitHome (m : Mach) (g : Agent) (ia n : Nat) (cls : Cause) : HomeAns :=
  match g.res.of (iaTarget ia) with
  | some (c, e, off) =>
    if n = 64 then .fault m .memAtomicTarget
    else
      (match Mach.spadNow 64 c e m with
       | some c' => if m.badSpad c' off n then .fault m .memUncorrectable else .place m (.spad c' off)
       | none => if (m.awayAt c e).isSome || (m.core c).closed then .later else .gone)
  | none =>
    match m.translate g.asid ia .atomic with
    | (m1, .ok (.hbm d o)) => .place m1 (.hbm d o)
    | (m1, .ok _) => .fault (m1.logViol (m1.viol ia g.asid .atomic cls g.core g.fw)) cls
    | (m1, .error c) => .fault (m1.logViol (m1.viol ia g.asid .atomic c g.core g.fw)) c

/-- A buffered operation at its home, by the commit, which is no sequencer of a core (09 R241); its fault is held (07 R181), and an
overflowing cell is named in the error log. -/
def Mach.homeApply (m : Mach) (o : Owner) (g : Agent) (b : BufOp) (p : Place) (n : Nat)
    (op : List Byte → Except Cause HomeOut) : Mach :=
  match op (m.readPlace p n).2 with
  | .error c => m.holdFault o c.code 0
  | .ok h =>
    let m1 := m.writePlace p h.bytes
    match h.after with
    | none => m1
    | some c =>
      let m2 := if c = .fxcellOverflow then
          m1.logErr c.code kDetected { addr := b.ia, fw := g.fw, loc := g.core, info := W b.ia } else m1
      m2.holdFault o c.code 0

/-- The granules of the item of a buffered ENQ: its list is read once (10 R266). -/
def Mach.commitGranules (m : Mach) (g : Agent) (b : BufOp) : Mach × Except Trp (List Nat) :=
  match b.grans with
  | some gs => (m, .ok gs)
  | none => m.enqGranules g b.item

/-- An ENQ of a commit (10 R266): its checks, then the item; while the queue or the table has no room it is left, with the granules that
its list named. -/
def Mach.commitEnq (m : Mach) (o : Owner) (g : Agent) (b : BufOp) (det : Bool) : Mach × Option BufOp :=
  match m.queueGate g.asid b.queue with
  | some c => (m.holdFault o c.code 0, none)
  | none =>
    if (m.wqAt b.queue).state = 2 then (m.holdFault o (Cause.code .syncQueueClosed) 0, none)
    else
      match m.commitGranules g b with
      | (m1, .error t) =>
        let m2 := match t.viol with
          | some v => m1.logViol v
          | none => m1
        (m2.holdFault o t.cause.code t.val, none)
      | (m1, .ok gs) =>
        if m1.enqRoom b.queue b.item then (m1.enqServe b.queue b.item gs det, none) else (m1, some { b with grans := some gs })

/-- One operation of a commit, and what is left of one that must wait. The beats of a copy of the region rise and fall at once, with the
advance of the record (07 R208). -/
def Mach.commitOp (m : Mach) (o : Owner) (g : Agent) (b : BufOp) (det : Bool) : Mach × Option BufOp :=
  match b.instr with
  | .enq _ _ => m.commitEnq o g b det
  | .cpy _ _ => commitBeats
  | .cpyt _ _ _ => commitBeats
  | i =>
    match homeOp i b.opnd with
    | none => (m, none)
    | some (n, cls, op) =>
      match m.commitHome g b.ia n cls with
      | .place m1 p => (m1.homeApply o g b p n op, none)
      | .later => (m, some b)
      | .gone => (m, none)
      | .fault m1 c => (m1.holdFault o c.code b.va, none)
where
  commitBeats : Mach × Option BufOp :=
    match m.commitHome g b.ia 16 .memSyncTarget with
    | .place m1 p => (m1.onBar p fun r => (r.rise b.opnd.toNat).fall b.opnd.toNat false, none)
    | .later => (m, some b)
    | .gone => (m, none)
    | .fault m1 _ => (m1, none)

/-- The operations of a commit, in program order, up to the first that must wait: what is left, and the device. -/
def Mach.commitOps (o : Owner) (g : Agent) (det : Bool) : List BufOp → Mach → List BufOp × Mach
  | [], m => ([], m)
  | b :: r, m =>
    match m.commitOp o g b det with
    | (m1, some b1) => (b1 :: r, m1)
    | (m1, none) => Mach.commitOps o g det r m1.wakeObjs

/-- One buffered store of a commit at its home (09 R253), which updates the line of the core that its sequencer now stands on (R241, 04
R125); one that faults is held against the context with its intermediate address (07 R181). -/
def Mach.commitStore (m : Mach) (o : Owner) (g : Agent) (e : Nat × List Byte) : Mach :=
  match m.translate g.asid e.1 .commitWr with
  | (m1, .ok p) =>
    match m1.homeOf o with
    | some (c, _) => m1.cachedWrite c p e.2
    | none => m1.writePlace p e.2
  | (m1, .error c) => (m1.logViol (m1.viol e.1 g.asid .commitWr c g.core g.fw)).holdFault o c.code (W e.1)

/-- The buffered stores of a commit in program order, each performed before the next (09 R253): a write wakes the waits that its value
ends (10 R260). -/
def Mach.commitStores (o : Owner) (g : Agent) (l : List (Nat × List Byte)) (m : Mach) : Mach :=
  l.foldl (fun m e => (m.commitStore o g e).wakeObjs) m

/-- The agent a commit acts as. -/
def Commit.agent (k : Commit) : Agent := { core := k.core, fw := k.fw, asid := k.asid, ranges := k.ranges, res := k.res }

/-- COMMIT_COMPLETE (09 R253, 10 R268): a commit that no earlier task holds back performs its stores and then its buffered
operations; once all are performed the task is retired. -/
def execCommitComplete (id : Nat) (s : State) : Out :=
  match s.m.commits.find? fun k => k.id == id with
  | none => .next s
  | some k =>
    let free := match s.m.entOf k.ent with
      | some e => s.m.tdtCommit e
      | none => true
    if !free then .next s
    else
      let m1 := Mach.commitStores k.owner k.agent k.stores s.m
      let (left, m2) := Mach.commitOps k.owner k.agent k.det k.ops m1
      if left = [] then
        .next { s with m := Mach.dropEnt { m2 with commits := m2.commits.filter fun j => j.id != id } k.ent }
      else
        let upd (j : Commit) : Commit := if j.id = id then { j with stores := [], ops := left } else j
        .next { s with m := { m2 with commits := m2.commits.map upd } }

/-! ## TBEGIN and TEND -/

/-- The live-in mask of TBEGIN: bit i of word j names v register 64 j + i (07 R207). -/
def State.liveMask (s : State) (k : Nat) : BitVec 256 :=
  BitVec.ofNat 256 (natOfBytes (bytesOfWords ((rangeFrom (4 * k) 4).map s.xp.sreg)))

/-- TBEGIN (07 R207, 10 R269, 14 R321): an acquire of device scope. -/
def execTbegin (k : BitVec 4) (s : State) : Out :=
  if s.xp.region.isSome then .next (s.trap .regionNested 0)
  else
    match s.iss.fw, s.xp.tasks with
    | true, _ => .next (s.trap .taskNoTask 0)
    | _, [] => .next (s.trap .taskNoTask 0)
    | false, t :: _ =>
      if itemNw t.item != 0 && !bitAt s.kp.taskRen.toNat 0 then .next (s.trap .taskNoRename 0)
      else
        let (rd, wr) := match s.pre.entOf t.ent with
          | some e => (e.reads, e.writes)
          | none => ([], [])
        let x := s.xp
        let r : Region :=
          { task := t, beginPc := s.iss.addr, live := s.liveMask k.toNat,
            chk := { s := x.s, p := x.p, loops := x.loops, rq := x.rq, lat := x.lat }, reads := rd, writes := wr,
            ren := bits s.kp.taskRen.toNat 51 16 * 2 ^ 16, slots := Tab.empty, masks := Tab.empty, log := [], ops := [], copies := [], aborted := none }
        .next ((s.upd fun m => m.dropCache s.iss.core).updX fun x => { x with region := some r })

/-- A granule that a logged task wrote: its address, mask and bytes. -/
def Region.grans (r : Region) : List (Nat × Mem × Mem) :=
  ((rangeFrom 0 r.writes.length).map fun j =>
    (r.writes.getD j 0, r.masks.get Mem.empty j, r.slots.get Mem.empty j)).filter fun g => !g.2.1.cells.isEmpty

/-- Whether a buffered operation belongs to the phase log: the beats of a region copy do not (16 R349; log 51). -/
def BufOp.logged (b : BufOp) : Bool :=
  match b.instr with
  | .cpy _ _ => false
  | .cpyt _ _ _ => false
  | _ => true

/-- Whether a buffered operation is an ENQ. -/
def BufOp.isEnq (b : BufOp) : Bool :=
  match b.instr with
  | .enq _ _ => true
  | _ => false

/-- The bytes a task takes in the phase log: those of its part of the digest stream (16 R352; log 51). -/
def logSize (grans : List (Nat × Mem × Mem)) (ops : List BufOp) : Nat :=
  16 + grans.length * (8 + 512 + 4096) + (ops.map fun b => if b.isEnq then 88 else 24).sum

/-- A task's write set appended to the phase log (16 R349); one that finds it full marks the phase OVERFLOW, and no later
one is appended. The bytes that the log then holds in memory are free values: the spec gives the log no layout (log 109). -/
def Mach.appendLog (m : Mach) (t : LogTask) : Mach :=
  match m.phase with
  | none => m
  | some ph =>
    let n := logSize t.grans (t.ops.filter BufOp.logged)
    let cap := 2 ^ bits m.detBuf.toNat 4 0 * 65536
    if ph.overflow || decide (cap < ph.logBytes + n) then { m with phase := some { ph with overflow := true } }
    else
      let m1 : Mach := { m with phase := some { ph with log := ph.log ++ [t], logBytes := ph.logBytes + n }, nonce := m.nonce + n }
      m1.fwWrite (bits m.detBuf.toNat 51 16 * 2 ^ 16 + 0x10000 + ph.logBytes) (freeBytes n m.nonce)

/-- A commit added to the device. -/
def Mach.fork (m : Mach) (k : Commit) : Mach := { m with nextId := m.nextId + 1, commits := m.commits ++ [k] }

/-- The end of a region in a deterministic phase (16 R349): its write set goes to the phase log, its ENQs are performed at
once, and its task ends; those that find no room are a commit of their own. -/
def Mach.endDet (m : Mach) (o : Owner) (g : Agent) (r : Region) : Mach :=
  let t : LogTask := { tid := r.task.tid, asid := g.asid, owner := o, core := g.core, grans := r.grans, ops := r.ops,
                       ranges := g.ranges, res := g.res }
  let m1 := (m.appendLog t)
  let mark (e : TdtEnt) : TdtEnt := if r.task.ent = some e.id then { e with st := 2 } else e
  let (left, m2) := Mach.commitOps o g true (r.ops.filter BufOp.isEnq) { m1 with tdt := m1.tdt.map mark }
  if left = [] then m2
  else
    m2.fork { id := m2.nextId, owner := o, core := g.core, fw := g.fw, asid := g.asid, ent := none, queue := r.task.queue,
              stores := [], ops := left, ranges := g.ranges, res := g.res, det := true }

/-- The end of a region outside a phase: its commit is forked (09 R253). -/
def Mach.endPlain (m : Mach) (o : Owner) (g : Agent) (r : Region) : Mach :=
  let mark (e : TdtEnt) : TdtEnt := if r.task.ent = some e.id then { e with st := 2 } else e
  let m1 : Mach := { m with tdt := m.tdt.map mark }
  m1.fork { id := m1.nextId, owner := o, core := g.core, fw := g.fw, asid := g.asid, ent := r.task.ent,
            queue := r.task.queue, stores := r.log, ops := r.ops, ranges := g.ranges, res := g.res, det := false }

/-- TEND (07 R209): it waits for the copies issued inside the region; a load of its own bundle that has met a fault aborts the
region, and so does uncorrectable data that a vector read of its bundle has met (05 R139). -/
def execTend (s : State) : Out :=
  if !s.inRegion then .next (s.trap .regionNotOpen 0)
  else
    match s.xc.region with
    | none => .next s
    | some r =>
      match s.xc.pend.find? fun p => p.err.isSome with
      | some p =>
        (match p.err with
         | some t => .next (s.memFault t p.val.toNat)
         | none => .next s)
      | none =>
        if s.m.copies.any fun k => r.copies.contains k.id then .next s.stall
        else if s.iss.doom.isSome then .next s
        else
          let g := s.pre.agent s.iss.core s.iss.fw
          let t := s.updX fun x => { x with region := none, tasks := x.tasks.erase r.task }
          .next (t.upd fun m => if s.det then m.endDet s.owner g r else m.endPlain s.owner g r)

/-! ## FENCE (07 R205, 09 R245) -/

/-- The engine threads of an owner. -/
def Mach.threads (m : Mach) (o : Owner) : List Nat :=
  (m.copies.filter fun k => k.owner == o).map (fun k => k.id) ++ (m.subs.filter fun k => k.owner == o).map (fun k => k.id) ++
    (m.commits.filter fun k => k.owner == o).map (fun k => k.id)

/-- The tags of an owner's remote atomics. -/
def Mach.aopTags (m : Mach) (o : Owner) : List Nat :=
  (m.peerReqs.filter fun r => match r.for_ with
    | .aop w .. => w == o
    | _ => false).map fun r => r.tag

/-- Whether a routine call has not ended: it is open, or its image waits to be restored (06 R165). -/
def MxUnit.unended (u : MxUnit) (n : Word) : Bool :=
  u.parked.any (fun p => p.1 == n) || match u.rt with
    | some rt => rt.call == n
    | none => false

/-- Whether what a FENCE waits for is done. -/
def Mach.fenceOver (m : Mach) (c : Nat) (o : Owner) (f : FenceMark) : Bool :=
  let k := m.core c
  !((m.threads o).any fun i => f.threads.contains i) && !((m.aopTags o).any fun i => f.tags.contains i) &&
    (match f.call with
     | some n => !k.mx.unended n
     | none => true) &&
    (match f.xlat with
     | some n => decide (n ≤ k.xlatDone)
     | none => true)

/-- The instruction cache of a core invalidated (07 R205). -/
def Mach.dropLines (m : Mach) (c : Nat) : Mach := m.updCore c fun k => { k with icache := Tab.empty }

/-- FENCES that are over leave their context (07 R205). -/
def Mach.settleFences (m : Mach) (c : Nat) (fw : Bool) : Mach :=
  let x := m.ctx c fw
  if x.fences = [] then m
  else
    let o := m.ownerOf c fw
    let ended := x.fences.filter fun f => m.fenceOver c o f
    let m1 := m.updCtx c fw fun x => { x with fences := x.fences.filter fun f => !m.fenceOver c o f }
    let m2 := if ended.any fun f => f.inval then m1.dropCache c else m1
    if ended.any fun f => f.ifetch then m2.dropLines c else m2

/-- FENCE: older stores leave the queue; engine threads, routines and translation invalidations of the classes in PRED hold
back younger instructions of the classes in SUCC; at device and system scope the scalar data cache is invalidated when SUCC
holds L or A, as the FENCE issues and once more where what it waits for ends (log 7), and with X in a mask a younger fetch sees what was
stored before. -/
def execFence (scope : Scope) (pred succ : BitVec 8) (s : State) : Out :=
  let bit (m : BitVec 8) (i : Nat) : Bool := bitAt m.toNat i
  let t := if bit pred 1 || bit pred 2 || bit pred 7 then s.drained else s
  let inval := (scope == .device || scope == .system) && (bit succ 0 || bit succ 2)
  let eng := bit pred 3 || bit pred 4
  let mat := bit pred 5 || bit pred 6
  let mine := match s.kp.mx.rt with
    | some rt => if rt.fw == s.iss.fw then some rt.call else none
    | none => none
  let f : FenceMark :=
    { succ := succ, threads := if eng then s.pre.threads s.owner else [], tags := if eng then s.pre.aopTags s.owner else [],
      call := if mat then mine else none,
      xlat := if bit pred 7 && !s.kp.xlatReqs.isEmpty then some s.kp.xlatSeq else none, inval := inval,
      ifetch := bit pred 7 || bit succ 7 }
  let u := t.updX fun x => { x with fences := x.fences ++ [f] }
  let v := if bit pred 7 then u.upd fun m => m.dropLines s.iss.core else u
  let w := if inval then v.upd fun m => m.dropCache s.iss.core else v
  .next (w.upd fun m => m.settleFences s.iss.core s.iss.fw)

end Sys2Proof.Machine
end

