-- ==== Sys2Proof/Machine/Waits.lean ====
section
/-!
DEFINITION. Waits at their homes (07 R180, R191, 10 R260, R261): the arrival of a request, what serves a waiter, the completion
of a waiting bundle, and the timeout of MWAIT.
-/
namespace Sys2Proof.Machine

/-! ## Serving waiters -/

/-- One waiter on a work queue, in arrival order (07 R199, R200): a waiter that is not served holds back those of its kind
behind it on its queue. -/
def Mach.wakeQueue (p : Mach × List (Bool × Nat)) (w : Waiter) : Mach × List (Bool × Nat) :=
  let (m, held) := p
  match w.kind with
  | .deq q =>
    if held.contains (false, q) then (m, held)
    else
      (match m.deqServe w.who q w.det with
       | some (ws, m1) => (m1.serveWait w ws, held)
       | none => (m, (false, q) :: held))
  | .enq q item grans =>
    if held.contains (true, q) then (m, held)
    else if m.enqRoom q item then ((m.enqServe q item grans w.det).serveWait w [], held)
    else (m, (true, q) :: held)
  | _ => (m, held)

/-- Passes over the waiters on work queues, one for each of them. -/
def Mach.wakeQueues : Nat → Mach → Mach
  | 0, m => m
  | n + 1, m => Mach.wakeQueues n (m.waiters.foldl Mach.wakeQueue (m, [])).1

/-- A waiter with its kind replaced. -/
def Mach.setWaiting (m : Mach) (x : Waiter) (k : WaitKind) : Mach :=
  { m with waiters := m.waiters.map fun w => if w.isOf x.who x.kept then { w with kind := k } else w }

/-- SADV on its stream (07 R189): it discards what has come, and is over once it has discarded its count or the stream has no
more to come. -/
def Mach.wakeSadv (m : Mach) (w : Waiter) (q left : Nat) : Mach :=
  match m.homeOf w.who with
  | none => m
  | some (c, fw) =>
    if (m.core c).strmBusy fw q then m
    else
      let st := (m.ctx c fw).stream q
      let k := min left st.fifo.length
      let m1 := m.updCtx c fw fun x => { x with q := x.q.put q { st with fifo := st.fifo.drop k } }
      if left = k || !((m1.ctx c fw).stream q).isBound then m1.serveWait w [W (left - k)]
      else m1.setWaiting w (.sadv q (left - k))

/-- One waiter whose condition lies neither in an object nor in a queue: TBAR (07 R196), SADV, a command queue or timed buffer
with room (R184), a phase that is over (16 R347), an install that has drained (13 R306). -/
def Mach.wakeRest (m : Mach) (w : Waiter) : Mach :=
  match w.kind with
  | .tbar =>
    (match m.homeOf w.who with
     | some (c, _) => if m.teamTbar c (m.ctx c false).tbarIssued then m.serveWait w [] else m
     | none => m)
  | .sadv q left => m.wakeSadv w q left
  | .room timed engine => if m.copyFull w.who timed engine then m else m.serveWait w []
  | .phase => if !m.detOpen then m.serveWait w [] else m
  | .install => if !m.genBusy then m.serveWait w [] else m
  | _ => m

/-- Every waiter whose condition holds is served. -/
def Mach.wake (m : Mach) : Mach :=
  if m.waiters = [] then m
  else
    let m1 := m.wakeObjs
    let m2 := Mach.wakeQueues m1.waiters.length m1
    m2.waiters.foldl Mach.wakeRest m2

/-! ## WAIT_REQUEST_ARRIVAL (10 R261) -/

/-- A request takes its place behind those that arrived before it. -/
def Mach.takePlace (m : Mach) (w : Waiter) : Mach :=
  let m1 : Mach := { m with requests := m.requests.filter fun r => !r.isOf w.who w.kept, waiters := m.waiters ++ [w],
                            nextId := m.nextId + 1 }
  (m1.updOwner w.who fun x => x.updWait w.kept fun y => { y with arrived := true, seq := m.nextId }).wake

/-- A request whose home does not answer is answered with the cause, and entered in the violation log (13 R313). -/
def Mach.homeAnswer (m : Mach) (cause : Cause) (w : Waiter) : Mach :=
  match m.ctxOf w.who with
  | none => m
  | some x =>
    let va := match x.waitAt w.kept with
      | some y => y.va
      | none => 0
    let ia := ((covering x.ranges va.toNat 1).map fun i => rangeIa x.ranges i va.toNat).getD 0
    let (c, fw) := (m.homeOf w.who).getD (0, false)
    (m.logViol (m.viol ia w.asid .atomic cause c fw)).failWait w.who w.kept cause va

/-- Whether a waiter's object lies in a stack. -/
def Waiter.inStack (w : Waiter) (die : Nat) : Bool :=
  match w.obj with
  | some (.hbm d _) => d == die
  | _ => false

/-- What the home of a waiter's object answers instead of taking the request (13 R313). -/
def Mach.waiterFault (m : Mach) (w : Waiter) : Option Cause :=
  match w.obj with
  | some (.hbm d _) => m.homeFault d
  | _ => none

/-- A request at its home: an uninitialised record and a queue that takes no such request answer with their fault (07 R195,
R199, R200); a TBAR counts once its member's copies to the team window have landed (R196). -/
def Mach.arrive (m : Mach) (w : Waiter) : Mach :=
  match w.kind, w.obj with
  | .bar _, some p =>
    if (Bar.ofBytes (m.readPlace p 16).2).init then m.takePlace w else m.failWait w.who w.kept .syncBarrierUninit 0
  | .deq q, _ =>
    (match m.queueGate w.asid q with
     | some c => m.failWait w.who w.kept c 0
     | none => m.takePlace w)
  | .enq q _ _, _ =>
    (match m.queueGate w.asid q with
     | some c => m.failWait w.who w.kept c 0
     | none => if (m.wqAt q).state = 2 then m.failWait w.who w.kept .syncQueueClosed 0 else m.takePlace w)
  | .tbar, _ =>
    if m.teamCopies w.who then m
    else (m.updOwner w.who fun x => { x with tbarIssued := x.tbarIssued + 1 }).takePlace w
  | _, _ => m.takePlace w

/-- WAIT_REQUEST_ARRIVAL: the request of a context reaches its home, after every older store of its sequencer (09 R244); that
of a context that has been killed is discarded. -/
def execWaitRequestArrival (who : Owner) (s : State) : Out :=
  match s.m.requests.find? fun w => w.who == who with
  | none => .next s
  | some w =>
    if ((s.m.ctxOf who).bind fun x => x.waitAt w.kept).isNone then
      .next (s.upd fun m => { m with requests := m.requests.filter fun r => !r.isOf who w.kept })
    else
      .next (s.upd fun m =>
        let m1 := match m.homeOf who with
          | some (c, fw) => (m.drainStores c fw).wakeObjs
          | none => m
        match m1.waiterFault w with
        | some c => m1.homeAnswer c w
        | none => m1.arrive w)

/-! ## WAIT_COMPLETE and MWAIT_TIMEOUT -/

/-- WAIT_COMPLETE (07 R180): a wait that its home has served lets the bundle of its context complete. -/
def execWaitComplete (who : Owner) (s : State) : Out :=
  match s.m.homeOf who with
  | none => .next s
  | some (c, fw) =>
    let x := s.m.ctx c fw
    match x.wait with
    | none => .next s
    | some w =>
      if w.served.isSome && x.run == .running then
        .next (s.upd fun m => m.updCtx c fw fun x => { x with wait := some { w with granted := true } })
      else .next s

/-- Whether the ticks of a timeout have passed since it began. -/
def duePast (now : Word) (d : Word × Word) : Bool := decide (d.2 ≤ now - d.1)

/-- Whether a context's MWAIT times out now: not served, its ticks passed, and its word in reach (07 R191, 15 R339). -/
def Mach.timesOut (m : Mach) (who : Owner) (w : Wait) : Bool :=
  w.served.isNone && (match w.deadline with
    | some d => duePast m.time d
    | none => false) && ((m.homeOf who).isSome || match w.obj with
    | some (.spad _ _) => false
    | _ => true)

/-- MWAIT_TIMEOUT (07 R191, 15 R339): the ticks of an MWAIT have passed, and it returns the word's current value. A word in the
scratchpad of an absent context is read once it is back. -/
def execMwaitTimeout (who : Owner) (s : State) : Out :=
  let due (kept : Bool) : Option Waiter :=
    ((s.m.ctxOf who).bind fun x => x.waitAt kept).bind fun w =>
      if s.m.timesOut who w then
        some { who := who, obj := w.obj, kind := w.kind, asid := 0, det := false, kept := kept }
      else none
  match (due false).orElse fun _ => due true with
  | none => .next s
  | some w =>
    match w.obj with
    | some p => .next (s.upd fun m => m.serveWait w [m.objWord p])
    | none => .next s

end Sys2Proof.Machine
end

