-- ==== Sys2Proof/Machine/Units.lean ====
section
/-!
DEFINITION. Operations of the vector unit that finish (05 R130), assists (02 R48), and the checkers that catch a unit (20 R396).
-/
namespace Sys2Proof.Machine

/-! ## A checker that catches a unit (20 R396) -/

/-- RAS_SCU_MISMATCH or RAS_VU_RESIDUE of a context: inside an open region the region aborts and its item is requeued as for
uncorrectable data (10 R272), anywhere else the context is killed. Twice within 2^20 retired bundles fences the core. -/
def Mach.rasRaise (m : Mach) (c : Nat) (fw : Bool) (cause : Cause) : Mach :=
  let x := m.ctx c fw
  let m1 := m.logErr cause.code kDetected { fw := fw, loc := c }
  let m2 :=
    if x.region.isSome && !x.regSusp then m1.abortRegion c fw { cause := .memUncorrectable, val := 0, viol := none } 0
    else m1.kill c fw cause.code 0
  m2.rasSeen c cause

/-- Whether a context's sequencer is at work, so that its checker can see it. -/
def Ctx.live (x : Ctx) : Bool := x.run == .running || x.run == .halting

/-- The paired checker of a core's SCU sees a mismatch in the work of a context (20 R395, R396; log 30). -/
def Mach.scuMismatch (m : Mach) (c : Nat) (fw : Bool) : Mach :=
  if (m.ctx c fw).live then m.rasRaise c fw .rasScuMismatch else m

/-! ## Errors in words of SRAM (20 R394, R395; log 30) -/

/-- A second error in a word of a core's register files or caches, which a context's next bundle meets: a region aborts; a vector operand
kills the context (05 R139); anything else is a precise MEM_UNCORRECTABLE (04 R122). -/
def Mach.badWord (m : Mach) (c : Nat) (fw vec : Bool) (f : FailArray) : Mach :=
  let x := m.ctx c fw
  let t : Trp := { cause := .memUncorrectable, val := 0, viol := none }
  let m1 := m.logErr t.cause.code kDetected { site := f.site, unit := f.unit, array := f.array, row := f.row, fw := fw, loc := c }
  if x.run != .running then m
  else if x.region.isSome && !x.regSusp then m1.abortRegion c fw t 0
  else if vec then m1.kill c fw t.cause.code 0
  else m1.takeTrap c fw 0 t.cause.code x.pc 0

/-- A second error in a word of an accumulator bank or of the microprogram store, which the open routine of a core meets: it ends with
MEM_UNCORRECTABLE, as every fault of a routine ends it (06 R160). -/
def Mach.mxBadWord (m : Mach) (c : Nat) (f : FailArray) : Mach :=
  match (m.core c).mx.rt with
  | some r =>
    (m.uFault c r .memUncorrectable).logErr (Cause.code .memUncorrectable) kDetected
      { site := f.site, unit := f.unit, array := f.array, row := f.row, fw := r.fw, loc := c }
  | none => m

/-- Uncorrectable data that the home of a waiting request meets is its answer (13 R315). -/
def Mach.homeBadWord (m : Mach) (who : Owner) : Mach :=
  match m.waiters.find? fun w => w.who == who with
  | some w => m.homeAnswer .memUncorrectable w
  | none => m

/-- Whether the device gives no promise about an undetected fault at a core, or elsewhere (20 R394): the scrubber is off, some core
shows BELOW, or the core is FENCEPEND, FENCED or gated. -/
def Mach.noPromise (m : Mach) (at_ : Option Nat) : Bool :=
  !bitAt m.scrub.toNat 8 || (m.cores.l.any fun e => decide (e.2.margin.step < e.2.margin.floor)) ||
    match at_ with
    | some c => (m.core c).margin.state != 0 || bitAt m.power.gated.toNat (coreDie c)
    | none => false

/-- A byte of a scratchpad or of a stack changes undetected, where the device gives no promise. -/
def Mach.silent (m : Mach) (p : Place) (b : Byte) : Mach :=
  match p with
  | .spad c off => if m.noPromise (some c) ∧ off < Config.spadBytes then m.updCore c fun k => { k with spad := k.spad.write off [b] } else m
  | .hbm d off => if m.noPromise none ∧ d < Config.nStacks ∧ off < 2 ^ 36 then m.hbmWrite d off [b] else m
  | _ => m

/-- An s register changes undetected, where the device gives no promise. -/
def Mach.silentReg (m : Mach) (c : Nat) (fw : Bool) (n : Nat) (v : Word) : Mach :=
  if m.noPromise (some c) then m.updCtx c fw fun x => x.setS n v else m

/-! ## VECTOR_OP_COMPLETE -/

/-- Whether an operation has processed its last element: a drain has taken what it wants. -/
def VOp.last (v : VOp) : Bool :=
  match v.drain with
  | some d => d.want ≤ d.got
  | none => true

/-- The core of member 0 of the team of core c (02 R48). -/
def Mach.member0 (m : Mach) (c : Nat) : Nat :=
  if (m.core c).teamSize = 0 then c
  else
    match m.memberAt c 0 with
    | some (k, _) => k
    | none => c

/-- VECTOR_OP_COMPLETE (05 R130): the oldest operation of a core that has processed its last element is complete, and its
flags are ORed into its context's FFLAGS; one with marked elements goes to member 0's firmware instead (02 R48). A residue
mismatch ends it with RAS_VU_RESIDUE. -/
def execVectorOpComplete (core : Nat) (residue : Bool) (s : State) : Out :=
  onCore core
    (match (s.m.core core).vops.find? fun v => !v.queued && v.last with
     | none => .next s
     | some v =>
       .next (s.upd fun m =>
         let out (m : Mach) : Mach := m.updCore core fun k => { k with vops := k.vops.erase v }
         if residue then (out m).rasRaise core v.fw .rasVuResidue
         else if v.assist then
           let mark (w : VOp) : VOp := if w = v then { w with queued := true } else w
           let m1 := m.updCore core fun k => { k with vops := k.vops.map mark }
           let m2 := m1.updCtx core v.fw fun x => { x with assist := true }
           m2.updCore (m2.member0 core) fun k => { k with assistQ := k.assistQ ++ [core] }
         else (out m).orFlags core v.fw v.flags))

/-! ## ASSIST_ROUTINE -/

/-- The bytes of marked elements written. -/
def Core.writeMarks (k : Core) (marks : List (Nat × Nat × List Byte)) : Core :=
  marks.foldl (fun k p => k.vwrite p.1 p.2.1 p.2.2) k

/-- The assist of a core is served: the marked elements and the scalar of a VRED are written, the flags ORed, the busy state released,
and the sequencer goes on. -/
def Mach.assisted (m : Mach) (c : Nat) : Mach :=
  match (m.core c).vops.find? fun v => v.queued with
  | none => m
  | some v =>
    let m1 := m.updCore c fun k => { k.writeMarks v.marks with vops := k.vops.erase v }
    let mine (p : Pend) : Bool := v.vds.isEmpty && p.kind == .assist
    let m2 := ((m1.ctx c v.fw).pend.filter mine).foldl (fun m p => m.finishPend c v.fw p) m1
    let more := (m1.core c).vops.any fun w => w.queued && w.fw == v.fw
    (m2.orFlags c v.fw v.flags).updCtx c v.fw fun x => { x with assist := more, pend := x.pend.filter fun p => !mine p }

/-- ASSIST_ROUTINE (02 R48): the firmware of a core serves the oldest assist request queued to it. -/
def execAssistRoutine (core : Nat) (s : State) : Out :=
  match (s.m.core core).assistQ with
  | [] => s.atCore core false id
  | c :: r =>
    s.atCore core (s.m.powered core) fun m => (m.updCore core fun k => { k with assistQ := r }).assisted c

/-! ## TEAM_MEMBER_KILL (14 R324) -/

/-- Whether a member of the team of a worker has been killed, the worker itself not. -/
def Mach.teamDoomed (m : Mach) (c : Nat) : Bool :=
  let x := m.ctx c false
  match x.owner with
  | some (l, i) =>
    (match m.launchOf l, (m.core c).teamNo i with
     | some la, some t => la.killedTeams.contains t && x.run != .killed && x.run != .halted && x.run != .idle
     | _, _ => false)
  | none => false

/-- TEAM_MEMBER_KILL: a member of a team with a killed member is killed at its next bundle. -/
def execTeamMemberKill (core : Nat) (s : State) : Out :=
  s.atCore core (s.m.teamDoomed core) fun m => m.kill core false (Cause.code .ctxTeamKilled) 0

end Sys2Proof.Machine
end

