-- ==== Sys2Proof/Machine/Launch.lean ====
section
/-!
DEFINITION. Launches (12): the registers of submission queues, operator records and their checks, placement, the shadow bank and
its swap, the turn of a command processor, and the events of queues.
-/
namespace Sys2Proof.Machine

/-! ## Submission queues (12 R279 to R281) -/

/-- EN of SQCFG. -/
def SQ.en (q : SQ) : Bool := bitAt q.cfg.toNat 63
/-- RANK of SQCFG. -/
def SQ.rank (q : SQ) : Nat := bits q.cfg.toNat 58 56
/-- ASID of SQCFG. -/
def SQ.asid (q : SQ) : Nat := bits q.cfg.toNat 45 32
/-- Records of the ring. -/
def SQ.cap (q : SQ) : Nat := 2 ^ bits q.cfg.toNat 4 0

/-- The records written and not yet taken (12 R280). -/
def SQ.avail (q : SQ) : Nat := (q.tail - q.next).toNat

/-- Whether index i lies before index j, modulo 2^32. -/
def idxBefore (i j : BitVec 32) : Bool := decide (2 ^ 31 ≤ (i - j).toNat)

/-- SQHEAD: the first record of a launch that has not retired, else the next record to take (12 R279). -/
def Mach.sqHeadOf (m : Mach) (q : Nat) : BitVec 32 :=
  let s := m.sqAt q
  let ds := (m.launches.filter fun l => l.sq == q && !l.recorded && !idxBefore l.idx s.head).map fun l => (l.idx - s.head).toNat
  s.head + BitVec.ofNat 32 (ds.foldl min (s.next - s.head).toNat)

/-- Bytes read by the command processor of a core (12 R283, R286, 13 R298); a fault is entered in the violation log. -/
def Mach.cpRead (m : Mach) (c asid ia n : Nat) : Mach × Except Cause (List Byte) :=
  match m.translate asid ia .load with
  | (m1, .error f) => (m1.logViol (m1.viol ia asid .load f c true), .error f)
  | (m1, .ok p) => let (m2, bs) := m1.readPlace p n; (m2, .ok bs)

/-- A timeline counter advanced by 1 for a launch (12 R289, R290); an address of 0 is skipped, and one that faults is entered in
the violation log. -/
def Mach.cpAdd (m : Mach) (c asid : Nat) (a : Word) : Mach :=
  if a = 0 then m
  else
    match m.translate asid a.toNat .atomic with
    | (m1, .ok (.hbm d o)) => (m1.hbmWrite d o (bytesOfWord 8 (m1.objWord (.hbm d o) + 1))).wakeObjs
    | (m1, .ok _) => m1.logViol (m1.viol a.toNat asid .atomic .memSyncTarget c true)
    | (m1, .error f) => m1.logViol (m1.viol a.toNat asid .atomic f c true)

/-- The core named as command processor, for the logs. -/
def Mach.cpOf (m : Mach) (q : Nat) : Nat := ((m.sqAt q).cp).getD 0

/-- The phase of a queue completes (12 R290): its LASTP launch has been taken, and no launch of the queue that was taken is still
to retire. CNTG advances, then CNTJ for a LASTG phase. -/
def Mach.phaseDone (m : Mach) (q : Nat) : Mach :=
  let open_ := m.launches.any fun l => l.sq == q && !l.recorded && !l.ahead
  match (m.phaseRec.find? fun r => r.sq == q && r.last.isSome).bind fun r => r.last with
  | none => m
  | some h =>
    if open_ then m
    else
      let c := m.cpOf q
      let asid := (m.sqAt q).asid
      let m1 : Mach := { m with phaseRec := m.phaseRec.filter fun r => r.sq != q }
      let m2 : Mach := { m1 with phase := m1.phase.filter fun p => p.sq != q }
      let m3 := m2.cpAdd c asid (wordAt h 6)
      if bitAt (wordAt h 0).toNat 43 then m3.cpAdd c asid (wordAt h 7) else m3

/-- A launch whose record is written and whose records have been passed leaves the device. -/
def Launch.isOver (l : Launch) : Bool := l.recorded && !l.ahead

/-- A queue after a launch has been taken or has retired: SQHEAD moves on, a phase may complete, and a disabled queue goes OFF
once every launch of it has retired (12 R279, R280, R290). -/
def Mach.sqSettle (m : Mach) (q : Nat) : Mach :=
  let m1 := (m.updSq q fun s => { s with head := m.sqHeadOf q }).phaseDone q
  let m2 : Mach := { m1 with launches := m1.launches.filter fun l => !(l.sq == q && l.isOver) }
  let s := m2.sqAt q
  if !s.en && s.state != 0 && !(m2.launches.any fun l => l.sq == q && !l.recorded) then
    m2.updSq q fun s => { s with state := 0, head := if s.state = 2 then s.badIdx else s.head }
  else m2

/-- Launches retired by a cancel while ahead, whose records are discarded unread: those before index r, or all. -/
def Mach.dropAhead (m : Mach) (q : Nat) (r : Option (BitVec 32)) : Mach :=
  let gone (l : Launch) : Bool := l.sq == q && l.ahead && match r with
    | some i => idxBefore l.idx i
    | none => true
  let ls := m.launches.map fun l => if gone l then { l with ahead := false } else l
  { m with launches := ls.filter fun l => !(l.sq == q && l.isOver) }

/-- The stored value of SQCFG: reserved bits read 0, a LOGSIZE out of range stores 4. -/
def sqCfgWord (v : Word) : Word :=
  let x := v.toNat
  let lg := bits x 4 0
  W (bits x 63 63 * 2 ^ 63 + bits x 58 56 * 2 ^ 56 + bits x 45 32 * 2 ^ 32 + bits x 16 8 * 2 ^ 8 +
    if 4 ≤ lg ∧ lg ≤ 16 then lg else 4)

/-- A write of SQCFG (12 R279, R280, 13 R298). -/
def Mach.sqCfgWrite (m : Mach) (q : Nat) (v : Word) : Mach :=
  let s := m.sqAt q
  let w := sqCfgWord v
  if s.state = 0 then
    let run := bitAt w.toNat 63 && bits w.toNat 45 32 != 0
    m.updSq q fun s => { s with cfg := w, state := if run then 1 else 0, next := if run then s.head else s.next }
  else
    let mask : Word := W (2 ^ 63 + 7 * 2 ^ 56)
    (m.updSq q fun s => { s with cfg := (s.cfg &&& ~~~mask) ||| (w &&& mask) }).sqSettle q

/-- A write of SQTAIL (12 R279, R280). -/
def Mach.sqTailPut (m : Mach) (q : Nat) (t : BitVec 32) : Mach :=
  let s := m.sqAt q
  if s.state = 0 then (m.updSq q fun s => { s with tail := t, head := t, next := t }).dropAhead q none
  else if s.cap < (t - s.head).toNat then m.updSq q fun s => { s with tailErr := true }
  else m.updSq q fun s => { s with tail := t }

/-- A write of RESTART (12 R281). -/
def Mach.sqRestartAt (m : Mach) (q : Nat) (r : BitVec 32) : Mach :=
  let s := m.sqAt q
  if s.state = 2 ∧ (r - s.head).toNat ≤ (s.tail - s.head).toNat then
    ((m.updSq q fun s => { s with head := r, next := r, state := 1 }).dropAhead q (some r)).sqSettle q
  else m

/-- A write of SQBASE, in OFF (12 R280). -/
def Mach.sqBaseWrite (m : Mach) (q : Nat) (v : Word) : Mach :=
  if (m.sqAt q).state = 0 then m.updSq q fun s => { s with base := W (bits v.toNat 51 6 * 64) } else m

/-- A queue enters ERROR (12 R280, R284, R286): its message, and the entry of SYNC_SQ_RECORD in the error log. -/
def Mach.sqError (m : Mach) (q : Nat) (idx : BitVec 32) (c : Cause) : Mach :=
  let m1 := if c = .syncSqRecord then m.logErr c.code kDetected { loc := m.cpOf q, fw := true } else m
  (m1.updSq q fun s => { s with state := 2, cause := BitVec.ofNat 8 c.code, badIdx := idx }).msix 3

/-! ## Operator records (12 R282 to R284) -/

/-- KIND of a record. -/
def recKind (r : List Word) : Nat := (wordAt r 0).toNat / 2 ^ 56
/-- Bits [55:0] of word 0 of a record. -/
def recLow (r : List Word) : Nat := (wordAt r 0).toNat % 2 ^ 56
/-- NCONT of a HEAD record. -/
def recCont (r : List Word) : Nat := bits (wordAt r 0).toNat 55 48
/-- Whether the words of a record from number a on are zero. -/
def zeroFrom (a : Nat) (r : List Word) : Bool := (rangeFrom a (8 - a)).all fun j => wordAt r j == 0

/-- A record of a queue's ring, read in the firmware's address space (12 R279, 13 R298). -/
def Mach.sqRec (m : Mach) (q : Nat) (i : BitVec 32) : Mach × Except Cause (List Word) :=
  let s := m.sqAt q
  match m.cpRead (m.cpOf q) 0 (s.base.toNat + 64 * (i.toNat % s.cap)) 64 with
  | (m1, .ok bs) => (m1, .ok (wordsOfBytes 8 bs))
  | (m1, .error c) => (m1, .error c)

/-- n records of a queue from index i on; a fault with the index of its record. -/
def Mach.sqRecs (q : Nat) : Nat → BitVec 32 → Mach → Mach × Except (BitVec 32 × Cause) (List (List Word))
  | 0, _, m => (m, .ok [])
  | n + 1, i, m =>
    match m.sqRec q i with
    | (m1, .error c) => (m1, .error (i, c))
    | (m1, .ok r) =>
      match Mach.sqRecs q n (i + 1) m1 with
      | (m2, .ok rs) => (m2, .ok (r :: rs))
      | (m2, .error e) => (m2, .error e)

/-- Whether an intermediate address of a record is of the memory class and aligned. -/
def goodIa (a : Word) : Bool := a.toNat % 8 == 0 && decide (a.toNat < iaOwn)

/-- Whether the four words of a range register hold no reserved value (08 R215, R216, 07 R211). -/
def rangeWordsOk (w0 w1 w2 w3 : Word) : Bool :=
  let b := w0.toNat
  let l := w1.toNat
  let o := w2.toNat
  let p := w3.toNat
  b % 4096 == 0 && l % 4096 == 4095 && o % 4096 == 0 && o / 2 ^ 52 == 0 && p / 16 == 0 &&
    (!bitAt p 3 ||
      (decide (b ≤ l) && iaClass o != 3 && iaClass (o + (l - b)) == iaClass o && !(iaClass o == 2 && bitAt p 2)))

/-- What the continuation records of a launch give: range words, s registers, LIVEBASE, RNGSEED, RNGCTR and BFMT values, dies of
workers, and microword images with the number of their record, address and count. -/
structure LaunchIn where
  ranges : Tab Word
  s : Tab Word
  live : Word
  seed : Word
  ctr : Word
  bfmt : List (Nat × Nat)
  place : Tab Nat
  imgs : List (Nat × Nat × Nat)
  deriving DecidableEq, Repr

/-- A launch without continuation records: the bank's unset registers read 0 (12 R288). -/
def LaunchIn.none : LaunchIn :=
  { ranges := Tab.empty, s := Tab.empty, live := 0, seed := 0, ctr := 0, bfmt := [], place := Tab.empty, imgs := [] }

/-- One pair of a SET record. -/
def LaunchIn.setPair (x : LaunchIn) (p : Word × Word) : Option LaunchIn :=
  if p.1 = BitVec.allOnes 64 then some x
  else if p.1.toNat < 64 then some { x with s := x.s.put p.1.toNat p.2 }
  else Option.none

/-- One pair of a CSRSET record: LIVEBASE, RNGSEED, RNGCTR and BFMT0 to BFMT23 (12 R284, R288). -/
def LaunchIn.csrPair (x : LaunchIn) (p : Word × Word) : Option LaunchIn :=
  let n := p.1.toNat
  if p.1 = BitVec.allOnes 64 then some x
  else if n = 0x06B then some { x with live := p.2 &&& ~~~(0x800 : Word) }
  else if n = 0x051 then some { x with seed := p.2 }
  else if n = 0x052 then some { x with ctr := p.2 }
  else if 0x0C0 ≤ n ∧ n ≤ 0x0D7 then some { x with bfmt := x.bfmt ++ [(n - 0x0C0, p.2.toNat % 256)] }
  else Option.none

/-- The three pairs of a SET or CSRSET record. -/
def recPairs (r : List Word) : List (Word × Word) :=
  [(wordAt r 1, wordAt r 2), (wordAt r 3, wordAt r 4), (wordAt r 5, wordAt r 6)]

/-- The three pairs of a record taken up by f. -/
def LaunchIn.pairs (f : LaunchIn → Word × Word → Option LaunchIn) (x : LaunchIn) (r : List Word) : Option LaunchIn :=
  (recPairs r).foldl (fun a p => a.bind fun y => f y p) (some x)

/-- The fields of a PLACE record. -/
def recDies (r : List Word) : List Nat :=
  (rangeFrom 0 112).map fun k => bits (wordAt r (1 + k / 16)).toNat (4 * (k % 16) + 3) (4 * (k % 16))

/-- Whether a die that a PLACE record names is present and not gated. -/
def Mach.dieThere (m : Mach) (d : Nat) : Bool := decide (d < Config.nDies) && !bitAt m.power.gated.toNat d

/-- The continuation record number k of a launch; none where it fails the check of 12 R284. -/
def Mach.addRec (m : Mach) (x : LaunchIn) (k : Nat) (r : List Word) : Option LaunchIn :=
  let low := recLow r
  match recKind r with
  | 0x03 => if low < 8 then some x else Option.none
  | 0x10 =>
    if low < 8 ∧ zeroFrom 5 r ∧ rangeWordsOk (wordAt r 1) (wordAt r 2) (wordAt r 3) (wordAt r 4) then
      some { x with ranges := (rangeFrom 0 4).foldl (fun t j => t.put (4 * low + j) (wordAt r (1 + j))) x.ranges }
    else Option.none
  | 0x11 => if low < 8 ∧ wordAt r 7 = 0 then LaunchIn.pairs LaunchIn.setPair x r else Option.none
  | 0x12 => if low < 8 ∧ wordAt r 7 = 0 then LaunchIn.pairs LaunchIn.csrPair x r else Option.none
  | 0x13 =>
    if low < 8 ∧ zeroFrom 3 r ∧ (wordAt r 2).toNat < 256 ∧ goodIa (wordAt r 1) then
      some { x with imgs := x.imgs ++ [(k, (wordAt r 1).toNat, (wordAt r 2).toNat + 1)] }
    else Option.none
  | 0x14 =>
    if low < 2 ^ 16 ∧ ((recDies r).all fun d => d == 15 || m.dieThere d) then
      some { x with place := ((recDies r).zipIdx.filter fun p => p.1 != 15).foldl (fun t p => t.put (low + p.2) p.1) x.place }
    else Option.none
  | _ => Option.none

/-- What the continuation records of a launch from number k on give, up to the first that fails, with its number. -/
def Mach.addRecs (m : Mach) : Nat → LaunchIn → List (List Word) → LaunchIn × Option Nat
  | _, x, [] => (x, Option.none)
  | k, x, r :: rs =>
    match m.addRec x k r with
    | some y => m.addRecs (k + 1) y rs
    | Option.none => (x, some k)

/-- NW + 1 of a HEAD record. -/
def headWorkers (h : List Word) : Nat := bits (wordAt h 1).toNat 8 0 + 1
/-- TSIZE of a HEAD record. -/
def headTeam (h : List Word) : Nat := bits (wordAt h 0).toNat 40 36
/-- DET of a HEAD record. -/
def headDet (h : List Word) : Bool := bitAt (wordAt h 0).toNat 41
/-- LASTP of a HEAD record. -/
def headLastP (h : List Word) : Bool := bitAt (wordAt h 0).toNat 42
/-- LID of a HEAD record. -/
def headLid (h : List Word) : Nat := (wordAt h 0).toNat % 2 ^ 32

/-- The phase that the next launch of a queue belongs to. -/
def Mach.phaseOf (m : Mach) (q : Nat) : Option QPhase := m.phaseRec.find? fun r => r.sq == q

/-- Whether a HEAD record passes the check of 12 R284 and 16 R347. -/
def Mach.headOk (m : Mach) (q : Nat) (h : List Word) : Bool :=
  let ts := headTeam h
  bits (wordAt h 0).toNat 47 45 == 0 && bits (wordAt h 0).toNat 35 32 == 0 && bits (wordAt h 1).toNat 15 9 == 0 &&
    decide (headWorkers h ≤ m.enabledCount) && decide (ts ≤ 16) && (ts == 0 || headWorkers h % ts == 0) &&
    ([4, 5, 6, 7].all fun j => goodIa (wordAt h j)) &&
    (match m.phaseOf q with
     | some r => r.det == headDet h
     | Option.none => true) &&
    !(headDet h && bits m.detBuf.toNat 51 16 == 0)

/-! ## Microword images (12 R283) -/

/-- n words of a launch's address space, one after another; none where one cannot be read. -/
def Mach.cpWords (c asid : Nat) : Nat → Nat → Mach → Mach × Option (List Word)
  | 0, _, m => (m, some [])
  | n + 1, ia, m =>
    if iaClass ia ≠ 0 then (m, Option.none)
    else
      match m.cpRead c asid ia 8 with
      | (m1, .error _) => (m1, Option.none)
      | (m1, .ok bs) =>
        match Mach.cpWords c asid n (ia + 8) m1 with
        | (m2, some ws) => (m2, some (wordOfBytes bs :: ws))
        | (m2, Option.none) => (m2, Option.none)

/-- INDEX of a directory word. -/
def dirIndex (w : Word) : Nat := bits w.toNat 47 40
/-- LEN of a directory word: 0 means 256. -/
def dirLen (w : Word) : Nat := if bits w.toNat 39 32 = 0 then 256 else bits w.toNat 39 32

/-- The routines of an image by its directory words; none where it fails 12 R283. -/
def Mach.cpRoutines (c asid ia : Nat) : List Nat → List Word → Mach → Mach × Option (List (Nat × List Word))
  | _, [], m => (m, some [])
  | seen, w :: r, m =>
    if w.toNat / 2 ^ 48 ≠ 0 ∨ w.toNat % 8 ≠ 0 ∨ seen.contains (dirIndex w) then (m, Option.none)
    else
      match Mach.cpWords c asid (dirLen w) (ia + w.toNat % 2 ^ 32) m with
      | (m1, Option.none) => (m1, Option.none)
      | (m1, some ws) =>
        if (badMicro (dirLen w) 0 [] ws).isSome then (m1, Option.none)
        else
          match Mach.cpRoutines c asid ia (dirIndex w :: seen) r m1 with
          | (m2, some rs) => (m2, some ((dirIndex w, ws) :: rs))
          | (m2, Option.none) => (m2, Option.none)

/-- The images of a launch, in order: each with the number of its record; or the record of the first that fails. -/
def Mach.cpImages (c asid : Nat) : List (Nat × Nat × Nat) → Mach → Mach × Except Nat (List (Nat × List (Nat × List Word)))
  | [], m => (m, .ok [])
  | (k, ia, n) :: r, m =>
    match Mach.cpWords c asid n ia m with
    | (m1, Option.none) => (m1, .error k)
    | (m1, some ds) =>
      match Mach.cpRoutines c asid ia [] ds m1 with
      | (m2, Option.none) => (m2, .error k)
      | (m2, some rs) =>
        match Mach.cpImages c asid r m2 with
        | (m3, .ok is) => (m3, .ok ((k, rs) :: is))
        | (m3, .error e) => (m3, .error e)

/-- An image loaded into a store, with the entries of its own indices freed first; none where it has no room. -/
def MxUnit.loadImage (x : MxUnit) (rs : List (Nat × List Word)) : Option MxUnit :=
  let y := { x with dir := rs.foldl (fun t p => t.put p.1 DirEnt.reset) x.dir }
  rs.foldl (fun a p => a.bind fun z => z.place p.1 p.2) (some y)

/-- The images of a launch loaded into the stores of its cores; else the record of the first image without room on one. -/
def Mach.loadImages (m : Mach) (cores : List Nat) : List (Nat × List (Nat × List Word)) → Except Nat Mach
  | [] => .ok m
  | (k, rs) :: r =>
    match cores.foldl (fun (a : Option Mach) c => a.bind fun y =>
        ((y.core c).mx.loadImage rs).map fun x => y.updCore c fun z => { z with mx := x }) (some m) with
    | Option.none => .error k
    | some m1 => m1.loadImages cores r

/-! ## Placement (12 R287) -/

/-- Mesh steps between two dies (18 R366). -/
def meshSteps (a b : Nat) : Nat :=
  (a / 4 - b / 4) + (b / 4 - a / 4) + (a % 4 - b % 4) + (b % 4 - a % 4)

/-- The dies by their distance from a die, ties to the lower number. -/
def diesFrom (d : Nat) : List Nat := (rangeFrom 0 5).flatMap fun n => (rangeFrom 0 Config.nDies).filter fun e => meshSteps d e == n

/-- Whether a core holds a context: a worker that has not retired, or one that runs without a launch. -/
def Core.holdsCtx (k : Core) : Bool :=
  k.c0.owner.isSome || (k.c0.run != .idle && k.c0.run != .halted && k.c0.run != .killed)

/-- Whether workers may be placed on a core at all: it is enabled and powered, on a die that is not gated, being gated or under
self-test. -/
def Mach.placeable (m : Mach) (c : Nat) : Bool :=
  (m.core c).margin.state == 0 && m.powered c && !bitAt m.power.dieGate.toNat (coreDie c) &&
    !bitAt m.stDies.toNat (coreDie c)

/-- Whether a core can take a worker of an address space. -/
def Mach.canTake (m : Mach) (asid c : Nat) : Bool :=
  let k := m.core c
  let own := k.c0.owner.isSome && k.c0.asid == asid
  m.placeable c &&
    ((!k.holdsCtx && k.cands.isEmpty && k.shadow.isNone) || (own && k.shadow.isNone) || (!own && decide (k.cands.length < 8)))

/-- The cores of a die that can take a worker, by the rule f, and have not been taken: fewest candidates first, then in row-major
order. -/
def Mach.dieCores (m : Mach) (f : Nat → Bool) (d : Nat) (taken : List Nat) : List Nat :=
  let able := (rangeFrom (Config.coresPerDie * d) Config.coresPerDie).filter fun c => f c && !taken.contains c
  (rangeFrom 0 9).flatMap fun n => able.filter fun c => (m.core c).cands.length == n

/-- n cores of one die: of die d, or of the nearest die that is not full. -/
def Mach.placeTeam (m : Mach) (f : Nat → Bool) (d n : Nat) (taken : List Nat) : Option (List Nat) :=
  ((diesFrom d).map fun e => m.dieCores f e taken).find? (fun l => decide (n ≤ l.length)) |>.map fun l => l.take n

/-- Cores for teams of n workers with the given dies, in order; none where some team finds every die full. -/
def Mach.placeTeams (m : Mach) (f : Nat → Bool) (n : Nat) : List Nat → List Nat → Option (List Nat)
  | [], _ => some []
  | d :: r, taken =>
    match m.placeTeam f d n taken with
    | Option.none => Option.none
    | some cs => (m.placeTeams f n r (cs ++ taken)).map fun l => cs ++ l

/-- The die that ARG gives: 0 where it names no memory; none where its walk faults (12 R287). -/
def Mach.argDie (m : Mach) (asid : Nat) (ranges : Tab Word) (arg : Word) : Except (Nat × Cause) Nat :=
  if arg = 0 then .ok 0
  else
    match covering ranges arg.toNat 1 with
    | Option.none => .ok 0
    | some i =>
      let ia := rangeIa ranges i arg.toNat
      if iaClass ia ≠ 0 then .ok 0
      else
        match m.walk asid ia with
        | .error c => .error (ia, c)
        | .ok lf => .ok (if bits lf.val 55 54 = 0 then bits lf.val 59 56 / 2 else 0)

/-! ## The shadow bank (12 R288) -/

/-- What the shadow bank holds for a worker of a launch. -/
def shadowOf (la : Launch) (x : LaunchIn) (i : Nat) : Shadow :=
  let ts := headTeam la.head
  { launch := la.key, lcid := i, asid := la.asid, s := x.s, ranges := x.ranges, entry := wordAt la.head 2,
    cores := W (headWorkers la.head), team := if ts = 0 then 0 else W (ts * 16 + i % ts),
    liveBase := x.live, rngSeed := x.seed, rngCtr := x.ctr, bfmt := x.bfmt,
    detStat := W (bits (wordAt la.head 1).toNat 31 16 * 2 ^ 48 + b2n (headDet la.head)) }

/-- Context 0 as a swap leaves it. -/
def Ctx.swapped (x : Ctx) (sh : Shadow) : Ctx :=
  { x with
    s := sh.s, p := 1, rq := Tab.empty, q := Tab.empty, pc := sh.entry, loops := [], run := .running, ranges := sh.ranges, fflags := 0,
    vl := 0, rngSeed := sh.rngSeed, rngCtr := sh.rngCtr, geocfg := false, monStat := x.monStat &&& ~~~(1 : Word),
    asid := sh.asid, lcid := W sh.lcid, cores := sh.cores, liveBase := sh.liveBase, detStat := sh.detStat, level := 0,
    park1 := false, park2 := false, regSusp := false, abortPend := false, held := [], heldLost := false, absent := [],
    absentHeld := 0, absentLost := false, pend := [], resp := none, peerSt := none, storeq := [], fences := [], wait := none, waitKept := none,
    assist := false, tasks := [], taskReq := false, taskDrop := false, region := none, tbarIssued := 0, tbarDone := 0,
    remoteSince := false, owner := some (sh.launch, sh.lcid) }

/-- The open phase of a launch that starts begins with its first (16 R346): the queues and tasks that it finds are what a rerun
restores. -/
def Mach.beginPhase (m : Mach) (key : Nat) : Mach :=
  let f (p : Phase) : Phase :=
    if p.launches.contains key && !p.begun then
      { p with begun := true, start := m.time, queues := m.wq, tdt := m.tdt, traffic := [], outside := [] }
    else p
  { m with phase := m.phase.map f }

/-- A launch enters a core's context 0 (12 R288), as an acquire of device scope: the context, TEAMCFG and the bank formats take the
values of its bank, CORES.ENABLED the cores now enabled (19 R392). A core that a switch closed opens with its next epoch (15 R335). -/
def Mach.enter (m : Mach) (c : Nat) (sh : Shadow) : Mach :=
  let m1 := ((m.beginPhase sh.launch).rowEnd c false).updCore c fun k =>
    { k with c0 := k.c0.swapped { sh with cores := W (m.enabledCount * 2 ^ 16 + sh.cores.toNat % 2 ^ 16) }, teamCfg := sh.team,
             dcache := Tab.empty, icache := Tab.empty, switchTo := false, stop := none,
             epoch := if k.closed then (k.epoch + 1) % 2 ^ 16 else k.epoch, closed := false,
             bfmt := sh.bfmt.foldl (fun t p => t.put p.1 p.2) k.bfmt }
  m1.updLaunch sh.launch fun l =>
    { l with start := some (l.start.getD m.time), workers := l.workers.put sh.lcid (.on c), ranOn := c :: l.ranOn.erase c }

/-- A filled shadow bank swaps into a context 0 that is free (12 R288). -/
def Mach.swapIn (m : Mach) (c : Nat) : Mach :=
  let k := m.core c
  match k.shadow with
  | some sh => if k.holdsCtx then m else (m.updCore c fun k => { k with shadow := none }).enter c sh
  | Option.none => m

/-! ## Candidates (12 R296, 15 R341) -/

/-- A suspended team that may be picked. -/
def Mach.suspOf (m : Mach) (l t : Nat) : Option Susp :=
  m.susp.find? fun s => s.launch == l && s.team == t && s.away && !s.dead && s.targets.isEmpty

/-- The cores of a list that hold no context: of those that a switch has vacated, the ones no pick has taken (15 R341). -/
def Mach.stillFree (m : Mach) (vac : List Nat) : List Nat := vac.filter fun c => !(m.core c).holdsCtx

/-- Whether a member of a suspended team may resume on a core: it holds no context and no candidate, or the switch that picks
vacates it (15 R341). -/
def Mach.canResume (m : Mach) (vac : List Nat) (c : Nat) : Bool :=
  let k := m.core c
  m.placeable c && (vac.contains c || (!k.holdsCtx && k.cands.isEmpty && k.shadow.isNone))

/-- The cores that a suspended team would resume on, one for each member; none where 12 R287 cannot place it now. -/
def Mach.resumeCores (m : Mach) (vac : List Nat) (s : Susp) : Option (List (Nat × Nat)) :=
  match m.launchOf s.launch, s.members with
  | some la, x :: _ =>
    (m.placeTeam (m.canResume vac) (la.dies.get 0 x.lcid) s.members.length []).map fun cs =>
      (s.members.map fun y => y.lcid).zip cs
  | _, _ => Option.none

/-- Whether a candidate can be picked now. -/
def Mach.candReady (m : Mach) (vac : List Nat) (x : Cand) : Bool :=
  match x.what with
  | .launch _ => true
  | .team l t =>
    match m.suspOf l t with
    | some s => (m.resumeCores vac s).isSome
    | Option.none => false

/-- Whether one candidate is picked before another: the higher rank, then the higher passed count. -/
def Cand.before (a b : Cand) : Bool := decide (b.rank < a.rank) || (a.rank == b.rank && decide (b.passed < a.passed))

/-- The candidate picked of a list, longest waiting first: a starved one before all others (12 R296). -/
def pickCand (cs : List Cand) : Option Cand :=
  let starved := cs.filter fun x => decide (64 ≤ x.passed)
  (if starved = [] then cs else starved).foldl (fun b x => match b with
    | Option.none => some x
    | some y => if x.before y then some x else some y) Option.none

/-- A candidate list after a pick: the pick leaves, the others' passed counts rise. -/
def candsPassed (p : Cand) (cs : List Cand) : List Cand := (cs.erase p).map fun x => { x with passed := x.passed + 1 }

/-- A picked team's cores are kept for it until its members are restored (15 R341). -/
def Mach.reserve (m : Mach) (s : Susp) (ts : List (Nat × Nat)) : Mach :=
  let m1 : Mach := { m with susp := m.susp.map fun y => if y = s then { y with targets := ts } else y }
  ts.foldl (fun m t => m.updCore t.2 fun k => { k with c0 := { k.c0 with run := .switching } }) m1

/-- A candidate leaves a free core's list and starts; the slice starts anew, and the others' passed counts rise where the pick is
made now (12 R296). -/
def Mach.startCand (m : Mach) (vac : List Nat) (c : Nat) (p : Cand) (up : Bool) : Mach :=
  let m1 := m.updCore c fun k => { k with cands := if up then candsPassed p k.cands else k.cands.erase p, used := 0 }
  match p.what with
  | .launch sh => m1.enter c sh
  | .team l t =>
    match m1.suspOf l t with
    | Option.none => m1
    | some s =>
      match m1.resumeCores vac s with
      | some ts => m1.reserve s ts
      | Option.none => m1

/-- A free core takes its pick (12 R296, 15 R329): a team may resume on other cores, and the core picks again; with no candidate
that can start, a filled shadow bank swaps in. The number bounds the picks. -/
def Mach.pickNow (vac : List Nat) (c : Nat) : Nat → Mach → Mach
  | 0, m => m
  | n + 1, m =>
    if (m.core c).holdsCtx then m
    else
      match pickCand ((m.core c).cands.filter fun x => m.candReady (m.stillFree vac) x) with
      | some p => Mach.pickNow vac c n (m.startCand (m.stillFree vac) c p true)
      | Option.none => m.swapIn c

/-- A core with a free context 0: its shadow bank swaps in first, else it takes its pick (12 R288, R296). -/
def Mach.refill (m : Mach) (c : Nat) : Mach :=
  if (m.core c).shadow.isSome then m.swapIn c else Mach.pickNow [c] c ((m.core c).cands.length + 1) m

/-- A worker of a launch goes to its core: into the shadow bank, or the candidate list (12 R287, R288, R296). -/
def Mach.assign (m : Mach) (c rank : Nat) (sh : Shadow) : Mach :=
  let k := m.core c
  let own := k.c0.owner.isSome && k.c0.asid == sh.asid
  let m1 := m.updLaunch sh.launch fun l => { l with workers := l.workers.put sh.lcid (.waiting c) }
  if (!k.holdsCtx && k.cands.isEmpty) || own then (m1.updCore c fun k => { k with shadow := some sh }).swapIn c
  else (m1.updCore c fun k => { k with cands := k.cands ++ [{ what := .launch sh, rank := rank, passed := 0 }] }).refill c

/-! ## Taking a launch (12 R284 to R288) -/

/-- The launch that a HEAD describes. -/
def Mach.newLaunch (m : Mach) (q : Nat) (h : List Word) (x : LaunchIn) (nrec : Nat) (fb : Bool) : Launch :=
  let s := m.sqAt q
  { key := m.nextId, sq := q, idx := s.next, nrec := nrec, head := h, asid := s.asid, rank := s.rank, seed := x.seed,
    ctr := x.ctr, start := Option.none, faults := 0, killed := false, killedTeams := [], cancelled := false,
    graphCancelled := false, ahead := false, fallback := fb, workers := Tab.empty, dies := Tab.empty,
    ranOn := [], retired := false,
    recorded := false, digest := List.replicate 32 0 }

/-- The queue passes a launch's records, and the launch joins the queue's phase (12 R286, 16 R346). -/
def Mach.passHead (m : Mach) (q : Nat) (h : List Word) (nrec : Nat) : Mach :=
  let last := if headLastP h then some h else Option.none
  let recs := match m.phaseOf q with
    | some _ => m.phaseRec.map fun r => if r.sq = q then { r with last := last } else r
    | Option.none => { sq := q, det := headDet h, last := last } :: m.phaseRec
  Mach.updSq { m with phaseRec := recs } q fun s => { s with next := s.next + BitVec.ofNat 32 nrec }

/-- A phase that nothing has entered. -/
def Phase.fresh (q : Nat) (h : List Word) : Phase :=
  { sq := q, begun := false, hdr := W ((wordAt h 1).toNat / 2 ^ 16 * 2 ^ 16), launches := [], log := [], logBytes := 0,
    traffic := [], overflow := false, cancelled := false, run := 1, digest1 := List.replicate 32 0, sentAt := Option.none,
    start := 0, stopped := Option.none, report := Option.none, starts := [], queues := Tab.empty, tdt := [], outside := [] }

/-- A DET launch joins the open phase, or opens one. -/
def Mach.joinPhase (m : Mach) (q : Nat) (h : List Word) (key : Nat) : Mach :=
  if headDet h then
    let p := m.phase.getD (Phase.fresh q h)
    { m with phase := some { p with launches := p.launches ++ [key] } }
  else m

/-- A launch enters the device with a core for each worker. -/
def Mach.install (m : Mach) (q : Nat) (h : List Word) (x : LaunchIn) (nrec : Nat) (fb : Bool) (cores dies : List Nat) : Mach :=
  let la := { m.newLaunch q h x nrec fb with dies := ⟨(dies.zipIdx).map fun p => (p.2, p.1)⟩ }
  let m1 : Mach := { m with nextId := m.nextId + 1, launches := m.launches ++ [la] }
  let m2 := (m1.passHead q h nrec).joinPhase q h la.key
  ((cores.zipIdx).foldl (fun m p => m.assign p.1 la.rank (shadowOf la x p.2)) m2).sqSettle q

/-- A launch that no walk could place retires with status FAULT (13 R315). -/
def Mach.unplaced (m : Mach) (q : Nat) (h : List Word) (x : LaunchIn) (nrec : Nat) (fb : Bool) : Mach :=
  let la := { m.newLaunch q h x nrec fb with killed := true, retired := true }
  let m1 : Mach := { m with nextId := m.nextId + 1, launches := m.launches ++ [la] }
  ((m1.passHead q h nrec).joinPhase q h la.key).sqSettle q

/-- A core whose part of every earlier launch has retired, with nothing waiting for it (12 R283). -/
def Core.vacant (k : Core) : Bool := !k.holdsCtx && k.shadow.isNone && k.cands.isEmpty && !k.mx.busy

/-- A launch that passed its checks is placed (12 R283, R287); none while it is held. ARG is walked where some worker or team has no die
from a PLACE record. -/
def Mach.placeLaunch (m : Mach) (q : Nat) (h : List Word) (x : LaunchIn) (nrec : Nat) (fb : Bool)
    (imgs : List (Nat × List (Nat × List Word))) : Option Mach :=
  let s := m.sqAt q
  let c := m.cpOf q
  let n := max 1 (headTeam h)
  let named := (rangeFrom 0 (headWorkers h / n)).all fun t => x.place.get 15 (t * n) != 15
  match if named then .ok 0 else m.argDie s.asid x.ranges (wordAt h 3) with
  | .error (ia, f) =>
    some ((m.logViol { m.viol ia s.asid .load f c true with acc := 9 }).unplaced q h x nrec fb)
  | .ok arg =>
    let dies := (rangeFrom 0 (headWorkers h / n)).map fun t => x.place.get arg (t * n)
    match m.placeTeams (m.canTake s.asid) n dies [] with
    | Option.none => Option.none
    | some cores =>
      let all := dies.flatMap fun d => List.replicate n d
      if imgs = [] then some (m.install q h x nrec fb cores all)
      else if !(cores.all fun c => (m.core c).vacant) then Option.none
      else
        match m.loadImages cores imgs with
        | .error k => some (m.sqError q (s.next + BitVec.ofNat 32 k) .syncSqRecord)
        | .ok m1 => some (m1.install q h x nrec fb cores all)

/-- A launch whose records are all present is checked, the first record that fails named, and placed (12 R284); none while it is
held. -/
def Mach.takeLaunch (m : Mach) (q : Nat) (h : List Word) (conts : List (List Word)) (fb : Bool) : Option Mach :=
  let s := m.sqAt q
  let bad (m : Mach) (k : Nat) : Option Mach := some (m.sqError q (s.next + BitVec.ofNat 32 k) .syncSqRecord)
  if !m.headOk q h then bad m 0
  else
    let (x, failed) := m.addRecs 1 LaunchIn.none conts
    match Mach.cpImages (m.cpOf q) s.asid x.imgs m, failed with
    | (m1, .error k), _ => bad m1 k
    | (m1, .ok _), some k => bad m1 k
    | (m1, .ok imgs), Option.none => m1.placeLaunch q h x (conts.length + 1) fb imgs

/-- Whether a phase holds the next HEAD of a queue back: the queue's earlier phase has not completed, or another deterministic
phase is open (12 R286, 16 R346). -/
def Mach.phaseHolds (m : Mach) (q : Nat) (h : List Word) : Bool :=
  match m.phaseOf q with
  | some r => r.last.isSome || (r.det && m.phase.any fun p => p.sq != q)
  | Option.none => headDet h && m.phase.isSome

/-- Whether a fallback launch is plain (12 R297). -/
def plainLaunch (h : List Word) (conts : List (List Word)) : Bool :=
  bits (wordAt h 0).toNat 44 41 == 0 && headTeam h == 0 && zeroFrom 5 h &&
    conts.all fun r => recKind r == 0x10 || recKind r == 0x11

/-- A launch that a cancel has retired before the queue took it, with index i. -/
def Mach.aheadAt (m : Mach) (q : Nat) (i : BitVec 32) : Option Launch :=
  m.launches.find? fun l => l.sq == q && l.ahead && l.idx == i

/-- A queue passes a launch that a cancel has retired, whose records it does not read again (12 R293); a DET launch joins its phase, which
commits nothing (12 R291, 16 R351). None while it is held. -/
def Mach.passAhead (m : Mach) (q : Nat) (l : Launch) : Option Mach :=
  if m.phaseHolds q l.head then Option.none
  else
    let pass (y : Launch) : Launch := if y.key = l.key then { y with ahead := false } else y
    let m1 := (Mach.passHead { m with launches := m.launches.map pass } q l.head l.nrec).joinPhase q l.head l.key
    let m2 : Mach := if headDet l.head then { m1 with phase := m1.phase.map fun p => { p with cancelled := true } } else m1
    some (m2.sqSettle q)

/-- The launch at the head of a queue (12 R284, R286); none while it is held. -/
def Mach.tryHead (m : Mach) (q : Nat) (h : List Word) (fb : Bool) : Option Mach :=
  let s := m.sqAt q
  let n := recCont h + 1
  if recKind h ≠ 1 then (if fb then Option.none else some (m.sqError q s.next .syncSqRecord))
  else if s.avail < n ∨ m.phaseHolds q h then Option.none
  else
    match Mach.sqRecs q (n - 1) (s.next + 1) m with
    | (m1, .error (i, c)) => some (m1.sqError q i c)
    | (m1, .ok conts) => if fb && !plainLaunch h conts then Option.none else m1.takeLaunch q h conts fb

/-- The records between a WAIT and the HEAD that follows it are WAIT and NOP records; the index of that HEAD. -/
def Mach.headAfter (q : Nat) : Nat → BitVec 32 → Mach → Option (BitVec 32)
  | 0, _, _ => Option.none
  | n + 1, i, m =>
    match (m.aheadAt q i), m.sqRec q i with
    | some _, _ => some i
    | _, (_, .error _) => Option.none
    | Option.none, (m1, .ok r) =>
      if recKind r = 1 then some i
      else if recKind r = 2 ∨ recKind r = 3 then Mach.headAfter q n (i + 1) m1
      else Option.none

/-- Whether the WAIT at a queue's head belongs to a cancelled graph or job: to that of the HEAD that follows it (12 R291). -/
def Mach.waitCancelled (m : Mach) (q : Nat) : Bool :=
  let s := m.sqAt q
  match Mach.headAfter q (s.avail - 1) (s.next + 1) m with
  | Option.none => false
  | some i => (m.aheadAt q i).any fun l => l.graphCancelled

/-- A queue passes one record. -/
def Mach.passOne (m : Mach) (q : Nat) : Mach :=
  (m.updSq q fun s => { s with next := s.next + 1, state := 1 }).sqSettle q

/-- The counter of a WAIT record is read (12 R286): past it the queue runs on, an acquire of
device scope; a fault is an ERROR; else the queue waits. -/
def Mach.readWait (m : Mach) (q : Nat) (r : List Word) : Mach :=
  let s := m.sqAt q
  if m.waitCancelled q then m.passOne q
  else
    match m.cpRead (m.cpOf q) s.asid (wordAt r 1).toNat 8 with
    | (m1, .error c) => m1.sqError q s.next c
    | (m1, .ok bs) =>
      if tlPast (wordOfBytes bs) (wordAt r 2) then (m1.dropCache (m.cpOf q)).passOne q else m1.updSq q fun s => { s with state := 3 }

/-- The WAIT record at the head of a queue (12 R282, R286). -/
def Mach.tryWait (m : Mach) (q : Nat) (r : List Word) : Mach :=
  if zeroFrom 3 r ∧ goodIa (wordAt r 1) then m.readWait q r
  else m.sqError q (m.sqAt q).next .syncSqRecord

/-! ## The turn of a command processor (12 R286) -/

/-- What serving a queue's next record makes of the device, with the record; none where nothing can be served. -/
def Mach.serve (m : Mach) (q : Nat) : Option (List Word × Mach) :=
  let s := m.sqAt q
  if !(s.en && s.state == 1 && decide (0 < s.avail)) then Option.none
  else
    match m.aheadAt q s.next, m.sqRec q s.next with
    | some l, _ => (m.passAhead q l).map fun m2 => (l.head, m2)
    | Option.none, (m1, .error c) => some ([], m1.sqError q s.next c)
    | Option.none, (m1, .ok r) =>
      match recKind r with
      | 2 => some (r, m1.tryWait q r)
      | 3 => some (r, m1.passOne q)
      | _ => (m1.tryHead q r false).map fun m2 => (r, m2)

/-- A queue that is to be picked before another: the higher rank, then the one passed over more often, then the lower
number. -/
def Mach.sqFirst (m : Mach) (ranked : Bool) (a b : Nat) : Bool :=
  let x := m.sqAt a
  let y := m.sqAt b
  let rx := if ranked then x.rank else 0
  let ry := if ranked then y.rank else 0
  decide (ry < rx) || (rx == ry && (decide (y.passed < x.passed) || (x.passed == y.passed && decide (a < b))))

/-- The first of a list of queues. -/
def Mach.sqBest (m : Mach) (ranked : Bool) : List Nat → Option Nat
  | [] => Option.none
  | q :: r =>
    match m.sqBest ranked r with
    | Option.none => some q
    | some p => if m.sqFirst ranked p q then some p else some q

/-- The queue picked of those that can be served: one passed over 64 times first. -/
def Mach.sqPick (m : Mach) (ranked : Bool) (qs : List Nat) : Option Nat :=
  let starved := qs.filter fun q => decide (64 ≤ (m.sqAt q).passed)
  m.sqBest ranked (if starved = [] then qs else starved)

/-- The queues that name a core as their command processor. -/
def Mach.sqsOf (m : Mach) (c : Nat) : List Nat := m.sq.keys.filter fun q => (m.sqAt q).cp == some c

/-- The passed counts after a pick: 0 for the queue picked, one more for the others. -/
def Mach.sqPassed (m : Mach) (q : Nat) (qs : List Nat) : Mach :=
  (qs.foldl (fun m p => m.updSq p fun s => { s with passed := s.passed + 1 }) m).updSq q fun s => { s with passed := 0 }

/-- The command processor of a queue serves it, if it is the queue's turn and its next record is of the kind asked for. -/
def State.cpTurn (s : State) (q : Nat) (kind : List Word → Bool) : Out :=
  if Config.nSq ≤ q then .fault (.noSuchObject "queue")
  else
    match (s.m.sqAt q).cp with
    | Option.none => .next s
    | some c =>
      if !(s.m.powered c && (s.m.core c).wdogFed) then .next s
      else
        let qs := (s.m.sqsOf c).filter fun p => (s.m.serve p).isSome
        if s.m.sqPick true qs ≠ some q then .next s
        else
          match s.m.serve q with
          | some (r, m1) => if kind r then .next { s with m := m1.sqPassed q (qs.filter fun p => p != q) } else .next s
          | Option.none => .next s

/-- SQ_HEAD_RECORD (12 R284, R286 to R288): the command processor takes the launch at a queue's head. A record of a kind that does
not belong there, or one that cannot be read, puts the queue in ERROR. -/
def execSqHeadRecord (q : Nat) (s : State) : Out := s.cpTurn q fun r => recKind r != 2 && recKind r != 3

/-- SQ_WAIT_RECORD (12 R286). -/
def execSqWaitRecord (q : Nat) (s : State) : Out := s.cpTurn q fun r => recKind r == 2

/-- SQ_NOP_RECORD (12 R282). -/
def execSqNopRecord (q : Nat) (s : State) : Out := s.cpTurn q fun r => recKind r == 3

/-- SQ_WAIT_SATISFIED (12 R286, R291): a queue in WAIT reads its counter again; a counter that satisfies the record is passed, a
read that faults is an ERROR, and the WAIT of a cancelled graph or job completes. A queue whose EN is clear takes nothing. -/
def execSqWaitSatisfied (q : Nat) (s : State) : Out :=
  if Config.nSq ≤ q then .fault (.noSuchObject "queue")
  else if (s.m.sqAt q).state ≠ 3 then .next s
  else
    match s.m.sqRec q (s.m.sqAt q).next with
    | (m1, .error c) => .next { s with m := m1.sqError q (s.m.sqAt q).next c }
    | (m1, .ok r) => .next { s with m := m1.readWait q r }

/-- FALLBACK_LAUNCH (12 R297): the I/O die's arbiter starts a plain launch of a queue whose firmware has not yet fed its watchdog,
in round robin without RANK. -/
def execFallbackLaunch (q : Nat) (s : State) : Out :=
  if Config.nSq ≤ q then .fault (.noSuchObject "queue")
  else
    match (s.m.sqAt q).cp with
    | Option.none => .next s
    | some c =>
      let serve (p : Nat) : Option Mach :=
        let x := s.m.sqAt p
        if !(x.en && x.state == 1 && decide (0 < x.avail)) then Option.none
        else
          match s.m.aheadAt p x.next, s.m.sqRec p x.next with
          | some l, _ => s.m.passAhead p l
          | Option.none, (m1, .error e) => some (m1.sqError p x.next e)
          | Option.none, (m1, .ok r) => m1.tryHead p r true
      if (s.m.core c).wdogFed || !s.m.powered c then .next s
      else
        let qs := (s.m.sqsOf c).filter fun p => (serve p).isSome
        if s.m.sqPick false qs ≠ some q then .next s
        else
          match serve q with
          | some m1 => .next { s with m := m1.sqPassed q (qs.filter fun p => p != q) }
          | Option.none => .next s

/-! ## Host writes of the queue registers -/

/-- A queue of an event must exist. -/
def State.atSq (s : State) (q : Nat) (f : Mach → Mach) : Out :=
  if q < Config.nSq then .next (s.upd f) else .fault (.noSuchObject "queue")

/-- SQ_ENABLE (12 R279, R280): a write of SQCFG with EN set. -/
def execSqEnable (q : Nat) (cfg : Word) (s : State) : Out := s.atSq q fun m => m.sqCfgWrite q (cfg ||| W (2 ^ 63))

/-- SQ_DISABLE (12 R279, R280): a write of SQCFG with EN clear. -/
def execSqDisable (q : Nat) (cfg : Word) (s : State) : Out := s.atSq q fun m => m.sqCfgWrite q (cfg &&& ~~~(W (2 ^ 63)))

/-- SQ_TAIL_WRITE (12 R279, R280). -/
def execSqTailWrite (q : Nat) (tail : BitVec 32) (s : State) : Out := s.atSq q fun m => m.sqTailPut q tail

/-- SQ_RESTART (12 R281). -/
def execSqRestart (q : Nat) (idx : BitVec 32) (s : State) : Out := s.atSq q fun m => m.sqRestartAt q idx

/-! ## The watchdog (12 R297, 20 R408) -/

/-- Whether the watchdog of a core has run out: firmware has not written WDOG within WDT ticks, or has halted (04 R111). -/
def Mach.wdogDue (m : Mach) (c : Nat) : Bool :=
  let k := m.core c
  m.powered c && (k.c1.run == .halted || (k.wdogFed && decide (k.wdt < (m.time - k.wdogTick).toNat)))

/-- WATCHDOG_EXPIRY: context 1 restarts from flash. -/
def execWatchdogExpiry (core : Nat) (s : State) : Out :=
  s.atCore core (s.m.wdogDue core) fun m => (m.restartFw core).msix 4

/-- WDOG_WRITE: a write of WDOG by context 1, whatever its value. -/
def execWdogWrite (_val : Word) (s : State) : Out :=
  .next (s.updK fun k => { k with wdogFed := true, wdogTick := s.pre.time })

end Sys2Proof.Machine
end

