-- ==== Sys2Proof/Machine/Image.lean ====
section
/-!
DEFINITION. The save image and the felt image of a suspended member (15 R330 to R337, R341): liveness descriptors, the context
block, the save engine, the merge of felt entries, and the restoring of a member.
-/
namespace Sys2Proof.Machine

/-! ## Parts of memory through the firmware's address space (log 12) -/

/-- n bytes of a memory, from address 0 of src, laid at a place. -/
def Mach.putPart (m : Mach) (p : Place) (n : Nat) (src : Mem) : Mach :=
  match p with
  | .spad c o => m.updCore c fun k => { k with spad := k.spad.splice o n src }
  | .hbm d o => { m with hbm := m.hbm.put d ((m.stack d).splice o n src) }
  | _ => ((chunks 64 (ceilDiv n 64) (src.read 0 n)).zipIdx).foldl (fun m r => m.writePlace (p.plus (64 * r.2)) r.1) m

/-- n bytes at a place, as a memory from address 0. -/
def Mach.getPart (m : Mach) (p : Place) (n : Nat) : Mach × Mem :=
  match p with
  | .spad c o => (m, (m.core c).spad.slice o n 0)
  | .hbm d o => (m, (m.stack d).slice o n 0)
  | _ => let (m1, bs) := m.readPlace p n; (m1, Mem.empty.write 0 bs)

/-- n bytes from an address on, cut where pages of 4 KiB end: offset from the start and length of each piece. -/
def pagePieces (ia n : Nat) : List (Nat × Nat) :=
  let h := min n (4096 - ia % 4096)
  ((0, h) :: (rangeFrom 0 (ceilDiv (n - h) 4096)).map fun i => (h + 4096 * i, min 4096 (n - h - 4096 * i))).filter fun p => p.2 != 0

/-- A part of memory written by the save engine; a page that does not translate is left out. -/
def Mach.fwSplice (m : Mach) (ia n : Nat) (src : Mem) : Mach :=
  (pagePieces ia n).foldl
    (fun m p =>
      match m.translate 0 (ia + p.1) .store with
      | (m1, .ok pl) => m1.putPart pl p.2 (src.slice p.1 p.2 0)
      | (m1, .error _) => m1) m

/-- A part of memory read by the save engine; none where a page does not translate. -/
def Mach.fwFetch (m : Mach) (ia n : Nat) : Mach × Option Mem :=
  (pagePieces ia n).foldl
    (fun a p =>
      match a with
      | (m, none) => (m, none)
      | (m, some acc) =>
        match m.translate 0 (ia + p.1) .load with
        | (m1, .error _) => (m1, none)
        | (m1, .ok pl) =>
          let (m2, part) := m1.getPart pl p.2
          (m2, some ⟨acc.cells ++ (part.slice 0 p.2 p.1).cells⟩)) (m, some Mem.empty)

/-- The words of a table as bytes. -/
def memOfTab (t : Tab Word) : Mem := ⟨t.l.flatMap fun e => cellsOf (8 * e.1) (bytesOfWord 8 e.2)⟩

/-- The words that have a byte listed, as a table. -/
def tabOfMem (m : Mem) : Tab Word :=
  let keys := m.cells.foldl (fun l c => match l with
    | k :: r => if c.1 / 8 = k then k :: r else c.1 / 8 :: k :: r
    | [] => [c.1 / 8]) []
  ⟨keys.reverse.map fun k => (k, m.word (8 * k))⟩

/-! ## Liveness descriptors (15 R330, R331) -/

/-- The full descriptor: every register, and the whole scratchpad. -/
def Desc.all (n : Nat) (wait : Bool) : Desc :=
  { index := n, wait := wait, full := true,
    words := List.replicate 5 (BitVec.allOnes 64) ++ [1, W (Config.spadBytes * 2 ^ 32)] ++ List.replicate 9 0 }

/-- The ranges of a descriptor, as offset and length. -/
def descRanges (ws : List Word) : List (Nat × Nat) :=
  (rangeFrom 0 (bits (wordAt ws 5).toNat 3 0)).map fun j =>
    ((wordAt ws (6 + j)).toNat % 2 ^ 32, (wordAt ws (6 + j)).toNat / 2 ^ 32)

/-- Whether a descriptor keeps the rules of 15 R330. -/
def descOk (ws : List Word) : Bool :=
  decide ((wordAt ws 5).toNat ≤ 8) && wordAt ws 14 == 0 && wordAt ws 15 == 0 &&
    (descRanges ws).all fun r => r.1 % 64 == 0 && r.2 % 64 == 0 && decide (64 ≤ r.2) && decide (r.1 + r.2 ≤ Config.spadBytes)

/-- The s registers that a descriptor names. -/
def descS (ws : List Word) (i : Nat) : Bool := bitAt (wordAt ws 0).toNat i
/-- The v registers that a descriptor names. -/
def descV (ws : List Word) (i : Nat) : Bool := bitAt (wordAt ws (1 + i / 64)).toNat (i % 64)

/-- The 128 bytes of a descriptor, read through the range registers of a core's context 0; none where they cannot be read. -/
def Mach.descBytes (m : Mach) (c n : Nat) : Mach × Option (List Byte) :=
  let x := m.ctx c false
  let va := x.liveBase.toNat / 4096 * 4096 + 128 * n
  match m.mapAccess c false va 128 true false with
  | .error _ => (m, none)
  | .ok (.mem ia) =>
    (match m.translate x.asid ia .load with
     | (m1, .error e) => (m1.logViol (m1.viol ia x.asid .load e c false), none)
     | (m1, .ok p) => let (m2, bs) := m1.readPlace p 128; (m2, if m1.badIn p 128 then none else some bs))
  | .ok t =>
    match (m.resolve c).of t with
    | some (k, _, off) => (m, if m.badSpad k off 128 then none else some (m.spadRead k off 128))
    | none => (m, none)

/-- The descriptor of a member that stops, in a wait or at a YIELD that names one (15 R330, R331). -/
def Mach.descOf (m : Mach) (c : Nat) (how : Option Nat) : Mach × Desc :=
  match how with
  | none => (m, Desc.all 0 true)
  | some n =>
    match m.descBytes c n with
    | (m1, none) => (m1, Desc.all n false)
    | (m1, some bs) =>
      let ws := wordsOfBytes 16 bs
      (m1, if descOk ws then { index := n, wait := false, full := false, words := ws } else Desc.all n false)

/-! ## The context block (15 R334) -/

/-- TASKSTAT of a context (10 R272). -/
def Ctx.taskStat (x : Ctx) : Word :=
  let q := match x.tasks with
    | t :: _ => t.queue
    | [] => 0
  let opn := match x.region with
    | some r => r.aborted.isNone
    | none => false
  W (x.taskTid * 2 ^ 16 + b2n opn * 2 ^ 15 + b2n x.taskReq * 2 ^ 14 + b2n x.taskDrop * 2 ^ 13 + q)

/-- The loop entries of the block, innermost first. -/
def loopWords (loops : List LoopEnt) : List Word :=
  loops.flatMap fun e => [e.start, e.last, W (e.count.toNat * 2 ^ 32 + e.index.toNat), b2w e.flex]

/-- Word 0 of the block. -/
def blockHead (epoch : Nat) (d : Desc) (depth : Nat) (done : Bool) : Word :=
  W (epoch * 2 ^ 48 + d.index * 2 ^ 16 + depth * 2 ^ 13 + b2n d.full * 2 ^ 12 + b2n d.wait * 2 ^ 11 + b2n done * 2 ^ 10 + 1)

/-- The words of the block from 0x010 to 0x0A0. -/
def Core.blockWords (k : Core) : List Word :=
  let x := k.c0
  [W x.p.toNat, x.vl, W x.fflags.toNat, b2w x.geocfg, x.monStat, x.monVal, x.rngSeed, x.rngCtr, x.cpySeq, x.yieldSkip, x.tvec,
   x.tsave, x.lcid, x.cores, k.teamCfg, x.liveBase, W x.asid, x.taskStat, k.mx.seq]

/-- The bytes of RQN: the filled entries of each unit. -/
def Ctx.rqCounts (x : Ctx) : List Byte := (rangeFrom 0 7).map fun u => BitVec.ofNat 8 (x.rqOf u).length

/-- The word of RINGPTR: WCOUNT below RCOUNT (08 R222). -/
def RingSt.ptr (r : RingSt) : Word := W (r.r.toNat * 2 ^ 32 + r.w.toNat)

/-- The bytes of RINGLEND. -/
def RingSt.lend (r : RingSt) : List Byte := bytesOfNat 2 (b2n r.stop * 256 + r.lentCount)

/-- The entries of ABSQ: those held at suspension first (15 R340). -/
def absWords (x : Ctx) : List Word :=
  (x.absent.zipIdx).flatMap fun h => [W (h.1.code.toNat + b2n (decide (h.2 < x.absentHeld)) * 256), h.1.val, h.1.tick, 0]

/-- The words of the block that a wait fills: ARRSEQ and the slot word, and the address waited on. -/
def Ctx.waitWords (x : Ctx) : List Word :=
  match x.wait with
  | none => [0, 0]
  | some w =>
    let arr := match w.obj with
      | some (.spad _ _) => w.seq % 2 ^ 16
      | _ => 0
    [W (arr * 2 ^ 32 + w.word.toNat), w.va]

/-- The context block of the member on a core whose context 0 is x, with the s registers that the descriptor does not name left
out. -/
def Core.block (k : Core) (d : Desc) : Mem :=
  let x := k.c0
  let b0 := Mem.empty.putWords 0 [blockHead k.epoch d x.loops.length (x.wait.any fun w => w.done), x.pc]
  let b1 := (b0.putWords 0x010 k.blockWords).putWords 0x0C0 (loopWords x.loops)
  let b2 := (rangeFrom 0 7).foldl (fun b u => b.putWords (0x380 + 32 * u) (x.rqOf u)) b1
  let b3 := (b2.write 0x460 x.rqCounts).putWords 0x468 ((rangeFrom 0 12).map fun i => x.lat.get 0 i)
  let b4 := (b3.putWords 0x4C8 x.waitWords).putWords 0x4D8 ((rangeFrom 0 32).map fun i => x.ranges.get (rangeReset i) i)
  let b5 := b4.write 0x5D8 ((rangeFrom 0 24).map fun b => BitVec.ofNat 8 (k.bfmt.get 0x0F b))
  let b6 := b5.putWords 0x5F0 ((rangeFrom 0 16).map fun n => k.ringCfg.get 0 n)
  let b7 := b6.putWords 0x670 ((rangeFrom 0 16).map fun n => (k.ringOf n).ptr)
  let b8 := b7.write 0x6F0 ((rangeFrom 0 16).flatMap fun n => (k.ringOf n).lend)
  let b9 := b8.write 0x710 ((rangeFrom 0 16).map fun n => (x.stream n).strm)
  ((b9.putWords 0x720 d.words).putWords 0x7A0 [W (b2n x.absentLost * 256 + x.absent.length)]).putWords 0x800 (absWords x)

/-! ## The save engine (15 R329, R334) -/

/-- The words of the routine directory. -/
def Core.dirWords (k : Core) : List Word :=
  (rangeFrom 0 256).map fun b =>
    let e := k.mx.dir.get DirEnt.reset b
    if e.valid then W (1 + e.start * 16 + e.len * 2 ^ 20) else 0

/-- The save image of the member on core c written under its SWIMG; unnamed s slots, v slots and scratchpad bytes are left as they
are. -/
def Mach.writeImage (m : Mach) (c : Nat) (d : Desc) (park : Mem) : Mach :=
  let k := m.core c
  let ia := swimgIa k.swimg
  let blk := k.block d
  let m1 := (m.fwSplice ia 0x180 blk).fwSplice (ia + 0x380) 0xC80 (blk.slice 0x380 0xC80 0)
  let sregs := (rangeFrom 0 64).filter fun i => descS d.words i
  let m2 := sregs.foldl (fun m i => m.fwWrite (ia + 0x180 + 8 * i) (bytesOfWord 8 (k.c0.sreg i))) m1
  let m3 := m2.fwSplice (ia + 0x1000) parkBytes park
  let vregs := (rangeFrom 0 256).filter fun i => descV d.words i
  let m4 := vregs.foldl (fun m i => m.fwSplice (ia + 0x42000 + 0x2000 * i) 0x2000 (k.v.get Mem.empty i)) m3
  let m5 := (descRanges d.words).foldl (fun m r => m.fwSplice (imgSpad k.swimg + r.1) r.2 (k.spad.slice r.1 r.2 0)) m4
  let qs := (rangeFrom 0 16).filter fun n => (k.c0.stream n).isBound
  let m6 := qs.foldl (fun m n => m.fwWrite (ia + 0x3C2000 + 512 * n) (bytesOfWords (k.c0.stream n).fifo)) m5
  (m6.fwSplice (ia + 0x3C4000) 0x10000 (memOfTab k.mx.store)).fwSplice (ia + 0x3D4000) 0x800 (Mem.empty.putWords 0 k.dirWords)

/-- The unit after an open routine of context 0 is parked (06 R165, R168, 15 R329); a routine of context 1 runs on. -/
def MxUnit.parkedOut (x : MxUnit) : MxUnit :=
  let held := x.held.filter fun h => h.1
  match x.rt with
  | some r => if r.fw then { x with held := held } else { x with tags := Tab.empty, mode := mxModeReset, rt := none, held := held }
  | none => { x with tags := Tab.empty, mode := mxModeReset, held := held }

/-- The core whose park image is saved: a routine that context 1 opened is not part of it (15 R341). -/
def Core.forPark (k : Core) : Core :=
  match k.mx.rt with
  | some r => if r.fw then { k with mx := { k.mx with rt := none } } else k
  | none => k

/-- Held faults go first into the queue of absent faults (15 R340). -/
def Ctx.toAbsent (x : Ctx) : Ctx :=
  { x with absent := x.held ++ x.absent, absentHeld := x.held.length, absentLost := x.absentLost || x.heldLost, held := [],
           heldLost := false }

/-- The member that core c's context 0 is, as it is kept while it is away. -/
def Mach.memberOf (m : Mach) (c l i : Nat) (d : Desc) : SuspMember :=
  let k := m.core c
  { launch := l, lcid := i, swimg := k.swimg, core := c, epoch := k.epoch,
    kept := { k.c0 with s := k.c0.s.drop fun n => !descS d.words n }, ringCfg := k.ringCfg, ringLent := k.ring,
    pushed := ⟨k.ring.l.map fun r => (r.1, r.2.w)⟩, bfmt := k.bfmt }

/-- What a wait that its home has served since the stop has brought is in the registers that are saved (15 R339). -/
def Ctx.settleWait (x : Ctx) : Ctx :=
  match x.wait.bind fun w => w.served with
  | some vs => x.takeServed vs
  | none => x

/-- A stopped member is saved (15 R329): its older work completes, an open routine is parked, and its image is written. -/
def Mach.saveMember (m : Mach) (c l i : Nat) (d : Desc) : Mach :=
  let m1 := ((m.drainPend c false).drainStores c false).wakeObjs
  let m2 := m1.updCtx c false fun x => x.settleWait.toAbsent
  let m3 := m2.writeImage c d ((m2.core c).forPark.parkImage false)
  let x := m3.memberOf c l i d
  let t := match m3.launchOf l with
    | some la => la.teamOf i
    | none => i
  let m4 := m3.updCore c fun k => { k with mx := k.mx.parkedOut }
  let m5 := m4.updLaunch l fun la => { la with workers := la.workers.put i .suspended }
  { m5 with susp := m5.susp.map fun s =>
      if s.launch = l ∧ s.team = t then { s with members := s.members ++ [x] } else s }

/-! ## The felt image (15 R336, R337) -/

/-- The IA of a member's felt image. -/
def feltIa (w : Word) : Nat := swimgIa w + 0x400000

/-- The first two words of a felt entry, and its data. -/
def feltEntry : ArrKind → Word × Word × List Byte
  | .bytes row mask data => (W (2 ^ 56 + row), W mask.toNat, data)
  | .beats off dec cerr => (W (2 * 2 ^ 56 + off), W (dec % 2 ^ 40 + b2n cerr * 2 ^ 40), List.replicate 64 0)
  | .push ring count => (W (3 * 2 ^ 56 + ring), W count, List.replicate 64 0)

/-- The low word of the felt image at an offset; 0 where it cannot be read. -/
def Mach.feltWord (m : Mach) (felt off : Nat) : Mach × Nat :=
  match m.fwRead (felt + off) 8 with
  | (m1, some bs) => (m1, natOfBytes bs)
  | (m1, none) => (m1, 0)

/-- A diverted access is logged; none while the felt image is full (15 R337). -/
def Mach.logFelt (m : Mach) (e : DivEnt) (a : ArrKind) : Option Mach :=
  let (m1, tail) := m.feltWord e.felt 0
  let (m2, merged) := m1.feltWord e.felt 8
  if 2 ^ (10 + e.flog) ≤ tail - merged then none
  else
    let (w0, w1, data) := feltEntry a
    let ent := bytesOfWords [w0, w1, m.time, 0, 0, 0, 0, 0] ++ data
    some ((m2.fwWrite (e.felt + 0x80 + 128 * tail) ent).fwWrite e.felt (bytesOfWord 8 (W (tail + 1))))

/-- A diverted access, or a felt entry, applied at a core's scratchpad (15 R341). -/
def Mach.landAt (m : Mach) (c : Nat) (a : ArrKind) : Mach :=
  match a with
  | .bytes row mask data =>
    (m.spadWrite c row (((m.spadRead c row 64).zip data).zipIdx.map fun p => if bitAt mask.toNat p.2 then p.1.2 else p.1.1)).wakeObjs
  | .beats off dec cerr => (m.onBar (.spad c off) fun r => r.fall dec cerr).wakeObjs
  | .push ring count => m.updCore c fun k => k.ringPush ring count

/-- The access that a felt entry's bytes describe. -/
def feltArr (bs : List Byte) : Option ArrKind :=
  let ws := wordsOfBytes 2 bs
  let w0 := (wordAt ws 0).toNat
  let w1 := (wordAt ws 1).toNat
  match w0 / 2 ^ 56 with
  | 1 => some (.bytes (w0 % 2 ^ 21) (BitVec.ofNat 64 w1) (bs.drop 64))
  | 2 => some (.beats (w0 % 2 ^ 21) (w1 % 2 ^ 40) (bitAt w1 40))
  | 3 => some (.push (w0 % 16) (w1 % 256))
  | _ => none

/-- Felt entries from number e on, n of them, applied in order at a core. -/
def Mach.merge (felt c : Nat) : Nat → Nat → Mach → Mach
  | 0, _, m => m
  | n + 1, e, m =>
    match m.fwFetch (felt + 0x80 + 128 * e) 128 with
    | (m1, none) => Mach.merge felt c n (e + 1) m1
    | (m1, some b) =>
      Mach.merge felt c n (e + 1) (match feltArr (b.read 0 128) with
        | some a => m1.landAt c a
        | none => m1)

/-- The merge of a felt image into the scratchpad of a core; MERGED becomes TAIL. -/
def Mach.mergeFelt (m : Mach) (w : Word) (c : Nat) : Mach :=
  let (m1, tail) := m.feltWord (feltIa w) 0
  let (m2, merged) := m1.feltWord (feltIa w) 8
  (Mach.merge (feltIa w) c (tail - merged) merged m2).fwWrite (feltIa w + 8) (bytesOfWord 8 (W tail))

/-! ## Restoring a member (15 R341) -/

/-- The loop stack that a block holds. -/
def blockLoops (b : Mem) : List LoopEnt :=
  (rangeFrom 0 (bits (b.num 0 8) 15 13)).map fun j =>
    { start := b.word (0xC0 + 32 * j), last := b.word (0xC8 + 32 * j), count := BitVec.ofNat 32 (b.num (0xD4 + 32 * j) 4),
      index := BitVec.ofNat 32 (b.num (0xD0 + 32 * j) 4), flex := bitAt (b.num (0xD8 + 32 * j) 8) 0 }

/-- The result queues that a block holds. -/
def blockRq (b : Mem) : Tab (List Word) :=
  ⟨(rangeFrom 0 7).map fun u =>
    (u, (rangeFrom 0 (b.num (0x460 + u) 1)).map fun k => b.word (0x380 + 32 * u + 8 * k))⟩

/-- The queue of absent faults that a block holds. -/
def blockAbsent (b : Mem) : List Held :=
  (rangeFrom 0 (b.num 0x7A0 1)).map fun j =>
    { code := BitVec.ofNat 8 (b.num (0x800 + 32 * j) 1), val := b.word (0x808 + 32 * j), tick := b.word (0x810 + 32 * j) }

/-- The context that a member's block holds; what the block does not name is as it was kept. -/
def Ctx.ofBlock (x : Ctx) (b : Mem) : Ctx :=
  { x with
    s := ⟨((rangeFrom 0 64).filter fun i => bitAt (b.num 0x720 8) i).map fun i => (i, b.word (0x180 + 8 * i))⟩
    p := BitVec.ofNat 16 (b.num 0x10 8), pc := b.word 0x08, loops := blockLoops b, rq := blockRq b
    lat := ⟨(rangeFrom 0 12).map fun i => (i, b.word (0x468 + 8 * i))⟩
    ranges := ⟨(rangeFrom 0 32).map fun i => (i, b.word (0x4D8 + 8 * i))⟩
    vl := b.word 0x18, fflags := BitVec.ofNat 5 (b.num 0x20 8), geocfg := bitAt (b.num 0x28 8) 0, monStat := b.word 0x30
    monVal := b.word 0x38, rngSeed := b.word 0x40, rngCtr := b.word 0x48, cpySeq := b.word 0x50, yieldSkip := b.word 0x58
    tvec := b.word 0x60, tsave := b.word 0x68, lcid := b.word 0x70, cores := b.word 0x78, liveBase := b.word 0x88
    asid := b.num 0x90 8 % 2 ^ 14, absent := blockAbsent b, q := ⟨x.q.l.map fun e => (e.1, { e.2 with bound := e.2.bound && bitAt (b.num (0x710 + e.1) 1) 7 })⟩
    absentHeld := ((rangeFrom 0 (b.num 0x7A0 1)).filter fun j => bitAt (b.num (0x800 + 32 * j) 8) 8).length
    absentLost := bitAt (b.num 0x7A0 8) 8 }

/-- The rings that a block and the items lent to an absent member make (08 R222, R227). -/
def blockRings (b : Mem) (kept : Tab RingSt) : Tab RingSt :=
  ⟨(rangeFrom 0 16).map fun n =>
    let r := kept.get RingSt.reset n
    (n, { r with w := BitVec.ofNat 32 (b.num (0x670 + 8 * n) 4), r := BitVec.ofNat 32 (b.num (0x674 + 8 * n) 4),
                 stop := bitAt (b.num (0x6F0 + 2 * n) 2) 8 })⟩

/-- The core registers that a block holds. -/
def Core.ofBlock (k : Core) (b : Mem) (x : SuspMember) : Core :=
  { k with
    teamCfg := b.word 0x80, ringCfg := ⟨(rangeFrom 0 16).map fun n => (n, b.word (0x5F0 + 8 * n))⟩
    ring := blockRings b x.ringLent
    bfmt := ⟨(rangeFrom 0 24).map fun j => (j, b.num (0x5D8 + j) 1)⟩, mx := { k.mx with seq := b.word 0xA0 } }

/-- The FIFOs of the bound streams of an image. -/
def Mach.restoreFifos (m : Mach) (ia c : Nat) (b : Mem) : Mach :=
  (rangeFrom 0 16).foldl
    (fun m n =>
      let cnt := b.num (0x710 + n) 1 % 128
      if cnt = 0 then m
      else
        match m.fwFetch (ia + 0x3C2000 + 512 * n) (8 * cnt) with
        | (m1, none) => m1
        | (m1, some f) =>
          m1.updCtx c false fun x => { x with q := x.q.put n { x.stream n with fifo := wordsOfBytes cnt (f.read 0 (8 * cnt)) } }) m

/-- The directory that an image's words describe. -/
def dirOfMem (b : Mem) : Tab DirEnt :=
  let ent (j : Nat) : DirEnt :=
    let w := b.num (8 * j) 8
    { valid := bitAt w 0, start := bits w 16 4, len := bits w 28 20 }
  ⟨((rangeFrom 0 256).filter fun j => bitAt (b.num (8 * j) 8) 0).map fun j => (j, ent j)⟩

/-- Step 2 of the resume: the registers, the v registers, the microprogram store and the park image. -/
def Mach.restoreRegs (m : Mach) (x : SuspMember) (c : Nat) (b : Mem) : Mach :=
  let ia := swimgIa x.swimg
  let m1 := m.updCore c fun k => { (k.ofBlock b x) with c0 := x.kept.ofBlock b, v := Tab.empty }
  let m2 := m1.restoreFifos ia c b
  let named := (rangeFrom 0 256).filter fun i => bitAt (b.num (0x728 + i / 64 * 8) 8) (i % 64)
  let m3 := named.foldl
    (fun m i =>
      match m.fwFetch (ia + 0x42000 + 0x2000 * i) 0x2000 with
      | (m1, some d) => m1.updCore c fun k => { k with v := k.v.put i d }
      | (m1, none) => m1) m2
  let (m4, store) := m3.fwFetch (ia + 0x3C4000) 0x10000
  let (m5, dir) := m4.fwFetch (ia + 0x3D4000) 0x800
  let (m6, park) := m5.fwFetch (ia + 0x1000) parkBytes
  m6.updCore c fun k =>
    let k1 := { k with mx := { k.mx with store := tabOfMem (store.getD Mem.empty), dir := dirOfMem (dir.getD Mem.empty),
                                         held := k.mx.held.filter fun h => h.1 } }
    k1.restoreMx (park.getD Mem.empty) false (.worker x.launch x.lcid)

/-- Step 3: the scratchpad holds the descriptor's ranges from the image, and zeros elsewhere. -/
def Mach.restoreSpad (m : Mach) (x : SuspMember) (c : Nat) (b : Mem) : Mach :=
  let m1 := m.updCore c fun k => { k with spad := Mem.empty }
  (descRanges ((rangeFrom 0 16).map fun j => b.word (0x720 + 8 * j))).foldl
    (fun m r =>
      match m.fwFetch (imgSpad x.swimg + r.1) r.2 with
      | (m1, some d) => m1.updCore c fun k => { k with spad := k.spad.splice r.1 r.2 d }
      | (m1, none) => m1) m1

/-- Bytes of pulp pool that a member's lent items take. -/
def SuspMember.lentBytes (x : SuspMember) : Nat :=
  ((rangeFrom 0 16).map fun n => (x.ringLent.get RingSt.reset n).lentCount * ringBytes (x.ringCfg.get 0 n).toNat).sum

/-- Step 8: lent items move into the pulp pool of the new core's die (15 R341). -/
def Mach.moveLent (m : Mach) (x : SuspMember) (c : Nat) : Mach :=
  let a := coreDie x.core
  let d := coreDie c
  if a = d then m
  else
    let u := m.lentUsed.upd 0 a fun n => n - x.lentBytes
    { m with lentUsed := u.upd 0 d fun n => n + x.lentBytes }

/-- Whether the new die's pool has room for a member's lent items. -/
def Mach.lentRoom (m : Mach) (x : SuspMember) (c : Nat) : Bool :=
  x.lentBytes == 0 || coreDie x.core == coreDie c || m.poolRoom (coreDie c) x.lentBytes

/-- The diversion entry of a member's suspended epoch with f applied. -/
def Mach.updDiv (m : Mach) (x : SuspMember) (f : DivEnt → DivEnt) : Mach :=
  m.updCore x.core fun k => { k with divs := k.divs.map fun d => if d.state ≠ 0 ∧ d.epoch = x.epoch then f d else d }

/-- Step 7: the diversion entry of the suspended epoch names the new core and epoch, and what it held is released to it. -/
def Mach.forward (m : Mach) (x : SuspMember) (c e : Nat) : Mach :=
  let mine (a : Arrival) : Bool := a.core == x.core && a.epoch == x.epoch
  let m1 := m.updDiv x fun d => { d with state := 3, newCore := c, newEpoch := e }
  { m1 with
    heldArr := m1.heldArr.filter fun a => !mine a,
    arrivals := ((m1.heldArr.filter mine).map fun a => { a with core := c, epoch := e }) ++ m1.arrivals }

/-- A member is restored on a core, steps 1 to 5 of 15 R341; its context stands until every member is back. An image that cannot be read
leaves the registers as they were kept. -/
def Mach.restoreMember (m : Mach) (x : SuspMember) (c : Nat) : Mach :=
  let e := ((m.core c).epoch + 1) % 2 ^ 16
  let m1 := m.updCore c fun k => { k with epoch := e, swimg := x.swimg, closed := false, switchTo := false, stop := none }
  let (m2, b) := m1.fwFetch (swimgIa x.swimg) 0x1000
  let m3 := match b with
    | some b => (m2.restoreRegs x c b).restoreSpad x c b
    | none => m2.updCore c fun k =>
        { k with c0 := x.kept, ringCfg := x.ringCfg, ring := x.ringLent, bfmt := x.bfmt, spad := Mem.empty, v := Tab.empty }
  let m4 := (m3.rowEnd c false).updCtx c false fun y => { y with run := .switching, owner := some (x.launch, x.lcid) }
  let m5 := m4.updLaunch x.launch fun la => { la with workers := la.workers.put x.lcid (.on c), ranOn := c :: la.ranOn.erase c }
  let back (s : Susp) : Susp :=
    if s.launch = x.launch ∧ s.members.contains x then { s with members := s.members.erase x, back := s.back ++ [x] } else s
  let m6 : Mach := { m5 with susp := m5.susp.map back }
  (m6.updDiv x fun d => { d with state := 2 }).mergeFelt x.swimg c

end Sys2Proof.Machine
end

