-- ==== Sys2Proof/Machine/Peer.lean ====
section
/-!
DEFINITION. Peers (18 R372 to R375): remote atomics by a write of PEERAOP, frames received from a peer and the answers to
them, and a scale-out port that goes down. Digest frames are in Phases.
-/
namespace Sys2Proof.Machine

/-! ## Remote atomics (18 R375) -/

/-- The width that MOD of an atomic selects, in bytes. -/
def modBytes (mod_ : Nat) : Nat := if mod_ % 2 = 0 then 4 else 8

/-- The atomic type of MOD (07 R201). -/
def modAtom (mod_ : Nat) : AtomT :=
  match mod_ with
  | 0 => .i32
  | 1 => .i64
  | 2 => .n32
  | _ => .n64

/-- The old value of an atomic as D receives it. -/
def modExt (mod_ : Nat) (x : Nat) : Word :=
  if 2 ≤ mod_ then W (x % 2 ^ (8 * modBytes mod_)) else sextW (8 * modBytes mod_) x

/-- The ENG_COPY_ERROR of a remote atomic: a stamp with ERR, and the held fault. -/
def Mach.aopError (m : Mach) (o : Owner) (g : Agent) (stampIa : Option Nat) (seq : Word) : Mach :=
  let m1 :=
    match stampIa with
    | some ia => m.stampWrite g .copyWr ia (W (2 ^ 63 + seq.toNat % 2 ^ 63))
    | none => m
  m1.holdFault o (Cause.code .engCopyError) seq

/-- The word of a remote atomic record that holds a reserved bit, or an OP outside the atomics (18 R375, step 4). -/
def badAop (d : List Word) : Bool :=
  let w := (wordAt d 5).toNat
  w / 2 ^ 16 != 0 || bits w 7 2 != 0 || wordAt d 6 != 0 || wordAt d 7 != 0 || decide (bits w 15 8 < 0x0D) ||
    decide (0x14 < bits w 15 8)

/-- A remote atomic that passed every check leaves for the peer; a target that is not in peer memory, or at a peer that is
not known (R372), ends it with an error. -/
def Mach.sendAop (m : Mach) (o : Owner) (g : Agent) (d : List Word) (ia : Nat) (resultIa stampIa : Option Nat) (seq : Word) :
    Mach :=
  let w := (wordAt d 5).toNat
  if iaClass ia ≠ 0 then m.aopError o g stampIa seq
  else
    match m.translate g.asid ia .atomic with
    | (m1, .ok (.peer i a)) =>
      if !bitAt (m1.peerMap.get 0 i).toNat 63 then
        (m1.logViol (m1.viol ia g.asid .atomic .memClass g.core g.fw)).aopError o g stampIa seq
      else m1.peerSend i 2 a (W (bits w 15 8 + bits w 1 0 * 2 ^ 8)) (wordAt d 1) (wordAt d 2) []
        (.aop o g.core g.fw g.asid resultIa stampIa seq (BitVec.ofNat 2 w) g.res)
    | (m1, .ok _) => m1.aopError o g stampIa seq
    | (m1, .error c) => (m1.logViol (m1.viol ia g.asid .atomic c g.core g.fw)).aopError o g stampIa seq

/-- The checks of a remote atomic's record after those of its own address, in the order of 18 R375. -/
def State.aopChecks (s : State) (d : List Word) (own : Bool) : Except (Cause × Word) (Nat × Option Nat × Option Nat) :=
  let n := modBytes (bits (wordAt d 5).toNat 1 0)
  if (wordAt d 0).toNat % n ≠ 0 then .error (.alignCopy, wordAt d 0)
  else if (wordAt d 3).toNat % 8 ≠ 0 then .error (.alignCopy, wordAt d 3)
  else if (wordAt d 4).toNat % 8 ≠ 0 then .error (.alignCopy, wordAt d 4)
  else
    match mapVa s.xp.ranges (wordAt d 0).toNat n true true false, s.spotMap (wordAt d 3) 8, s.spotMap (wordAt d 4) 8 with
    | none, _, _ => .error (.memRange, wordAt d 0)
    | _, .error e, _ => .error e
    | _, _, .error e => .error e
    | some ia, .ok r, .ok st => if !own || badAop d then .error (.engBadRecord, 0) else .ok (ia, r, st)

/-- A write of PEERAOP (18 R375): DET_ATOMIC_ORDER comes first wherever the record can be read; the record is captured after every older
store of the sequencer. -/
def execPeeraop (val : Word) (s : State) : Out :=
  let t := s.drained
  let rec_ := s.recordAt t val 8
  let op := match rec_ with
    | some d => bits (wordAt d 5).toNat 15 8
    | none => 0
  if s.inRegion then .next (s.trap .regionIllegalOp 0)
  else if s.det && (op == 0x13 || op == 0x14) then .next (s.trap .detAtomicOrder 0)
  else if val.toNat % 64 ≠ 0 then .next (s.trap .alignCopy val)
  else
    match s.target val.toNat 64 true false, rec_ with
    | .error c, _ => .next (s.trap c val)
    | .ok tg, none => .next (if tg.isOwn then s.trap .memUncorrectable val else s.trap .engBadRecord 0)
    | .ok tg, some d =>
      match s.aopChecks d tg.isOwn with
      | .error (c, v) => .next (s.trap c v)
      | .ok (ia, r, st) =>
        let seq := W ((s.xp.cpySeq.toNat + 1) % 2 ^ 63)
        .next ((t.updX fun x => { x with cpySeq := seq }).upd fun m =>
          m.sendAop s.owner (s.pre.agent s.iss.core s.iss.fw) d ia r st seq)

/-! ## Frames received (18 R373, R374) -/

/-- TYPE of a frame. -/
def frTy (f : Frame) : Nat := (wordAt f.hdr 0).toNat / 2 ^ 56
/-- TAG of a frame. -/
def frTag (f : Frame) : Nat := bits (wordAt f.hdr 0).toNat 47 32
/-- SRC of a frame. -/
def frSrc (f : Frame) : Nat := bits (wordAt f.hdr 0).toNat 31 16
/-- DST of a frame. -/
def frDst (f : Frame) : Nat := bits (wordAt f.hdr 0).toNat 15 0
/-- The base die and local offset of ADDR. -/
def frAt (f : Frame) : Nat × Nat := (bits (wordAt f.hdr 1).toNat 39 36, bits (wordAt f.hdr 1).toNat 35 0)

/-- Whether a frame comes from a known peer and is meant for this device. -/
def Mach.knows (m : Mach) (f : Frame) : Bool :=
  frDst f == m.devId &&
    (rangeFrom 0 16).any fun i => bitAt (m.peerMap.get 0 i).toNat 63 && (m.peerMap.get 0 i).toNat % 2 ^ 16 == frSrc f

/-- A frame is dropped and logged. -/
def Mach.dropFrame (m : Mach) (f : Frame) : Mach :=
  m.tickNonce.logErr (freeCause m.nonce) kDetected
    { addr := bits (wordAt f.hdr 1).toNat 39 0, site := 2, unit := 0xF, loc := f.port / 6 }

/-- A RESPONSE to a frame. -/
def Mach.respond (m : Mach) (f : Frame) (old : Word) (status : Nat) : Mach :=
  m.send (.frame f.port [W (3 * 2 ^ 56 + frTag f * 2 ^ 32 + m.devId * 2 ^ 16 + frSrc f), 0, 0, 0, 0, old, W status, 0] [])

/-- Bytes of a row replaced where the mask is set. -/
def maskRow (mask : Nat) (old new : List Byte) : List Byte :=
  ((old.zip new).zipIdx).map fun p => if bitAt mask p.2 then p.1.2 else p.1.1

/-- The flits of a WRITE, each under the mask, from an offset of a stack on (log 48). -/
def Mach.writeFlits (mask d : Nat) : Nat → Nat → List Byte → Mach → Mach
  | 0, _, _, m => m
  | n + 1, off, bs, m =>
    Mach.writeFlits mask d n (off + 64) (bs.drop 64) (m.hbmWrite d off (maskRow mask (m.hbmRead d off 64) (bs.take 64)))

/-- PEER_WRITE_FRAME (18 R374): a WRITE is performed at its home and answered. A frame of an unknown peer, for another
device or of an unknown TYPE is dropped and logged. -/
def execPeerWriteFrame (f : Frame) (s : State) : Out :=
  if Config.nPorts ≤ f.port then .fault (.noSuchObject "port")
  else if !s.m.knows f ∨ frTy f = 0 ∨ 4 < frTy f then .next (s.upd fun m => m.dropFrame f)
  else if frTy f ≠ 1 then .next s
  else
    let (d, off) := frAt f
    match s.m.homeFault d with
    | some c => .next (s.upd fun m => m.respond f 0 c.code)
    | none =>
      let n := bits (wordAt f.hdr 0).toNat 55 53
      .next (s.upd fun m => (Mach.writeFlits (wordAt f.hdr 2).toNat d n off f.payload m).respond f 0 0)

/-- The new value of an atomic by its opcode of R87 (07 R201). -/
def aopNew (op : Nat) (t : AtomT) (cmp x o : Nat) : Nat :=
  match op with
  | 0x0D => amoAdd t x o
  | 0x0E => amoMin t x o
  | 0x0F => amoMax t x o
  | 0x10 => amoAnd t x o
  | 0x11 => amoOr t x o
  | 0x12 => amoXor t x o
  | 0x13 => amoSwap t x o
  | _ => if o = cmp then x else o

/-- PEER_ATOMIC_FRAME (18 R374): an ATOMIC is performed at its home and answered with the old value. -/
def execPeerAtomicFrame (f : Frame) (s : State) : Out :=
  if Config.nPorts ≤ f.port then .fault (.noSuchObject "port")
  else if !s.m.knows f then .next (s.upd fun m => m.dropFrame f)
  else if frTy f ≠ 2 then .next s
  else
    let (d, off) := frAt f
    let w := (wordAt f.hdr 2).toNat
    let t := modAtom (bits w 9 8)
    let n := atomBytes t
    let op := bits w 7 0
    let status : Option Cause :=
      if op < 0x0D ∨ 0x14 < op then some .engBadRecord
      else if off % n ≠ 0 then some .alignAtomic
      else
        match s.m.homeFault d with
        | some c => some c
        | none => if s.m.badAt (.hbm d off) then some .memUncorrectable else none
    match status with
    | some c => .next (s.upd fun m => m.respond f 0 c.code)
    | none =>
      let old := natOfBytes (s.m.hbmRead d off n)
      let k := 2 ^ (8 * n)
      let new := aopNew op t ((wordAt f.hdr 4).toNat % k) ((wordAt f.hdr 3).toNat % k) old
      .next (s.upd fun m => (m.hbmWrite d off (bytesOfNat n new)).respond f (W old) 0)

/-- The cause that a failing STATUS names; of a reserved code, ENG_COPY_ERROR (log 48). -/
def statusCause (status : Nat) : Cause := (Cause.ofCode status).getD .engCopyError

/-- A row of a copy is answered: beats fall for what has landed, and the first failure stops the copy (07 R186, R187). -/
def Mach.copyAnswered (m : Mach) (id ia status : Nat) : Mach :=
  let m1 := m.updCopy id fun k => { k with waitTags := k.waitTags - 1 }
  match m1.copyOf id with
  | none => m1
  | some k =>
    if status = 0 then m1.settleBeats id
    else
      match k.st with
      | .failed _ => m1
      | _ => m1.failCopy k (m1.copyTrp k 0 ia .copyWr (statusCause status))

/-- A row of a Press is answered. -/
def Mach.subAnswered (m : Mach) (id ia status : Nat) : Mach :=
  m.updSub id fun x =>
    { x with waitTags := x.waitTags - 1,
             err := if status = 0 ∨ x.err.isSome then x.err else some (m.subTrp x ia .pressWr (statusCause status)) }

/-- A scalar store is answered: its bundle goes on, or a failure is raised there (09 R242). An answer that its context no longer awaits
is dropped, a failing one logged. -/
def Mach.storeAnswered (m : Mach) (o : Owner) (va : Word) (tag status : Nat) : Mach :=
  match m.homeOf o with
  | some (c, fw) =>
    if (m.ctx c fw).peerSt = some (some tag) then
      m.updCtx c fw fun x =>
        if status = 0 then { x with peerSt := some none }
        else { x with peerSt := none, resp := some { cause := statusCause status, val := va, viol := none } }
    else if status = 0 then m
    else m.logErr (statusCause status).code kDetected { site := 2, unit := 0xF }
  | none => if status = 0 then m else m.logErr (statusCause status).code kDetected { site := 2, unit := 0xF }

/-- A remote atomic is answered (18 R375). -/
def Mach.aopAnswered (m : Mach) (o : Owner) (g : Agent) (resultIa stampIa : Option Nat) (seq : Word) (mod_ : Nat) (old : Word)
    (status : Nat) : Mach :=
  if status ≠ 0 then m.aopError o g stampIa seq
  else
    let m1 := match resultIa with
      | some ia => m.stampWrite g .copyWr ia (modExt mod_ old.toNat)
      | none => m
    match stampIa with
    | some ia => m1.stampWrite g .copyWr ia (W (seq.toNat % 2 ^ 63))
    | none => m1

/-- What the answer with a tag completes: rows of a copy or of a Press, a store, or a remote atomic. -/
def Mach.answered (m : Mach) (tag : Nat) (fo : PeerFor) (old : Word) (status : Nat) : Mach :=
  match fo with
  | .copy id ia => m.copyAnswered id ia status
  | .sub id ia => m.subAnswered id ia status
  | .store => if status = 0 then m else m.logErr (statusCause status).code kDetected { site := 2, unit := 0xF }
  | .scalar o va => m.storeAnswered o va tag status
  | .aop o c fw asid resultIa stampIa seq mod_ res =>
    m.aopAnswered o { core := c, fw := fw, asid := asid, ranges := Tab.empty, res := res } resultIa stampIa seq mod_.toNat old status

/-- PEER_RESPONSE_FRAME (18 R374): a RESPONSE completes the request of its tag on its port. -/
def execPeerResponseFrame (f : Frame) (s : State) : Out :=
  if Config.nPorts ≤ f.port then .fault (.noSuchObject "port")
  else if !s.m.knows f then .next (s.upd fun m => m.dropFrame f)
  else if frTy f ≠ 3 then .next s
  else
    match s.m.peerReqs.find? fun r => r.tag == frTag f && r.port == f.port with
    | none => .next (s.upd fun m => m.dropFrame f)
    | some r =>
      .next (s.upd fun m =>
        Mach.answered { m with peerReqs := m.peerReqs.filter fun q => !(q.tag == frTag f && q.port == f.port) } r.tag r.for_
          (wordAt f.hdr 5) (bits (wordAt f.hdr 6).toNat 7 0))

/-! ## A port that is down (18 R374) -/

/-- PEER_PORT_DOWN: the port is down; every request that awaits an answer on it is answered with RAS_LINK_DOWN. -/
def execPeerPortDown (port : Nat) (s : State) : Out :=
  if Config.nPorts ≤ port then .fault (.noSuchObject "port")
  else
    let was := bitAt s.m.portDown.toNat port
    let m1 : Mach := { s.m with portDown := s.m.portDown ||| BitVec.ofNat 12 (2 ^ port) }
    let m2 := if was then m1 else
      (m1.logErr (Cause.code .rasLinkDown) kDetected { site := 2, unit := 0xF, loc := port / 6 }).msix 6
    let due := m2.peerReqs.filter fun r => r.port == port
    let m3 : Mach := { m2 with peerReqs := m2.peerReqs.filter fun r => r.port != port }
    .next { s with m := due.foldl (fun m r => m.answered r.tag r.for_ 0 (Cause.code .rasLinkDown)) m3 }

end Sys2Proof.Machine
end

