-- ==== Sys2Proof/Machine/Sha.lean ====
section
/-!
DEFINITION. SHA-256, which the digest of a deterministic phase (16 R352) and the measurements (20 R404) use. The spec names the hash and
takes it from FIPS 180-4: its constants are the fractions of roots of primes, and are computed here as such.
-/
namespace Sys2Proof

/-- A word of the hash. -/
abbrev Word32 := BitVec 32

/-! ## Constants -/

/-- The largest number with at most b more bits than r whose k-th power is at most n. -/
def rootFrom (k n : Nat) : Nat → Nat → Nat
  | 0, r => r
  | b + 1, r => rootFrom k n b (if (r + 2 ^ b) ^ k ≤ n then r + 2 ^ b else r)

/-- The first 32 bits of the fraction of the k-th root of p. -/
def rootFraction (k p : Nat) : Word32 := BitVec.ofNat 32 (rootFrom k (p * 2 ^ (32 * k)) 37 0)

/-- The first 64 primes: the numbers up to 311 that no smaller number from 2 to 17 divides. -/
def hashPrimes : List Nat := (rangeFrom 2 310).filter fun p => (rangeFrom 2 16).all fun d => p ≤ d || p % d != 0

/-- The constant of each round: cube roots of the first 64 primes. -/
def roundConsts : List Word32 := hashPrimes.map (rootFraction 3)

/-- The hash value before the first block: square roots of the first eight primes. -/
def hashStart : List Word32 := (hashPrimes.take 8).map (rootFraction 2)

/-! ## One block -/

/-- The rotations of a word to the right by each of some amounts, summed bit by bit. -/
def turnsOf (x : Word32) (amounts : List Nat) : Word32 := amounts.foldl (fun y n => y ^^^ x.rotateRight n) 0

/-- The words of a block's schedule from the last sixteen, which stand oldest first: n of them, the sixteen among them. -/
def schedule : Nat → List Word32 → List Word32
  | 0, _ => []
  | n + 1, last =>
    let at_ (i : Nat) : Word32 := last.getD i 0
    let low := turnsOf (at_ 1) [7, 18] ^^^ at_ 1 >>> 3
    let high := turnsOf (at_ 14) [17, 19] ^^^ at_ 14 >>> 10
    at_ 0 :: schedule n (last.tail ++ [at_ 9 + high + at_ 0 + low])

/-- The eight working variables after a round with the sum of its constant and its schedule word. -/
def hashRound (vars : List Word32) (kw : Word32) : List Word32 :=
  let v (i : Nat) : Word32 := vars.getD i 0
  let pick := v 6 ^^^ (v 4 &&& (v 5 ^^^ v 6))
  let most := (v 0 &&& v 1) ||| (v 2 &&& (v 0 ||| v 1))
  let inc := kw + v 7 + pick + turnsOf (v 4) [6, 11, 25]
  (inc + most + turnsOf (v 0) [2, 13, 22]) :: vars.take 3 ++ (v 3 + inc) :: (vars.drop 4).take 3

/-- The hash value after a block of 64 bytes. -/
def hashBlock (value : List Word32) (block : List Byte) : List Word32 :=
  let words := (chunks 4 16 block).map fun bs => BitVec.ofNat 32 (natOfBytes bs.reverse)
  let sums := List.zipWith (fun k w => k + w) roundConsts (schedule 64 words)
  List.zipWith (fun x y => x + y) value (sums.foldl hashRound value)

/-! ## A message -/

/-- A message padded to whole blocks: a 1 bit, zeros, and its length in bits. -/
def padded (msg : List Byte) : List Byte :=
  let used := msg.length + 9
  msg ++ (0x80 : Byte) :: (List.replicate ((used + 63) / 64 * 64 - used) 0 ++ (bytesOfNat 8 (8 * msg.length)).reverse)

/-- SHA-256 of bytes. -/
def sha256 (bs : List Byte) : List Byte :=
  let text := padded bs
  ((chunks 64 (text.length / 64) text).foldl hashBlock hashStart).flatMap fun w => (bytesOfNat 4 w.toNat).reverse

end Sys2Proof
end

