-- ==== Sys2Proof/Machine/Switch.lean ====
section
/-!
DEFINITION. Pre-emption (04 R107, 12 R296, 15): YIELD, the arbiter's decision, the stop and save of members, diversion entries, the
handover of cores, and the resume of a team.
-/
namespace Sys2Proof.Machine

/-! ## YIELD (04 R107) -/

/-- Whether the bundle in issue stands at a loop-iteration boundary (01 R16). -/
def State.atBoundary (s : State) : Bool :=
  match s.xp.loops with
  | [] => true
  | e :: _ => e.last == s.iss.addr

/-- COUNT of LIVEBASE (12 R288). -/
def Ctx.liveCount (x : Ctx) : Nat := bits x.liveBase.toNat 10 0

/-- YIELD: at a boundary with no region and no level open it is a switch point, offered once the bundle has retired; away from a
boundary it is counted, but not while a level is open (14 R321; log 122); in context 1 it does nothing. A descriptor index beyond the live
ones is an illegal operand with the slot word as trap value (log 121). -/
def execYield (desc : BitVec 10) (budget : BitVec 16) (s : State) : Out :=
  if s.iss.fw then .next s
  else if s.xp.level ≠ 0 then .next s
  else if !s.atBoundary then .next (s.updX fun x => { x with yieldSkip := x.yieldSkip + 1 })
  else if s.xp.region.isSome then .next s
  else if s.xp.liveCount ≤ desc.toNat then .next (s.illegal .illegalOperand)
  else .next { s with iss := { s.iss with offer := some (desc.toNat, budget.toNat) } }

/-! ## Diversion entries (15 R335) -/

/-- Whether an intermediate address aims at a core's scratchpad of an epoch, under a resolution. -/
def Resolve.aims (r : Resolve) (c e ia : Nat) : Bool :=
  match r.of (iaTarget ia) with
  | some (k, f, _) => k == c && f == e
  | none => false

/-- Whether one of some optional addresses aims there. -/
def Resolve.aimsAny (r : Resolve) (c e : Nat) (l : List (Option Nat)) : Bool :=
  l.any fun a => match a with
    | some ia => r.aims c e ia
    | none => false

/-- Whether rows of rowb bytes at an end of a copy, from row r on, meet it. -/
def Copy.rowsAim (k : Copy) (c e : Nat) (base delta : Word) (w sw r : Nat) : Bool :=
  (rangeFrom r (cN1 k.desc * cN2 k.desc - r)).any fun j =>
    k.res.aims c e (cAddr k.desc base w sw (j * cN0 k.desc) + delta).toNat

/-- Whether a copy may still access a core's scratchpad of an epoch: a row that has not moved, its stamp or its record lies there. -/
def Copy.aims (k : Copy) (c e : Nat) : Bool :=
  let d := k.desc
  let r := if cN0 d = 0 then cN1 d * cN2 d else k.moved / cN0 d
  let dst := match k.kind with
    | .sbind _ => false
    | _ => k.rowsAim c e (wordAt d 1) k.dstDelta (cWd d) 4 r
  k.rowsAim c e (wordAt d 0) k.srcDelta (cWs d) 3 r || dst || k.res.aimsAny c e [k.stampIa, k.barIa]

/-- Whether the rows of a subscription in memory lie in a scratchpad that a tile from its next on reaches. -/
def Sub.rowsAim (x : Sub) (c e : Nat) : Bool :=
  (rangeFrom x.tile (uTiles x.desc - x.tile)).any fun t =>
    ((rangeFrom 0 (uRows x.desc)).any fun r => x.res.aims c e (uRowVa x.desc t r + x.addrDelta).toNat) ||
      (uScb x.desc != 0 && x.res.aims c e (uScaleVa x.desc t + x.scaleDelta).toNat)

/-- Whether a subscription may still access it: the ring of a Mould that has tiles to push lies in the own scratchpad; a Press only reads
its ring. -/
def Sub.aims (x : Sub) (c e : Nat) : Bool :=
  (x.mould && decide (x.tile < uTiles x.desc) && x.res.self == (c, e)) || x.rowsAim c e || x.res.aimsAny c e [x.stampIa, x.barIa]

/-- Whether a commit may still access it. -/
def Commit.aims (k : Commit) (c e : Nat) : Bool := k.ops.any fun o => k.res.aims c e o.ia

/-- Whether a remote atomic may still access it. -/
def PeerReq.aims (r : PeerReq) (c e : Nat) : Bool :=
  match r.for_ with
  | .aop _ _ _ _ res st _ _ rs => rs.aimsAny c e [res, st]
  | _ => false

/-- Whether an access tagged with an epoch may still arrive at a core: its context has only just stopped, or an engine thread or an
access under way aims there. -/
def Mach.aimed (m : Mach) (c e : Nat) : Bool :=
  let k := m.core c
  (k.closed && k.epoch == e && k.c0.run == .switching) || (m.copies.any fun y => y.aims c e) ||
    (m.subs.any fun y => y.aims c e) || (m.commits.any fun y => y.aims c e) || (m.peerReqs.any fun y => y.aims c e) ||
    (m.arrivals.any fun a => a.core == c && a.epoch == e) || (m.heldArr.any fun a => a.core == c && a.epoch == e)

/-- The diversion entries of a core, those that nothing can reach any more returned to FREE. -/
def Mach.divsOf (m : Mach) (c : Nat) : List DivEnt :=
  (m.core c).divs.map fun d => if d.state ≠ 0 ∧ !m.aimed c d.epoch then DivEnt.reset else d

/-- An entry taken: the first FREE one. -/
def putDiv (e : DivEnt) : List DivEnt → List DivEnt
  | [] => [e]
  | d :: r => if d.state = 0 then e :: r else d :: putDiv e r

/-- Whether a switch leaves a core within its eight entries, and gives it an epoch that no entry still catches. -/
def Mach.canClose (m : Mach) (c : Nat) : Bool :=
  let ds := (m.divsOf c).filter fun d => d.state != 0
  decide (ds.length < 8) && !(ds.any fun d => d.epoch == ((m.core c).epoch + 1) % 2 ^ 16)

/-! ## Members stop (15 R328, R329, R339) -/

/-- A waiter on a core's scratchpad leaves its home with nothing changed (15 R339). -/
def Mach.withdrawSpad (m : Mach) (o : Owner) : Mach :=
  let mine (w : Waiter) : Bool := w.who == o && match w.obj with
    | some (.spad _ _) => true
    | _ => false
  { m with requests := m.requests.filter fun w => !mine w, waiters := m.waiters.filter fun w => !mine w }

/-- Context 0 of a core stops for a switch (15 R329), in a wait or at a YIELD: its older stores are performed, its descriptor is read, the
core closes, its diversion entry for the epoch is set to DIVERT, and the head of its felt image is written. -/
def Mach.stopFor (m : Mach) (c : Nat) (how : Option Nat) : Mach :=
  let (m0, d) := (m.drainStores c false).wakeObjs.descOf c how
  let k := m0.core c
  let e : DivEnt := { epoch := k.epoch, state := 1, newCore := 0, newEpoch := 0, felt := feltIa k.swimg,
                      flog := k.swimg.toNat % 16 }
  let ds := putDiv e (m0.divsOf c)
  let m1 := m0.updCore c fun k => { k with c0 := { k.c0 with run := .switching }, stop := some d, closed := true, divs := ds }
  (m1.withdrawSpad (m1.ownerOf c false)).fwWrite (feltIa k.swimg)
    (bytesOfWords [0, 0, W k.epoch] ++ List.replicate 0x68 0)

/-! ## The arbiter (12 R296) -/

/-- The logical indices of the team of a worker. -/
def Launch.teamIds (la : Launch) (t : Nat) : List Nat :=
  let n := headTeam la.head
  if n = 0 then [t] else rangeFrom (t * n) n

/-- A member's core, where it stands on one. -/
def WorkerAt.core : WorkerAt → Option Nat
  | .on c => some c
  | _ => Option.none

/-- Whether a member's context is still at work on a core. -/
def Mach.atWork (m : Mach) (c : Nat) : Bool := (m.ctx c false).run != .halted && (m.ctx c false).run != .killed

/-- The cores of a team's members that have not halted. -/
def Mach.teamCores (m : Mach) (la : Launch) (t : Nat) : List Nat :=
  ((la.teamIds t).filterMap fun i => (la.worker i).core).filter m.atWork

/-- Whether a member of a team has still to start; the team is not switched before (log 61). -/
def Launch.unstarted (la : Launch) (t : Nat) : Bool :=
  (la.teamIds t).any fun i => match la.worker i with
    | .waiting _ => true
    | .none => true
    | _ => false

/-- The decision of the arbiter at a switch point of member 0's core (12 R296, 15 R333, R335). -/
def Mach.arbitrate (m : Mach) (c : Nat) (la : Launch) (t desc budget : Nat) : Mach :=
  let k := m.core c
  let cores := m.teamCores la t
  let slice := k.slice.toNat
  if k.cands = [] ∨ la.unstarted t ∨ cores.any (fun d => swimgIa (m.core d).swimg == 0) then m
  else if k.used < slice ∧ (budget = 0 ∨ k.used + 64 * budget ≤ slice) then m
  else
    let cur : Cand := { what := .team la.key t, rank := la.rank, passed := 0 }
    match pickCand (k.cands.filter (fun x => m.candReady cores x) ++ [cur]) with
    | none => m
    | some p =>
      if p = cur then
        m.updCore c fun k => { k with used := 0, cands := k.cands.map fun x => { x with passed := x.passed + 1 } }
      else if !cores.all m.canClose then m
      else
        let up (x : Cand) : Cand := if x = p then { x with passed := 0 } else { x with passed := x.passed + 1 }
        let m1 := m.updCore c fun k => { k with used := 0, cands := k.cands.map up }
        let s : Susp := { launch := la.key, team := t, rank := la.rank, away := false, dead := false, pick := some p.what,
                          targets := [], members := [], back := [] }
        let m2 : Mach := { m1 with susp := m1.susp ++ [s] }
        (cores.foldl (fun m d => m.updCore d fun k => { k with switchTo := true }) m2).stopFor c (some desc)

/-- The launch and team that core c's context 0 belongs to. -/
def Mach.teamAt (m : Mach) (c : Nat) : Option (Launch × Nat) :=
  match (m.ctx c false).owner with
  | none => none
  | some (l, i) => (m.launchOf l).map fun la => (la, la.teamOf i)

/-- A switch point is offered (04 R107, 12 R296, 15 R328): a member that the team's decision has reached stops; else member 0's core
decides. -/
def Mach.offer (m : Mach) (c desc budget : Nat) : Mach :=
  let k := m.core c
  if k.switchTo then m.stopFor c (some desc)
  else if k.teamSize ≠ 0 ∧ k.member ≠ 0 then m
  else
    match m.teamAt c with
    | none => m
    | some (la, t) => m.arbitrate c la t desc budget

/-! ## MEMBER_SUSPEND (15 R328, R329) -/

/-- Whether a context holds in a wait that is no switch point but a suspension point: no trap level is open, and its home has not
answered. -/
def Ctx.holdsWait (x : Ctx) : Bool :=
  x.run == .running && x.level == 0 && x.resp.isNone && match x.wait with
    | some w => w.served.isNone && !w.granted
    | none => false

/-- A switch under way that a team is in. -/
def Mach.switching (m : Mach) (la : Launch) (t : Nat) : Option Susp :=
  m.susp.find? fun s => s.launch == la.key && s.team == t && !s.away && !s.dead

/-- Whether the older vector and predicate work of context 0 is complete. -/
def Core.quiet (k : Core) : Bool :=
  !(k.vops.any fun v => !v.fw) && (match k.epu with
    | some e => e.fw
    | none => true) && k.mx.parkBusy.isNone

/-- A stopped member is saved once its own older work is complete (15 R329). -/
def Mach.trySave (m : Mach) (c : Nat) (la : Launch) : Mach :=
  let k := m.core c
  match k.stop, k.c0.owner with
  | some d, some (l, i) => if k.quiet && la.worker i == .on c then m.saveMember c l i d else m
  | _, _ => m

/-- MEMBER_SUSPEND: a member of a team that is being switched stops in its wait, if it has not stopped yet, and its image is
written. -/
def execMemberSuspend (core : Nat) (s : State) : Out :=
  match s.m.teamAt core with
  | none => s.atCore core false id
  | some (la, t) =>
    match s.m.switching la t with
    | none => s.atCore core false id
    | some _ =>
      s.atCore core true fun m =>
        let k := m.core core
        let m1 := if k.switchTo && k.stop.isNone && k.c0.holdsWait then m.stopFor core none else m
        m1.trySave core la

/-! ## TEAM_HANDOVER (15 R329) -/

/-- A core that a suspended member leaves. -/
def Core.vacate (k : Core) : Core :=
  { k with switchTo := false, stop := none,
           c0 := { k.c0 with run := .idle, owner := none, wait := none, waitKept := none, fences := [], tasks := [], absent := [], absentHeld := 0,
                             absentLost := false } }

/-- The arbiter's decision is carried out on member 0's core: its pick starts if it still can, the passed counts standing as the
decision left them; else the core picks anew. -/
def Mach.takePick (m : Mach) (vac : List Nat) (c : Nat) (pick : Option CandKind) : Mach :=
  let n := (m.core c).cands.length + 1
  match (m.core c).cands.find? fun x => some x.what == pick && m.candReady (m.stillFree vac) x with
  | some p => Mach.pickNow vac c n (m.startCand (m.stillFree vac) c p false)
  | none => Mach.pickNow vac c n m

/-- The cores of a suspended team are handed over (15 R329, 12 R296). -/
def Mach.handOver (m : Mach) (s : Susp) (members : List SuspMember) : Mach :=
  let vac := members.map fun x => x.core
  let m1 := vac.foldl (fun m c => m.updCore c Core.vacate) m
  let m2 : Mach := { m1 with susp := m1.susp.map fun y =>
    if y = s then { y with away := true, pick := none, members := members } else y }
  match vac with
  | [] => m2
  | c :: r =>
    let cand : Cand := { what := .team s.launch s.team, rank := s.rank, passed := 1 }
    let m3 := m2.updCore c fun k => { k with cands := k.cands ++ [cand] }
    r.foldl (fun m d => Mach.pickNow vac d ((m.core d).cands.length + 1) m) (m3.takePick vac c s.pick)

/-- The members of a team in ascending order of their index. -/
def sortMembers (la : Launch) (t : Nat) (l : List SuspMember) : List SuspMember :=
  (la.teamIds t).filterMap fun i => l.find? fun x => x.lcid == i

/-- TEAM_HANDOVER: the image of every member at work has been written. -/
def execTeamHandover (launch team : Nat) (s : State) : Out :=
  match s.m.launchOf launch with
  | none => .next s
  | some la =>
    match s.m.switching la team with
    | none => .next s
    | some y =>
      if s.m.teamCores la team = [] ∧ y.members ≠ [] then .next (s.upd fun m => m.handOver y (sortMembers la team y.members))
      else .next s

/-! ## TEAM_RESUME (15 R341) -/

/-- A wait on a scratchpad object goes back to its home, where the object now lies (15 R341, step 6). -/
def Mach.reissue (m : Mach) (c l i : Nat) : Mach :=
  let o : Owner := .worker l i
  let x := m.ctx c false
  match x.wait with
  | none => m
  | some w =>
    match w.obj, w.served with
    | some (.spad _ _), none =>
      (match m.mapAccess c false w.va.toNat 8 false false with
       | .ok t =>
         (match (m.resolve c).of t with
          | some (k, _, off) =>
            let p := Place.spad k off
            let m1 := m.updCtx c false fun y => { y with wait := some { w with obj := some p } }
            let wt : Waiter := { who := o, obj := some p, kind := w.kind, asid := x.asid, det := bitAt x.detStat.toNat 0, kept := false }
            m1.takePlace wt
          | none => m)
       | .error _ => m)
    | _, _ => m

/-- The members of a resumed team in ascending order of the arrival of their waits. -/
def Mach.byArrival (m : Mach) (l : List (Nat × Nat)) : List (Nat × Nat) :=
  let seq (p : Nat × Nat) : Nat := match (m.ctx p.2 false).wait with
    | some w => w.seq
    | none => 0
  let ins (p : Nat × Nat) (acc : List (Nat × Nat)) : List (Nat × Nat) :=
    (acc.filter fun q => decide (seq q ≤ seq p)) ++ [p] ++ acc.filter fun q => !decide (seq q ≤ seq p)
  l.foldl (fun acc p => ins p acc) []

/-- The team of which every member has been restored, once its waits on scratchpads are reissued and its diversion entries name the new
cores (15 R341, steps 6 and 7). -/
def Mach.allBack (m : Mach) (s : Susp) : Mach :=
  let m1 := (m.byArrival s.targets).foldl (fun m p => m.reissue p.2 s.launch p.1) m
  s.back.foldl
    (fun m x => match s.targets.find? fun p => p.1 == x.lcid with
      | some p => m.forward x p.2 (m.core p.2).epoch
      | none => m) m1

/-- The lent items of a restored member move into the pool of its new die (step 8), where it has room. -/
def Mach.settleLent (m : Mach) (s : Susp) (x : SuspMember) : Mach :=
  match s.targets.find? fun p => p.1 == x.lcid with
  | none => m
  | some p =>
    if !m.lentRoom x p.2 then m
    else
      let f (y : Susp) : Susp := if y.launch = s.launch ∧ y.team = s.team then { y with back := y.back.erase x } else y
      Mach.moveLent { m with susp := m.susp.map f } x p.2

/-- The members of a team whose last member has completed step 8 issue again, an acquire of device scope (15 R341). -/
def Mach.goTeam (m : Mach) (s : Susp) : Mach :=
  match m.susp.find? fun y => y.launch == s.launch && y.team == s.team && y.members.isEmpty && y.back.isEmpty with
  | none => m
  | some y =>
    let m1 : Mach := { m with susp := m.susp.filter fun z => z != y }
    y.targets.foldl (fun m p => (m.updCtx p.2 false fun x => { x with run := .running }).dropCache p.2) m1

/-- Step 8 for every member of a restored team, and its return to work. -/
def Mach.finishResume (m : Mach) (l t : Nat) : Mach :=
  match m.susp.find? fun y => y.launch == l && y.team == t with
  | none => m
  | some s => if s.members.isEmpty then (s.back.foldl (fun m x => m.settleLent s x) m).goTeam s else m

/-- The picked team that resumes on a core, with the index of its member there. -/
def Mach.resuming (m : Mach) (c : Nat) : Option (Susp × SuspMember) :=
  m.susp.findSome? fun s =>
    (s.targets.find? fun p => p.2 == c).bind fun p => (s.members.find? fun x => x.lcid == p.1).map fun x => (s, x)

/-- The team a restored member of which stands on a core until its lent items have moved. -/
def Mach.lingering (m : Mach) (c : Nat) : Option Susp :=
  m.susp.find? fun s => s.members.isEmpty && !s.back.isEmpty && s.targets.any fun p => p.2 == c

/-- TEAM_RESUME: the member that a picked team resumes on a core is restored there, once no routine is open on it; after the last of them
the team's waits are reissued, its diversion entries forward, and its lent items move, each as its new die's pool has room (15 R341). A
free core whose candidates could not start before takes its pick. -/
def execTeamResume (core : Nat) (s : State) : Out :=
  match s.m.resuming core, s.m.lingering core with
  | none, none => s.atCore core (!(s.m.core core).holdsCtx && !(s.m.core core).cands.isEmpty) fun m => m.refill core
  | none, some y => s.atCore core true fun m => m.finishResume y.launch y.team
  | some (y, x), _ =>
    s.atCore core (!(s.m.core core).mx.busy) fun m =>
      let m1 := m.restoreMember x core
      if y.members.length = 1 then
        (match m1.susp.find? fun z => z.launch == y.launch && z.team == y.team with
         | some z => (m1.allBack z).finishResume y.launch y.team
         | none => m1)
      else m1

/-! ## DIVERTED_ACCESS (15 R335 to R337) -/

/-- What becomes of an access that reaches a core closed to it, or of another epoch: it lands, is logged, held or forwarded; none
while it waits for room in the felt image. -/
def Mach.divert (m : Mach) (a : Arrival) : Option Mach :=
  if m.accepts a.core a.epoch then some (m.landAt a.core a.kind)
  else
    match (m.core a.core).divs.find? fun d => d.state != 0 && d.epoch == a.epoch with
    | none => some m
    | some d =>
      if d.state = 1 then m.logFelt d a.kind
      else if d.state = 2 then some { m with heldArr := m.heldArr ++ [a] }
      else some { m with arrivals := m.arrivals ++ [{ a with core := d.newCore, epoch := d.newEpoch }] }

/-- An access that has arrived lets its engine thread go on: the beats of a copy whose rows have all arrived fall (07 R186). -/
def Mach.arrived (m : Mach) (a : Arrival) : Mach := if a.thread = 0 then m else m.settleBeats a.thread

/-- The arrivals, with the first that can go on taken; one that waits holds back those of its core and epoch. -/
def Mach.divertFirst (m : Mach) : List (Nat × Nat) → List Arrival → List Arrival → Mach
  | _, _, [] => m
  | stuck, before, a :: r =>
    if stuck.contains (a.core, a.epoch) then m.divertFirst stuck (before ++ [a]) r
    else
      match Mach.divert { m with arrivals := before ++ r } a with
      | some m1 => m1.arrived a
      | none => m.divertFirst ((a.core, a.epoch) :: stuck) (before ++ [a]) r

/-- DIVERTED_ACCESS: the oldest access under way that can reaches its core. -/
def execDivertedAccess (s : State) : Out := .next (s.upd fun m => m.divertFirst [] [] m.arrivals)

end Sys2Proof.Machine
end

