-- ==== Sys2Proof/Machine/Retire.lean ====
section
/-!
DEFINITION. Retirement and cancels (12 R289 to R292, 15 R343): the retirement of a worker's part, the launch record with its
stamp and counters, and CANCEL.
-/
namespace Sys2Proof.Machine

/-! ## WORKER_RETIRE (12 R289) -/

/-- The engine threads and commits of an owner that have neither completed nor stopped. -/
def Mach.threadsLeft (m : Mach) (o : Owner) : Bool :=
  (m.copies.any fun k => k.owner == o) || (m.subs.any fun x => x.owner == o && !x.stopped) ||
    (m.commits.any fun k => k.owner == o) || !(m.aopTags o).isEmpty

/-- A launch whose workers have all retired has retired. -/
def Mach.settleLaunch (m : Mach) (key : Nat) : Mach :=
  let done (l : Launch) : Bool := (rangeFrom 0 (headWorkers l.head)).all fun i => match l.worker i with
    | .retired _ => true
    | _ => false
  m.updLaunch key fun l => if done l then { l with retired := true } else l

/-- A worker retires, from the core and epoch that it stood on last. -/
def Mach.retireWorker (m : Mach) (l i : Nat) (stood : Option (Nat × Nat)) : Mach :=
  (m.updLaunch l fun la => { la with workers := la.workers.put i (.retired stood) }).settleLaunch l

/-- Whether context 0 of a core has nothing of its own still to finish. -/
def Mach.partDone (m : Mach) (c : Nat) : Bool :=
  let k := m.core c
  (k.c0.run == .halted || k.c0.run == .killed) && k.c0.storeq.isEmpty && !m.threadsLeft (m.ownerOf c false) && k.quiet

/-- A member of a killed or cancelled team that is away, last on a core, whose engine threads are done (15 R343). -/
def Mach.deadAt (m : Mach) (c : Nat) : Option SuspMember :=
  (m.susp.filter fun s => s.dead).findSome? fun s =>
    s.members.find? fun x => x.core == c && !m.threadsLeft (.worker x.launch x.lcid)

/-- A member that never returns leaves the device. -/
def Mach.dropMember (m : Mach) (x : SuspMember) : Mach :=
  let cut (s : Susp) : Susp := { s with members := s.members.filter fun y => !(y.launch == x.launch && y.lcid == x.lcid) }
  let m1 : Mach := { m with susp := (m.susp.map cut).filter fun s => !(s.dead && s.members.isEmpty) }
  m1.retireWorker x.launch x.lcid (some (x.core, x.epoch))

/-- WORKER_RETIRE: a worker that has halted or been killed, with no engine thread or commit left, retires; its core takes its shadow
bank's launch, or a candidate (12 R288, R296). -/
def execWorkerRetire (core : Nat) (s : State) : Out :=
  match (s.m.ctx core false).owner with
  | some (l, i) =>
    if s.m.partDone core then
      s.atCore core true fun m =>
        let m1 := (m.retireWorker l i (some (core, (m.core core).epoch))).updCore core fun k =>
          { k with c0 := { k.c0 with owner := none, run := .idle }, switchTo := false, stop := none }
        m1.refill core
    else
      (match s.m.deadAt core with
       | some x => s.atCore core true fun m => m.dropMember x
       | none => s.atCore core false id)
  | none =>
    match s.m.deadAt core with
    | some x => s.atCore core true fun m => m.dropMember x
    | none => s.atCore core false id

/-! ## LAUNCH_RECORD_WRITE (12 R289, R290, R292) -/

/-- STATUS of a launch record: CANCELLED, FAULT, FALLBACK or DONE, the first that applies (12 R292, R297, 16 R351). -/
def Mach.recStatus (m : Mach) (la : Launch) : Nat :=
  let spoiled := match m.phase with
    | some p => headDet la.head && p.launches.contains la.key && (match p.report with
        | some (st, _) => st != 0
        | none => false)
    | none => false
  if la.cancelled then 2
  else if la.killed || la.faults != 0 || spoiled then 1
  else if la.fallback then 3
  else 0

/-- START of a launch record: the first entry, of the first run of a phase that was run twice. -/
def Mach.recStart (m : Mach) (la : Launch) : Word :=
  let own := la.start.getD 0
  match m.phase with
  | some p => if headDet la.head then ((p.starts.find? fun e => e.1 == la.idx).map fun e => e.2).getD own else own
  | none => own

/-- The digest of a launch record (16 R351). -/
def Mach.recDigest (m : Mach) (la : Launch) : List Byte :=
  let zero := List.replicate 32 0
  if !headDet la.head then zero
  else
    match m.phase.bind fun p => if p.launches.contains la.key then p.report else none with
    | some (0, d) => d
    | _ => zero

/-- The bytes of a launch record. -/
def Mach.recBytes (m : Mach) (la : Launch) : List Byte :=
  let h0 := (wordAt la.head 0).toNat
  let w0 := la.sq * 2 ^ 52 + m.recStatus la * 2 ^ 48 + b2n (headDet la.head) * 2 ^ 41 + bits (wordAt la.head 1).toNat 8 0 * 2 ^ 32 +
    h0 % 2 ^ 32
  bytesOfWords [W w0, W ((wordAt la.head 1).toNat / 2 ^ 16 * 2 ^ 16), m.recStart la, m.time, la.seed, la.ctr, W la.asid,
      W (la.faults % 2 ^ 16)] ++ m.recDigest la ++ List.replicate 32 0

/-- Records of the launch record ring that the host has not consumed. -/
def Mach.lrUsed (m : Mach) : Nat := (m.lrTail - m.lrHead).toNat

/-- The stamp of a launch (12 R289): its LID, with bit 63 set where the status is not DONE. One that faults is entered in the
violation log. -/
def Mach.stampLaunch (m : Mach) (la : Launch) (status : Nat) : Mach :=
  let a := wordAt la.head 4
  let c := m.cpOf la.sq
  if a = 0 then m
  else
    match m.translate la.asid a.toNat .store with
    | (m1, .ok p) => (m1.writePlace p (bytesOfWord 8 (W (b2n (status != 0) * 2 ^ 63 + headLid la.head)))).wakeObjs
    | (m1, .error f) => m1.logViol (m1.viol a.toNat la.asid .store f c true)

/-- Whether the record of a launch may be written: the launch has retired, a deterministic phase has reported, the ring has room. The
phase of a DET launch that a cancel has retired unread reports once its queue has passed it (16 R351). -/
def Mach.recReady (m : Mach) (la : Launch) : Bool :=
  let waits := headDet la.head && (la.ahead && (m.sqAt la.sq).en || match m.phase with
    | some p => p.launches.contains la.key && (p.report.isNone || p.stopped.isSome)
    | none => false)
  la.retired && !la.recorded && !waits && decide (m.lrUsed < 2 ^ m.lrLog)

/-- The measured launches (20 R404): MEAS3 is extended by the digest field and the LID of each record. -/
def Mach.measure (m : Mach) (la : Launch) (digest : List Byte) : Mach :=
  { m with trust := { m.trust with meas3 := sha256 (m.trust.meas3 ++ digest ++ bytesOfNat 4 (headLid la.head)) } }

/-- LAUNCH_RECORD_WRITE: the record, the stamp and CNTP, then what the completion of its phase brings (12 R289, R290). -/
def execLaunchRecordWrite (launch : Nat) (s : State) : Out :=
  match s.m.launchOf launch with
  | none => .next s
  | some la =>
    if s.m.recReady la then
      .next (s.upd fun m =>
        let b := m.lrBase.toNat
        let status := m.recStatus la
        let digest := m.recDigest la
        let m1 := m.stackPut (bits b 39 36) (bits b 35 12 * 4096 + 128 * (m.lrTail.toNat % 2 ^ m.lrLog)) (m.recBytes la)
        let m2 := Mach.msix { m1 with lrTail := m1.lrTail + 1 } 2
        let m3 := ((m2.measure la digest).stampLaunch la status).cpAdd (m2.cpOf la.sq) la.asid (wordAt la.head 5)
        (m3.updLaunch launch fun l => { l with recorded := true, digest := digest }).sqSettle la.sq)
    else .next s

/-! ## CANCEL (12 R291) -/

/-- The identifier that a cancel of a level matches: LID, PHASE, GRAPH or JOB. -/
def cancelId (level : Nat) (h : List Word) : Nat :=
  let w1 := (wordAt h 1).toNat
  match level with
  | 0 => headLid h
  | 1 => bits w1 31 16
  | 2 => bits w1 47 32
  | _ => bits w1 63 48

/-- Whether a cancel matches a HEAD: the whole LID, or the low 16 bits of a level's identifier. -/
def cancelHits (level : Nat) (id : BitVec 32) (h : List Word) : Bool :=
  cancelId level h == if level = 0 then id.toNat else id.toNat % 2 ^ 16

/-- A worker of a cancelled launch: killed where it stands, retired where it waits, dead where it is away. -/
def Mach.cancelWorker (m : Mach) (l i : Nat) : Mach :=
  match m.launchOf l with
  | none => m
  | some la =>
    match la.worker i with
    | .on c => if m.atWork c then m.kill c false (Cause.code .ctxCancelled) 0 else m
    | .suspended =>
      let m1 := m.deadTeam l (la.teamOf i) (Cause.code .ctxCancelled)
      (match (m1.launchOf l).map fun x => x.worker i with
       | some (WorkerAt.on c) => m1.kill c false (Cause.code .ctxCancelled) 0
       | _ => m1)
    | .retired _ => m
    | _ => m.retireWorker l i none

/-- A launch that was taken is cancelled (12 R291): it leaves the shadow banks and candidate lists, and its workers end. -/
def Mach.cancelTaken (m : Mach) (l : Launch) (level : Nat) : Mach :=
  let m1 := m.mapCores fun k =>
    { k with shadow := k.shadow.filter fun s => s.launch != l.key,
             cands := k.cands.filter fun x => match x.what with
               | .launch s => s.launch != l.key
               | .team _ _ => true }
  let m2 := m1.updLaunch l.key fun y => { y with cancelled := true, graphCancelled := y.graphCancelled || decide (2 ≤ level) }
  (rangeFrom 0 (headWorkers l.head)).foldl (fun m i => m.cancelWorker l.key i) m2

/-- A launch that a queue has not taken yet is retired by a cancel. -/
def Mach.cancelUnread (m : Mach) (q : Nat) (i : BitVec 32) (h : List Word) (level : Nat) : Mach :=
  let la : Launch :=
    { m.newLaunch q h LaunchIn.none (recCont h + 1) false with
      idx := i, cancelled := true, graphCancelled := decide (2 ≤ level), ahead := true, retired := true }
  { m with nextId := m.nextId + 1, launches := m.launches ++ [la] }

/-- The unread records of a queue from index i on, the continuations of a HEAD skipped: matching HEADs are retired; one that an earlier
cancel has retired is not read again, and its WAITs end where this cancel names its graph or job. -/
def Mach.cancelRing (q level : Nat) (id : BitVec 32) : Nat → Nat → BitVec 32 → Mach → Mach
  | 0, _, _, m => m
  | n + 1, skip + 1, i, m => Mach.cancelRing q level id n skip (i + 1) m
  | n + 1, 0, i, m =>
    match m.aheadAt q i, m.sqRec q i with
    | some l, _ =>
      let mark (y : Launch) : Launch := if y.key = l.key then { y with graphCancelled := true } else y
      let m1 : Mach := if cancelHits level id l.head ∧ 2 ≤ level then { m with launches := m.launches.map mark } else m
      Mach.cancelRing q level id n (l.nrec - 1) (i + 1) m1
    | none, (_, .error _) => Mach.cancelRing q level id n 0 (i + 1) m
    | none, (m1, .ok r) =>
      if recKind r = 1 then
        Mach.cancelRing q level id n (recCont r) (i + 1) (if cancelHits level id r then m1.cancelUnread q i r level else m1)
      else Mach.cancelRing q level id n 0 (i + 1) m1

/-- The open DET phase as a cancel leaves it: one that has not reported and whose PHASE, GRAPH or JOB is named, or a launch of which is
cancelled, commits nothing (12 R291, 16 R351; log 132). -/
def Phase.onCancel (p : Phase) (level : Nat) (id : BitVec 32) (hit : List Launch) : Phase :=
  if p.report.isNone && ((level != 0 && cancelHits level id [0, p.hdr]) || hit.any fun l => p.launches.contains l.key) then
    { p with cancelled := true }
  else p

/-- A cancel of a level and an identifier, on every queue (12 R291). -/
def Mach.cancel (m : Mach) (level : Nat) (id : BitVec 32) : Mach :=
  let hit := m.launches.filter fun l => !l.recorded && !l.retired && !l.ahead && cancelHits level id l.head
  let m0 : Mach := { m with phase := m.phase.map fun p => p.onCancel level id hit }
  let m1 := hit.foldl (fun m l => m.cancelTaken l level) m0
  let m2 := m1.sq.keys.foldl (fun m q => Mach.cancelRing q level id (m.sqAt q).avail 0 (m.sqAt q).next m) m1
  m2.cores.keys.foldl (fun m c => m.refill c) m2

/-- CANCEL with LEVEL 0. -/
def execCancelLaunch (id : BitVec 32) (s : State) : Out := .next (s.upd fun m => m.cancel 0 id)

/-- CANCEL with LEVEL 1. -/
def execCancelPhase (id : BitVec 32) (s : State) : Out := .next (s.upd fun m => m.cancel 1 id)

/-- CANCEL with LEVEL 2. -/
def execCancelGraph (id : BitVec 32) (s : State) : Out := .next (s.upd fun m => m.cancel 2 id)

/-- CANCEL with LEVEL 3. -/
def execCancelJob (id : BitVec 32) (s : State) : Out := .next (s.upd fun m => m.cancel 3 id)

end Sys2Proof.Machine
end

