-- ==== Sys2Proof/Machine/Phases.lean ====
section
/-!
DEFINITION. The commit at the boundary of a deterministic phase (16 R351), its digest (R352) and report, the comparison with a
replica (R354), the rerun (R355), and REPLCMD.
-/
namespace Sys2Proof.Machine

/-! ## The digest stream (16 R352) -/

/-- A task put into a list in ascending order of TID, after those of the same TID. -/
def insertTask (t : LogTask) : List LogTask → List LogTask
  | [] => [t]
  | x :: r => if t.tid.toNat < x.tid.toNat then t :: x :: r else x :: insertTask t r

/-- The logged tasks in ascending order of TID. -/
def Phase.tasks (p : Phase) : List LogTask := p.log.foldl (fun l t => insertTask t l) []

/-- A written granule put into a list in ascending order of IA. -/
def insertGran (g : Nat × Mem × Mem) : List (Nat × Mem × Mem) → List (Nat × Mem × Mem)
  | [] => [g]
  | x :: r => if g.1 < x.1 then g :: x :: r else x :: insertGran g r

/-- The granules that a task wrote in ascending order of IA. -/
def LogTask.written (t : LogTask) : List (Nat × Mem × Mem) := t.grans.foldl (fun l g => insertGran g l) []

/-- The operations of a task that the phase log holds. -/
def LogTask.logged (t : LogTask) : List BufOp := t.ops.filter BufOp.logged

/-- The eight mask bits of bytes 8 i to 8 i + 7 of a granule. -/
def maskByte (mask : List Byte) : Byte :=
  BitVec.ofNat 8 (mask.foldr (fun b x => 2 * x + b2n (b != 0)) 0)

/-- A granule in the stream: IA, byte mask, masked bytes. -/
def granBytes (g : Nat × Mem × Mem) : List Byte :=
  let mask := g.2.1.read 0 4096
  bytesOfNat 8 g.1 ++ (chunks 8 512 mask).map maskByte ++
    (mask.zip (g.2.2.read 0 4096)).map fun p => if p.1 = 0 then 0 else p.2

/-- An operation in the stream: 24 bytes, and for an ENQ its item after them (log 51). -/
def opBytes (b : BufOp) : List Byte :=
  bytesOfNat 8 b.word.toNat ++ bytesOfNat 8 (if b.isEnq then b.queue else b.ia) ++ bytesOfWord 8 b.opnd ++
    if b.isEnq then bytesOfWords b.item else []

/-- A task in the stream. -/
def taskBytes (t : LogTask) : List Byte :=
  let gs := t.written
  bytesOfNat 8 t.tid.toNat ++ bytesOfNat 4 gs.length ++ bytesOfNat 4 t.logged.length ++ gs.flatMap granBytes ++
    t.logged.flatMap opBytes

/-- The header of the stream. -/
def Phase.header (p : Phase) : List Byte := bytesOfWord 8 p.hdr ++ bytesOfNat 8 p.log.length

/-- The byte stream whose SHA-256 is the digest. -/
def Phase.stream (p : Phase) : List Byte := p.header ++ p.tasks.flatMap taskBytes

/-- The digest of a phase. -/
def Phase.digest (p : Phase) : List Byte := sha256 p.stream

/-! ## Conflicts (16 R351) -/

/-- The first TID that two tasks of an ordered list share. -/
def sharedTid : List LogTask → Option Nat
  | a :: b :: r => if a.tid = b.tid then some a.tid.toNat else sharedTid (b :: r)
  | _ => none

/-- The lowest granule that two tasks wrote, with the lowest two of their TIDs. -/
def sharedGran (ts : List LogTask) : Option (Nat × Nat × Nat) :=
  let ws := ts.flatMap fun t => t.written.map fun g => (g.1, t.tid.toNat)
  let twice := (ws.map fun w => w.1).filter fun ia => decide (2 ≤ (ws.filter fun w => w.1 == ia).length)
  match twice with
  | [] => none
  | i :: r =>
    let ia := r.foldl min i
    match ws.filter fun w => w.1 == ia with
    | a :: b :: _ => some (a.2, b.2, ia)
    | _ => none

/-- The conflict of a phase: the pair of TIDs and the granule. -/
def Phase.conflict (p : Phase) : Option (Nat × Nat × Nat) :=
  match sharedTid p.tasks with
  | some t => some (t, t, 0)
  | none => sharedGran p.tasks

/-- STATUS of a run as its boundary finds it: 3 CANCELLED, 2 OVERFLOW, 1 CONFLICT, 0 for a write set that may be committed. -/
def Phase.runStatus (p : Phase) : Nat :=
  if p.cancelled then 3 else if p.overflow then 2 else if p.conflict.isSome then 1 else 0

/-! ## The report (16 R352) -/

/-- CAUSE of a report with a status; a discarded phase keeps the cause it was stopped with. -/
def reportCause (status : Nat) (stopped : Option Nat) : Nat :=
  let st := if status = 6 then stopped.getD 6 else status
  match st with
  | 1 => Cause.code .phaseConflict
  | 4 => Cause.code .replicaDiverged
  | 5 => Cause.code .replicaLink
  | _ => 0

/-- The bytes of the report. -/
def Mach.reportBytes (m : Mach) (p : Phase) (status : Nat) (faulty : Bool) : List Byte :=
  let (a, b, g) := if status = 1 then p.conflict.getD (0, 0, 0) else (0, 0, 0)
  bytesOfWords [p.hdr ||| W (reportCause status p.stopped * 2 ^ 8 + b2n faulty * 2 ^ 5 + b2n (p.run == 2) * 2 ^ 4 + status),
      W p.log.length, W a, W b, W g, if p.begun then p.start else m.time, m.time, 0] ++
    p.digest ++ if p.run = 2 then p.digest1 else List.replicate 32 0

/-- The report is written at DETBUF.BASE, with its message; HOLD of 19 R386 ends. -/
def Mach.writeReport (m : Mach) (p : Phase) (status : Nat) (faulty : Bool) : Mach :=
  let m1 := m.fwWrite (bits m.detBuf.toNat 51 16 * 2 ^ 16) (m.reportBytes p status faulty)
  (m1.mapCores fun k => { k with margin := { k.margin with hold := false } }).msix 5

/-- The phase with its report made: the records of its launches may be written (12 R289). -/
def Mach.reported (m : Mach) (p : Phase) (status : Nat) (faulty : Bool) : Mach :=
  let m1 := m.writeReport p status faulty
  let m2 := if status = 1 then
      m1.logErr (Cause.code .phaseConflict) kDetected { addr := ((p.conflict.getD (0, 0, 0)).2).2 }
    else m1
  { m2 with phase := some { p with report := some (status, p.digest) } }

/-! ## The write set (16 R351) -/

/-- The stores of a logged task, granule by granule in ascending order. -/
def LogTask.stores (t : LogTask) : List (Nat × List Byte) :=
  t.written.flatMap fun g => g.2.1.cells.map fun c => (g.1 + c.1, [g.2.2.byte c.1])

/-- The agent of a logged task. -/
def LogTask.agent (t : LogTask) : Agent := { core := t.core, fw := false, asid := t.asid, ranges := t.ranges, res := t.res }

/-- One task's part of the write set: its stores, then its operations except ENQ in program order. Operations that must wait are a
commit of their own. -/
def Mach.commitTask (m : Mach) (t : LogTask) : Mach :=
  let m1 := Mach.commitStores t.owner t.agent t.stores m
  let (left, m2) := Mach.commitOps t.owner t.agent true (t.ops.filter fun b => !b.isEnq) m1
  if left = [] then m2
  else
    m2.fork { id := m2.nextId, owner := t.owner, core := t.core, fw := false, asid := t.asid, ent := none, queue := 0,
              stores := [], ops := left, ranges := t.ranges, res := t.res, det := true }

/-- The write set of a phase performed in ascending TID. -/
def Mach.commitPhase (m : Mach) (p : Phase) : Mach := p.tasks.foldl Mach.commitTask m

/-- The tasks of the phase that have ended leave the dependence tables. -/
def Mach.endPhaseTasks (m : Mach) : Mach := { m with tdt := m.tdt.filter fun e => !(e.noEdges && e.st == 2) }

/-- A phase ends under 16 R351: with status COMMITTED its write set is performed; then the report is written. -/
def Mach.finishPhase (m : Mach) (p : Phase) (status : Nat) (faulty : Bool) : Mach :=
  let m1 := m.endPhaseTasks
  (if status = 0 then m1.commitPhase p else m1).reported p status faulty

/-! ## Replica mode (16 R354, R355) -/

/-- EN of REPLCFG. -/
def Mach.replEn (m : Mach) : Bool := bitAt m.replCfg.toNat 63
/-- PORT of REPLCFG. -/
def Mach.replPort (m : Mach) : Nat := bits m.replCfg.toNat 59 56
/-- TIMEOUT of REPLCFG. -/
def Mach.replTimeout (m : Mach) : Nat := bits m.replCfg.toNat 47 0

/-- The payload of the digest frame of a phase (18 R373). -/
def Phase.payload (p : Phase) : List Byte :=
  p.header ++ [BitVec.ofNat 8 p.run, BitVec.ofNat 8 p.runStatus] ++ List.replicate 14 0 ++ p.digest

/-- The peer that answers on a port. -/
def Mach.peerOn (m : Mach) (port : Nat) : Option Nat :=
  ((rangeFrom 0 16).map fun i => (m.peerMap.get 0 i).toNat).find? fun x => bitAt x 63 && bits x 51 48 == port

/-- The digest frame of a phase leaves for the peer that answers on PORT. -/
def Mach.sendDigest (m : Mach) (p : Phase) : Mach :=
  match m.peerOn m.replPort with
  | some x => m.send (.frame m.replPort [W (4 * 2 ^ 56 + 2 ^ 53 + m.devId * 2 ^ 16 + x % 2 ^ 16), 0, 0, 0, 0, 0, 0, 0] p.payload)
  | none => m

/-- The LASTP launch of a phase: its index. -/
def Mach.lastIdx (m : Mach) (p : Phase) : BitVec 32 :=
  match m.launches.find? fun l => p.launches.contains l.key && headLastP l.head with
  | some l => l.idx
  | none => (m.sqAt p.sq).head

/-- A phase stops (16 R354): its report is written, its log is kept, and its queue enters ERROR. -/
def Mach.stopPhase (m : Mach) (p : Phase) (status : Nat) (c : Cause) : Mach :=
  let m1 := (m.logErr c.code kDetected {}).reported { p with stopped := some status } status false
  m1.sqError p.sq (m1.lastIdx p) c

/-- No frame, a port that is down, or identifiers that do not match. -/
def Mach.stopLink (m : Mach) (p : Phase) : Mach := Mach.stopPhase { m with heard := [] } p 5 .replicaLink

/-- The work queues that the workers and tasks of a phase used. -/
def Phase.used (p : Phase) : List Nat := (p.traffic.map fun t => t.1).eraseDups

/-- The items that a rerun finds in a queue: those of the phase's start, then those placed from outside during the phase. -/
def Phase.restored (p : Phase) (q : Nat) : List QItem :=
  (p.queues.get WQ.reset q).items ++ (p.outside.filter fun o => o.1 == q).map fun o => o.2

/-- A work queue as a rerun finds it (16 R355). -/
def Mach.restoreQueue (p : Phase) (m : Mach) (q : Nat) : Mach :=
  let w0 := p.queues.get WQ.reset q
  let its := p.restored q
  if (m.wqAt q).state = 0 then m
  else
    let m1 := m.updWq q fun w =>
      { w with head := w0.head, tail := w0.head + BitVec.ofNat 32 its.length, items := its, requeue := w0.requeue }
    m1.poolSync q its.length

/-- A registered task put into its table in the order of submission. -/
def insertEnt (e : TdtEnt) : List TdtEnt → List TdtEnt
  | [] => [e]
  | x :: r => if e.id < x.id then e :: x :: r else x :: insertEnt e r

/-- The dependence tables as a rerun finds them: the tasks of the restored items are queued again, those that the phase enqueued
are gone. -/
def Mach.restoreTdt (m : Mach) (p : Phase) : Mach :=
  let keep := (p.used.flatMap fun q => p.restored q).filterMap fun it => it.ent
  let now := (m.tdt.filter fun e => keep.contains e.id || !(p.used.contains e.queue && e.noEdges)).map fun e =>
    if keep.contains e.id then { e with st := 0 } else e
  let gone := p.tdt.filter fun e => keep.contains e.id && !(now.any fun x => x.id == e.id)
  { m with tdt := gone.foldl (fun l e => insertEnt { e with st := 0 } l) now }

/-- A core that ran the phase, raised by two steps unless frozen, with HOLD set (19 R386). -/
def Mach.rerunCore (m : Mach) (c : Nat) : Mach :=
  (if m.dkFreeze then m else m.raiseBy 2 c).updMargin c fun g => { g with hold := true }

/-- A phase runs again (16 R354, R355): its log is discarded, its queues are restored, and its launches start again from their
records. -/
def Mach.rerun (m : Mach) (p : Phase) : Mach :=
  let ls := m.launches.filter fun l => p.launches.contains l.key
  let cores := (ls.flatMap fun l => l.ranOn).eraseDups
  let m1 := cores.foldl Mach.rerunCore (m.logErr (Cause.code .replicaRerun) kDetected {})
  let p1 : Phase :=
    { p with run := 2, digest1 := p.digest, log := [], logBytes := 0, traffic := [], overflow := false, sentAt := none,
             starts := ls.filterMap fun l => l.start.map fun t => (l.idx, t) }
  let m2 := (p.used.foldl (Mach.restoreQueue p) m1).restoreTdt p
  ls.reverse.foldl Mach.takeBack { m2 with phase := some p1 }

/-- Whether the identifiers of two payloads match: JOB, GRAPH and PHASE. -/
def sameIds (a b : List Byte) : Bool := a.take 8 == b.take 8

/-- Whether two digest frames are equal: header, run, status and digest. -/
def sameDigest (a b : List Byte) : Bool := a.take 18 == b.take 18 && (a.drop 32).take 32 == (b.drop 32).take 32

/-- The comparison of 16 R354 with the oldest frame that the peer has sent; nothing while none has come. -/
def Mach.compare (m : Mach) : Mach :=
  match m.phase, m.heard with
  | some p, f :: r =>
    if p.sentAt.isNone || p.report.isSome then m
    else
      let m1 : Mach := { m with heard := r }
      if !sameIds p.payload f then m1.stopLink p
      else if sameDigest p.payload f then
        let faulty := p.run == 2 && p.digest != p.digest1
        let m2 := if faulty then m1.logErr (Cause.code .replicaFaulty) kDetected {} else m1
        m2.finishPhase p p.runStatus faulty
      else if p.run = 1 then m1.rerun p
      else m1.stopPhase p 4 .replicaDiverged
  | _, _ => m

/-! ## PHASE_BOUNDARY_COMMIT (16 R351) -/

/-- Whether a phase has reached its boundary: its LASTP launch has been taken, and every launch of it has retired. -/
def Mach.atBoundary (m : Mach) (p : Phase) : Bool :=
  (match m.phaseOf p.sq with
   | some r => r.last.isSome
   | none => false) &&
    (p.launches.all fun k => match m.launchOf k with
      | some l => l.retired
      | none => true) && !p.launches.isEmpty && p.sentAt.isNone && p.report.isNone

/-- PHASE_BOUNDARY_COMMIT: a cancelled phase writes nothing; without replica mode the phase is committed or ends with its conflict or
overflow; in replica mode the digest frame leaves first. -/
def execPhaseBoundaryCommit (s : State) : Out :=
  match s.m.phase with
  | none => .next s
  | some p =>
    if !s.m.atBoundary p then .next s
    else
      .next (s.upd fun m =>
        if p.cancelled || !m.replEn then m.finishPhase p p.runStatus false
        else if bitAt m.portDown.toNat m.replPort then m.stopLink p
        else
          let p1 := { p with sentAt := some m.time }
          Mach.compare (Mach.sendDigest { m with phase := some p1 } p1))

/-- REPLICA_TIMEOUT (16 R354): no frame has come within TIMEOUT ticks, or the port is down. -/
def execReplicaTimeout (s : State) : Out :=
  match s.m.phase with
  | none => .next s
  | some p =>
    match p.sentAt with
    | none => .next s
    | some t =>
      let late := s.m.replTimeout != 0 && decide (s.m.replTimeout < (s.m.time - t).toNat)
      if p.report.isNone && (late || bitAt s.m.portDown.toNat s.m.replPort) then .next (s.upd fun m => m.stopLink p) else .next s

/-- PEER_DIGEST_FRAME (16 R354, 18 R373, R374): a DIGEST frame of the replica peer is compared with the phase's digest once that is
made. One that comes while no comparison can follow it, outside replica mode or on another port, has no effect. -/
def execPeerDigestFrame (f : Frame) (s : State) : Out :=
  if Config.nPorts ≤ f.port then .fault (.noSuchObject "port")
  else if !s.m.knows f then .next (s.upd fun m => m.dropFrame f)
  else if frTy f ≠ 4 then .next s
  else
    let stopped := match s.m.phase with
      | some p => p.stopped.isSome
      | none => false
    if !s.m.replEn || f.port != s.m.replPort || stopped then .next s
    else .next (s.upd fun m => Mach.compare { m with heard := m.heard ++ [f.payload.take 64] })

/-! ## REPLCMD (16 R354) -/

/-- The stopped phase that a REPLCMD write acts on; a write while none is stopped raises ILLEGAL_OPERAND. -/
def State.withStopped (s : State) (f : Phase → Mach → Mach) : Out :=
  match s.pre.phase with
  | none => .next (s.trap .illegalOperand 0)
  | some p => if p.stopped.isNone then .next (s.trap .illegalOperand 0) else .next (s.upd (f p))

/-- A stopped phase is released with its final status: its report is written again, and its launches complete under 12 R290. -/
def Mach.release (m : Mach) (p : Phase) (status : Nat) : Mach :=
  let m1 := m.writeReport p status false
  { m1 with phase := some { p with stopped := none, report := some (status, p.digest) } }

/-- REPLCMD COMMIT: the write set of the final run is performed, where that run had one to commit; the status stays. -/
def execReplcmdCommit (s : State) : Out :=
  s.withStopped fun p m =>
    let m1 := m.endPhaseTasks
    (if p.runStatus = 0 then m1.commitPhase p else m1).release p (p.stopped.getD 5)

/-- REPLCMD DISCARD: the write set is dropped. -/
def execReplcmdDiscard (s : State) : Out := s.withStopped fun p m => m.endPhaseTasks.release p 6

end Sys2Proof.Machine
end

