-- ==== Sys2Proof/Machine/System.lean ====
section
/-!
DEFINITION. System instructions (07 R210 to R212): CSRs with their access and privilege rules, RRW, XLATINV, and the events of
translation (13 R306, R312, R313): the end of an invalidation, the install of new routing tables, a base die in reset.
-/
namespace Sys2Proof.Machine

/-! ## Reading a CSR -/

/-- Whether any access from context 0 raises PRIV_CSR. -/
def csrPriv (n : Nat) : Bool :=
  n == 0x049 || (0x0F0 ≤ n && n ≤ 0x0F4) || (0x0F8 ≤ n && n ≤ 0x0FB) || (0x101 ≤ n && n ≤ 0x10D) ||
    (0x150 ≤ n && n ≤ 0x192) || (0x1A0 ≤ n && n ≤ 0x1BF)

/-- Whether a write from context 0 raises PRIV_CSR though a read does not (01 R33 and its counterparts). -/
def csrPrivWrite (n : Nat) : Bool :=
  csrPriv n || (0x040 ≤ n && n ≤ 0x047) || n == 0x051 || n == 0x052 || n == 0x059 || n == 0x061 || n == 0x062 || n == 0x069 ||
    n == 0x06C

/-- SEQSTAT (01 R33). -/
def Ctx.seqStat (x : Ctx) : Word := W (b2n x.flex * 8 + x.loops.length)

/-- TSTAT (14 R319); calls are the faults held against the context's routines. -/
def Ctx.tstat (x : Ctx) (calls : Bool) : Word :=
  let pend := !x.held.isEmpty || !x.absent.isEmpty || x.heldLost || x.absentLost || calls
  W (b2n x.regSusp * 2 ^ 7 + b2n x.abortPend * 2 ^ 6 + b2n x.park2 * 2 ^ 5 + b2n x.park1 * 2 ^ 4 + b2n pend * 2 ^ 2 + x.level)

/-- A trap CSR of context 1 if fw, else context 0, by its number from 0x110 to 0x14F (14 R319). -/
def Core.trapCsr (k : Core) (fw : Bool) (n : Nat) : Word :=
  let x := k.ctx fw
  match n with
  | 0x110 => x.tvec
  | 0x111 => x.tsave
  | 0x112 => x.tstat (k.mx.held.any fun h => h.1 == fw)
  | 0x113 => x.l1.cause
  | 0x114 => x.l1.epc
  | 0x115 => x.l1.tval
  | 0x116 => x.l1.tscr
  | 0x117 => x.l2.cause
  | 0x118 => x.l2.epc
  | 0x119 => x.l2.tval
  | 0x11A => x.l2.tscr
  | 0x11B => x.killRec
  | _ => if n < 0x120 then 0 else if n < 0x138 then x.l1.lstk.get 0 (n - 0x120) else x.l2.lstk.get 0 (n - 0x138)

/-- MXBANKS (06 R152). -/
def MxUnit.banks (u : MxUnit) : Word :=
  W (((rangeFrom 0 8).map fun b => u.tags.get 0 b % 16 * 16 ^ b).sum)

/-- A word of a context's range registers. -/
def Ctx.rangeCsr (x : Ctx) (i : Nat) : Word := x.ranges.get (rangeReset i) i

/-- The core of a physical core's nine bits, die, row and column (00 R7). -/
def physCore (v : Nat) : Nat := 48 * bits v 8 6 + 8 * bits v 5 3 + bits v 2 0

/-- Word 0 of the diversion entry that DIVSEL names: a physical core in bits 8 to 0 and an entry in bits 11 to 9 (15 R335). A row that no
die has names no entry. -/
def Mach.divData (m : Mach) (sel : Word) : Word :=
  match if bits sel.toNat 5 3 < 6 then (m.divsOf (physCore sel.toNat))[bits sel.toNat 11 9]? else none with
  | some d =>
    W (d.epoch * 2 ^ 48 + d.state * 2 ^ 46 + coreDie d.newCore * 2 ^ 43 + coreRow d.newCore * 2 ^ 40 +
        coreCol d.newCore * 2 ^ 37 + d.newEpoch)
  | none => 0

/-- A CSR of the device or of the translation side, from 0x100 to 0x10D and 0x190 to 0x192. -/
def Mach.devCsr (m : Mach) (n : Nat) : Word :=
  match n with
  | 0x101 => m.rootBase
  | 0x102 => W m.rtSel
  | 0x103 => W (m.staged.rt.get 0x40 m.rtSel)
  | 0x104 => m.staged.itab0
  | 0x105 => m.staged.itab1
  | 0x106 => W (b2n m.genBusy * 256 + m.gen)
  | 0x108 => m.vl.base
  | 0x109 => W (m.vl.tail.toNat * 2 ^ 32 + m.vl.head.toNat)
  | 0x10A => m.vl.lost
  | 0x10B => m.replCfg
  | 0x10D => m.detBuf
  | 0x190 => m.el.base
  | 0x191 => W (m.el.tail.toNat * 2 ^ 32 + m.el.head.toNat)
  | 0x192 => m.el.lost
  | _ => 0

/-- What a CSR reads in a context of core c, without the checks. Write-only fields read 0. -/
def Mach.csrValue (m : Mach) (c : Nat) (fw : Bool) (n : Nat) : Word :=
  let k := m.core c
  let x := k.ctx fw
  let w := m.wqAt (k.wqSel.toNat % Config.nWq)
  match n with
  | 0x040 => W k.fwShare
  | 0x041 => Config.stepLat
  | 0x042 => W k.ilimit
  | 0x043 => k.freezeCnt
  | 0x044 => k.replayCnt
  | 0x045 => x.seqStat
  | 0x046 => k.cycles
  | 0x047 => x.yieldSkip
  | 0x048 => W x.fflags.toNat
  | 0x049 => k.margin.stat
  | 0x050 => x.vl
  | 0x051 => x.rngSeed
  | 0x052 => x.rngCtr
  | 0x058 => b2w x.geocfg
  | 0x059 => k.mx.mode
  | 0x05A => k.mx.seq
  | 0x05B => k.mx.banks
  | 0x060 => x.cpySeq
  | 0x061 => x.monStat
  | 0x062 => x.monVal
  | 0x064 => k.xlatDone
  | 0x065 => x.lcid
  | 0x066 => k.teamCfg
  | 0x067 => x.cores
  | 0x068 => x.taskStat
  | 0x069 => k.taskRen
  | 0x06A => x.detStat
  | 0x06B => x.liveBase
  | 0x06C => k.swimg
  | 0x0F0 => k.wqSel
  | 0x0F1 => w.cfg
  | 0x0F2 => W (w.head.toNat * 2 ^ 32 + w.tail.toNat)
  | 0x0F4 => W w.state
  | 0x0F8 => k.slice
  | 0x0FA => k.divSel
  | 0x0FB => m.divData k.divSel
  | 0x100 => W x.asid
  | _ =>
    if 0x070 ≤ n ∧ n ≤ 0x08F then x.rangeCsr (n - 0x070)
    else if 0x0A0 ≤ n ∧ n ≤ 0x0AF then k.ringCfg.get 0 (n - 0x0A0)
    else if 0x0B0 ≤ n ∧ n ≤ 0x0BF then (k.ring.get RingSt.reset (n - 0x0B0)).ptr
    else if 0x0C0 ≤ n ∧ n ≤ 0x0D7 then W (k.bfmt.get 0x0F (n - 0x0C0))
    else if 0x0E0 ≤ n ∧ n ≤ 0x0EF then wordOfBytes (k.ring.get RingSt.reset (n - 0x0E0)).lend
    else if 0x110 ≤ n ∧ n ≤ 0x14F then k.trapCsr fw n
    else if 0x150 ≤ n ∧ n ≤ 0x18F then k.trapCsr false (n - 0x40)
    else if 0x1A0 ≤ n ∧ n ≤ 0x1BF then k.c0.rangeCsr (n - 0x1A0)
    else m.devCsr n

/-- Operations of a context that will still set its flags hold a CSRR and a CSRW of FFLAGS back (02 R46). -/
def State.flagsBusy (s : State) : Bool := s.kp.vops.any fun v => v.fw == s.iss.fw && v.drain.isNone

/-- CSRR (07 R210). -/
def execCsrr (d : Dst) (csr : BitVec 12) (s : State) : Out :=
  let n := csr.toNat
  if !s.iss.fw && csrPriv n then .next (s.trap .privCsr 0)
  else if n = 0x048 ∧ s.flagsBusy then .next s.stall
  else .next (s.put d (s.pre.csrValue s.iss.core s.iss.fw n))

/-! ## Writing a CSR -/

/-- A CSR write that stores a value, or raises the fault of a value that the register refuses. -/
def State.csrStore (s : State) (ok : Bool) (c : Cause) (f : Mach → Mach) : Out :=
  if ok then .next (s.upd f) else .next (s.trap c 0)

/-- A write of a trap CSR of the issuing core's context 1 if fw, else context 0 (14 R319). -/
def State.trapCsrWrite (s : State) (fw : Bool) (n : Nat) (v : Word) : Out :=
  let upd (f : Ctx → Ctx) : Out := .next (s.upd fun m => m.updCtx s.iss.core fw f)
  match n with
  | 0x110 => upd fun x => { x with tvec := v &&& ~~~(0x3E : Word) }
  | 0x111 => upd fun x => { x with tsave := v &&& ~~~(0x3FF : Word) }
  | 0x114 => upd fun x => { x with l1 := { x.l1 with epc := v } }
  | 0x116 => upd fun x => { x with l1 := { x.l1 with tscr := v } }
  | 0x118 => upd fun x => { x with l2 := { x.l2 with epc := v } }
  | 0x11A => upd fun x => { x with l2 := { x.l2 with tscr := v } }
  | 0x11B =>
    let bit : Word := W (2 ^ 32)
    upd fun x => { x with killRec := (x.killRec &&& ~~~bit) ||| (v &&& bit) }
  | _ =>
    if n < 0x120 then .next s
    else
      let i := (n - 0x120) % 24
      let depth := bits v.toNat 3 1
      let w := if i % 4 = 3 then v &&& (0xF : Word) else v
      if i % 4 = 3 ∧ (6 < depth ∨ (depth ≠ 0 ∧ 4 ≤ i)) then .next (s.trap .illegalOperand 0)
      else if n < 0x138 then upd fun x => { x with l1 := { x.l1 with lstk := x.l1.lstk.put i w } }
      else upd fun x => { x with l2 := { x.l2 with lstk := x.l2.lstk.put i w } }

/-- The stored value of a log ring's base register; LOG from 6 to 16. -/
def logBase (v : Word) : Word := W (bits v.toNat 39 12 * 2 ^ 12 + bits v.toNat 4 0)

/-- Whether LOG of a log ring's base register is legal. -/
def logBaseOk (v : Word) : Bool := decide (6 ≤ bits v.toNat 4 0) && decide (bits v.toNat 4 0 ≤ 16)

/-- XGEN_INSTALL (13 R306): a write of XGEN with INSTALL set waits under 07 R180 while an install drains; the staged tables become those of the
next generation. -/
def execXgenInstall (s : State) : Out :=
  if s.m.genBusy then .next (s.waitFor .install 0 none none)
  else .next (s.endWait.upd fun m => { m with gen := (m.gen + 1) % 256, genBusy := true, routes := m.staged })

/-- A write of REPLCFG or DETBUF waits while a deterministic phase is open (16 R347). -/
def State.phaseWait (s : State) (k : State → Out) : Out :=
  if s.granted.isSome then k s.endWait
  else if s.pre.detOpen then .next (s.waitFor .phase 0 none none)
  else k s

/-- A write of a CSR from 0x101 to 0x10D or 0x190 to 0x192. -/
def State.devCsrWrite (s : State) (n : Nat) (v : Word) : Out :=
  let x := v.toNat
  match n with
  | 0x101 => .next (s.upd fun m => { m with rootBase := W (bits x 35 17 * 2 ^ 17 + bits x 3 0) })
  | 0x102 => .next (s.upd fun m => { m with rtSel := x % 1024 })
  | 0x103 =>
    let k := bits x 6 4
    s.csrStore (decide (k ≤ 4) && bits x 3 0 % 2 ^ k == 0) .illegalOperand fun m =>
      { m with staged := { m.staged with rt := m.staged.rt.put m.rtSel (x % 128) } }
  | 0x104 => .next (s.upd fun m => { m with staged := { m.staged with itab0 := v } })
  | 0x105 => .next (s.upd fun m => { m with staged := { m.staged with itab1 := v } })
  | 0x106 => if bitAt x 9 then execXgenInstall s else .next s
  | 0x108 => s.csrStore (logBaseOk v) .illegalOperand fun m => { m with vl := { m.vl with base := logBase v } }
  | 0x109 => .next (s.upd fun m => { m with vl := { m.vl with head := BitVec.ofNat 32 x } })
  | 0x10A => .next (s.upd fun m => { m with vl := { m.vl with lost := v } })
  | 0x10B =>
    s.phaseWait fun t => t.csrStore (decide (bits x 59 56 < 12)) .illegalOperand fun m =>
      { m with replCfg := W (bits x 63 63 * 2 ^ 63 + bits x 59 56 * 2 ^ 56 + bits x 47 0) }
  | 0x10C =>
    (match bits x 1 0 with
     | 1 => execReplcmdCommit s
     | 2 => execReplcmdDiscard s
     | _ => .next (s.trap .illegalOperand 0))
  | 0x10D =>
    let lg := bits x 4 0
    s.phaseWait fun t => t.csrStore (decide (4 ≤ lg) && decide (lg ≤ 16) && iaClass (bits x 51 16 * 2 ^ 16) == 0)
      .illegalOperand fun m => { m with detBuf := W (bits x 51 16 * 2 ^ 16 + lg) }
  | 0x190 => s.csrStore (logBaseOk v) .illegalOperand fun m => { m with el := { m.el with base := logBase v } }
  | 0x191 => .next (s.upd fun m => { m with el := { m.el with head := BitVec.ofNat 32 x } })
  | 0x192 => .next (s.upd fun m => { m with el := { m.el with lost := v } })
  | _ => .next s

/-- A write of WQCTL: its command; a value that no state of the queue accepts raises SYNC_QUEUE_STATE (12 R294, R295). -/
def State.wqCommand (s : State) (v : Word) : Out :=
  match bits v.toNat 2 0 with
  | 1 => execWqOpen s
  | 2 => execWqClose s
  | 3 => execWqReset s
  | 4 => execWqRestart (BitVec.ofNat 32 (v.toNat / 2 ^ 32)) s
  | _ => .next (s.trap .syncQueueState 0)

/-- A write of a CSR by the issuing context, after its privilege check (00 R5): a read-only register ignores it. -/
def State.csrWrite (s : State) (n : Nat) (v : Word) : Out :=
  let x := v.toNat
  match n with
  | 0x042 => .next (s.updK fun k => { k with ilimit := max 72 (x % 2 ^ 16) })
  | 0x043 => .next (s.updK fun k => { k with freezeCnt := v })
  | 0x044 => .next (s.updK fun k => { k with replayCnt := v })
  | 0x047 => .next (s.updX fun y => { y with yieldSkip := v })
  | 0x048 => if s.flagsBusy then .next s.stall else .next (s.updX fun y => { y with fflags := BitVec.ofNat 5 x })
  | 0x050 => execVlWrite v s
  | 0x051 => .next (s.updX fun y => { y with rngSeed := v })
  | 0x052 => .next (s.updX fun y => { y with rngCtr := v })
  | 0x058 => .next (s.updX fun y => { y with geocfg := bitAt x 0 })
  | 0x059 => execMxmodeWrite v s
  | 0x061 => .next (s.updX fun y => { y with monStat := v &&& ~~~(4 : Word) })
  | 0x062 => .next (s.updX fun y => { y with monVal := v })
  | 0x069 =>
    s.csrStore (iaClass (bits x 51 16 * 2 ^ 16) == 0) .illegalOperand fun m =>
      m.updCore s.iss.core fun k => { k with taskRen := W (bits x 51 16 * 2 ^ 16 + x % 2) }
  | 0x06C =>
    s.csrStore (iaClass (bits x 51 16 * 2 ^ 16) == 0 && decide (bits x 3 0 < 7)) .illegalOperand fun m =>
      m.updCore s.iss.core fun k => { k with swimg := W (bits x 51 16 * 2 ^ 16 + bits x 3 0) }
  | 0x0D8 => execRingpush v s
  | 0x0D9 => execRingpop v s
  | 0x0DA => execMouldgo v s
  | 0x0DB => execPressgo v s
  | 0x0DC => execPeeraop v s
  | 0x0F0 => .next (s.updK fun k => { k with wqSel := W (x % 1024) })
  | 0x0F1 => .next (s.wqCfgWrite v)
  | 0x0F2 => execWqTailWrite (BitVec.ofNat 32 x) s
  | 0x0F3 => s.wqCommand v
  | 0x0F8 => .next (s.updK fun k => { k with slice := v })
  | 0x0F9 => execWdogWrite v s
  | 0x0FA => .next (s.updK fun k => { k with divSel := W (x % 4096) })
  | _ =>
    if 0x0A0 ≤ n ∧ n ≤ 0x0AF then execRingcfgWrite (BitVec.ofNat 4 n) v s
    else if 0x0C0 ≤ n ∧ n ≤ 0x0D7 then
      s.csrStore (Fmt.dec (BitVec.ofNat 8 x)).isSome .illegalFormat fun m =>
        m.updCore s.iss.core fun k => { k with bfmt := k.bfmt.put (n - 0x0C0) (x % 256) }
    else if 0x110 ≤ n ∧ n ≤ 0x14F then s.trapCsrWrite s.iss.fw n v
    else if 0x150 ≤ n ∧ n ≤ 0x18F then s.trapCsrWrite false (n - 0x40) v
    else s.devCsrWrite n v

/-- CSRW (07 R210): the value's own faults come after the privilege check and after any wait that the register imposes. -/
def execCsrw (csr : BitVec 12) (a : Src) (s : State) : Out :=
  s.withSrcs [a] fun t =>
    if !s.iss.fw && csrPrivWrite csr.toNat then .next (s.trap .privCsr 0) else t.csrWrite csr.toNat (s.src a)

/-! ## RRW and XLATINV -/

/-- RRW (07 R211): a range register of context 1 if ctx, else of context 0. -/
def execRrw (ctx : Bool) (idx : BitVec 3) (k : BitVec 4) (s : State) : Out :=
  let w (j : Nat) : Word := s.xp.sreg (4 * k.toNat + j)
  if !rangeWordsOk (w 0) (w 1) (w 2) (w 3) then .next (s.trap .illegalOperand 0)
  else
    .next (s.upd fun m => m.updCtx s.iss.core ctx fun x =>
      { x with ranges := (rangeFrom 0 4).foldl (fun t j => t.put (4 * idx.toNat + j) (w j)) x.ranges })

/-- XLATINV (07 R212): a request for an address space, and a page or the whole space. -/
def execXlatinv (d : Dst) (a b : Src) (s : State) : Out :=
  s.withSrcs [a, b] fun t =>
    let sp := s.src a
    let pg := s.src b
    let t := t.latchAB lENG sp pg
    if pg.toNat % 2 ^ 16 ≠ 0 then .next (s.trap .alignXlatinv pg)
    else if sp.toNat / 2 ^ 14 ≠ 0 then .next (s.trap .illegalOperand 0)
    else
      let n := s.kp.xlatSeq + 1
      .next ((t.updK fun k =>
        { k with xlatSeq := n, xlatReqs := k.xlatReqs ++ [{ num := n, asid := sp.toNat, page := pg }] }).put d n)

/-! ## Events of translation (13 R306, R312 to R314) -/

/-- Whether an invalidation covers a cached translation, or table entry, of an address space for a span of addresses. -/
def XReq.covers (r : XReq) (asid base span : Nat) : Bool :=
  asid == r.asid && (r.page == 0 || (decide (base ≤ r.page.toNat) && decide (r.page.toNat < base + span)))

/-- The cached translations and table entries that an invalidation covers leave every MSU (13 R312). -/
def Mach.invalidate (m : Mach) (r : XReq) : Mach :=
  let stays (t : TlbEnt) : Bool := !r.covers t.asid t.base t.span
  { m with tlb := m.tlb.filter stays, lineMaps := m.lineMaps.filter stays, tabs := m.tabs.filter fun t => !r.covers t.asid t.base t.span }

/-- Whether a translation by which lines have come in maps some address to a 64-byte line of a stack. -/
def Mach.mapsLine (m : Mach) (t : TlbEnt) (key : Nat) : Bool :=
  let lf := t.leafAt t.base
  let off := key % 2 ^ 30 * 64
  let lo := bits lf.val 47 16 * 2 ^ 16
  decide (lo ≤ off) && decide (off < lo + lf.span) && m.leafPlace lf (lf.base + (off - lo)) == .hbm (key / 2 ^ 30) off

/-- The lines of removed translations are recalled from every scalar data cache (13 R312). -/
def Mach.recall (m : Mach) (gone : List TlbEnt) : Mach :=
  m.mapCores fun k => { k with dcache := k.dcache.drop fun key => gone.any fun t => m.mapsLine t key }

/-- Tasks that aborted on a covered page become ready (13 R314). -/
def QItem.release (it : QItem) (r : XReq) : QItem :=
  match it.hold with
  | some (a, p) => if a = r.asid ∧ (r.page = 0 ∨ r.page.toNat / 2 ^ 16 = p) then { it with hold := none } else it
  | none => it

/-- XLATDONE: the highest request number up to which every request has completed. -/
def Core.xlatLast (k : Core) : Word :=
  match k.xlatReqs with
  | [] => k.xlatSeq
  | r :: rest => rest.foldl (fun n y => if y.num - 1 < n then y.num - 1 else n) (r.num - 1)

/-- XLATINV_COMPLETE (13 R312, R314): a request completes at every MSU. -/
def execXlatinvComplete (core : Nat) (req : Nat) (s : State) : Out :=
  match (s.m.core core).xlatReqs.find? fun r => r.num == W req with
  | none => s.atCore core false id
  | some r =>
    s.atCore core true fun m =>
      let m1 := (m.invalidate r).recall (m.lineMaps.filter fun t => r.covers t.asid t.base t.span)
      let free (w : WQ) : WQ :=
        { w with items := w.items.map fun it => it.release r, requeue := w.requeue.map fun it => it.release r }
      let m2 : Mach := { m1 with wq := ⟨m1.wq.l.map fun e => (e.1, free e.2)⟩ }
      let m3 := m2.updCore core fun k =>
        let k1 := { k with xlatReqs := k.xlatReqs.filter fun y => y.num != W req }
        { k1 with xlatDone := k1.xlatLast }
      m3.wake

/-- XGEN_DRAIN_DONE (13 R306): no request of the previous generation is in flight any more. -/
def execXgenDrainDone (s : State) : Out := .next (s.upd fun m => { m with genBusy := false })

/-- A base die enters reset, or counts as in reset: the requests it holds are answered, its cached translations are gone. -/
def Mach.baseReset (m : Mach) (die : Nat) : Mach :=
  let m1 : Mach := { m with dieReset := m.dieReset ||| BitVec.ofNat 16 (2 ^ die),
                            tlb := m.tlb.filter fun t => t.msu != die, tabs := m.tabs.filter fun t => t.msu != die }
  (m1.waiters.filter fun w => w.inStack die).foldl (fun m w => m.homeAnswer .memHomeReset w) m1

/-- BASE_DIE_RESET (13 R313). -/
def execBaseDieReset (die : Nat) (s : State) : Out :=
  if Config.nStacks ≤ die then .fault (.noSuchObject "base die") else .next (s.upd fun m => m.baseReset die)

end Sys2Proof.Machine
end

