-- ==== Sys2Proof/Machine/Package.lean ====
section
/-!
DEFINITION. The package (18): links, thermal limits, MSI-X, die gating and HBM self-refresh; the patrol scrubber and the self-test
(20 R397, R400); the debug block (20 R399).
-/
namespace Sys2Proof.Machine

/-! ## Links (18 R366, R367) -/

/-- The number of die links: links below it join compute dies, the others a base die each. -/
def nDieLinks : Nat := 10

/-- A link goes down: a base-die link takes its base die as in reset. -/
def Mach.linkDown (m : Mach) (l : Nat) : Mach :=
  let m1 := ((m.updLink l fun k => { k with down := true, training := false }).logErr (Cause.code .rasLinkDown) kDetected
    { site := 3, unit := 0xF, loc := l }).msix 6
  if nDieLinks ≤ l then m1.baseReset (l - nDieLinks) else m1

/-- An event of a link that exists. -/
def State.atLink (s : State) (l : Nat) (ok : Bool) (f : Mach → Mach) : Out :=
  if Config.nLinks ≤ l then .fault (.noSuchObject "link") else .next (if ok then s.upd f else s)

/-- LINK_RATE_STEP: one rate up or down, which opens a retraining window. -/
def execLinkRateStep (link : Nat) (up : Bool) (s : State) : Out :=
  let k := s.m.linkAt link
  let ok := !k.training && !k.down && (if up then decide (k.rate < 3) else decide (0 < k.rate))
  s.atLink link ok fun m =>
    m.updLink link fun k => { k with rate := if up then k.rate + 1 else k.rate - 1, training := true }

/-- LINK_RETRAIN_DONE: the window ends, or training fails; a link that fails three times in a row is down. -/
def execLinkRetrainDone (link : Nat) (ok : Bool) (s : State) : Out :=
  s.atLink link (s.m.linkAt link).training fun m =>
    if ok then m.updLink link fun k => { k with training := false, fails := 0 }
    else
      let m1 := m.updLink link fun k => { k with fails := k.fails + 1 }
      if 3 ≤ (m1.linkAt link).fails then m1.linkDown link else m1

/-- FLIT_CRC_RETRY: the flit is sent again; nothing is lost or reordered. -/
def execFlitCrcRetry (link : Nat) (s : State) : Out := s.atLink link true id

/-! ## Thermal limits and MSI-X (18 R370, R376) -/

/-- THERMAL_LIMIT: vector 7, and nothing else. -/
def execThermalLimit (s : State) : Out := .next (s.upd fun m => m.msix 7)

/-- A vector is unmasked: one message for the events that were recorded. -/
def Mach.unmask (m : Mach) (v : Nat) : Mach :=
  let m1 : Mach := { m with msixMask := m.msixMask &&& ~~~(vecBit v), msixPend := m.msixPend &&& ~~~(vecBit v) }
  if bitAt m.msixPend.toNat v then m1.msix v else m1

/-- The host services a vector: its next event sends a message again. -/
def Mach.serviced (m : Mach) (v : Nat) : Mach := { m with msixSent := m.msixSent &&& ~~~(vecBit v) }

/-- MSIX_VECTOR_UNMASK. -/
def execMsixVectorUnmask (vec : Nat) (s : State) : Out :=
  if 9 ≤ vec then .fault (.noSuchObject "vector") else .next (s.upd fun m => m.unmask vec)

/-! ## Cores that lose power -/

/-- Everything that context 1 of a core has under way is gone with the core. -/
def Mach.dropCore (m : Mach) (c : Nat) : Mach :=
  let o : Owner := .fw c
  let m1 : Mach := { m.withdraw o with
    copies := m.copies.filter fun k => k.owner != o, subs := m.subs.filter fun k => k.owner != o,
    commits := m.commits.filter fun k => k.owner != o, arrivals := m.arrivals.filter fun a => a.core != c,
    heldArr := m.heldArr.filter fun a => a.core != c }
  (m1.launches.filter fun l => m1.preparing c l).reverse.foldl Mach.takeBack m1

/-- A core as its reset leaves it: every register at its reset value (01 R10); its entry in flash and its margin state stay. -/
def Mach.coreReset (m : Mach) (c : Nat) : Mach :=
  (m.dropCore c).updCore c fun k => { Core.reset with margin := { (k.margin.rowEnd false).rowEnd true with settle := none } }

/-- The cores of a die. -/
def dieCoreNos (d : Nat) : List Nat := rangeFrom (Config.coresPerDie * d) Config.coresPerDie

/-! ## Die gating (18 R378) -/

/-- A bit of an 8-bit mask. -/
def bit8 (i : Nat) : BitVec 8 := BitVec.ofNat 8 (2 ^ i)

/-- An event of a compute die that exists. -/
def State.atDie (s : State) (d : Nat) (ok : Bool) (f : Mach → Mach) : Out :=
  if Config.nDies ≤ d then .fault (.noSuchObject "die") else .next (if ok then s.upd f else s)

/-- A die gates: its cores lose power. -/
def Mach.gateNow (m : Mach) (d : Nat) : Mach :=
  let off (m : Mach) (c : Nat) : Mach :=
    (m.stopHours c).updCore c fun k => { k with c0 := { k.c0 with run := .idle }, c1 := { k.c1 with run := .idle } }
  let m1 := (dieCoreNos d).foldl off m
  { m1 with power := { m1.power with gated := m1.power.gated ||| bit8 d } }

/-- A DIEGATE bit is set: nothing more is placed on the die. One whose firmware is still booting is gated again at once. -/
def Mach.gateDie (m : Mach) (d : Nat) : Mach :=
  let m1 : Mach := { m with power := { m.power with dieGate := m.power.dieGate ||| bit8 d } }
  if bitAt m.power.gated.toNat d then m1.gateNow d else m1

/-- DIEGATE_SET. -/
def execDiegateSet (die : Nat) (s : State) : Out := s.atDie die true fun m => m.gateDie die

/-- Whether a die that is to be gated may gate now. -/
def Mach.mayGate (m : Mach) (d : Nat) : Bool :=
  bitAt m.power.dieGate.toNat d && !bitAt m.power.gated.toNat d && (dieCoreNos d).all fun c => !(m.core c).holds

/-- DIE_GATED. -/
def execDieGated (die : Nat) (s : State) : Out := s.atDie die (s.m.mayGate die) fun m => m.gateNow die

/-- A DIEGATE bit is cleared: a gated die's cores are reset, and GATED clears once their firmware has booted from flash
(Mach.fwStart). Before the die has gated, its cores run on (18 R378). -/
def Mach.ungateDie (m : Mach) (d : Nat) : Mach :=
  let m1 : Mach := { m with power := { m.power with dieGate := m.power.dieGate &&& ~~~(bit8 d) } }
  if bitAt m.power.gated.toNat d then (dieCoreNos d).foldl Mach.coreReset m1 else m1

/-- Whether a core's die has been ungated and waits for its firmware to boot (18 R378, 20 R402). -/
def Mach.booting (m : Mach) (c : Nat) : Bool :=
  !m.power.off && bitAt m.power.gated.toNat (coreDie c) && !bitAt m.power.dieGate.toNat (coreDie c) && (m.core c).margin.state != 2

/-- GATED clears once the firmware of every core of the die that is not fenced has booted: the cores have power from then on. -/
def Mach.endGating (m : Mach) (d : Nat) : Mach :=
  if (dieCoreNos d).all fun c => !m.booting c || (m.core c).c1.run != .idle then
    let m1 := (dieCoreNos d).foldl (fun m c => m.runHours c) m
    { m1 with power := { m1.power with gated := m1.power.gated &&& ~~~(bit8 d) } }
  else m

/-- DIEGATE_CLEAR. -/
def execDiegateClear (die : Nat) (s : State) : Out := s.atDie die (bitAt s.m.power.dieGate.toNat die) fun m => m.ungateDie die

/-! ## HBM self-refresh (18 R379) -/

/-- A bit of a 16-bit mask. -/
def bit16 (i : Nat) : BitVec 16 := BitVec.ofNat 16 (2 ^ i)

/-- An event of a stack that exists. -/
def State.atStack (s : State) (h : Nat) (ok : Bool) (f : Mach → Mach) : Out :=
  if Config.nStacks ≤ h then .fault (.noSuchObject "stack") else .next (if ok then s.upd f else s)

/-- An HBMSR bit is set. -/
def Mach.refreshStack (m : Mach) (h : Nat) : Mach := { m with power := { m.power with hbmSr := m.power.hbmSr ||| bit16 h } }

/-- HBMSR_SET. -/
def execHbmsrSet (stack : Nat) (s : State) : Out := s.atStack stack true fun m => m.refreshStack stack

/-- HBM_SELF_REFRESH_ENTRY: every access that the stack's MSU has accepted has been performed; a request that waits there has not. -/
def execHbmSelfRefreshEntry (stack : Nat) (s : State) : Out :=
  s.atStack stack (bitAt s.m.power.hbmSr.toNat stack && !(s.m.waiters.any fun w => w.inStack stack)) fun m =>
    { m with power := { m.power with inSr := m.power.inSr ||| bit16 stack } }

/-- An HBMSR bit is cleared: the stack leaves self-refresh. -/
def Mach.wakeStack (m : Mach) (h : Nat) : Mach :=
  { m with power := { m.power with hbmSr := m.power.hbmSr &&& ~~~(bit16 h), inSr := m.power.inSr &&& ~~~(bit16 h) } }

/-- HBMSR_CLEAR. -/
def execHbmsrClear (stack : Nat) (s : State) : Out := s.atStack stack true fun m => m.wakeStack stack

/-! ## The patrol scrubber (20 R397) -/

/-- PATROL_SCRUB: a scrub read changes no value that a program can observe; a corrected error is logged. -/
def execPatrolScrub (corrected : Option FailArray) (s : State) : Out :=
  if !bitAt s.m.scrub.toNat 8 || s.m.power.off then .next s
  else
    .next (s.upd fun m =>
      let m1 : Mach := { m with scrubPos := m.scrubPos + 1 }
      match corrected with
      | none => m1
      | some f => m1.logCorrected f)

/-! ## Self-test (20 R400) -/

/-- Whether a die can be tested: none of its cores holds a context or a candidate, and it has power. -/
def Mach.testable (m : Mach) (d : Nat) : Bool :=
  !bitAt m.power.gated.toNat d && (dieCoreNos d).all fun c => !(m.core c).holds

/-- STCTL.START: the dies named that can be tested are tested, the others report NOT RUN. -/
def Mach.startTest (m : Mach) (dies : BitVec 8) : Mach :=
  if m.stStatus = 3 then m
  else
    let named := (rangeFrom 0 Config.nDies).filter fun d => bitAt dies.toNat d
    let run := named.filter m.testable
    { m with stStatus := 3, stFails := 0, stSkip := decide (run.length < named.length),
             stDies := run.foldl (fun b d => b ||| bit8 d) 0 }

/-- SELF_TEST_START. -/
def execSelfTestStart (dies : BitVec 8) (s : State) : Out := .next (s.upd fun m => m.startTest dies)

/-- A failing array: an entry of the error log, and for an array of a core that core becomes FENCEPEND. -/
def Mach.testFail (m : Mach) (f : FailArray) : Mach :=
  let m1 := m.logErr (Cause.code .rasSelftestFail) kDetected
    { site := f.site, unit := f.unit, array := f.array, row := f.row, loc := f.place }
  if f.site = 0 ∧ f.place < Config.nCores then m1.fencePending f.place .rasSelftestFail else m1

/-- SELF_TEST_COMPLETE: a failing array sets STATUS FAIL, else a die that was not tested NOT RUN. -/
def execSelfTestComplete (fails : List FailArray) (s : State) : Out :=
  if s.m.stStatus ≠ 3 then .next s
  else
    .next (s.upd fun m =>
      let m1 := fails.foldl Mach.testFail m
      { m1 with stFails := min 255 fails.length, stDies := 0,
                stStatus := if fails.isEmpty then (if m.stSkip then 2 else 0) else 1 })

/-! ## The debug block (20 R399) -/

/-- The device with f applied to the debug block of a core. -/
def Mach.updDbg (m : Mach) (c : Nat) (f : Debug → Debug) : Mach := m.updCore c fun k => { k with dbg := f k.dbg }

/-- A context in debug state runs on at its pc. -/
def Mach.debugRun (m : Mach) (c : Nat) : Mach :=
  m.updCore c fun k => if k.c0.run = .debug then { k with c0 := { k.c0 with run := .running } } else k

/-- HALTREQ: an attached context stops at its next bundle. -/
def Mach.debugHalt (m : Mach) (c : Nat) : Mach := m.updDbg c fun d => if d.attach then { d with haltReq := true } else d

/-- ATTACH written: a detach resumes a stopped context. -/
def Mach.debugAttach (m : Mach) (c : Nat) (on : Bool) : Mach :=
  let m1 := m.updDbg c fun d => { d with attach := on, haltReq := d.haltReq && on }
  if on then m1 else m1.debugRun c

/-- The context block that the data window of a debug block shows, with every s register (20 R399, 15 R334). -/
def Core.debugBlock (k : Core) : Mem :=
  (k.block (Desc.all 0 k.c0.wait.isSome)).putWords 0x180 ((rangeFrom 0 64).map k.c0.sreg)

/-- What the register at an offset of the context block keeps of a value; none where the offset names no register that a debugger
writes, or the register refuses the value (log 117). -/
def debugWord (off : Nat) (v : Word) : Option Word :=
  match off with
  | 0x08 => some v
  | 0x10 => some ((v &&& (0xFFFF : Word)) ||| 1)
  | 0x18 => vlStored v
  | 0x20 => some (v &&& (0x1F : Word))
  | 0x28 => some (v &&& (1 : Word))
  | 0x30 => some (v &&& ~~~(4 : Word))
  | 0x50 => some (W (v.toNat % 2 ^ 63))
  | 0x60 => some (v &&& ~~~(0x3E : Word))
  | 0x68 => some (v &&& ~~~(0x3FF : Word))
  | _ =>
    if off % 8 = 0 ∧ ((0x30 < off ∧ off < 0x60) ∨ (0xC0 ≤ off ∧ off < 0x460) ∨ (0x468 ≤ off ∧ off < 0x4C8) ∨
        (0x4D8 ≤ off ∧ off < 0x5D8)) then some v else none

/-- The range registers of a context keep the form that RRW asks for (07 R211). -/
def Ctx.rangesOk (x : Ctx) : Bool :=
  (rangeFrom 0 8).all fun i =>
    let w (j : Nat) : Word := x.ranges.get (rangeReset j) (4 * i + j)
    rangeWordsOk (w 0) (w 1) (w 2) (w 3)

/-- A stopped context with a register written through the data window (20 R399). -/
def Core.debugPut (k : Core) (off : Nat) (v : Word) : Core :=
  match debugWord off v with
  | none => k
  | some w =>
    let x := k.c0.ofBlock (k.debugBlock.putWords off [w])
    if x.rangesOk then
      { k with c0 := { x with absent := k.c0.absent, absentHeld := k.c0.absentHeld, absentLost := k.c0.absentLost } }
    else k

/-- A read of the data window, whose value leaves through the host port. -/
def Mach.debugRead (m : Mach) (c off : Nat) : Mach :=
  if (m.core c).c0.run = .debug ∧ off % 8 = 0 ∧ off < 0x1000 then m.send (.readData ((m.core c).debugBlock.read off 8)) else m

/-- A write of the data window. -/
def Mach.debugWrite (m : Mach) (c off : Nat) (v : Word) : Mach :=
  if (m.core c).c0.run = .debug then m.updCore c fun k => k.debugPut off v else m

/-- DEBUG_HALTREQ. -/
def execDebugHaltreq (core : Nat) (s : State) : Out := s.atCore core true fun m => m.debugHalt core

/-- DEBUG_RESUME. -/
def execDebugResume (core : Nat) (s : State) : Out := s.atCore core true fun m => m.debugRun core

/-- DEBUG_ATTACH. -/
def execDebugAttach (core : Nat) (on : Bool) (s : State) : Out := s.atCore core true fun m => m.debugAttach core on

end Sys2Proof.Machine
end

