-- ==== Sys2Proof/Machine/Boot.lean ====
section
/-!
DEFINITION. Boot, keys and attestation (20 R400 to R404): the images in flash and their verification, the mask ROM, the commands of
BOOTCMD, the report of ATTGO; device reset, OFF and loss of power (18 R380, 19 R390).
-/
namespace Sys2Proof.Machine

/-! ## Images (20 R401) -/

/-- n bytes of an image as a number. -/
def imgNum (img : List Byte) (at_ n : Nat) : Nat := natOfBytes ((img.drop at_).take n)
/-- SVN of an image. -/
def imgSvn (img : List Byte) : Nat := imgNum img 4 4
/-- LEN of an image. -/
def imgLen (img : List Byte) : Nat := imgNum img 8 8
/-- KEYSLOT of an image. -/
def imgSlot (img : List Byte) : Nat := imgNum img 16 1
/-- Header and firmware of an image. -/
def imgBody (img : List Byte) : List Byte := img.take (64 + imgLen img)
/-- The public key of an image. -/
def imgKey (img : List Byte) : List Byte := (img.drop (64 + imgLen img)).take 32
/-- The signature of an image. -/
def imgSig (img : List Byte) : List Byte := (img.drop (96 + imgLen img)).take 7856
/-- The bytes of an image with a body of n bytes of firmware. -/
def imgBytes (n : Nat) : Nat := 64 + n + 32 + 7856

/-- MAGIC is right and the region holds the whole image. -/
def imgFormed (img : List Byte) : Bool := imgNum img 0 4 == 0x5A485444 && decide (imgBytes (imgLen img) ≤ img.length)

/-- The signature of an image verifies. -/
def imgSigned (img : List Byte) : Bool := Config.sigVerify (imgKey img) (imgBody img) (imgSig img)

/-- An owner slot nothing has blown. -/
def KeySlot.reset : KeySlot := { hash := [], enrolled := false, revoked := false }

/-- verify (20 R402). -/
def Trust.verify (t : Trust) (img : List Byte) : Bool :=
  let h := sha256 (imgKey img)
  let k := imgSlot img
  let slot := t.slots.get KeySlot.reset k
  imgFormed img && decide (t.svn ≤ imgSvn img) &&
    (if k = 0 then h == t.vendor && !t.ownerOnly else decide (k ≤ 4) && slot.enrolled && !slot.revoked && h == slot.hash) &&
    imgSigned img

/-- verify_snow (20 R402): the fuse SVN and OWNERONLY are not consulted. -/
def Trust.verifySnow (t : Trust) (img : List Byte) : Bool :=
  imgFormed img && imgSlot img == 0 && sha256 (imgKey img) == t.vendor && imgSigned img

/-! ## The mask ROM (20 R402, R404) -/

/-- What the fuses hold, laid one after another: MEAS2 is extended with the fuse words, whose layout the spec leaves open. -/
def Trust.fuses (t : Trust) : List Byte :=
  t.vendor ++ (rangeFrom 1 4).flatMap (fun i =>
    let k := t.slots.get KeySlot.reset i
    BitVec.ofNat 8 (b2n k.enrolled + 2 * b2n k.revoked) :: k.hash) ++ BitVec.ofNat 8 (b2n t.ownerOnly) :: bytesOfNat 8 t.svn

/-- The measurements extended with a booted image. -/
def Trust.measured (t : Trust) (img : List Byte) : Trust :=
  { t with meas0 := sha256 (t.meas0 ++ sha256 (imgBody img)), meas1 := sha256 (t.meas1 ++ sha256 (imgKey img)),
           meas2 := sha256 (t.meas2 ++ Config.fuseBytes t.fuses) }

/-- Whether the image that BOOTSTAT.IMAGE names verifies: it is loaded anew at a restart of context 1 and at the reset of a die after
DIEGATE (20 R402). -/
def Trust.reloads (t : Trust) : Bool := if t.image = 0 then t.verify t.main else t.verifySnow t.snow

/-- The mask ROM picks an image: the main image, or Snowdrop by the strap, by command or where main fails. -/
def Trust.boot (t : Trust) : Trust :=
  let want := Config.strapRecovery || t.snowReq
  let t1 := { t with snowReq := false }
  if !want && t.verify t.main then { t1.measured t.main with image := 0, fallback := false, status := 1 }
  else if t.verifySnow t.snow then { t1.measured t.snow with image := 1, fallback := !want, status := 2 }
  else { t1 with image := 1, fallback := !want, status := 3 }

/-! ## Reset and power (18 R380, 19 R389, R390, 20 R400, R402) -/

/-- What outlives the loss of everything volatile: the fuses and the flash. -/
def Trust.kept (t : Trust) : Trust :=
  { Trust.reset with vendor := t.vendor, slots := t.slots, ownerOnly := t.ownerOnly, svn := t.svn, main := t.main, snow := t.snow,
                     snowReq := t.snowReq }

/-- The device with every volatile register at its reset value: time, the memories named, flash, fuses and physical faults stay, and
so do what has been sent and the counters of the model. -/
def Mach.wiped (m : Mach) (hbm : Tab Mem) : Mach :=
  { Mach.reset with
    time := m.time, hbm := hbm, hostMem := m.hostMem, cxlMem := m.cxlMem, nextId := m.nextId, trust := m.trust.kept, out := m.out,
    nonce := m.nonce, bad := m.bad, cores := ⟨m.cores.l.map fun e => (e.1, { Core.reset with margin := e.2.margin })⟩ }

/-- A core's hours run on through a reset without a loss of power (19 R390). -/
def Mach.keepHours (m : Mach) (c : Nat) (h : Nat × Nat) : Mach :=
  m.updMargin c fun g => { g with hours := h.1, hoursTick := if g.state = 2 then W h.2 else m.time - W h.2 }

/-- Every core takes up its entry in flash; its hours stand as before the reset unless the package was off. -/
def Mach.bootMargins (m old : Mach) (fails : List FailArray) : Mach :=
  (rangeFrom 0 Config.nCores).foldl
    (fun m c =>
      let m1 := m.bootMargin c (!(fails.any fun f => f.site == 0 && f.place == c))
      if old.power.off then m1 else m1.keepHours c (old.hoursOf c)) m

/-- A device reset: volatile state is cleared, the self-test of every die runs with free results (log 8), the mask ROM boots. -/
def Mach.deviceReset (m : Mach) : Mach :=
  let fails := Config.bootFails m.nonce
  let m1 := ((m.wiped m.hbm).tickNonce).bootMargins m fails
  let m2 := fails.foldl Mach.testFail m1
  { m2 with stFails := min 255 fails.length, stStatus := b2n (!fails.isEmpty), trust := m2.trust.boot }

/-- DEVICE_RESET. -/
def execDeviceReset (s : State) : Out := .next (s.upd Mach.deviceReset)

/-- OFF (18 R380): every context ends without a record, SRAM is lost, and HBM is kept in stacks in self-refresh only. -/
def Mach.powerOff (m : Mach) : Mach :=
  let m1 := m.wiped ⟨m.hbm.l.filter fun e => bitAt m.power.inSr.toNat e.1⟩
  { m1 with power := { m1.power with off := true } }

/-- POWER_OFF. -/
def execPowerOff (s : State) : Out := .next (s.upd Mach.powerOff)

/-- POWER_LOSS (19 R390): no memory of the package is kept. -/
def execPowerLoss (s : State) : Out :=
  .next (s.upd fun m =>
    let m1 := m.wiped Tab.empty
    { m1 with power := { m1.power with off := true } })

/-- The image that the mask ROM has loaded, and verified, starts on the context 1 of a core (20 R402, R408). The spec gives neither the
address at which the first byte of its firmware lies nor the range that covers it: the move of the agenda names them (log 3). -/
def Mach.fwStart (m : Mach) (c : Nat) (entry : Word) (range : List Word) : Mach :=
  if (m.trust.status = 1 ∨ m.trust.status = 2) ∧ (m.powered c ∨ m.booting c) ∧ (m.ctx c true).run = .idle ∧
      rangeWordsOk (wordAt range 0) (wordAt range 1) (wordAt range 2) (wordAt range 3) ∧ m.trust.reloads then
    let m1 := m.updCtx c true fun x =>
      { x with run := .running, pc := entry, ranges := (rangeFrom 0 4).foldl (fun t j => t.put j (wordAt range j)) x.ranges }
    if m.booting c then m1.endGating (coreDie c) else m1
  else m

/-! ## BOOTCMD (20 R403) -/

/-- The device with f applied to fuses and flash. -/
def Mach.updTrust (m : Mach) (f : Trust → Trust) : Mach := { m with trust := f m.trust }

/-- A command of Snowdrop: f is what it makes of fuses and flash, none where it is refused. Only Snowdrop carries commands out. -/
def Mach.snowdrop (m : Mach) (f : Trust → Option Trust) : Mach :=
  m.updTrust fun t =>
    match (if t.image = 1 ∧ t.status = 2 then f t else none) with
    | some u => { u with refused := false }
    | none => { t with refused := true }

/-- SNOW: a reset into Snowdrop. -/
def Mach.bootSnow (m : Mach) : Mach := (m.updTrust fun t => { t with snowReq := true }).deviceReset

/-- BOOT_SNOW. -/
def execBootSnow (s : State) : Out := .next (s.upd Mach.bootSnow)

/-- ENROLL: an empty owner slot is blown. -/
def Trust.enroll (slot : Nat) (hash : List Byte) (t : Trust) : Option Trust :=
  if 1 ≤ slot ∧ slot ≤ 4 ∧ !(t.slots.get KeySlot.reset slot).enrolled then
    some { t with slots := t.slots.upd KeySlot.reset slot fun k => { k with hash := hash.take 32, enrolled := true } }
  else none

/-- BOOT_ENROLL. -/
def execBootEnroll (slot : Nat) (hash : List Byte) (s : State) : Out := .next (s.upd fun m => m.snowdrop (Trust.enroll slot hash))

/-- REVOKE: a slot's REVOKED bit is blown. -/
def Trust.revoke (slot : Nat) (t : Trust) : Option Trust :=
  if 1 ≤ slot ∧ slot ≤ 4 then some { t with slots := t.slots.upd KeySlot.reset slot fun k => { k with revoked := true } } else none

/-- BOOT_REVOKE. -/
def execBootRevoke (slot : Nat) (s : State) : Out := .next (s.upd fun m => m.snowdrop (Trust.revoke slot))

/-- OWNERONLY: refused while no slot is enrolled and unrevoked. -/
def Trust.blowOwner (t : Trust) : Option Trust :=
  if (rangeFrom 1 4).any fun i => (t.slots.get KeySlot.reset i).enrolled && !(t.slots.get KeySlot.reset i).revoked then
    some { t with ownerOnly := true }
  else none

/-- BOOT_OWNERONLY. -/
def execBootOwneronly (s : State) : Out := .next (s.upd fun m => m.snowdrop Trust.blowOwner)

/-- The image staged at an offset of base die 0; none where its stack does not answer (18 R379). -/
def Mach.staging (m : Mach) (off : Nat) : List Byte :=
  let n := imgLen (m.hbmRead 0 off 64)
  if off + imgBytes n ≤ 2 ^ 36 ∧ (m.homeFault 0).isNone then m.hbmRead 0 off (imgBytes n) else []

/-- REFLASH: the staged image goes to the main region if it verifies. -/
def Mach.reflash (m : Mach) (off : Nat) : Mach :=
  let img := m.staging off
  m.snowdrop fun t => if t.verify img then some { t with main := img } else none

/-- BOOT_REFLASH. -/
def execBootReflash (off : Nat) (s : State) : Out := .next (s.upd fun m => m.reflash off)

/-- SETSVN: the fuse SVN rises to that of the verified main image. -/
def Trust.raiseSvn (t : Trust) : Option Trust := if t.verify t.main then some { t with svn := max t.svn (imgSvn t.main) } else none

/-- BOOT_SETSVN. -/
def execBootSetsvn (s : State) : Out := .next (s.upd fun m => m.snowdrop Trust.raiseSvn)

/-! ## Attestation (20 R404) -/

/-- BOOTSTAT. -/
def Trust.bootStat (t : Trust) : Word :=
  W (b2n t.refused * 128 + b2n t.fallback * 64 + t.image * 16 + t.status)

/-- The bytes of the report that are signed. -/
def Mach.reportBody (m : Mach) : List Byte :=
  let t := m.trust
  bytesOfWords ((rangeFrom 0 4).map fun i => t.nonce.get 0 i) ++ t.meas0 ++ t.meas1 ++ t.meas2 ++ t.meas3 ++
    bytesOfWords [W m.devId, t.bootStat]

/-- ATTGO: the report with its signature at ATTDST, then vector 8. -/
def Mach.attest (m : Mach) : Mach :=
  let body := m.reportBody
  let sig := (Config.sigSign body ++ List.replicate 7856 0).take 7856
  let a := m.trust.attDst.toNat
  (m.stackPut (bits a 39 36) (bits a 35 0) (body ++ sig)).msix 8

/-- ATTGO. -/
def execAttgo (s : State) : Out := .next (s.upd Mach.attest)

end Sys2Proof.Machine
end

