-- ==== Sys2Proof/Machine/Control.lean ====
section
/-!
DEFINITION. The control slot S0 (04 R100 to R111), apart from YIELD, and the completion of a HALT.
-/
namespace Sys2Proof.Machine

/-- NOP changes nothing (04 R106). -/
def execNop (s : State) : Out := .next s

/-- HINT changes nothing (04 R106). -/
def execHint (_n : BitVec 26) (s : State) : Out := .next s

/-- The target of a relative transfer (04 R100). -/
def State.relTarget (s : State) (off : Int) : Word := s.iss.addr + BitVec.ofInt 64 off

/-- A transfer that leaves loops under 01 R15. -/
def State.transfer (s : State) (t : Word) : State := s.jump t (unwind t s.xc.loops)

/-- A call: the loop stack stands, s63 takes the next bundle's address (04 R100). -/
def State.callTo (s : State) (t : Word) : State :=
  (s.put (.s 63) s.iss.next).jump t s.xc.loops

/-- BC (04 R100): taken when pP XOR N is 1. -/
def execBc (neg : Bool) (p : BitVec 4) (off : BitVec 21) (s : State) : Out :=
  if s.xp.preg p.toNat != neg then .next (s.transfer (s.relTarget off.toInt)) else .next s

/-- CALL (04 R100). -/
def execCall (off : BitVec 26) (s : State) : Out := .next (s.callTo (s.relTarget off.toInt))

/-- CALLR (04 R100). -/
def execCallr (a : Src) (s : State) : Out := s.withSrcs [a] fun t => .next (t.callTo (s.src a))

/-- JR (04 R100). -/
def execJr (a : Src) (s : State) : Out := s.withSrcs [a] fun t => .next (t.transfer (s.src a))

/-- RET: as JR (04 R100). -/
def execRet (a : Src) (s : State) : Out := s.withSrcs [a] fun t => .next (t.transfer (s.src a))

/-- The fault of a LOOP at issue (04 R103): six entries present, or the LOOP at the end of the innermost body. -/
def State.loopFault (s : State) : Option Cause :=
  if 6 ≤ s.xp.loops.length then some .illegalLoopOverflow
  else
    match s.xp.loops with
    | e :: _ => if e.last = s.iss.addr then some .illegalLoopEnd else none
    | [] => none

/-- Where execution goes on after a body of count 0 (04 R102, R103): past the bundle at the end address, whose header
gives its length; at the next line when the header is padding. Where fetch there would fault, it does so there. -/
def Mach.afterBody (m : Mach) (c : Nat) (fw : Bool) (e : Word) : Mach × Word :=
  match m.fetchLine c fw e with
  | (m1, .error _) => (m1, e)
  | (m1, .ok line) =>
    let o := e.toNat % 64
    let h := line.getD o 0
    if h = 0 then (m1, W (e.toNat / 64 * 64 + 64))
    else if 64 < o + bundleLen h then (m1, e)
    else (m1, e + W (bundleLen h))

/-- LOOP (04 R102, R103). -/
def execLoop (flex : Bool) (cnt : Src9) (endOff : BitVec 16) (s : State) : Out :=
  s.withSrcs (srcs9 cnt) fun t =>
    match s.loopFault with
    | some c => .next (s.illegal c)
    | none =>
      let n := BitVec.ofNat 32 (s.src9 cnt).toNat
      let e := s.iss.addr + W endOff.toNat
      if n = 0 then
        let (m1, nx) := t.m.afterBody s.iss.core s.iss.fw e
        .next (({ t with m := m1 } : State).jump nx t.xc.loops)
      else
        .next (t.updX fun x =>
          { x with loops := { start := s.iss.next, last := e, count := n, index := 0, flex := flex } :: x.loops })

/-- Whether an ADV entry asks for more than its queue holds (01 R22). -/
def State.advUnder (s : State) (e : AdvEnt) : Bool :=
  e.count != 0 && decide ((s.xp.rqOf e.unit.toNat).length < e.count.toNat)

/-- One entry of ADV pops its queue (01 R17). -/
def State.popRq (s : State) (e : AdvEnt) : State :=
  if e.count = 0 then s
  else s.updX fun x => { x with rq := x.rq.put e.unit.toNat ((x.rqOf e.unit.toNat).drop e.count.toNat) }

/-- ADV (04 R105). -/
def execAdv (e0 e1 e2 e3 : AdvEnt) (s : State) : Out :=
  if s.advUnder e0 || s.advUnder e1 || s.advUnder e2 || s.advUnder e3 then .next (s.illegal .illegalQueueUnderrun)
  else .next ((((s.popRq e0).popRq e1).popRq e2).popRq e3)

/-- TRAP (04 R108): every slot of the bundle takes effect, then the trap is taken at the next bundle. -/
def execTrap (code : BitVec 8) (s : State) : Out := .next (s.after .ctxTrap (W code.toNat))

/-- BKPT (04 R109, 20 R399): the bundle does not issue; an attached context stops in debug state, another takes the
trap. -/
def execBkpt (code : BitVec 8) (s : State) : Out :=
  if !s.iss.fw && s.kp.dbg.attach then
    .next { s with
      m := s.pre.updCore s.iss.core fun k =>
        { k with c0 := { k.c0 with run := .debug }, dbg := { k.dbg with code := code } },
      iss := { s.iss with dead := true } }
  else .next (s.trap .ctxBreakpoint (W code.toNat))

/-- Whether the park flag of the innermost level is set as the other slots of the bundle leave it, or will be once the image that one of
them writes is done (14 R322, step 1). -/
def State.parkOpen (s : State) : Bool :=
  s.xc.park s.xp.level || s.kc.mx.parkBusy == some (s.iss.fw, s.xp.level)

/-- ERET (04 R110, 14 R322): the innermost level closes after the other slots have taken effect; what they would still write to s62 is
lost. -/
def execEret (s : State) : Out :=
  if s.xp.level = 0 then .next (s.illegal .illegalEret)
  else if s.parkOpen then .next (s.trap .mxParkOpen 0)
  else
    let t := s.upd fun m => (m.drainScalars s.iss.core s.iss.fw).closeLevel s.iss.core s.iss.fw
    .next { t with iss := { t.iss with xfer := true } }

/-- A team member may not leave its team behind (04 R111). -/
def State.teamExit (s : State) : Bool :=
  !s.iss.fw && s.kp.teamSize != 0 && (s.xp.tbarIssued != s.xp.tbarDone || s.xp.remoteSince)

/-- The open levels of a halting handler are discarded (14 R321): queued faults go to the error log and count in FAULTS,
and a suspended region ends as a kill ends one, unless its abort has already ended the item. -/
def Mach.haltLevels (m : Mach) (c : Nat) (fw : Bool) : Mach :=
  let x := m.ctx c fw
  if x.level = 0 then m
  else
    let n := x.held.length + x.absent.length + ((m.core c).mx.held.filter fun h => h.1 == fw).length
    let o := m.ownerOf c fw
    let m1 := (rangeFrom 0 n).foldl (fun m _ => m.countFault o) m
    let m2 := m1.logQueued c fw
    let m3 :=
      if x.regSusp then (if x.abortPend then m2 else m2.endRegionTask c fw true none).discardRegion c fw else m2
    (m3.unqueue o true).updCtx c fw fun y =>
      { y with level := 0, park1 := false, park2 := false, regSusp := false, abortPend := false, waitKept := none }

/-- HALT (04 R111): inside an open region, or with the team's barrier not complete, it faults; else the sequencer issues
nothing more and waits for its older results. -/
def execHalt (s : State) : Out :=
  if s.inRegion then .next (s.trap .taskHaltInRegion 0)
  else if s.teamExit then .next (s.trap .syncTeamExit 0)
  else
    .next ((s.upd fun m => m.haltLevels s.iss.core s.iss.fw).updX fun x => { x with run := .halting })

/-- HALT_DONE (04 R111): a halting context whose older scalar results have all been written has halted. -/
def execHaltDone (core : Nat) (fw : Bool) (s : State) : Out :=
  if Config.nCores ≤ core then .fault (.noSuchObject "core")
  else
    let x := s.m.ctx core fw
    if x.run = .halting then
      .next (s.upd fun m => (m.drainPend core fw).updCtx core fw fun x => { x with run := .halted })
    else .next s

end Sys2Proof.Machine
end

