-- ==== Sys2Proof/Machine/HostPort.lean ====
section
/-!
DEFINITION. The host port (18 R368, R369): writes and reads of the registers of BAR0 by their offsets, the MSI-X table and pending bits of
BAR4, and accesses to HBM through BAR2.
-/
namespace Sys2Proof.Machine

/-! ## Registers of BAR0 -/

/-- A register of a submission queue's block (12 R279). -/
def Mach.sqReg (m : Mach) (q reg : Nat) (v : Word) : Mach :=
  match reg with
  | 0x00 => m.sqBaseWrite q v
  | 0x08 => m.sqCfgWrite q v
  | 0x10 => m.sqTailPut q (BitVec.ofNat 32 v.toNat)
  | 0x20 => if bitAt v.toNat 16 then m.updSq q fun s => { s with tailErr := false } else m
  | 0x28 => m.sqRestartAt q (BitVec.ofNat 32 v.toNat)
  | _ => m

/-- A register of a core control block (18 R368, 19 R392). -/
def Mach.coreReg (m : Mach) (c reg : Nat) (v : Word) : Mach :=
  match reg with
  | 0x00 => m.updCore c fun k => { k with fwShare := v.toNat % 128 }
  | 0x08 => m.updCore c fun k => { k with wdt := if v = 0 then 1000 else v.toNat }
  | 0x10 => if bitAt v.toNat 28 then m.updMargin c fun g => { g with isOver := false } else m
  | 0x18 =>
    (match v.toNat % 4 with
     | 1 => m.fencePending c .rasCoreFenced
     | 2 => m.updMargin c fun g => if g.state = 0 then g else { g with unfence := true }
     | _ => m)
  | _ => m

/-- Bits of a mask register that are newly set go to f, those newly cleared to g. -/
def Mach.maskWrite (m : Mach) (n old new : Nat) (f g : Mach → Nat → Mach) : Mach :=
  (rangeFrom 0 n).foldl (fun m i =>
    if bitAt new i && !bitAt old i then f m i else if !bitAt new i && bitAt old i then g m i else m) m

/-- A power register (18 R376). -/
def Mach.powerReg (m : Mach) (reg : Nat) (v : Word) : Mach :=
  match reg with
  | 0x00 => m.setPstate (BitVec.ofNat 2 v.toNat)
  | 0x08 => m.maskWrite Config.nDies m.power.dieGate.toNat v.toNat Mach.gateDie Mach.ungateDie
  | 0x10 => m.maskWrite Config.nStacks m.power.hbmSr.toNat v.toNat Mach.refreshStack Mach.wakeStack
  | 0x18 => if bitAt v.toNat 0 then m.powerOff else m
  | _ => m

/-- A command of BOOTCMD (20 R403). The hash of an ENROLL is not stated to come from a register: its bytes are free (log 8). -/
def Mach.bootCmd (m : Mach) (v : Word) : Mach :=
  let arg := v.toNat / 256
  match v.toNat % 16 with
  | 1 => m.bootSnow
  | 2 => Mach.snowdrop { m with nonce := m.nonce + 32 } (Trust.enroll arg (freeBytes 32 m.nonce))
  | 3 => m.snowdrop (Trust.revoke arg)
  | 4 => m.snowdrop Trust.blowOwner
  | 5 => m.reflash (arg * 256)
  | 6 => m.snowdrop Trust.raiseSvn
  | _ => m

/-- PEERMAP i: a port from 12 on stores 0 and clears V (18 R372). -/
def peerMapWord (v : Word) : Word :=
  let p := bits v.toNat 51 48
  let pdev := v.toNat % 2 ^ 16
  if 12 ≤ p then W pdev else W (bits v.toNat 63 63 * 2 ^ 63 + p * 2 ^ 48 + pdev)

/-- Word 0 of a debug block (20 R399). -/
def Mach.debugReg (m : Mach) (c : Nat) (v : Word) : Mach :=
  let m1 := m.debugAttach c (bitAt v.toNat 0)
  let m2 := if bitAt v.toNat 3 then m1.debugRun c else m1
  if bitAt v.toNat 2 then m2.debugHalt c else m2

/-- A register from 0x4_0000 to 0x4_0020: CANCEL and the launch record ring (12 R291, R292). -/
def Mach.launchReg (m : Mach) (off : Nat) (v : Word) : Mach :=
  match off with
  | 0x40000 => m.cancel (bits v.toNat 63 62) (BitVec.ofNat 32 v.toNat)
  | 0x40008 => { m with lrBase := W (bits v.toNat 39 12 * 2 ^ 12) }
  | 0x40010 => { m with lrLog := if 4 ≤ bits v.toNat 4 0 ∧ bits v.toNat 4 0 ≤ 16 then bits v.toNat 4 0 else 4 }
  | 0x40020 => { m with lrHead := BitVec.ofNat 32 v.toNat }
  | _ => m

/-- A register from 0x6_0100 to 0x7_0080. -/
def Mach.deviceReg (m : Mach) (off : Nat) (v : Word) : Mach :=
  match off with
  | 0x60100 => m.setDkcfg v
  | 0x60180 => { m with scrub := W (bits v.toNat 8 8 * 256 + max 1 (v.toNat % 256)) }
  | 0x60200 => if bitAt v.toNat 8 then m.startTest (BitVec.ofNat 8 v.toNat) else m
  | 0x60280 => if logBaseOk v then { m with el := { m.el with base := logBase v } } else m
  | 0x60288 => { m with el := { m.el with head := BitVec.ofNat 32 v.toNat } }
  | 0x60290 => { m with el := { m.el with lost := v } }
  | 0x60300 => m.bootCmd v
  | 0x60308 => if bitAt v.toNat 7 then m.updTrust fun t => { t with refused := false } else m
  | 0x60400 => m.updTrust fun t => { t with nonce := t.nonce.put 0 v }
  | 0x60408 => m.updTrust fun t => { t with nonce := t.nonce.put 1 v }
  | 0x60410 => m.updTrust fun t => { t with nonce := t.nonce.put 2 v }
  | 0x60418 => m.updTrust fun t => { t with nonce := t.nonce.put 3 v }
  | 0x60420 => if v = 1 then m.attest else m
  | 0x60428 => m.updTrust fun t => { t with attDst := v }
  | 0x70080 => { m with devId := v.toNat % 2 ^ 16 }
  | _ => m

/-- The MSI-X table of BAR4: an entry has an address word and a word of data, and bit 0 of its last 32 bits masks its vector (PRESUMED,
of PCI Express; log 9). -/
def Mach.msixReg (m : Mach) (off : Nat) (v : Word) : Mach :=
  if off % 8 = 0 ∧ off / 16 < 9 then
    if off % 16 = 0 then { m with msixTab := m.msixTab.put (off / 8) v }
    else
      let m1 : Mach := { m with msixTab := m.msixTab.put (off / 8) (W (v.toNat % 2 ^ 32)) }
      if bitAt v.toNat 32 then { m1 with msixMask := m1.msixMask ||| vecBit (off / 16) } else m1.unmask (off / 16)
  else m

/-- A write of the register at an offset of BAR0; an offset that names none ignores it (00 R5, 18 R368). From 0x200_0000 on the offset
is one of BAR4 (log 9). -/
def Mach.barWrite (m : Mach) (off : Nat) (v : Word) : Mach :=
  if off < 0x40000 then m.sqReg (off / 64) (off % 64) v
  else if off < 0x50000 then m.launchReg off v
  else if off < 0x60000 then
    (if (off - 0x50000) / 64 < Config.nCores then m.coreReg ((off - 0x50000) / 64) ((off - 0x50000) % 64) v else m)
  else if off < 0x60100 then m.powerReg (off - 0x60000) v
  else if 0x70000 ≤ off ∧ off < 0x70080 then
    (if off % 8 = 0 then { m with peerMap := m.peerMap.put ((off - 0x70000) / 8) (peerMapWord v) } else m)
  else if 0x80000 ≤ off ∧ off < 0x80000 + 64 * Config.nCores then
    (if off % 64 = 0 then m.debugReg ((off - 0x80000) / 64) v else m)
  else if 0x2000000 ≤ off then m.msixReg (off - 0x2000000) v
  else m.deviceReg off v

/-- HOST_REGISTER_WRITE (00 R5, 18 R368, R369): it takes effect once every posted write that came before it has been performed. A package
that is off answers nothing. -/
def execHostRegisterWrite (off : Nat) (val : Word) (s : State) : Out :=
  .next (if s.m.power.off then s else s.upd fun m => m.barWrite off val)

/-! ## Reads of registers (00 R5, 18 R368) -/

/-- A register of a submission queue's block; RESTART reads 0. -/
def SQ.reg (s : SQ) (reg : Nat) : Word :=
  match reg with
  | 0x00 => s.base
  | 0x08 => s.cfg
  | 0x10 => W s.tail.toNat
  | 0x18 => W s.head.toNat
  | 0x20 => W (s.badIdx.toNat * 2 ^ 32 + b2n s.tailErr * 2 ^ 16 + s.cause.toNat * 2 ^ 8 + s.state)
  | _ => 0

/-- A register of a core control block; NVIMG is the entry as last written, CMD reads 0. -/
def Core.reg (k : Core) (reg : Nat) : Word :=
  match reg with
  | 0x00 => W k.fwShare
  | 0x08 => W k.wdt
  | 0x10 => k.margin.stat
  | _ => if 0x20 ≤ reg ∧ reg % 8 = 0 then wordAt (k.margin.stored.getD []) ((reg - 0x20) / 8) else 0

/-- A power register; OFF reads 0. -/
def Power.reg (p : Power) (reg : Nat) : Word :=
  match reg with
  | 0x00 => W p.pstate.toNat
  | 0x08 => W p.dieGate.toNat
  | 0x10 => W p.hbmSr.toNat
  | 0x20 => W (p.gated.toNat * 2 ^ 16 + p.inSr.toNat)
  | _ => 0

/-- A launch register; CANCEL reads 0. -/
def Mach.launchRegRead (m : Mach) (off : Nat) : Word :=
  match off with
  | 0x40008 => m.lrBase
  | 0x40010 => W m.lrLog
  | 0x40018 => W m.lrTail.toNat
  | 0x40020 => W m.lrHead.toNat
  | _ => 0

/-- A register from 0x6_0100 to 0x7_0080; STCTL, BOOTCMD and ATTGO read 0. -/
def Mach.deviceRegRead (m : Mach) (off : Nat) : Word :=
  match off with
  | 0x60100 => m.dkcfg
  | 0x60180 => m.scrub
  | 0x60208 => W (m.stFails * 256 + m.stStatus)
  | 0x60280 => m.el.base
  | 0x60288 => W (m.el.tail.toNat * 2 ^ 32 + m.el.head.toNat)
  | 0x60290 => m.el.lost
  | 0x60308 => m.trust.bootStat
  | 0x60400 => m.trust.nonce.get 0 0
  | 0x60408 => m.trust.nonce.get 0 1
  | 0x60410 => m.trust.nonce.get 0 2
  | 0x60418 => m.trust.nonce.get 0 3
  | 0x60428 => m.trust.attDst
  | 0x70080 => W m.devId
  | _ => 0

/-- Word 0 of a debug block: RESUME and HALTREQ read 0 (20 R399). -/
def Core.debugReg (k : Core) : Word := W (k.dbg.code.toNat * 2 ^ 24 + b2n (k.c0.run == .debug) * 2 + b2n k.dbg.attach)

/-- A word of BAR4: the table, and from 0x8000 on the pending bits (log 9). -/
def Mach.msixRead (m : Mach) (off : Nat) : Word :=
  if off = 0x8000 then W m.msixPend.toNat
  else if off % 8 = 0 ∧ off / 16 < 9 then
    if off % 16 = 0 then m.msixTab.get 0 (off / 8)
    else W (b2n (bitAt m.msixMask.toNat (off / 16)) * 2 ^ 32 + (m.msixTab.get 0 (off / 8)).toNat)
  else 0

/-- What the register at an offset of BAR0, or of BAR4 from 0x200_0000 on, reads; an offset that names none reads 0. -/
def Mach.barRead (m : Mach) (off : Nat) : Word :=
  if off < 0x40000 then (m.sqAt (off / 64)).reg (off % 64)
  else if off < 0x50000 then m.launchRegRead off
  else if off < 0x60000 then
    (if (off - 0x50000) / 64 < Config.nCores then (m.core ((off - 0x50000) / 64)).reg ((off - 0x50000) % 64) else 0)
  else if off < 0x60100 then m.power.reg (off - 0x60000)
  else if 0x70000 ≤ off ∧ off < 0x70080 then (if off % 8 = 0 then m.peerMap.get 0 ((off - 0x70000) / 8) else 0)
  else if 0x80000 ≤ off ∧ off < 0x80000 + 64 * Config.nCores then
    (if off % 64 = 0 then (m.core ((off - 0x80000) / 64)).debugReg else 0)
  else if 0x2000000 ≤ off then m.msixRead (off - 0x2000000)
  else m.deviceRegRead off

/-- A host read of a register: its value leaves through the host port. A package that is off answers nothing. -/
def Mach.hostRead (m : Mach) (off : Nat) : Mach := if m.power.off then m else m.send (.readData (bytesOfWord 8 (m.barRead off)))

/-! ## BAR2 (18 R368, R369) -/

/-- The stack and the offset of an offset of BAR2. -/
def barAt (off : Nat) : Nat × Nat := (off / 2 ^ 36, off % 2 ^ 36)

/-- Whether an access through BAR2 lies in the window and in one stack. -/
def barOk (off n : Nat) : Bool := decide (off + n ≤ 2 ^ 40) && decide (off % 2 ^ 36 + n ≤ 2 ^ 36)

/-- HOST_MEMORY_WRITE: a posted write is performed at its home. -/
def execHostMemoryWrite (off : Nat) (data : List Byte) (s : State) : Out :=
  if !barOk off data.length then .fault (.noSuchObject "BAR2 offset")
  else
    let (d, o) := barAt off
    if s.m.power.off then .next s
    else
      match s.m.homeFault d with
      | some c => .next (s.upd fun m => m.stackFault d 1 c)
      | none => .next (s.upd fun m => (m.hbmWrite d o data).wakeObjs)

/-- HOST_MEMORY_READ: the value at the home. -/
def execHostMemoryRead (off len : Nat) (s : State) : Out :=
  if !barOk off len then .fault (.noSuchObject "BAR2 offset")
  else
    let (d, o) := barAt off
    if s.m.power.off then .next s
    else
      match s.m.homeFault d with
      | some c => .next (s.upd fun m => m.stackFault d 0 c)
      | none => .next (s.upd fun m => m.send (.readData (m.hbmRead d o len)))

end Sys2Proof.Machine
end

