-- ==== Sys2Proof/Machine/Cycle.lean ====
section
/-!
DEFINITION. A core cycle before its bundle issues: the bundle that a context has next, the interlocks that hold it, the classes of
access that a FENCE holds back (07 R205, 09 R238), the arbiter between the two contexts (01 R12), current weights and freeze
cycles (01 R29).
-/
namespace Sys2Proof.Machine

/-! ## The bundle that a context has next -/

/-- The slot words of the bundle whose header lies o bytes into its line: none where the line holds padding, or the bundle crosses
the line (03 R63 to R65). -/
def lineWords (line : List Byte) (o : Nat) : List (Nat × BitVec 32) :=
  let h := line.getD o 0
  if 64 < o + bundleLen h then [] else slotWords h (line.drop (o + 1))

/-- The slot words of the bundle that a context has next; none where its line cannot be fetched. -/
def Mach.nextWords (m : Mach) (c : Nat) (fw : Bool) : List (Nat × BitVec 32) :=
  let pc := (m.ctx c fw).pc
  match m.fetchLine c fw pc with
  | (_, .ok line) => lineWords line (pc.toNat % 64)
  | (_, .error _) => []

/-- Whether an S5 word is a predicate's, which runs in the EPU (06 R149, R169). -/
def isEpuWord (w : BitVec 32) : Bool := w.msb

/-- The instructions that slot words name; a word that no instruction has names none. -/
def instrsOf (fw : Bool) (ws : List (Nat × BitVec 32)) : List Instr :=
  ws.filterMap fun p => match decodeSlot fw (1 + 4 * ws.length) p.1 p.2 with
    | .ok i => some i
    | .error _ => none

/-! ## Weights (01 R29) -/

/-- Whether the open routine of a core waits on a ring: such a cycle is not active (06 R149). -/
def Mach.uWaits (m : Mach) (c : Nat) : Bool :=
  let k := m.core c
  let full (n : BitVec 4) : Nat := (k.ringOf n.toNat).full
  match k.mx.rt, k.microword.map decodeMicro with
  | some _, some (.ok (.umma ra rb _ _)) =>
    (ringReadFault (k.ringCfgOf ra.toNat) 0).isNone && (ringReadFault (k.ringCfgOf rb.toNat) 0).isNone &&
      !((k.ringOf ra.toNat).ready && (k.ringOf rb.toNat).ready)
  | some _, some (.ok (.upop r n)) => (ringReadFault (k.ringCfgOf r.toNat) 0).isNone && decide (full r < n.toNat)
  | some _, some (.ok (.uout r _ _)) =>
    ringV (k.ringCfgOf r.toNat) && ringProd (k.ringCfgOf r.toNat) == 2 && (m.ringPut c r.toNat []).isNone
  | _, _ => false

/-- What a cycle that issues the given slots draws: each unit is active in the cycle of a slot it takes, and in every cycle of a
vector, matrix or predicate operation under way. -/
def Mach.cycleWeight (m : Mach) (c : Nat) (ws : List (Nat × BitVec 32)) : Nat :=
  let k := m.core c
  let has (n : Nat) : Bool := ws.any fun p => p.1 == n
  let mx := ws.any fun p => p.1 == 5 && !isEpuWord p.2
  let epu := ws.any fun p => p.1 == 5 && isEpuWord p.2
  b2n (has 0) + 2 * b2n (has 1) + 2 * b2n (has 2) + 3 * b2n (has 3) +
    12 * b2n (has 4 || k.vops.any fun v => !v.queued && !v.mx) +
    40 * b2n (mx || (k.mx.rt.isSome && !m.uWaits c) || k.vops.any fun v => !v.queued && v.mx) +
    10 * b2n (epu || k.epu.isSome) + 2 * b2n (has 6)

/-- Whether the coming cycle of a core, with the slots it would issue, would draw more than the window may hold. -/
def Mach.mustFreeze (m : Mach) (c : Nat) (ws : List (Nat × BitVec 32)) : Bool :=
  decide ((m.core c).ilimit < (m.core c).windowSum + m.cycleWeight c ws)

/-- A freeze cycle: nothing advances, the cycle draws 0, FREEZECNT counts it. -/
def Core.freeze (k : Core) : Core := Core.cycle { k with freezeCnt := k.freezeCnt + 1 } 0 false

/-- A cycle of a core in which no bundle issues (01 R12, R29): the units at work draw their weights, unless it must freeze. -/
def Mach.idleCycle (m : Mach) (c : Nat) : Mach :=
  m.updCore c fun k => if m.mustFreeze c [] then k.freeze else k.cycle (m.cycleWeight c []) false

/-! ## Interlocks -/

/-- The access classes of an instruction, as a FENCE mask: L 0, S 1, A 2, CR 3, CW 4, MR 5, MW 6, X 7 (03 R88, 09 R238). -/
def classesOf : Instr → BitVec 8
  | .ldI8 .. => 0x01 | .ldN8 .. => 0x01 | .ldI16 .. => 0x01 | .ldN16 .. => 0x01 | .ldI32 .. => 0x01 | .ldN32 .. => 0x01
  | .ld64 .. => 0x01 | .ldxI8 .. => 0x01 | .ldxN8 .. => 0x01 | .ldxI16 .. => 0x01 | .ldxN16 .. => 0x01
  | .ldxI32 .. => 0x01 | .ldxN32 .. => 0x01 | .ldx64 .. => 0x01
  | .st8 .. => 0x02 | .st16 .. => 0x02 | .st32 .. => 0x02 | .st64 .. => 0x02
  | .stx8 .. => 0x02 | .stx16 .. => 0x02 | .stx32 .. => 0x02 | .stx64 .. => 0x02
  | .vld .. => 0x01 | .vgather .. => 0x01 | .vst .. => 0x02 | .vscatter .. => 0x02
  | .mxload .. => 0x01 | .mxcall .. => 0x60
  | .fxread .. => 0x01 | .fxadd .. => 0x04
  | .mon .. => 0x04 | .mwait .. => 0x04 | .sempost .. => 0x04 | .semwait .. => 0x04 | .bararr .. => 0x04 | .barwait .. => 0x04
  | .tbar => 0x04 | .deq .. => 0x04 | .enq .. => 0x04 | .tladd .. => 0x04 | .tlset .. => 0x04 | .tlwait .. => 0x04
  | .aadd .. => 0x04 | .amin .. => 0x04 | .amax .. => 0x04 | .aand .. => 0x04 | .aor .. => 0x04 | .axor .. => 0x04
  | .aswap .. => 0x04 | .acas .. => 0x04
  | .cpy .. => 0x18 | .cpyt .. => 0x18 | .sbind .. => 0x18
  | .tend => 0x10
  | .csrw csr _ => if csr = 0x0DA ∨ csr = 0x0DB ∨ csr = 0x0DC then 0x98 else 0x80
  | .rrw .. => 0x80 | .xlatinv .. => 0x80
  | _ => 0

/-- The classes of a bundle: its fetch is of class X. -/
def bundleClasses (fw : Bool) (ws : List (Nat × BitVec 32)) : BitVec 8 :=
  (instrsOf fw ws).foldl (fun m i => m ||| classesOf i) 0x80

/-- Whether a FENCE that still stands holds a bundle back (07 R205). -/
def Mach.fenced (m : Mach) (c : Nat) (fw : Bool) (ws : List (Nat × BitVec 32)) : Bool :=
  let x := m.ctx c fw
  !x.fences.isEmpty &&
    x.fences.any fun f => !m.fenceOver c (m.ownerOf c fw) f && (f.succ &&& bundleClasses fw ws) != 0

/-- n v registers from r on, as registers that a slot reads. -/
def vFrom (r : BitVec 8) (n : Nat) : List Reg := vRun r.toNat n

/-- The v registers that an instruction reads (01 R19). -/
def vsrcsOf : Instr → List Reg
  | .vadd _ _ va vb | .vsub _ _ va vb | .vmul _ _ va vb | .vdiv _ _ va vb | .vmin _ _ va vb | .vmax _ _ va vb => vFrom va 1 ++ vFrom vb 1
  | .vadds _ _ va vb | .vsubs _ _ va vb | .vceq _ _ va vb | .vclt _ _ va vb | .vcle _ _ va vb => vFrom va 1 ++ vFrom vb 1
  | .vfma _ vd va vb => vFrom vd 1 ++ vFrom va 1 ++ vFrom vb 1
  | .vand _ va vb | .vor _ va vb | .vxor _ va vb | .vandn _ va vb => vFrom va 1 ++ vFrom vb 1
  | .vsel vd va vb => vFrom vd 1 ++ vFrom va 1 ++ vFrom vb 1
  | .vperm8 _ va vb | .vperm16 _ va vb | .vperm32 _ va vb | .vperm64 _ va vb => vFrom va 1 ++ vFrom vb 1
  | .vshl _ _ _ va | .vsrl _ _ _ va | .vsra _ _ _ va | .vtrans _ _ _ va => vFrom va 1
  | .vmov _ va => vFrom va 1
  | .vst _ vd _ _ => vFrom vd 1
  | .vgather _ _ _ vc => vFrom vc 1
  | .vscatter _ vd _ vc => vFrom vd 1 ++ vFrom vc 1
  | .vcvt _ _ _ _ va => vFrom va 1
  | .vcvtb _ _ _ va | .vqnt _ _ va => vFrom va 1
  | .vabs _ _ va | .vneg _ _ va | .vexp2 _ _ va | .vlog2 _ _ va | .vrcp _ _ va | .vrsqrt _ _ va => vFrom va 1
  | .vred _ _ _ va => vFrom va 1
  | .vscan _ _ _ va | .vscanx _ _ _ va => vFrom va 1
  | .vdqnt _ _ va => vFrom va 2
  | .gorient2 _ _ va _ => vFrom va kOrient2
  | .gorient3 _ _ va _ => vFrom va kOrient3
  | .gincirc _ _ va _ => vFrom va kIncirc
  | .ginsph _ _ va _ => vFrom va kInsph
  | .gsegx _ _ va _ => vFrom va kSegx
  | _ => []

/-- The m registers that an instruction reads (01 R18): a source field, the old value of MXSET, the eight that MXCALL captures or that
an image holds (06 R158, R166). -/
def msrcsOf (i : Instr) : List Reg :=
  (srcsOf i).filterMap (fun a => match a with
    | .m n => some (.m n.toNat)
    | _ => none) ++
  match i with
  | .mxset m _ _ => [.m m.toNat]
  | .mxcall .. | .mxpark .. | .mxsave .. => (rangeFrom 0 8).map .m
  | _ => []

/-- The registers of a bundle that another bundle's operation may still have to write: those it reads and those it writes. -/
def touched (l : List Instr) : List Reg := l.flatMap fun i => vsrcsOf i ++ msrcsOf i ++ destsOf i

/-- The m register that a destination names. -/
def dstM : Dst → List Reg
  | .m n => [.m n.toNat]
  | _ => []

/-- The registers of a core that are busy until an operation under way writes them (01 R18, R19): v registers and, of both contexts,
m registers. -/
def Core.busyRegs (k : Core) : List Reg :=
  (k.vops.flatMap fun v => v.vds.map .v) ++
    ((k.c0.pend ++ k.c1.pend).flatMap fun p => dstM p.dst) ++
    (match k.epu with
     | some e => .v e.vd :: dstM e.dst
     | none => [])

/-- Whether a bundle reads or writes a register that is still busy (01 R11, R18, R19). -/
def Core.blocked (k : Core) (l : List Instr) : Bool := (touched l).any fun r => k.busyRegs.contains r

/-- Whether an S5 instruction needs the matrix unit (06 R149). -/
def needsMx : Instr → Bool
  | .mxcall .. | .mxacc .. | .mxclr .. | .mxload .. | .mxpark .. | .mxunpark .. => true
  | _ => false

/-- Whether an instruction is a predicate of the EPU (06 R169). -/
def needsEpu : Instr → Bool
  | .gorient2 .. | .gorient3 .. | .gincirc .. | .ginsph .. | .gsegx .. => true
  | _ => false

/-- Whether the vector unit is at work (01 R12): an operation whose elements wait for an assist has left it. -/
def Core.vuBusy (k : Core) : Bool := k.vops.any fun v => !v.queued && !v.mx

/-- Whether the matrix unit is at work on a readout. -/
def Core.mxReads (k : Core) : Bool := k.vops.any fun v => !v.queued && v.mx

/-- Whether the units that a bundle needs are free (01 R12, 06 R149, R165): MXPARK and MXSAVE wait for an image that is being written,
and stop an open routine. -/
def Core.unitsFree (k : Core) (ws : List (Nat × BitVec 32)) (l : List Instr) : Bool :=
  !((ws.any fun p => p.1 == 4) && k.vuBusy) && l.all fun i =>
    !(needsEpu i && k.epu.isSome) &&
    match i with
    | .mxpark .. => k.mx.parkBusy.isNone && !k.mxReads
    | .mxsave .. => k.mx.parkBusy.isNone && !k.mxReads
    | i => !(needsMx i && (k.mx.busy || k.mxReads))

/-- Whether a bundle waits for an element of a bound stream (08 R235, 05 R148). -/
def State.streamWaits (s : State) (i : Instr) : Bool :=
  !s.inRegion && ((srcsOf i).any (fun a => match a with
    | .q n => (s.xp.keptElem n.toNat).isNone && (s.xp.stream n.toNat).isBound &&
        ((s.xp.stream n.toNat).fifo.isEmpty || s.kp.strmBusy s.iss.fw n.toNat)
    | _ => false) || match i with
    | .vstrm _ _ q => (s.xp.stream q.toNat).isBound && s.kp.strmBusy s.iss.fw q.toNat
    | .sadv q _ => (s.xp.stream q.toNat).isBound && s.kp.strmBusy s.iss.fw q.toNat
    | _ => false)

/-- Whether an instruction waits for a call to end (06 R161), for the copies of its region (07 R207), or for the flags of an older
one (02 R46). -/
def State.otherWaits (s : State) (i : Instr) : Bool :=
  match i with
  | .mxwait a => match s.kp.mx.rt with
    | some r => decide (0 ≤ (s.src a - r.call).toInt) && decide ((s.src a - s.kp.mx.seq).toInt ≤ 0) && !s.notParked
    | none => false
  | .tend => s.inRegion && s.m.copies.any fun k => match s.xp.region with
    | some r => r.copies.contains k.id
    | none => false
  | .csrr _ csr => csr == 0x048 && s.flagsBusy
  | .csrw csr _ => csr == 0x048 && s.flagsBusy
  | _ => false

/-- A context of a core about to issue. -/
def Mach.about (m : Mach) (c : Nat) (fw : Bool) : State :=
  { State.reset with m := m, pre := m, iss := { Issue.idle with core := c, fw := fw } }

/-- Whether nothing that a context has started still holds its next bundle (01 R18, 02 R48, 06 R165, 07 R180, 09 R242): the model
issues a bundle once every scalar result and predicate of the context's older ones is complete (log 5). A fault for an absent context is
delivered before the wait that it resumes in (15 R340). -/
def Core.settled (k : Core) (fw : Bool) : Bool :=
  let x := k.ctx fw
  x.pend.isEmpty && x.resp.isNone && !x.assist && !(x.peerSt.any Option.isSome) &&
    (match k.epu with
     | some e => e.fw != fw
     | none => true) &&
    (match k.mx.parkBusy with
     | some (f, _) => f != fw
     | none => true) &&
    (match x.wait with
     | some w => w.granted || (x.level == 0 && (!x.absent.isEmpty || x.absentLost))
     | none => true)

/-- Whether the instructions of a context's next bundle have no unsatisfied interlock, as far as it is the bundle that makes them wait. -/
def Mach.unlocked (m : Mach) (c : Nat) (fw : Bool) (ws : List (Nat × BitVec 32)) : Bool :=
  let l := instrsOf fw ws
  (m.core c).unitsFree ws l && !(m.core c).blocked l && !m.fenced c fw ws &&
    l.all fun i => !(m.about c fw).streamWaits i && !(m.about c fw).otherWaits i

/-- A context is ready: its sequencer runs, and its next bundle has no unsatisfied interlock (01 R12). -/
def Mach.ready (m : Mach) (c : Nat) (fw : Bool) : Bool :=
  let k := m.core c
  m.powered c && (k.ctx fw).run == .running && k.settled fw && m.unlocked c fw (m.nextWords c fw)

/-! ## The arbiter (01 R12) -/

/-- The firmware share of a core: SHARE of FWSHARE between 1 and 64. -/
def Core.share (k : Core) : Nat := max 1 (min 64 k.fwShare)

/-- The context that issues in the coming cycle of a core: context 1 (true) or 0, none where neither is ready. -/
def Mach.arbiter (m : Mach) (c : Nat) : Option Bool :=
  let k := m.core c
  match m.ready c false, m.ready c true with
  | true, true => some (decide (k.fwCount < k.share))
  | false, true => some true
  | true, false => some false
  | false, false => none

/-- FREEZE_CYCLE (01 R29): the coming cycle of a core, with the bundle that the arbiter would issue, would exceed the window. -/
def execFreezeCycle (core : Nat) (s : State) : Out :=
  let ws := match s.m.arbiter core with
    | some fw => s.m.nextWords core fw
    | none => []
  s.atCore core (s.m.powered core && s.m.mustFreeze core ws) fun m => m.updCore core Core.freeze

end Sys2Proof.Machine
end

