-- ==== Sys2Proof/Machine/Dispatch.lean ====
section
/-!
DEFINITION. The dispatch of an instruction or event to its meaning: one arm per constructor.
-/
namespace Sys2Proof.Machine

def exec (i : Instr) (s : State) : Host.Outcome State Fault Refusal :=
  match i with
  | .nop => Sys2Proof.Machine.execNop s
  | .bc neg p off => Sys2Proof.Machine.execBc neg p off s
  | .call off => Sys2Proof.Machine.execCall off s
  | .callr a => Sys2Proof.Machine.execCallr a s
  | .jr a => Sys2Proof.Machine.execJr a s
  | .ret a => Sys2Proof.Machine.execRet a s
  | .loop flex cnt endOff => Sys2Proof.Machine.execLoop flex cnt endOff s
  | .adv e0 e1 e2 e3 => Sys2Proof.Machine.execAdv e0 e1 e2 e3 s
  | .yield desc budget => Sys2Proof.Machine.execYield desc budget s
  | .hint n => Sys2Proof.Machine.execHint n s
  | .trap code => Sys2Proof.Machine.execTrap code s
  | .eret => Sys2Proof.Machine.execEret s
  | .halt => Sys2Proof.Machine.execHalt s
  | .bkpt code => Sys2Proof.Machine.execBkpt code s
  | .add u d a b => Sys2Proof.Machine.execAdd u d a b s
  | .sub u d a b => Sys2Proof.Machine.execSub u d a b s
  | .mul u d a b => Sys2Proof.Machine.execMul u d a b s
  | .mulh u d a b => Sys2Proof.Machine.execMulh u d a b s
  | .mulhu u d a b => Sys2Proof.Machine.execMulhu u d a b s
  | .div u d a b => Sys2Proof.Machine.execDiv u d a b s
  | .divu u d a b => Sys2Proof.Machine.execDivu u d a b s
  | .rem u d a b => Sys2Proof.Machine.execRem u d a b s
  | .remu u d a b => Sys2Proof.Machine.execRemu u d a b s
  | .and u d a b => Sys2Proof.Machine.execAnd u d a b s
  | .or u d a b => Sys2Proof.Machine.execOr u d a b s
  | .xor u d a b => Sys2Proof.Machine.execXor u d a b s
  | .andn u d a b => Sys2Proof.Machine.execAndn u d a b s
  | .shl u d a b => Sys2Proof.Machine.execShl u d a b s
  | .shr u d a b => Sys2Proof.Machine.execShr u d a b s
  | .sra u d a b => Sys2Proof.Machine.execSra u d a b s
  | .rol u d a b => Sys2Proof.Machine.execRol u d a b s
  | .ror u d a b => Sys2Proof.Machine.execRor u d a b s
  | .min u d a b => Sys2Proof.Machine.execMin u d a b s
  | .minu u d a b => Sys2Proof.Machine.execMinu u d a b s
  | .max u d a b => Sys2Proof.Machine.execMax u d a b s
  | .maxu u d a b => Sys2Proof.Machine.execMaxu u d a b s
  | .ceq u d a b => Sys2Proof.Machine.execCeq u d a b s
  | .cne u d a b => Sys2Proof.Machine.execCne u d a b s
  | .clt u d a b => Sys2Proof.Machine.execClt u d a b s
  | .cltu u d a b => Sys2Proof.Machine.execCltu u d a b s
  | .cle u d a b => Sys2Proof.Machine.execCle u d a b s
  | .cleu u d a b => Sys2Proof.Machine.execCleu u d a b s
  | .cmov u d a b => Sys2Proof.Machine.execCmov u d a b s
  | .cmovz u d a b => Sys2Proof.Machine.execCmovz u d a b s
  | .bext u d a b => Sys2Proof.Machine.execBext u d a b s
  | .bextu u d a b => Sys2Proof.Machine.execBextu u d a b s
  | .bins u d a b => Sys2Proof.Machine.execBins u d a b s
  | .clz u d a => Sys2Proof.Machine.execClz u d a s
  | .ctz u d a => Sys2Proof.Machine.execCtz u d a s
  | .popc u d a => Sys2Proof.Machine.execPopc u d a s
  | .sext u d a b => Sys2Proof.Machine.execSext u d a b s
  | .zext u d a b => Sys2Proof.Machine.execZext u d a b s
  | .lih u d a b => Sys2Proof.Machine.execLih u d a b s
  | .faddF32 u d a b => Sys2Proof.Machine.execFaddF32 u d a b s
  | .fsubF32 u d a b => Sys2Proof.Machine.execFsubF32 u d a b s
  | .fmulF32 u d a b => Sys2Proof.Machine.execFmulF32 u d a b s
  | .fmaF32 u d a b => Sys2Proof.Machine.execFmaF32 u d a b s
  | .fdivF32 u d a b => Sys2Proof.Machine.execFdivF32 u d a b s
  | .fsqrtF32 u d a => Sys2Proof.Machine.execFsqrtF32 u d a s
  | .fminF32 u d a b => Sys2Proof.Machine.execFminF32 u d a b s
  | .fmaxF32 u d a b => Sys2Proof.Machine.execFmaxF32 u d a b s
  | .fceqF32 u d a b => Sys2Proof.Machine.execFceqF32 u d a b s
  | .fcltF32 u d a b => Sys2Proof.Machine.execFcltF32 u d a b s
  | .fcleF32 u d a b => Sys2Proof.Machine.execFcleF32 u d a b s
  | .faddF64 u d a b => Sys2Proof.Machine.execFaddF64 u d a b s
  | .fsubF64 u d a b => Sys2Proof.Machine.execFsubF64 u d a b s
  | .fmulF64 u d a b => Sys2Proof.Machine.execFmulF64 u d a b s
  | .fmaF64 u d a b => Sys2Proof.Machine.execFmaF64 u d a b s
  | .fdivF64 u d a b => Sys2Proof.Machine.execFdivF64 u d a b s
  | .fsqrtF64 u d a => Sys2Proof.Machine.execFsqrtF64 u d a s
  | .fminF64 u d a b => Sys2Proof.Machine.execFminF64 u d a b s
  | .fmaxF64 u d a b => Sys2Proof.Machine.execFmaxF64 u d a b s
  | .fceqF64 u d a b => Sys2Proof.Machine.execFceqF64 u d a b s
  | .fcltF64 u d a b => Sys2Proof.Machine.execFcltF64 u d a b s
  | .fcleF64 u d a b => Sys2Proof.Machine.execFcleF64 u d a b s
  | .fcvt u d a sel => Sys2Proof.Machine.execFcvt u d a sel s
  | .lea d a b => Sys2Proof.Machine.execLea d a b s
  | .leah d a b => Sys2Proof.Machine.execLeah d a b s
  | .leaw d a b => Sys2Proof.Machine.execLeaw d a b s
  | .lead d a b => Sys2Proof.Machine.execLead d a b s
  | .ldI8 d a b => Sys2Proof.Machine.execLdI8 d a b s
  | .ldN8 d a b => Sys2Proof.Machine.execLdN8 d a b s
  | .ldI16 d a b => Sys2Proof.Machine.execLdI16 d a b s
  | .ldN16 d a b => Sys2Proof.Machine.execLdN16 d a b s
  | .ldI32 d a b => Sys2Proof.Machine.execLdI32 d a b s
  | .ldN32 d a b => Sys2Proof.Machine.execLdN32 d a b s
  | .ld64 d a b => Sys2Proof.Machine.execLd64 d a b s
  | .ldxI8 d a b => Sys2Proof.Machine.execLdxI8 d a b s
  | .ldxN8 d a b => Sys2Proof.Machine.execLdxN8 d a b s
  | .ldxI16 d a b => Sys2Proof.Machine.execLdxI16 d a b s
  | .ldxN16 d a b => Sys2Proof.Machine.execLdxN16 d a b s
  | .ldxI32 d a b => Sys2Proof.Machine.execLdxI32 d a b s
  | .ldxN32 d a b => Sys2Proof.Machine.execLdxN32 d a b s
  | .ldx64 d a b => Sys2Proof.Machine.execLdx64 d a b s
  | .st8 x a b => Sys2Proof.Machine.execSt8 x a b s
  | .st16 x a b => Sys2Proof.Machine.execSt16 x a b s
  | .st32 x a b => Sys2Proof.Machine.execSt32 x a b s
  | .st64 x a b => Sys2Proof.Machine.execSt64 x a b s
  | .stx8 x a b => Sys2Proof.Machine.execStx8 x a b s
  | .stx16 x a b => Sys2Proof.Machine.execStx16 x a b s
  | .stx32 x a b => Sys2Proof.Machine.execStx32 x a b s
  | .stx64 x a b => Sys2Proof.Machine.execStx64 x a b s
  | .vadd t vd va vb => Sys2Proof.Machine.execVadd t vd va vb s
  | .vsub t vd va vb => Sys2Proof.Machine.execVsub t vd va vb s
  | .vmul t vd va vb => Sys2Proof.Machine.execVmul t vd va vb s
  | .vfma t vd va vb => Sys2Proof.Machine.execVfma t vd va vb s
  | .vdiv t vd va vb => Sys2Proof.Machine.execVdiv t vd va vb s
  | .vmin t vd va vb => Sys2Proof.Machine.execVmin t vd va vb s
  | .vmax t vd va vb => Sys2Proof.Machine.execVmax t vd va vb s
  | .vadds t vd va vb => Sys2Proof.Machine.execVadds t vd va vb s
  | .vsubs t vd va vb => Sys2Proof.Machine.execVsubs t vd va vb s
  | .vceq t vd va vb => Sys2Proof.Machine.execVceq t vd va vb s
  | .vclt t vd va vb => Sys2Proof.Machine.execVclt t vd va vb s
  | .vcle t vd va vb => Sys2Proof.Machine.execVcle t vd va vb s
  | .vand vd va vb => Sys2Proof.Machine.execVand vd va vb s
  | .vor vd va vb => Sys2Proof.Machine.execVor vd va vb s
  | .vxor vd va vb => Sys2Proof.Machine.execVxor vd va vb s
  | .vandn vd va vb => Sys2Proof.Machine.execVandn vd va vb s
  | .vsel vd va vb => Sys2Proof.Machine.execVsel vd va vb s
  | .vperm8 vd va vb => Sys2Proof.Machine.execVperm8 vd va vb s
  | .vperm16 vd va vb => Sys2Proof.Machine.execVperm16 vd va vb s
  | .vperm32 vd va vb => Sys2Proof.Machine.execVperm32 vd va vb s
  | .vperm64 vd va vb => Sys2Proof.Machine.execVperm64 vd va vb s
  | .vshl w n vd va => Sys2Proof.Machine.execVshl w n vd va s
  | .vsrl w n vd va => Sys2Proof.Machine.execVsrl w n vd va s
  | .vsra w n vd va => Sys2Proof.Machine.execVsra w n vd va s
  | .vtrans w rows vd va => Sys2Proof.Machine.execVtrans w rows vd va s
  | .vmov vd va => Sys2Proof.Machine.execVmov vd va s
  | .vld w vd a c => Sys2Proof.Machine.execVld w vd a c s
  | .vst w vd a c => Sys2Proof.Machine.execVst w vd a c s
  | .vgather w vd a vc => Sys2Proof.Machine.execVgather w vd a vc s
  | .vscatter w vd a vc => Sys2Proof.Machine.execVscatter w vd a vc s
  | .vcvt st rz dt vd va => Sys2Proof.Machine.execVcvt st rz dt vd va s
  | .vcvtb dt st vd va => Sys2Proof.Machine.execVcvtb dt st vd va s
  | .vabs t vd va => Sys2Proof.Machine.execVabs t vd va s
  | .vneg t vd va => Sys2Proof.Machine.execVneg t vd va s
  | .vexp2 t vd va => Sys2Proof.Machine.execVexp2 t vd va s
  | .vlog2 t vd va => Sys2Proof.Machine.execVlog2 t vd va s
  | .vrcp t vd va => Sys2Proof.Machine.execVrcp t vd va s
  | .vrsqrt t vd va => Sys2Proof.Machine.execVrsqrt t vd va s
  | .vred op t d va => Sys2Proof.Machine.execVred op t d va s
  | .vscan op t vd va => Sys2Proof.Machine.execVscan op t vd va s
  | .vscanx op t vd va => Sys2Proof.Machine.execVscanx op t vd va s
  | .vbcast t vd a => Sys2Proof.Machine.execVbcast t vd a s
  | .vqnt f vd va => Sys2Proof.Machine.execVqnt f vd va s
  | .vdqnt f vd va => Sys2Proof.Machine.execVdqnt f vd va s
  | .vrand t vd a => Sys2Proof.Machine.execVrand t vd a s
  | .vstrm t vd q => Sys2Proof.Machine.execVstrm t vd q s
  | .vsetvl t d a => Sys2Proof.Machine.execVsetvl t d a s
  | .mxset m field b => Sys2Proof.Machine.execMxset m field b s
  | .mxcall d routine bank pbase => Sys2Proof.Machine.execMxcall d routine bank pbase s
  | .mxwait a => Sys2Proof.Machine.execMxwait a s
  | .mxacc bank vd f clr => Sys2Proof.Machine.execMxacc bank vd f clr s
  | .mxclr bank pair => Sys2Proof.Machine.execMxclr bank pair s
  | .mxsr semi acc op => Sys2Proof.Machine.execMxsr semi acc op s
  | .mxload routine a len => Sys2Proof.Machine.execMxload routine a len s
  | .mxpark a => Sys2Proof.Machine.execMxpark a s
  | .mxunpark a => Sys2Proof.Machine.execMxunpark a s
  | .uend => Sys2Proof.Machine.execUend s
  | .umma ra rb popa popb => Sys2Proof.Machine.execUmma ra rb popa popb s
  | .uloop src mrel mfield body count => Sys2Proof.Machine.execUloop src mrel mfield body count s
  | .upop ring n => Sys2Proof.Machine.execUpop ring n s
  | .uout ring f clr => Sys2Proof.Machine.execUout ring f clr s
  | .gorient2 g vd va d => Sys2Proof.Machine.execGorient2 g vd va d s
  | .gorient3 g vd va d => Sys2Proof.Machine.execGorient3 g vd va d s
  | .gincirc g vd va d => Sys2Proof.Machine.execGincirc g vd va d s
  | .ginsph g vd va d => Sys2Proof.Machine.execGinsph g vd va d s
  | .gsegx g vd va d => Sys2Proof.Machine.execGsegx g vd va d s
  | .gtie a => Sys2Proof.Machine.execGtie a s
  | .cpy d k => Sys2Proof.Machine.execCpy d k s
  | .cpyt d k b => Sys2Proof.Machine.execCpyt d k b s
  | .sbind q k => Sys2Proof.Machine.execSbind q k s
  | .sadv q b => Sys2Proof.Machine.execSadv q b s
  | .mon a => Sys2Proof.Machine.execMon a s
  | .mwait d b => Sys2Proof.Machine.execMwait d b s
  | .sempost a b => Sys2Proof.Machine.execSempost a b s
  | .semwait d a b => Sys2Proof.Machine.execSemwait d a b s
  | .bararr d a => Sys2Proof.Machine.execBararr d a s
  | .barwait a b => Sys2Proof.Machine.execBarwait a b s
  | .tbar => Sys2Proof.Machine.execTbar s
  | .deq k a => Sys2Proof.Machine.execDeq k a s
  | .enq a k => Sys2Proof.Machine.execEnq a k s
  | .aadd t d a b => Sys2Proof.Machine.execAadd t d a b s
  | .amin t d a b => Sys2Proof.Machine.execAmin t d a b s
  | .amax t d a b => Sys2Proof.Machine.execAmax t d a b s
  | .aand t d a b => Sys2Proof.Machine.execAand t d a b s
  | .aor t d a b => Sys2Proof.Machine.execAor t d a b s
  | .axor t d a b => Sys2Proof.Machine.execAxor t d a b s
  | .aswap t d a b => Sys2Proof.Machine.execAswap t d a b s
  | .acas t d a b => Sys2Proof.Machine.execAcas t d a b s
  | .fxadd f64 a b => Sys2Proof.Machine.execFxadd f64 a b s
  | .fxread f64 d a => Sys2Proof.Machine.execFxread f64 d a s
  | .fence scope pred succ => Sys2Proof.Machine.execFence scope pred succ s
  | .qmark => Sys2Proof.Machine.execQmark s
  | .tbegin k => Sys2Proof.Machine.execTbegin k s
  | .tend => Sys2Proof.Machine.execTend s
  | .tladd a b => Sys2Proof.Machine.execTladd a b s
  | .tlset a b => Sys2Proof.Machine.execTlset a b s
  | .tlwait a b => Sys2Proof.Machine.execTlwait a b s
  | .csrr d csr => Sys2Proof.Machine.execCsrr d csr s
  | .csrw csr a => Sys2Proof.Machine.execCsrw csr a s
  | .rrw ctx idx k => Sys2Proof.Machine.execRrw ctx idx k s
  | .xlatinv d a b => Sys2Proof.Machine.execXlatinv d a b s
  | .mxsave a => Sys2Proof.Machine.execMxsave a s
  | .haltDone core fw => Sys2Proof.Machine.execHaltDone core fw s
  | .freezeCycle core => Sys2Proof.Machine.execFreezeCycle core s
  | .scalarResultWrite core fw => Sys2Proof.Machine.execScalarResultWrite core fw s
  | .vectorOpComplete core residue => Sys2Proof.Machine.execVectorOpComplete core residue s
  | .assistRoutine core => Sys2Proof.Machine.execAssistRoutine core s
  | .predicateComplete core => Sys2Proof.Machine.execPredicateComplete core s
  | .shadowLatchReplay core fw stall => Sys2Proof.Machine.execShadowLatchReplay core fw stall s
  | .deckleWindowEnd core => Sys2Proof.Machine.execDeckleWindowEnd core s
  | .regulatorSettleDone core => Sys2Proof.Machine.execRegulatorSettleDone core s
  | .marginEntryDeferredWrite core => Sys2Proof.Machine.execMarginEntryDeferredWrite core s
  | .marginEntryRefresh core => Sys2Proof.Machine.execMarginEntryRefresh core s
  | .coreFenced core => Sys2Proof.Machine.execCoreFenced core s
  | .teamMemberKill core => Sys2Proof.Machine.execTeamMemberKill core s
  | .memoryAccessResponse core fw => Sys2Proof.Machine.execMemoryAccessResponse core fw s
  | .waitComplete who => Sys2Proof.Machine.execWaitComplete who s
  | .mwaitTimeout who => Sys2Proof.Machine.execMwaitTimeout who s
  | .timedCopyStart id => Sys2Proof.Machine.execTimedCopyStart id s
  | .copyComplete id => Sys2Proof.Machine.execCopyComplete id s
  | .copyStop id => Sys2Proof.Machine.execCopyStop id s
  | .streamAppend id => Sys2Proof.Machine.execStreamAppend id s
  | .mouldTilePush id => Sys2Proof.Machine.execMouldTilePush id s
  | .pressSlotPop id => Sys2Proof.Machine.execPressSlotPop id s
  | .subscriptionStop id => Sys2Proof.Machine.execSubscriptionStop id s
  | .lentSlotGrant core ring => Sys2Proof.Machine.execLentSlotGrant core ring s
  | .lentItemMove core ring => Sys2Proof.Machine.execLentItemMove core ring s
  | .commitComplete id => Sys2Proof.Machine.execCommitComplete id s
  | .xlatinvComplete core req => Sys2Proof.Machine.execXlatinvComplete core req s
  | .xgenInstall => Sys2Proof.Machine.execXgenInstall s
  | .xgenDrainDone => Sys2Proof.Machine.execXgenDrainDone s
  | .baseDieReset die => Sys2Proof.Machine.execBaseDieReset die s
  | .divertedAccess => Sys2Proof.Machine.execDivertedAccess s
  | .memberSuspend core => Sys2Proof.Machine.execMemberSuspend core s
  | .teamHandover launch team => Sys2Proof.Machine.execTeamHandover launch team s
  | .teamResume core => Sys2Proof.Machine.execTeamResume core s
  | .workerRetire core => Sys2Proof.Machine.execWorkerRetire core s
  | .launchRecordWrite launch => Sys2Proof.Machine.execLaunchRecordWrite launch s
  | .phaseBoundaryCommit => Sys2Proof.Machine.execPhaseBoundaryCommit s
  | .replicaTimeout => Sys2Proof.Machine.execReplicaTimeout s
  | .sqHeadRecord q => Sys2Proof.Machine.execSqHeadRecord q s
  | .sqWaitRecord q => Sys2Proof.Machine.execSqWaitRecord q s
  | .sqWaitSatisfied q => Sys2Proof.Machine.execSqWaitSatisfied q s
  | .sqNopRecord q => Sys2Proof.Machine.execSqNopRecord q s
  | .fallbackLaunch q => Sys2Proof.Machine.execFallbackLaunch q s
  | .watchdogExpiry core => Sys2Proof.Machine.execWatchdogExpiry core s
  | .deviceReset => Sys2Proof.Machine.execDeviceReset s
  | .thermalLimit => Sys2Proof.Machine.execThermalLimit s
  | .linkRateStep link up => Sys2Proof.Machine.execLinkRateStep link up s
  | .linkRetrainDone link ok => Sys2Proof.Machine.execLinkRetrainDone link ok s
  | .flitCrcRetry link => Sys2Proof.Machine.execFlitCrcRetry link s
  | .patrolScrub corrected => Sys2Proof.Machine.execPatrolScrub corrected s
  | .selfTestComplete fails => Sys2Proof.Machine.execSelfTestComplete fails s
  | .peerWriteFrame f => Sys2Proof.Machine.execPeerWriteFrame f s
  | .peerAtomicFrame f => Sys2Proof.Machine.execPeerAtomicFrame f s
  | .peerResponseFrame f => Sys2Proof.Machine.execPeerResponseFrame f s
  | .peerDigestFrame f => Sys2Proof.Machine.execPeerDigestFrame f s
  | .hostMemoryWrite off data => Sys2Proof.Machine.execHostMemoryWrite off data s
  | .hostMemoryRead off len => Sys2Proof.Machine.execHostMemoryRead off len s
  | .hostRegisterWrite off val => Sys2Proof.Machine.execHostRegisterWrite off val s
  | .sqEnable q cfg => Sys2Proof.Machine.execSqEnable q cfg s
  | .sqDisable q cfg => Sys2Proof.Machine.execSqDisable q cfg s
  | .sqTailWrite q tail => Sys2Proof.Machine.execSqTailWrite q tail s
  | .sqRestart q idx => Sys2Proof.Machine.execSqRestart q idx s
  | .cancelLaunch id => Sys2Proof.Machine.execCancelLaunch id s
  | .cancelPhase id => Sys2Proof.Machine.execCancelPhase id s
  | .cancelGraph id => Sys2Proof.Machine.execCancelGraph id s
  | .cancelJob id => Sys2Proof.Machine.execCancelJob id s
  | .pstateWrite val => Sys2Proof.Machine.execPstateWrite val s
  | .diegateSet die => Sys2Proof.Machine.execDiegateSet die s
  | .dieGated die => Sys2Proof.Machine.execDieGated die s
  | .diegateClear die => Sys2Proof.Machine.execDiegateClear die s
  | .hbmsrSet stack => Sys2Proof.Machine.execHbmsrSet stack s
  | .hbmSelfRefreshEntry stack => Sys2Proof.Machine.execHbmSelfRefreshEntry stack s
  | .hbmsrClear stack => Sys2Proof.Machine.execHbmsrClear stack s
  | .powerOff => Sys2Proof.Machine.execPowerOff s
  | .dkcfgWrite val => Sys2Proof.Machine.execDkcfgWrite val s
  | .coreFenceCmd core => Sys2Proof.Machine.execCoreFenceCmd core s
  | .coreUnfenceCmd core => Sys2Proof.Machine.execCoreUnfenceCmd core s
  | .selfTestStart dies => Sys2Proof.Machine.execSelfTestStart dies s
  | .bootSnow => Sys2Proof.Machine.execBootSnow s
  | .bootEnroll slot hash => Sys2Proof.Machine.execBootEnroll slot hash s
  | .bootRevoke slot => Sys2Proof.Machine.execBootRevoke slot s
  | .bootOwneronly => Sys2Proof.Machine.execBootOwneronly s
  | .bootReflash off => Sys2Proof.Machine.execBootReflash off s
  | .bootSetsvn => Sys2Proof.Machine.execBootSetsvn s
  | .attgo => Sys2Proof.Machine.execAttgo s
  | .debugHaltreq core => Sys2Proof.Machine.execDebugHaltreq core s
  | .debugResume core => Sys2Proof.Machine.execDebugResume core s
  | .debugAttach core on => Sys2Proof.Machine.execDebugAttach core on s
  | .ringcfgWrite ring val => Sys2Proof.Machine.execRingcfgWrite ring val s
  | .ringpush val => Sys2Proof.Machine.execRingpush val s
  | .ringpop val => Sys2Proof.Machine.execRingpop val s
  | .mouldgo val => Sys2Proof.Machine.execMouldgo val s
  | .pressgo val => Sys2Proof.Machine.execPressgo val s
  | .peeraop val => Sys2Proof.Machine.execPeeraop val s
  | .mxmodeWrite val => Sys2Proof.Machine.execMxmodeWrite val s
  | .vlWrite val => Sys2Proof.Machine.execVlWrite val s
  | .wqOpen => Sys2Proof.Machine.execWqOpen s
  | .wqClose => Sys2Proof.Machine.execWqClose s
  | .wqReset => Sys2Proof.Machine.execWqReset s
  | .wqRestart arg => Sys2Proof.Machine.execWqRestart arg s
  | .wqTailWrite tail => Sys2Proof.Machine.execWqTailWrite tail s
  | .replcmdCommit => Sys2Proof.Machine.execReplcmdCommit s
  | .replcmdDiscard => Sys2Proof.Machine.execReplcmdDiscard s
  | .wdogWrite val => Sys2Proof.Machine.execWdogWrite val s
  | .loadDataReturn core fw => Sys2Proof.Machine.execLoadDataReturn core fw s
  | .storePerformed core fw => Sys2Proof.Machine.execStorePerformed core fw s
  | .copyStart id => Sys2Proof.Machine.execCopyStart id s
  | .waitRequestArrival who => Sys2Proof.Machine.execWaitRequestArrival who s
  | .peerPortDown port => Sys2Proof.Machine.execPeerPortDown port s
  | .powerLoss => Sys2Proof.Machine.execPowerLoss s
  | .msixVectorUnmask vec => Sys2Proof.Machine.execMsixVectorUnmask vec s
  | .parkImageWriteDone core fw => Sys2Proof.Machine.execParkImageWriteDone core fw s

end Sys2Proof.Machine
end

