-- ==== Sys2Proof/Machine/Issue.lean ====
section
/-!
DEFINITION. The issue of a bundle: the faults delivered before it (14 R318), the checks of 03 R89, the slots in the order of 01 R17,
its retirement (01 R14, 14 R409), and the rollback of one that does not issue.
-/
namespace Sys2Proof.Machine

/-! ## Faults delivered before a bundle (14 R318, steps 1 to 3) -/

/-- The first fault for an absent context (15 R340): those that were held when it stopped come first. CTX_HELD_LOST follows the last
entry where faults were lost. -/
def Mach.deliverAbsent (m : Mach) (c : Nat) (fw : Bool) : Option Mach :=
  let x := m.ctx c fw
  if x.level ≠ 0 then none
  else
    match x.absent with
    | h :: r =>
      let flag := if x.absentHeld = 0 then flagAbsent else flagHeld
      let m1 := (m.keepWait c fw).updCtx c fw fun y => { y with absent := r, absentHeld := y.absentHeld - 1 }
      some (m1.takeTrap c fw flag h.code.toNat x.pc h.val)
    | [] =>
      if x.absentLost then
        let m1 := (m.keepWait c fw).updCtx c fw fun y => { y with absentLost := false }
        some (m1.takeTrap c fw flagAbsent (Cause.code .ctxHeldLost) x.pc (-1))
      else none

/-- Whether a bundle holds an S5 instruction of the matrix unit. -/
def holdsMx (ws : List (Nat × BitVec 32)) : Bool := ws.any fun p => p.1 == 5 && !isEpuWord p.2
/-- Whether a bundle holds an S6 instruction. -/
def holdsEng (ws : List (Nat × BitVec 32)) : Bool := ws.any fun p => p.1 == 6
/-- Whether a bundle holds HALT. -/
def holdsHalt (ws : List (Nat × BitVec 32)) : Bool := ws.any fun p => p.1 == 0 && fld p.2 26 6 == 0x0C

/-- The first fault held against a call of the context (06 R160), where the bundle receives one. -/
def Mach.deliverMx (m : Mach) (c : Nat) (fw : Bool) (ws : List (Nat × BitVec 32)) : Option Mach :=
  let x := m.ctx c fw
  if x.level ≠ 0 ∨ !(holdsMx ws || holdsHalt ws) then none
  else
    match (m.core c).mx.held.find? fun h => h.1 == fw with
    | none => none
    | some h =>
      let m1 := m.updMx c fun y => { y with held := y.held.erase h }
      some (m1.takeTrap c fw flagHeld h.2.2.toNat x.pc h.2.1)

/-- The first held fault of the context (07 R181), where the bundle receives one; CTX_HELD_LOST once all are raised. -/
def Mach.deliverHeld (m : Mach) (c : Nat) (fw : Bool) (ws : List (Nat × BitVec 32)) : Option Mach :=
  let x := m.ctx c fw
  if x.level ≠ 0 ∨ !(holdsEng ws || holdsHalt ws) then none
  else
    match x.held with
    | h :: r =>
      some ((m.updCtx c fw fun y => { y with held := r }).takeTrap c fw flagHeld h.code.toNat x.pc h.val)
    | [] =>
      if x.heldLost then
        some ((m.updCtx c fw fun y => { y with heldLost := false }).takeTrap c fw flagHeld (Cause.code .ctxHeldLost) x.pc (-1))
      else none

/-- What the bundle receives before its own checks. A bundle that waits has issued already, and receives nothing (07 R180, R181). -/
def Mach.deliver (m : Mach) (c : Nat) (fw : Bool) (ws : List (Nat × BitVec 32)) : Option Mach :=
  if (m.ctx c fw).wait.isSome then none
  else
    match m.deliverMx c fw ws with
    | some m1 => some m1
    | none => m.deliverHeld c fw ws

/-! ## The checks that depend on the sequencer (03 R89, step 5) -/

/-- The slot that a bundle executes now. -/
def State.onSlot (s : State) (sl : Slot) : State := { s with iss := { s.iss with slot := sl.n, word := sl.w } }

/-- ILLEGAL_LOOP_OVERFLOW, ILLEGAL_LOOP_END or ILLEGAL_ERET of a slot. -/
def State.seqFault (s : State) (sl : Slot) : Option Cause :=
  match sl.i with
  | .loop _ _ _ => s.loopFault
  | .eret => if s.xp.level = 0 then some .illegalEret else none
  | _ => none

/-- Whether a slot reads or pops more of a result queue than it holds (01 R22). -/
def State.underrun (s : State) (sl : Slot) : Bool :=
  match sl.i with
  | .adv a b c d => s.advUnder a || s.advUnder b || s.advUnder c || s.advUnder d
  | i => (srcsOf i).any fun a => match a with
    | .handle u k => decide ((s.xp.rqOf u.val).length ≤ k.toNat)
    | _ => false

/-- Entries that a slot's ADV pops from the queue of unit u. -/
def popsOf (u : Nat) (sl : Slot) : Nat :=
  match sl.i with
  | .adv a b c d => ([a, b, c, d].map fun e => if e.unit.toNat = u then e.count.toNat else 0).sum
  | _ => 0

/-- The first slot whose reservation finds its queue full; len counts the entries of a unit's queue so far (01 R22). -/
def overflowAt (len : Nat → Nat) : List Slot → Option Slot
  | [] => none
  | sl :: r =>
    match reserves sl.i with
    | none => overflowAt len r
    | some u => if 4 ≤ len u then some sl else overflowAt (fun v => if v = u then len v + 1 else len v) r

/-- The first check of step 5 that a bundle fails, with its slot. -/
def State.step5 (s : State) (l : List Slot) : Option (Cause × Slot) :=
  match l.findSome? fun sl => (s.seqFault sl).map fun c => (c, sl) with
  | some f => some f
  | none =>
    match l.find? s.underrun with
    | some sl => some (.illegalQueueUnderrun, sl)
    | none => (overflowAt (fun u => (s.xp.rqOf u).length - (l.map (popsOf u)).sum) l).map fun sl => (.illegalQueueOverflow, sl)

/-! ## The slots (01 R17) -/

/-- The slots take effect one after another. A slot that stalls or faults at issue ends the bundle; where the memory side has
answered a slot with a fault, that of a later slot at issue comes first (14 R318). -/
def runSlots (late : Option State) : List Slot → State → Out
  | [], s => .next (late.getD s)
  | sl :: r, s =>
    match exec sl.i (s.onSlot sl) with
    | .next t =>
      if t.iss.dead then
        if t.iss.late then runSlots (some (late.getD t)) r s else .next t
      else runSlots late r t
    | o => o

/-- The order in which the slots are taken: S1 to S6, then S0, whose transfer, loop and trap effects come last. -/
def slotOrder (l : List Slot) : List Slot := (l.filter fun sl => sl.n != 0) ++ l.filter fun sl => sl.n == 0

/-- The control slot's own faults, BKPT and stalls come before the effects of the others: the state it ends the bundle with. ERET tests
its park flag after them (14 R322). -/
def State.control (s : State) (l : List Slot) : Option State :=
  match l.find? fun sl => sl.n == 0 && sl.i != .eret with
  | none => none
  | some sl =>
    match exec sl.i (s.onSlot sl) with
    | .next t => if t.iss.dead then some t else none
    | _ => none

/-- Whether a slot of S1 to S5 names a stream as a source (07 R208). -/
def Slot.streams (sl : Slot) : Bool :=
  sl.n != 0 && sl.n != 6 && (srcsOf sl.i).any fun a => match a with
    | .q _ => true
    | _ => false

/-- A divisor that is 0 and no stream element. -/
def State.isZero (s : State) (b : Src9) : Bool :=
  match b with
  | .src (.q _) => false
  | b => s.src9 b == 0

/-- Whether a slot divides by zero (04 R113). -/
def State.zeroDivide (s : State) (sl : Slot) : Bool :=
  match sl.i with
  | .div _ _ _ b | .divu _ _ _ b | .rem _ _ _ b | .remu _ _ _ b => s.isZero b
  | _ => false

/-- A bundle inside a region one of whose slots S1 to S5 names a stream: ARITH_DIV_ZERO of its first division by zero whose divisor is no
stream element, else REGION_ILLEGAL_OP, before any address check (07 R208). -/
def State.streamsInRegion (s : State) (l : List Slot) : Option State :=
  if s.inRegion && l.any Slot.streams then
    match l.find? s.zeroDivide with
    | some sl => some ((s.onSlot sl).illegal .arithDivZero)
    | none => some (s.trap .regionIllegalOp 0)
  else none

/-- The decoded slots of a bundle: step 5 of the checks, the control slot's faults, a stream read inside a region, then the effects. -/
def State.slots (s : State) (l : List Slot) : Out :=
  match s.step5 l with
  | some (c, sl) => .next ((s.onSlot sl).illegal c)
  | none =>
    match (s.control l).orElse fun _ => s.streamsInRegion l with
    | some t => .next t
    | none => runSlots none (slotOrder l) s

/-! ## Retirement -/

/-- The next bundle's address and the loop stack after a bundle that made no transfer (01 R14). -/
def State.goOn (s : State) : State :=
  if s.iss.xfer then s
  else s.updX fun x => { x with loops := (loopBack s.iss.addr s.iss.next x.loops).1,
                                pc := (loopBack s.iss.addr s.iss.next x.loops).2 }

/-- Uncorrectable data that a vector read of the bundle has met (05 R139): the region that the bundle was issued in aborts, else its
context is killed. -/
def State.meetDoom (s : State) : State :=
  match s.iss.doom with
  | none => s
  | some t =>
    if s.inRegion then s.upd fun m => m.abortRegion s.iss.core s.iss.fw t 0
    else s.upd fun m => m.kill s.iss.core s.iss.fw t.cause.code 0

/-- A fault after the effect is taken at the bundle where the sequencer goes on (14 R317, R409); a bundle that also halts leaves no
such bundle, and its fault is logged and counted (log 63). -/
def State.takeAfter (s : State) : State :=
  match s.iss.after with
  | none => s
  | some t =>
    match s.xc.run with
    | .running => s.upd fun m => m.takeTrap s.iss.core s.iss.fw 0 t.cause.code s.xc.pc t.val
    | .halting =>
      s.upd fun m => (m.logLost s.iss.core s.iss.fw (W t.cause.code) t.val).countFault (m.ownerOf s.iss.core s.iss.fw)
    | _ => s

/-- A switch point is offered to the arbiter once its bundle has retired (04 R107). -/
def State.offered (s : State) : State :=
  match s.iss.offer with
  | none => s
  | some (d, b) => if s.xc.run = .running then s.upd fun m => m.offer s.iss.core d b else s

/-- A bundle retires; a VSTRM it holds takes what its stream has. -/
def State.retire (s : State) : State :=
  let s1 := s.goOn.upd fun m => (m.updCore s.iss.core Core.feed).retireBundle s.iss.core s.iss.fw
  s1.meetDoom.takeAfter.offered

/-- A core cycle of the issuing core, of the weight of the slots it issues. -/
def State.cycled (s : State) (ws : List (Nat × BitVec 32)) (fw : Bool) : State :=
  s.updK fun k => k.cycle (s.pre.cycleWeight s.iss.core ws) fw

/-- What becomes of a bundle once its slots have been taken: one that did not issue leaves the cycle to the units at work. -/
def State.finish (ws : List (Nat × BitVec 32)) : Out → Out
  | .next t => if t.iss.dead then .next (t.cycled [] false) else .next (t.cycled ws t.iss.fw).retire
  | o => o

/-! ## A context's next bundle -/

/-- The issue of the bundle at the context's pc, n bytes long. -/
def State.begin (s : State) (c : Nat) (fw : Bool) (n : Nat) (lit : BitVec 32) : State :=
  let pc := (s.m.ctx c fw).pc
  { s with pre := s.m, iss := { Issue.idle with core := c, fw := fw, addr := pc, next := pc + W n, lit := lit } }

/-- The bundle at the context's pc, in its fetched line (03 R63 to R65, R89): padding leads on to the next line; a freeze cycle, a
fault delivered before the bundle and a failed check stand before its slots. -/
def State.issueLine (s : State) (c : Nat) (fw : Bool) (line : List Byte) : Out :=
  let pc := (s.m.ctx c fw).pc
  let o := pc.toNat % 64
  let h := line.getD o 0
  let ws := lineWords line o
  if h = 0 then .next (s.upd fun m => m.updCtx c fw fun x => { x with pc := W (pc.toNat / 64 * 64 + 64) })
  else if s.m.mustFreeze c ws then .next (s.upd fun m => m.updCore c Core.freeze)
  else
    match s.m.deliver c fw ws with
    | some m1 => .next { s with m := m1 }
    | none =>
      match checkBundle fw o h (line.drop (o + 1)) with
      | .error (cause, v) => State.finish ws (.next ((s.begin c fw (bundleLen h) 0).trap cause v))
      | .ok (l, lit) => State.finish ws ((s.begin c fw (bundleLen h) lit).slots l)

/-- The fetch of a context's next bundle (08 R218). -/
def State.fetch (s : State) (c : Nat) (fw : Bool) : Out :=
  let pc := (s.m.ctx c fw).pc
  match s.m.fetchLine c fw pc with
  | (m1, .ok line) => State.issueLine { s with m := m1 } c fw line
  | (m1, .error t) =>
    let m2 := match t.viol with
      | some v => m1.logViol v
      | none => m1
    .next { s with m := m2.takeTrap c fw 0 t.cause.code pc t.val }

/-- Whether a debugger stops a context at its next bundle (20 R399). -/
def Mach.haltAsked (m : Mach) (c : Nat) (fw : Bool) : Bool :=
  !fw && (m.core c).dbg.haltReq && (m.core c).dbg.attach && (m.ctx c false).run == .running

/-- A context stops in debug state. -/
def Mach.debugStop (m : Mach) (c : Nat) : Mach :=
  m.updCore c fun k => { k with c0 := { k.c0 with run := .debug }, dbg := { k.dbg with haltReq := false } }

/-- The coming cycle of a core goes to a context: a member of a killed team is killed at its next bundle (14 R324), a debugger stops
it; a cycle in which neither context is ready passes idle, and one that the arbiter gives to the other context is not this one's (01
R12); else its next bundle issues. -/
def State.issue (s : State) (c : Nat) (fw : Bool) : Out :=
  let m := s.m.settleFences c fw
  if !fw && m.teamDoomed c then .next { s with m := m.kill c false (Cause.code .ctxTeamKilled) 0 }
  else if m.haltAsked c fw then .next { s with m := m.debugStop c }
  else if m.arbiter c = none then .next { s with m := if m.powered c then m.idleCycle c else m }
  else if m.arbiter c ≠ some fw then .next { s with m := m }
  else
    match m.deliverAbsent c fw with
    | some m1 => .next { s with m := m1 }
    | none => State.fetch { s with m := m } c fw

end Sys2Proof.Machine
end

