-- ==== Sys2Proof/Machine/Moves.lean ====
section
/-!
DEFINITION. Who moves: the moves that the agenda may name (log 4), and the events that the device brings about by itself, in the
order in which the model takes them where the agenda is empty.
-/
namespace Sys2Proof.Machine

/-! ## Moves -/

/-- Rows of the table that a CSRW of the issuing context brings about: they act for the bundle in issue, and are no moves. -/
def isCsrRow : Instr → Bool
  | .ringcfgWrite .. => true
  | .ringpush .. => true
  | .ringpop .. => true
  | .mouldgo .. => true
  | .pressgo .. => true
  | .peeraop .. => true
  | .mxmodeWrite .. => true
  | .vlWrite .. => true
  | .wqOpen => true
  | .wqClose => true
  | .wqReset => true
  | .wqRestart .. => true
  | .wqTailWrite .. => true
  | .replcmdCommit => true
  | .replcmdDiscard => true
  | .wdogWrite .. => true
  | .xgenInstall => true
  | _ => false

/-- Whether a row of the table is an event that may come about between bundles: it has no encoding, and is no CSR write. -/
def isEvent (i : Instr) : Bool := (encode i).isNone && !isCsrRow i

/-- The state as an event or a bundle finds it: nothing is in issue. -/
def State.fresh (s : State) : State := { s with pre := s.m, iss := Issue.idle }

/-- The next microword of the open routine of a core (06 R156): past the end of its routine it ends. -/
def State.micro (s : State) (c : Nat) : Out :=
  let t : State := { s with iss := { s.iss with core := c } }
  match (s.m.core c).microword with
  | some w =>
    (match decodeMicro w with
     | .ok i => exec i t
     | .error _ => .next s)
  | none => if (s.m.core c).mx.rt.isSome && (s.m.core c).mx.parkBusy.isNone then .next (s.upd fun m => m.uEnd c) else .next s

/-- The checksums of a matrix step fail twice (06 R159): the open routine ends with RAS_MX_CHECKSUM if its next microword is a step. -/
def Mach.badChecksum (m : Mach) (c : Nat) : Mach :=
  match (m.core c).mx.rt, ((m.core c).microword.map decodeMicro) with
  | some r, some (.ok (.umma ..)) =>
    (m.uFault c r .rasMxChecksum).logErr (Cause.code .rasMxChecksum) kDetected { fw := r.fw, loc := c }
  | _, _ => m

/-- A physical fault comes about (20 R394, R395; log 30). -/
def Mach.physical (m : Mach) : Physical → Mach
  | .row p on => { m with bad := if on then (if m.bad.contains p then m.bad else p :: m.bad) else m.bad.filter fun q => q != p }
  | .checksum c => m.badChecksum c
  | .scu c fw => m.scuMismatch c fw
  | .corrected f => m.logCorrected f
  | .word c fw vec f => m.badWord c fw vec f
  | .mxWord c f => m.mxBadWord c f
  | .homeWord who => m.homeBadWord who
  | .silent p b => m.silent p b
  | .silentReg c fw n v => m.silentReg c fw n v

/-- A move, on a state in which nothing is in issue. -/
def State.move (s : State) : Move → Out
  | .event i => if isEvent i then exec i s else .next s
  | .issue c fw => onCore c (s.issue c fw)
  | .micro c => onCore c (s.micro c)
  | .land id n => .next (s.upd fun m => Mach.landN id n m)
  | .ticks n => .next (s.upd fun m => { m with time := m.time + W n })
  | .physical p => .next (s.upd fun m => m.physical p)
  | .fwStart c entry range => onCore c (.next (s.upd fun m => m.fwStart c entry range))
  | .debugRead c off => onCore c (.next (s.upd fun m => m.debugRead c off))
  | .debugWrite c off v => onCore c (.next (s.upd fun m => m.debugWrite c off v))
  | .hostRegRead off => .next (s.upd fun m => m.hostRead off)
  | .serviced v => .next (s.upd fun m => m.serviced v)

/-! ## What the device does by itself -/

/-- Something that the device does by itself: the meaning of an event, or the next microword of a core. -/
abbrev Own := State → Out

/-- The events of a context. -/
def ctxEvents (c : Nat) (fw : Bool) : List Own :=
  [execMemoryAccessResponse c fw, execLoadDataReturn c fw, execScalarResultWrite c fw,
   execStorePerformed c fw, execParkImageWriteDone c fw, execHaltDone c fw]

/-- The events of a core's rings. -/
def ringEvents (c : Nat) : List Own :=
  (rangeFrom 0 16).flatMap fun n => [execLentItemMove c n, execLentSlotGrant c n]

/-- The events of a core. -/
def Mach.coreEvents (m : Mach) (c : Nat) : List Own :=
  ctxEvents c false ++ ctxEvents c true ++
    [execVectorOpComplete c false, execAssistRoutine c, execPredicateComplete c, fun s => s.micro c,
     execRegulatorSettleDone c, execDeckleWindowEnd c, execMarginEntryDeferredWrite c,
     execMarginEntryRefresh c, execCoreFenced c, execTeamMemberKill c] ++
    ((m.core c).xlatReqs.map fun r => execXlatinvComplete c r.num.toNat) ++ ringEvents c

/-- What a core does once its bundles are done: a member stops or resumes, a worker retires, a watchdog runs out. -/
def leaveEvents (c : Nat) : List Own :=
  [execMemberSuspend c, execTeamResume c, execWorkerRetire c, execWatchdogExpiry c]

/-- The owners whose context waits. -/
def Mach.waitingOwners (m : Mach) : List Owner :=
  (m.cores.keys.flatMap fun c => [m.ownerOf c false, m.ownerOf c true]) ++
    m.susp.flatMap fun s => s.members.map fun x => .worker x.launch x.lcid

/-- The events of waits. -/
def Mach.waitEvents (m : Mach) : List Own :=
  (m.requests.map fun w => execWaitRequestArrival w.who) ++
    m.waitingOwners.flatMap fun o => [execWaitComplete o, execMwaitTimeout o]

/-- The events of engine threads. -/
def Mach.engineEvents (m : Mach) : List Own :=
  (m.copies.flatMap fun k => [execCopyStop k.id, execTimedCopyStart k.id, execCopyStart k.id,
    execCopyComplete k.id, execStreamAppend k.id]) ++
  (m.subs.flatMap fun x => [execSubscriptionStop x.id, execPressSlotPop x.id, execMouldTilePush x.id]) ++
  (m.commits.map fun k => execCommitComplete k.id) ++ [execDivertedAccess]

/-- The events of submission queues. -/
def queueEvents (q : Nat) : List Own :=
  [execSqNopRecord q, execSqWaitSatisfied q, execSqWaitRecord q, execSqHeadRecord q,
   execFallbackLaunch q]

/-- The events of launches, phases and the package. -/
def Mach.deviceEvents (m : Mach) : List Own :=
  [execXgenDrainDone] ++ (m.peerReqs.map fun r => fun s => if bitAt m.portDown.toNat r.port then execPeerPortDown r.port s else .next s) ++ (m.susp.map fun s => execTeamHandover s.launch s.team) ++
    [execPhaseBoundaryCommit, execReplicaTimeout] ++
    (m.launches.map fun l => execLaunchRecordWrite l.key) ++ m.sq.keys.flatMap queueEvents ++
    ((rangeFrom 0 8).map fun d => execDieGated d) ++ (rangeFrom 0 16).map fun h => execHbmSelfRefreshEntry h

/-- Everything that the device may do by itself, in the order of the model (log 4). -/
def Mach.ownEvents (m : Mach) : List Own :=
  m.cores.keys.flatMap m.coreEvents ++ m.waitEvents ++ m.engineEvents ++ m.cores.keys.flatMap leaveEvents ++ m.deviceEvents

/-- Whether a machine is another but for the free values it has drawn and the translations it caches: an event that leaves it so has
only looked. -/
def Mach.unmoved (m k : Mach) : Bool := decide ({ m with nonce := k.nonce, tlb := k.tlb, tabs := k.tabs, lineMaps := k.lineMaps } = k)

/-- The first of a list that changes the machine. -/
def State.firstChange (s : State) : List Own → Option State
  | [] => none
  | f :: r =>
    match f s with
    | .next t => if t.m.unmoved s.m then s.firstChange r else some t
    | _ => s.firstChange r

/-- The first core of a list whose arbiter finds a context ready, with that context, and the cores before it. -/
def Mach.firstReady (m : Mach) : List Nat → List Nat × Option (Nat × Bool)
  | [] => ([], none)
  | c :: r =>
    match m.arbiter c with
    | some fw => ([], some (c, fw))
    | none => let (l, x) := m.firstReady r; (c :: l, x)

/-- An idle cycle of each core of a list that has power (01 R12). -/
def Mach.idleAll (m : Mach) (l : List Nat) : Mach := (l.filter m.powered).foldl Mach.idleCycle m

/-- The cores in turn, from the one that is next. -/
def State.turns (s : State) : List Nat :=
  (s.m.cores.keys.filter fun c => decide (s.cur ≤ c)) ++ s.m.cores.keys.filter fun c => decide (c < s.cur)

/-- What the model does with an empty agenda: an event of the device, else the next bundle of a core in turn; a core that is passed over
has an idle cycle. -/
def State.auto (s : State) : Out :=
  match s.firstChange s.m.ownEvents with
  | some t => .next t
  | none =>
    match s.m.firstReady s.turns with
    | (l, some (c, fw)) => State.issue { s with m := s.m.idleAll l, cur := c + 1 } c fw
    | (l, none) => .next (s.upd fun m => m.idleAll l)

/-- The state at the end of a step: waiters whose condition holds have been served, time has passed, nothing is in issue. -/
def State.settle (s : State) : State :=
  let m := s.m.wake.noteLent
  State.fresh { s with m := { m with time := m.time + W s.tickStep } }

/-- What a step makes of a move. -/
def settled : Out → Out
  | .next t => .next t.settle
  | o => o

/-! ## Placing one instruction -/

/-- The privileged instructions of S6, which context 1 runs (07 R211 to R213). -/
def isPriv : Instr → Bool
  | .rrw .. => true
  | .xlatinv .. => true
  | .mxsave .. => true
  | _ => false

/-- The bytes of a bundle that holds one word in a slot, and a literal 0 where the word asks for one (03 R63, R66). -/
def oneSlot (slot : Nat) (w : BitVec 32) : List Byte :=
  let lit := asksLit slot w
  BitVec.ofNat 8 (2 ^ slot + 128 * b2n lit) :: (bytesOfNat 4 w.toNat ++ if lit then bytesOfNat 4 0 else [])

/-- A context that issues from offset 0 of its own scratchpad, through a range with R, W and X (08 R215). -/
def Ctx.placed : Ctx :=
  { Ctx.reset with run := .running, ranges := ⟨[(1, 0x17FFFF), (2, W iaOwn), (3, 0xF)]⟩ }

/-- Core 0 with a bundle at offset 0 of its scratchpad, and one context about to issue it. -/
def Core.placeBundle (k : Core) (fw : Bool) (bs : List Byte) : Core :=
  { k with
    c0 := if fw then Ctx.reset else Ctx.placed
    c1 := if fw then Ctx.placed else Ctx.reset
    spad := k.spad.write 0 bs
    icache := Tab.empty, vops := [], epu := none, weights := [], mx := { k.mx with parkBusy := none, held := [] }
    margin := { k.margin with state := 0 } }

/-- A routine of one microword, open on the unit (06 R154, R158). -/
def placedRoutine (k : Core) : Routine :=
  { call := k.mx.seq, fw := false, owner := .bare 0, routine := 0, pc := 0, bank := 0, pbase := 0, flex := false,
    mode := k.mx.mode, m := k.m, loops := [] }

/-- Core 0 with a microword about to run. -/
def Core.placeMicro (k : Core) (w : Word) : Core :=
  { k with mx := { k.mx with dir := k.mx.dir.put 0 { valid := true, start := 0, len := 1 }, store := k.mx.store.put 0 w,
                             parkBusy := none, rt := some (placedRoutine k) } }

/-- Power for core 0, and nothing bad in its scratchpad. -/
def Mach.awake (m : Mach) : Mach :=
  { m with power := { m.power with off := false, gated := 0 }, bad := [] }

end Sys2Proof.Machine
end

