-- ==== Sys2Proof/Machine/Step.lean ====
section
/-!
DEFINITION. One step of the device: the first move of the agenda, or what the device does by itself; and the placing of one
instruction where the next step takes it.
-/
namespace Sys2Proof.Machine

/-- One step (log 4): the agenda's first move, else what the device does by itself. -/
def step (s : State) : Host.Outcome State Fault Refusal :=
  match s.agenda with
  | mv :: r => settled (State.move { s.fresh with agenda := r } mv)
  | [] => settled s.fresh.auto

/-- The state whose next step fetches and runs the instruction with bits w (log 3): a microword of 64 bits in an open routine of core
0, else a slot word in a bundle of its own at the head of core 0's scratchpad, for context 1 where it is privileged. -/
def State.withFetchWord (s : State) (nbits w : Nat) : State :=
  if nbits = 64 then
    { s with m := s.m.awake.updCore 0 fun k => k.placeMicro (BitVec.ofNat 64 w), agenda := [.micro 0] }
  else
    let (slot, fw) := match tableSlot w with
      | some (n, i) => (n, isPriv i)
      | none => (0, false)
    { s with m := s.m.awake.updCore 0 fun k => k.placeBundle fw (oneSlot slot (BitVec.ofNat 32 w)), agenda := [.issue 0 fw] }

end Sys2Proof.Machine
end

