-- ==== Sys2Proof/Safety.lean ====
section
/-!
DEFINITION. What the statements call safe: the device runs on for a number of steps, and its memories and tables keep the one form in
which equal contents are equal data.
-/
namespace Sys2Proof.Machine

/-- From this state the device takes n steps without a fault or a refusal. -/
def State.runsFor (n : Nat) (s : State) : Prop := ∃ t, Sys2Proof.core.run n s = .next t

/-- Between two steps nothing is in issue: a bundle's sources are read from the machine as it stands (01 R12, R17). -/
def State.atRest (s : State) : Prop := s.pre = s.m ∧ s.iss = Issue.idle

/-- The memories of a core in canonical form: its scratchpad, its v registers, its accumulator banks and its microword store. -/
def Core.memWf (k : Core) : Bool :=
  k.spad.wf && (k.v.l.all fun e => e.2.wf) && (k.mx.acc.l.all fun e => e.2.wf) && k.mx.store.wf

/-- Every memory in canonical form: addresses rise, and no byte that reads 0 is listed (log 2). -/
def Mach.memWf (m : Mach) : Bool :=
  m.cores.wf && (m.cores.l.all fun e => e.2.memWf) && m.hbm.wf && (m.hbm.l.all fun e => e.2.wf) && m.pool.wf &&
    (m.pool.l.all fun e => e.2.wf) && m.hostMem.wf && m.cxlMem.wf

end Sys2Proof.Machine
end

