-- ==== Sys2Proof/Certificates/Slice0/Obligations.lean ====
section
/-!
DEFINITION. What the provers are asked to prove of the model: one statement per definition, each with the rules of spec/ it rests on. The names
of Sys2Proof.Claims say the conditions and the results of the statements: when a source can be read, and what a bundle leaves.
A statement about a next state gives the whole state, built of the operations of the model, so that it is the instruction's frame too.
-/
namespace Sys2Proof.Claims
open Sys2Proof.Machine

/-! ## Conditions on the operands, written from 03 R68, R69, 01 R22 and 07 R208 -/

/-- A source can be read: a stream is bound, holds an element and is not drained, outside a region or in the control slot, or its element was
taken when the bundle began to wait; a handle names an entry that its queue holds. -/
def readable (s : State) : Src → Bool
  | .q n =>
    !(s.inRegion && s.iss.slot != 0) && ((s.xp.keptElem n.toNat).isSome ||
      ((s.xp.stream n.toNat).isBound && !(s.xp.stream n.toNat).fifo.isEmpty && !s.kp.strmBusy s.iss.fw n.toNat))
  | .handle u k => decide (k.toNat < (s.xp.rqOf u.val).length)
  | _ => true

/-- Every source of a list can be read. -/
def readableAll (s : State) (l : List Src) : Bool := l.all (readable s)

/-- The state with the stream elements of the sources consumed (03 R69). -/
def reads (s : State) (l : List Src) : State := l.foldl State.take1 s

/-! ## What a bundle's slot leaves -/

/-- An operation of alu0 or alu1 with one bundle of latency: sources consumed, moved into the latches, the result written. -/
def aluNext (s : State) (u : Alu) (d : Dst) (a : Src) (b : Src9) (v : Word) : State :=
  ((reads s (a :: srcs9 b)).latchAB u.unit.val (s.src a) (s.src9 b)).put d v

/-- The same with one source. -/
def aluNext1 (s : State) (u : Alu) (d : Dst) (a : Src) (v : Word) : State :=
  ((reads s [a]).latch u.unit.val false (s.src a)).put d v

/-- An operation of alu0 or alu1 of several cycles: its result and its flags are pending. -/
def aluLater (s : State) (u : Alu) (d : Dst) (a : Src) (b : Src9) (v : Word) (f : BitVec 5) : State :=
  ((reads s (a :: srcs9 b)).latchAB u.unit.val (s.src a) (s.src9 b)).putLate .scalar d v f

/-- An operation of agu on A and B: sources consumed and moved into the latches of agu. -/
def aguRead (s : State) (more : List Src) (a : Src) (b : Src9) : State :=
  (reads s (more ++ a :: srcs9 b)).latchAB uAGU.val (s.src a) (s.src9 b)

/-- The bundle takes a precise trap: nothing of it has taken effect (14 R317). -/
def trapped (s : State) (c : Cause) (v : Word) : State :=
  { s with m := s.pre.takeTrap s.iss.core s.iss.fw 0 c.code s.iss.addr v, iss := { s.iss with dead := true } }

/-- The trap value of the checks at issue: the slot number above the slot word (03 R89). -/
def slotNo (s : State) : Word := BitVec.ofNat 64 (s.iss.slot * 2 ^ 32 + s.iss.word.toNat)

end Sys2Proof.Claims


namespace Sys2Proof.Claims
open Sys2Proof.Machine

/-! ## The shapes of S1 to S3, written from the tables of 04 -/

/-- The operations of S1 and S2: unit, destination, sources in the order of their fields (04 R112 to R118). -/
def aluOf : Instr → Option (Alu × Dst × List Src)
  | .add u d a b => some (u, d, a :: srcs9 b)
  | .sub u d a b => some (u, d, a :: srcs9 b)
  | .mul u d a b => some (u, d, a :: srcs9 b)
  | .mulh u d a b => some (u, d, a :: srcs9 b)
  | .mulhu u d a b => some (u, d, a :: srcs9 b)
  | .div u d a b => some (u, d, a :: srcs9 b)
  | .divu u d a b => some (u, d, a :: srcs9 b)
  | .rem u d a b => some (u, d, a :: srcs9 b)
  | .remu u d a b => some (u, d, a :: srcs9 b)
  | .and u d a b => some (u, d, a :: srcs9 b)
  | .or u d a b => some (u, d, a :: srcs9 b)
  | .xor u d a b => some (u, d, a :: srcs9 b)
  | .andn u d a b => some (u, d, a :: srcs9 b)
  | .shl u d a b => some (u, d, a :: srcs9 b)
  | .shr u d a b => some (u, d, a :: srcs9 b)
  | .sra u d a b => some (u, d, a :: srcs9 b)
  | .rol u d a b => some (u, d, a :: srcs9 b)
  | .ror u d a b => some (u, d, a :: srcs9 b)
  | .min u d a b => some (u, d, a :: srcs9 b)
  | .minu u d a b => some (u, d, a :: srcs9 b)
  | .max u d a b => some (u, d, a :: srcs9 b)
  | .maxu u d a b => some (u, d, a :: srcs9 b)
  | .ceq u d a b => some (u, d, a :: srcs9 b)
  | .cne u d a b => some (u, d, a :: srcs9 b)
  | .clt u d a b => some (u, d, a :: srcs9 b)
  | .cltu u d a b => some (u, d, a :: srcs9 b)
  | .cle u d a b => some (u, d, a :: srcs9 b)
  | .cleu u d a b => some (u, d, a :: srcs9 b)
  | .cmov u d a b => some (u, d, a :: srcs9 b)
  | .cmovz u d a b => some (u, d, a :: srcs9 b)
  | .bext u d a b => some (u, d, a :: srcs9 b)
  | .bextu u d a b => some (u, d, a :: srcs9 b)
  | .bins u d a b => some (u, d, a :: srcs9 b)
  | .sext u d a b => some (u, d, a :: srcs9 b)
  | .zext u d a b => some (u, d, a :: srcs9 b)
  | .lih u d a b => some (u, d, a :: srcs9 b)
  | .clz u d a => some (u, d, [a])
  | .ctz u d a => some (u, d, [a])
  | .popc u d a => some (u, d, [a])
  | .faddF32 u d a b => some (u, d, a :: srcs9 b)
  | .fsubF32 u d a b => some (u, d, a :: srcs9 b)
  | .fmulF32 u d a b => some (u, d, a :: srcs9 b)
  | .fmaF32 u d a b => some (u, d, a :: srcs9 b)
  | .fdivF32 u d a b => some (u, d, a :: srcs9 b)
  | .fminF32 u d a b => some (u, d, a :: srcs9 b)
  | .fmaxF32 u d a b => some (u, d, a :: srcs9 b)
  | .fceqF32 u d a b => some (u, d, a :: srcs9 b)
  | .fcltF32 u d a b => some (u, d, a :: srcs9 b)
  | .fcleF32 u d a b => some (u, d, a :: srcs9 b)
  | .fsqrtF32 u d a => some (u, d, [a])
  | .faddF64 u d a b => some (u, d, a :: srcs9 b)
  | .fsubF64 u d a b => some (u, d, a :: srcs9 b)
  | .fmulF64 u d a b => some (u, d, a :: srcs9 b)
  | .fmaF64 u d a b => some (u, d, a :: srcs9 b)
  | .fdivF64 u d a b => some (u, d, a :: srcs9 b)
  | .fminF64 u d a b => some (u, d, a :: srcs9 b)
  | .fmaxF64 u d a b => some (u, d, a :: srcs9 b)
  | .fceqF64 u d a b => some (u, d, a :: srcs9 b)
  | .fcltF64 u d a b => some (u, d, a :: srcs9 b)
  | .fcleF64 u d a b => some (u, d, a :: srcs9 b)
  | .fsqrtF64 u d a => some (u, d, [a])
  | .fcvt u d a _ => some (u, d, [a])
  | _ => none

/-- Whether an operation may set floating-point flags: its opcode lies from FADD.f32 on (04 R117). -/
def isFloatOp : Instr → Bool
  | .faddF32 .. | .fsubF32 .. | .fmulF32 .. | .fmaF32 .. | .fdivF32 .. | .fminF32 .. | .fmaxF32 .. | .fceqF32 .. | .fcltF32 ..
  | .fcleF32 .. | .fsqrtF32 .. | .faddF64 .. | .fsubF64 .. | .fmulF64 .. | .fmaF64 .. | .fdivF64 .. | .fminF64 .. | .fmaxF64 ..
  | .fceqF64 .. | .fcltF64 .. | .fcleF64 .. | .fsqrtF64 .. | .fcvt .. => true
  | _ => false

/-- LEA and its scaled forms: destination, A, B, the shift of B (04 R119). -/
def leaForm : Instr → Option (Dst × Src × Src9 × Nat)
  | .lea d a b => some (d, a, b, 0)
  | .leah d a b => some (d, a, b, 1)
  | .leaw d a b => some (d, a, b, 2)
  | .lead d a b => some (d, a, b, 3)
  | _ => none

/-- A scalar load: destination, A, B, size in bytes, scale of B, whether the data is signed (04 R120). -/
def loadForm : Instr → Option (Dst × Src × Src9 × Nat × Nat × Bool)
  | .ldI8 d a b => some (d, a, b, 1, 1, true)
  | .ldN8 d a b => some (d, a, b, 1, 1, false)
  | .ldI16 d a b => some (d, a, b, 2, 1, true)
  | .ldN16 d a b => some (d, a, b, 2, 1, false)
  | .ldI32 d a b => some (d, a, b, 4, 1, true)
  | .ldN32 d a b => some (d, a, b, 4, 1, false)
  | .ld64 d a b => some (d, a, b, 8, 1, false)
  | .ldxI8 d a b => some (d, a, b, 1, 1, true)
  | .ldxN8 d a b => some (d, a, b, 1, 1, false)
  | .ldxI16 d a b => some (d, a, b, 2, 2, true)
  | .ldxN16 d a b => some (d, a, b, 2, 2, false)
  | .ldxI32 d a b => some (d, a, b, 4, 4, true)
  | .ldxN32 d a b => some (d, a, b, 4, 4, false)
  | .ldx64 d a b => some (d, a, b, 8, 8, false)
  | _ => none

/-- A scalar store: data, A, B, size in bytes, scale of B (04 R120). -/
def storeForm : Instr → Option (Src × Src × Src9 × Nat × Nat)
  | .st8 x a b => some (x, a, b, 1, 1)
  | .st16 x a b => some (x, a, b, 2, 1)
  | .st32 x a b => some (x, a, b, 4, 1)
  | .st64 x a b => some (x, a, b, 8, 1)
  | .stx8 x a b => some (x, a, b, 1, 1)
  | .stx16 x a b => some (x, a, b, 2, 2)
  | .stx32 x a b => some (x, a, b, 4, 4)
  | .stx64 x a b => some (x, a, b, 8, 8)
  | _ => none

/-- The sources of an operation of S1 to S3, or of CALLR, JR and RET, in the order in which they are read. -/
def readsOf (i : Instr) : Option (List Src) :=
  match aluOf i, leaForm i, loadForm i, storeForm i with
  | some (_, _, l), _, _, _ => some l
  | _, some (_, a, b, _), _, _ => some (a :: srcs9 b)
  | _, _, some (_, a, b, _, _, _), _ => some (a :: srcs9 b)
  | _, _, _, some (x, a, b, _, _) => some (x :: a :: srcs9 b)
  | _, _, _, _ =>
    match i with
    | .callr a => some [a]
    | .jr a => some [a]
    | .ret a => some [a]
    | _ => none

/-- What a source that cannot be read makes of its bundle (03 R69, 01 R22, 07 R208, 08 R235). -/
def stopped (s : State) : Src → State
  | .q n =>
    if s.inRegion && s.iss.slot != 0 then trapped s .regionIllegalOp 0
    else if (s.xp.stream n.toNat).isBound then { s with m := s.pre, iss := { s.iss with dead := true } }
    else trapped s .engStreamUnbound 0
  | _ => trapped s .illegalQueueUnderrun (slotNo s)

/-- The value that n loaded bytes give: little-endian, sign- or zero-extended (04 R120, 00 R4). -/
def loaded (sg : Bool) (bs : List Byte) : Word :=
  let v := natOfBytes bs
  if sg && decide (2 ^ (8 * bs.length) ≤ 2 * v) then BitVec.ofInt 64 ((v : Int) - 2 ^ (8 * bs.length)) else BitVec.ofNat 64 v

/-- The virtual address of a scalar access: a + b × scale modulo 2^64 (04 R120). -/
def accessVa (s : State) (a : Src) (b : Src9) (scale : Nat) : Nat := ((s.src a).toNat + (s.src9 b).toNat * scale) % 2 ^ 64

/-- What a context's access at a virtual address reaches (08 R214 to R217). -/
def reach (s : State) (va n : Nat) (rd wr : Bool) : Except Cause Target := s.pre.mapAccess s.iss.core s.iss.fw va n rd wr

/-- The fault that the memory side answers with: a cause, the virtual address, and what the violation log records (04 R123, 13 R316). -/
def memTrap (s : State) (va ia : Nat) (acc : Acc) (c : Cause) : Trp :=
  { cause := c, val := BitVec.ofNat 64 va, viol := some (s.pre.viol ia s.xp.asid acc c s.iss.core s.iss.fw) }

/-- The bundle waits for the answer of a home, a fault: nothing of it takes effect, and MEMORY_ACCESS_RESPONSE raises it (04 R123). -/
def answered (s : State) (t : Trp) : State :=
  { s with m := s.pre.updCtx s.iss.core s.iss.fw fun x => { x with resp := some t }, iss := { s.iss with dead := true, late := true } }

/-- The bundle waits for the memory side's answer, a fault: what the walk has set of A and D stays, and nothing else (04 R123, 13 R309). -/
def refusedAt (s : State) (va ia : Nat) (acc : Acc) (c : Cause) : State :=
  { s with m := (s.pre.translate s.xp.asid ia acc).1.updCtx s.iss.core s.iss.fw fun x => { x with resp := some (memTrap s va ia acc c) },
           iss := { s.iss with dead := true, late := true } }

/-- What a load's home answers: its bytes, or a fault (04 R123). -/
def homeGives (v : State) (ia n : Nat) (t : State) (r : Except Cause (List Byte)) : Prop :=
  ∃ m1, (∃ p, v.m.translate v.xp.asid ia .load = (m1, .ok p) ∧
      t = { v with m := (m1.cachedRead v.iss.core p n).1 } ∧ r = .ok (m1.cachedRead v.iss.core p n).2) ∨
    ∃ c, v.m.translate v.xp.asid ia .load = (m1, .error c) ∧ t = { v with m := m1 } ∧ r = .error c

/-- What a load from memory is answered: by its home where the scalar data cache holds no line of it or one that agrees; else the line
serves, or has been evicted, by a free choice (04 R123, 09 R241; log 7). -/
def loadGives (u : State) (ia n : Nat) (t : State) (r : Except Cause (List Byte)) : Prop :=
  match u.m.cacheHit u.iss.core u.xp.asid ia n with
  | none => homeGives u ia n t r
  | some line =>
    (homeGives u ia n t r ∧ r = .ok line) ∨
    ((∀ z, ¬homeGives u ia n z (.ok line)) ∧
      if Config.freeBool u.m.nonce then t = u.upd Mach.tickNonce ∧ r = .ok line else homeGives (u.upd Mach.tickNonce) ia n t r)

/-- Whether a byte of a stack belongs to a leaf that an access may touch: the one that the walk of its address reaches from the root or from
a cached table entry, or a cached one that covers it (13 R301, R309, R311). -/
def leafAt (m : Mach) (asid ia die o : Nat) : Prop :=
  ∃ lf : Leaf, lf.die = die ∧ lf.off ≤ o ∧ o < lf.off + 8 ∧
    (m.walk asid ia = .ok lf ∨ (∃ lvl, m.walkVia asid ia lvl = some (.ok lf)) ∨ ∃ e ∈ m.tlb, m.hits asid ia e = true ∧ lf = e.leafAt ia)

/-- A state that differs from another in the issuing context at most. -/
def onlyCtx (s t : State) : Prop :=
  t = { s with m := { s.m with cores := t.m.cores } } ∧ (∀ c, c ≠ s.iss.core → t.m.core c = s.m.core c) ∧
  t.kc = s.kc.setCtx s.iss.fw t.xc

/-- The loop stack after a transfer to an address (01 R15): entries leave until one's body holds the address. -/
def leave (t : Word) (l : List LoopEnt) : List LoopEnt :=
  l.dropWhile fun e => !(decide (e.start.toNat ≤ t.toNat) && decide (t.toNat ≤ e.last.toNat))

/-- The vector instructions that write v registers at once: the first register, how many, and the scalar sources (05 R133 to R147). -/
def vecDest : Instr → Option (Nat × Nat × List Src)
  | .vadd _ vd _ _ => some (vd.toNat, 1, [])
  | .vsub _ vd _ _ => some (vd.toNat, 1, [])
  | .vmul _ vd _ _ => some (vd.toNat, 1, [])
  | .vfma _ vd _ _ => some (vd.toNat, 1, [])
  | .vdiv _ vd _ _ => some (vd.toNat, 1, [])
  | .vmin _ vd _ _ => some (vd.toNat, 1, [])
  | .vmax _ vd _ _ => some (vd.toNat, 1, [])
  | .vadds _ vd _ _ => some (vd.toNat, 1, [])
  | .vsubs _ vd _ _ => some (vd.toNat, 1, [])
  | .vceq _ vd _ _ => some (vd.toNat, 1, [])
  | .vclt _ vd _ _ => some (vd.toNat, 1, [])
  | .vcle _ vd _ _ => some (vd.toNat, 1, [])
  | .vand vd _ _ => some (vd.toNat, 1, [])
  | .vor vd _ _ => some (vd.toNat, 1, [])
  | .vxor vd _ _ => some (vd.toNat, 1, [])
  | .vandn vd _ _ => some (vd.toNat, 1, [])
  | .vsel vd _ _ => some (vd.toNat, 1, [])
  | .vperm8 vd _ _ => some (vd.toNat, 1, [])
  | .vperm16 vd _ _ => some (vd.toNat, 1, [])
  | .vperm32 vd _ _ => some (vd.toNat, 1, [])
  | .vperm64 vd _ _ => some (vd.toNat, 1, [])
  | .vshl _ _ vd _ => some (vd.toNat, 1, [])
  | .vsrl _ _ vd _ => some (vd.toNat, 1, [])
  | .vsra _ _ vd _ => some (vd.toNat, 1, [])
  | .vtrans _ _ vd _ => some (vd.toNat, 1, [])
  | .vmov vd _ => some (vd.toNat, 1, [])
  | .vld _ vd a c => some (vd.toNat, 1, [a, c])
  | .vgather _ vd a _ => some (vd.toNat, 1, [a])
  | .vcvt _ _ _ vd _ => some (vd.toNat, 1, [])
  | .vcvtb _ _ vd _ => some (vd.toNat, 1, [])
  | .vabs _ vd _ => some (vd.toNat, 1, [])
  | .vneg _ vd _ => some (vd.toNat, 1, [])
  | .vexp2 _ vd _ => some (vd.toNat, 1, [])
  | .vlog2 _ vd _ => some (vd.toNat, 1, [])
  | .vrcp _ vd _ => some (vd.toNat, 1, [])
  | .vrsqrt _ vd _ => some (vd.toNat, 1, [])
  | .vscan _ _ vd _ => some (vd.toNat, 1, [])
  | .vscanx _ _ vd _ => some (vd.toNat, 1, [])
  | .vbcast _ vd a => some (vd.toNat, 1, [a])
  | .vqnt _ vd _ => some (vd.toNat, 2, [])
  | .vdqnt _ vd _ => some (vd.toNat, 1, [])
  | .vrand _ vd a => some (vd.toNat, 1, [a])
  | _ => none

/-! ## Determinants of exact coordinates (06 R170) -/

/-- A square. -/
def square (x : Int) : Int := x * x

/-- The determinant of three rows. -/
def rows3 (a b c d e f g h i : Int) : Int := a * (e * i - f * h) - b * (d * i - f * g) + c * (d * h - e * g)

/-- The determinant of four rows, each a difference of points with the square of its length behind it. -/
def rows4 (p q r s : List Int) : Int :=
  let at_ (l : List Int) (k : Nat) : Int := if k = 3 then square (l.getD 0 0) + square (l.getD 1 0) + square (l.getD 2 0) else l.getD k 0
  let minor (i j k : Nat) : Int :=
    rows3 (at_ q i) (at_ q j) (at_ q k) (at_ r i) (at_ r j) (at_ r k) (at_ s i) (at_ s j) (at_ s k)
  at_ p 0 * minor 1 2 3 - at_ p 1 * minor 0 2 3 + at_ p 2 * minor 0 1 3 - at_ p 3 * minor 0 1 2

/-! ## Synchronisation objects (07 R178 to R180) -/

/-- An object of n bytes at an address: aligned, in a range that allows the access, with its intermediate address and what it reaches. -/
def objOf (s : State) (va : Word) (n : Nat) (rd wr : Bool) (ia : Nat) (tg : Target) : Prop :=
  va.toNat % n = 0 ∧ mapVa s.xp.ranges va.toNat n rd wr false = some ia ∧ reach s va.toNat n rd wr = .ok tg

/-- An operation whose sources are consumed as in t reaches the home of its object: older stores of the sequencer are performed first (09 R244),
an object in a scratchpad has no uncorrectable data, one in memory lies in HBM (10 R259). -/
def homed (s t : State) (n : Nat) (acc : Acc) (tg : Target) (u : State) (p : Place) : Prop :=
  (∃ c off, t.spadOf tg = some (c, off) ∧ s.pre.badSpad c off n = false ∧
    u = (t.drained.markRemote tg).upd Mach.wakeObjs ∧ p = .spad c off) ∨
  (∃ ia m1 d o, t.spadOf tg = none ∧ tg = .mem ia ∧
    (t.drained.upd Mach.wakeObjs).m.translate s.xp.asid ia acc = (m1, .ok (.hbm d o)) ∧
    u = { t.drained.upd Mach.wakeObjs with m := m1 } ∧ p = .hbm d o)

/-- An operation performed at its object's home: its bytes are written, in the felt image too where the home is the scratchpad of a member
that has stopped (log 131), and D gets its value with the answer. -/
def performed (u : State) (p : Place) (new : List Byte) (d : Dst) (v : Word) : State :=
  (u.upd fun m => (m.cachedWrite u.iss.core p new).objFelt u.iss.fw p new).putLate .held d v 0

/-- An acquire of device scope drops the core's scalar data cache; an object in a scratchpad needs none (09 R241). -/
def acquired (u : State) (p : Place) : State :=
  match p with
  | .spad _ _ => u
  | _ => u.upd fun m => m.dropCache u.iss.core

/-- A trap with no trap value of its own that the home answers with. -/
def noted (c : Cause) (v : Word) : Trp := { cause := c, val := v, viol := none }

/-- An instruction raises a precise fault: nothing of its bundle takes effect. -/
def faults (s : State) (i : Instr) (c : Cause) (v : Word) : Prop :=
  ∃ t, exec i s = .next t ∧ t.m = (trapped s c v).m ∧ t.iss.dead = true

end Sys2Proof.Claims

open Sys2Proof Sys2Proof.Machine Sys2Proof.Claims

/-! # A. The whole machine -/

/-- The register values that the spec gives for reset: p0 reads 1 and the other p registers 0, the m registers and operand latches 0, result
queues and streams empty, the loop stack empty (01 R10), FFLAGS 0 (02 R46), level 0 with every park flag clear (14 R319), MXMODE
plus-times f32 f8p4 (06 R151), FWSHARE 8 (18 R368), the interleave tables 0xFEDCBA9876543210 (13 R304), LOG 4 of each work queue, OFF (12 R294),
DETBUF 4 (16 R347). -/
def Obligations.ResetValues : Prop :=
  ∀ (c : Nat) (fw : Bool),
    let x := State.reset.m.ctx c fw
    let k := State.reset.m.core c
    (∀ n, x.preg n = (n == 0)) ∧ (∀ n, k.m.get 0 n = 0) ∧ (∀ u l, x.latch u l = 0) ∧ (∀ u, x.rqOf u = []) ∧
    (∀ n, (x.stream n).isBound = false ∧ (x.stream n).fifo = []) ∧ x.loops = [] ∧ x.fflags = 0 ∧ x.level = 0 ∧
    x.park1 = false ∧ x.park2 = false ∧ x.region = none ∧ k.mx.mode = 0xA14 ∧ k.fwShare = 8 ∧ k.teamCfg = 0 ∧
    State.reset.m.routes.itab0 = 0xFEDCBA9876543210 ∧ State.reset.m.routes.itab1 = 0xFEDCBA9876543210 ∧
    (∀ q, (State.reset.m.wqAt q).state = 0 ∧ bits (State.reset.m.wqAt q).cfg.toNat 46 42 = 4) ∧
    (∀ q, (State.reset.m.sqAt q).state = 0) ∧ State.reset.m.detBuf = 4

/-- The state after reset is at rest and its memories are in canonical form. -/
def Obligations.ResetInvariant : Prop :=
  State.reset.atRest ∧ State.reset.m.memWf = true ∧ State.reset.m.pool.wf = true

/-- Words written out from the encoding tables of 03 decode to what they stand for: NOP; BC with N, p3 and -64 (the word of 04 R101); the LOOP,
ADD, SUB and SHL words of 03's worked program; the ADV of 04 R105; a p destination with an immediate; LD.64 and ST.8; VADD.f32; MXCLR of a
pair; GTIE; CPY; FENCE.sys; CSRR; and the first reserved control opcode is refused. -/
def Obligations.DecodeSamples : Prop :=
  decodeSlot false 5 0 0x00000000 = .ok .nop ∧
  decodeSlot false 5 0 0x067FFFC0 = .ok (.bc true 3 (-64)) ∧
  decodeSlot false 5 0 0x19040005 = .ok (.loop false (.imm 4) 5) ∧
  decodeSlot false 5 0 0x1C000642 =
    .ok (.adv { unit := 0, count := 2 } { unit := 3, count := 1 } { unit := 0, count := 0 } { unit := 0, count := 0 }) ∧
  decodeSlot false 9 1 0x00060380 = .ok (.add .alu0 (.s 3) (.s 1) .lit) ∧
  decodeSlot false 9 1 0x02080702 = .ok (.sub .alu0 (.s 4) (.s 3) (.imm 2)) ∧
  decodeSlot false 9 2 0x1A0A0303 = .ok (.shl .alu1 (.s 5) (.s 1) (.imm 3)) ∧
  decodeSlot false 5 2 (1#7 ++ 0x41#8 ++ 1#8 ++ 1#1 ++ 0xFF#8) = .ok (.sub .alu1 (.p 1) (.s 1) (.imm (-1))) ∧
  decodeSlot false 5 3 (0x0E#7 ++ 2#8 ++ 1#8 ++ 0#1 ++ 3#8) = .ok (.ld64 (.s 2) (.s 1) (.src (.s 3))) ∧
  decodeSlot false 5 3 (0x18#7 ++ 0x42#8 ++ 1#8 ++ 1#1 ++ 5#8) = .ok (.st8 (.p 2) (.s 1) (.imm 5)) ∧
  decodeSlot false 5 4 (0#4 ++ 0xA#4 ++ 200#8 ++ 7#8 ++ 8#8) = .ok (.vadd .f32 200 7 8) ∧
  decodeSlot false 5 5 (4#5 ++ 2#3 ++ 1#1 ++ 0#23) = .ok (.mxclr 2 true) ∧
  decodeSlot false 5 5 (0x15#5 ++ 0#11 ++ 9#8 ++ 0#8) = .ok (.gtie (.s 9)) ∧
  decodeSlot false 5 6 (0#6 ++ 0#2 ++ 0x8F#8 ++ 16#8 ++ 0x8E#8) = .ok (.cpy .discard 2) ∧
  decodeSlot false 5 6 (0x17#6 ++ 3#2 ++ 0x8F#8 ++ 2#8 ++ 1#8) = .ok (.fence .system 2 1) ∧
  decodeSlot false 5 6 (0x20#6 ++ 0#2 ++ 0x80#8 ++ 0#4 ++ 0x060#12) = .ok (.csrr (.m 0) 0x060) ∧
  decodeSlot false 5 0 0x38000000 = .error .illegalOpcode

/-- Decoding and encoding agree: the word of a well-formed instruction, with every operand at every value that the encoding admits, decodes to
the instruction. -/
def Obligations.DecodeEncode : Prop :=
  ∀ (i : Instr) (c : Coded), i.wf = true → encode i = some c → decodeCoded c = .ok i

/-- No bit of an accepted word is dropped: what a slot word or a microword decodes to is well-formed, and its encoding is the word. -/
def Obligations.EncodeDecode : Prop :=
  (∀ (slot : Nat) (w : BitVec 32) (i : Instr), decodeSlot true 5 slot w = .ok i → i.wf = true ∧ encode i = some (.slot slot w)) ∧
  (∀ (w : BitVec 64) (i : Instr), decodeMicro w = .ok i → i.wf = true ∧ encode i = some (.micro w))

/-- A step runs the decoded instruction. Where the arbiter gives the cycle to the context that the agenda names and it receives no fault, a bundle
of one slot at its pc is decoded and the step is the meaning of that instruction, after which the bundle retires; a move that is an event runs its meaning; so does
the next microword of an open routine. -/
def Obligations.StepRunsDecoded : Prop :=
  (∀ (s : State) (c : Nat) (fw : Bool) (rest : List Move) (m1 : Mach) (line : List Byte) (sl : Slot) (lit : BitVec 32),
    let s0 : State := { s.fresh with agenda := rest }
    let m := s.m.settleFences c fw
    let pc := (m1.ctx c fw).pc
    let h := line.getD (pc.toNat % 64) 0
    let ws := lineWords line (pc.toNat % 64)
    let b := State.begin { s0 with m := m1 } c fw (bundleLen h) lit
    s.agenda = .issue c fw :: rest → c < 384 → (!fw && m.teamDoomed c) = false → m.haltAsked c fw = false →
    m.arbiter c = some fw → m.deliverAbsent c fw = none → m.fetchLine c fw (m.ctx c fw).pc = (m1, .ok line) → h ≠ 0 →
    m1.mustFreeze c ws = false → m1.deliver c fw ws = none →
    checkBundle fw (pc.toNat % 64) h (line.drop (pc.toNat % 64 + 1)) = .ok ([sl], lit) → b.step5 [sl] = none →
    b.streamsInRegion [sl] = none →
    decodeSlot fw (bundleLen h) sl.n sl.w = .ok sl.i ∧
    step s = settled (State.finish ws (exec sl.i (b.onSlot sl))) ∧
    (b.onSlot sl).iss.core = c ∧ (b.onSlot sl).iss.fw = fw ∧ (b.onSlot sl).iss.addr = pc ∧
    (b.onSlot sl).iss.next = pc + BitVec.ofNat 64 (bundleLen h) ∧ (b.onSlot sl).pre = m1 ∧ (b.onSlot sl).m = m1) ∧
  (∀ (s : State) (i : Instr) (rest : List Move), s.agenda = .event i :: rest → isEvent i = true →
    step s = settled (exec i { s.fresh with agenda := rest })) ∧
  (∀ (s : State) (c : Nat) (rest : List Move) (w : Word) (i : Instr), s.agenda = .micro c :: rest → c < 384 →
    (s.m.core c).microword = some w → decodeMicro w = .ok i →
    step s = settled (exec i { s.fresh with agenda := rest, iss := { Issue.idle with core := c } }))

/-- The model refuses nothing: no instruction of the table and no step of the machine is refused. -/
def Obligations.NeverRefuses : Prop :=
  (∀ (i : Instr) (s : State) (r : Refusal), exec i s ≠ .refused r) ∧ ∀ (s : State) (r : Refusal), step s ≠ .refused r

/-- Every step leaves the machine at rest: nothing is in issue, and the next bundle reads its sources from the machine as it stands
(01 R12, R17: a bundle issues whole). -/
def Obligations.StepAtRest : Prop := ∀ s t : State, step s = .next t → t.atRest

/-! # B. Operands -/

/-- What a source field reads (03 R68 to R70, 01 R13, R20): the registers, the stream's oldest element, or the one that
its bundle took when it began to wait, the entry k places after the head of
the unit's queue, the index of loop entry n or 0 where the stack is lower, and zero; an immediate and the literal are sign-extended. What a result leaves in its destination (03 R68, 01 R10, R21): an s or m register takes 64 bits, a p register bit 0, p0 and discard
nothing, a handle appends to the unit's queue; a latch is written later, once every source has been read. Everything else stays. -/
def Obligations.OperandForms : Prop :=
  (∀ s : State,
      (∀ n, s.src (.s n) = s.xp.s.get 0 n.toNat) ∧
      (∀ n, s.src (.p n) = if n = 0 ∨ s.xp.p.getLsbD n.toNat then 1 else 0) ∧
      (∀ n e r, s.xp.keptElem n.toNat = none → (s.xp.stream n.toNat).fifo = e :: r →
        s.src (.q n) = e ∧ ((s.take1 (.q n)).xc.stream n.toNat).fifo = r ∧
        ∀ j : BitVec 4, j ≠ n → (s.take1 (.q n)).xc.stream j.toNat = s.xc.stream j.toNat) ∧
      (∀ n v, s.xp.keptElem n.toNat = some v → s.src (.q n) = v ∧ s.take1 (.q n) = s) ∧
      (∀ u k v, (s.xp.rqOf u.val)[k.toNat]? = some v → s.src (.handle u k) = v ∧ s.take1 (.handle u k) = s) ∧
      (∀ n, s.src (.m n) = s.kp.m.get 0 n.toNat) ∧
      (∀ n e, s.xp.loops[n.val]? = some e → s.src (.li n) = e.index.setWidth 64) ∧
      (∀ n, s.xp.loops.length ≤ n.val → s.src (.li n) = 0) ∧
      s.src .zero = 0 ∧
      (∀ u l, s.src (.latch u l) = s.xp.latch u.val l) ∧
      (∀ a, s.src9 (.src a) = s.src a) ∧ (∀ i, (s.src9 (.imm i)).toInt = i.toInt) ∧ (s.src9 .lit).toInt = s.iss.lit.toInt) ∧
  (∀ (s : State) (v : Word),
      (∀ n, (s.put (.s n) v).xc = s.xc.setS n.toNat v ∧ (s.put (.s n) v).xc.sreg n.toNat = v) ∧
      (∀ n : BitVec 4, n ≠ 0 → (s.put (.p n) v).xc = { s.xc with p := (s.put (.p n) v).xc.p } ∧
        ∀ j, j < 16 → (s.put (.p n) v).xc.preg j = if j = n.toNat then v.getLsbD 0 else s.xc.preg j) ∧
      (s.put (.p 0) v).xc = s.xc ∧ s.put .discard v = s ∧
      (∀ u, (s.put (.handle u) v).xc.rqOf u.val = s.xc.rqOf u.val ++ [v] ∧
        ∀ j, j ≠ u.val → (s.put (.handle u) v).xc.rqOf j = s.xc.rqOf j) ∧
      (∀ n, (s.put (.m n) v).kc = { s.kc with m := s.kc.m.put n.toNat v }) ∧
      (∀ u l, s.put (.latch u l) v = s.putLate .scalar (.latch u l) v 0) ∧
      (∀ d c, c ≠ s.iss.core → (s.put d v).m.core c = s.m.core c) ∧
      (∀ d, (s.put d v).kc.ctx (!s.iss.fw) = s.kc.ctx (!s.iss.fw)) ∧
      (∀ d, (s.put d v).m = { s.m with cores := (s.put d v).m.cores }))

/-- The bundle that a source keeps from its effect (03 R69, 01 R22, 07 R208, 08 R235): an empty stream makes it wait, an unbound one raises
ENG_STREAM_UNBOUND, a stream named by S1 to S6 inside a region REGION_ILLEGAL_OP, an entry beyond the queue ILLEGAL_QUEUE_UNDERRUN; the first
such source decides, and nothing is consumed. For every operation of S1 to S3 and CALLR, JR and RET. -/
def Obligations.SourceStops : Prop :=
  ∀ (i : Instr) (s : State) (l before rest : List Src) (a : Src),
    readsOf i = some l → l = before ++ a :: rest → readableAll s before = true → readable s a = false →
    exec i s = .next (stopped s a)

/-! # C. The scalar slots S1 and S2 -/

/-- Integer arithmetic, logic and shifts (04 R112): each result modulo 2^64, a shift count from b[5:0]; sources are consumed and latched, and
the result is written. Nothing else changes. Minimum, maximum, comparisons and conditional moves (04 R112, R115): comparisons give 1 or 0; a conditional move keeps the old value of
D, read at issue, where its condition does not hold. -/
def Obligations.IntegerOps : Prop :=
  (∀ (s : State) (u : Alu) (d : Dst) (a : Src) (b : Src9), readableAll s (a :: srcs9 b) = true →
      let x := (s.src a).toNat
      let y := (s.src9 b).toNat
      let n := y % 64
      let ok (i : Alu → Dst → Src → Src9 → Instr) (v : Nat) : Prop :=
        exec (i u d a b) s = .next (aluNext s u d a b (BitVec.ofNat 64 v))
      ok .add (x + y) ∧ ok .sub (x + 2 ^ 64 - y) ∧ ok .and (x &&& y) ∧ ok .or (x ||| y) ∧ ok .xor (x ^^^ y) ∧
      ok .andn (x &&& (2 ^ 64 - 1 - y)) ∧ ok .shl (x * 2 ^ n) ∧ ok .shr (x / 2 ^ n) ∧
      exec (.sra u d a b) s = .next (aluNext s u d a b (BitVec.ofInt 64 ((s.src a).toInt / 2 ^ n))) ∧
      ok .rol (x * 2 ^ n + x / 2 ^ (64 - n)) ∧ ok .ror (x / 2 ^ n + x * 2 ^ (64 - n)) ∧
      ok .lih (y % 2 ^ 32 * 2 ^ 32 + x % 2 ^ 32)) ∧
  (∀ (s : State) (u : Alu) (d : Dst) (a : Src) (b : Src9), readableAll s (a :: srcs9 b) = true →
      let x := s.src a
      let y := s.src9 b
      let ok (i : Alu → Dst → Src → Src9 → Instr) (v : Word) : Prop := exec (i u d a b) s = .next (aluNext s u d a b v)
      let truth (i : Alu → Dst → Src → Src9 → Instr) (p : Prop) : Prop := (p → ok i 1) ∧ (¬p → ok i 0)
      ok .min (BitVec.ofInt 64 (min x.toInt y.toInt)) ∧ ok .max (BitVec.ofInt 64 (max x.toInt y.toInt)) ∧
      ok .minu (BitVec.ofNat 64 (min x.toNat y.toNat)) ∧ ok .maxu (BitVec.ofNat 64 (max x.toNat y.toNat)) ∧
      truth .ceq (x = y) ∧ truth .cne (x ≠ y) ∧ truth .clt (x.toInt < y.toInt) ∧ truth .cltu (x.toNat < y.toNat) ∧
      truth .cle (x.toInt ≤ y.toInt) ∧ truth .cleu (x.toNat ≤ y.toNat) ∧
      (x ≠ 0 → ok .cmov y) ∧ (x = 0 → ok .cmov (s.dstOld d)) ∧ (x = 0 → ok .cmovz y) ∧ (x ≠ 0 → ok .cmovz (s.dstOld d)) ∧
      (∀ n, s.dstOld (.s n) = s.xp.sreg n.toNat) ∧ (∀ n, s.dstOld (.m n) = s.kp.m.get 0 n.toNat) ∧
      (∀ n, s.dstOld (.p n) = if s.xp.preg n.toNat then 1 else 0))

/-- Bit fields and counts (04 R112, R114): position b[5:0], length b[12:6] (or b[6:0] for the extensions) with 0 and anything above 64 meaning
64; leading zeros, trailing zeros and set bits. -/
def Obligations.BitFields : Prop :=
  ∀ (s : State) (u : Alu) (d : Dst) (a : Src) (b : Src9),
    let x := s.src a
    let y := (s.src9 b).toNat
    let pos := y % 64
    let len := if y / 64 % 128 = 0 ∨ 64 < y / 64 % 128 then 64 else y / 64 % 128
    let ext := if y % 128 = 0 ∨ 64 < y % 128 then 64 else y % 128
    let sext (n v : Nat) : Int := if 2 * (v % 2 ^ n) < 2 ^ n then (v % 2 ^ n : Nat) else (v % 2 ^ n : Nat) - 2 ^ n
    let ok (i : Alu → Dst → Src → Src9 → Instr) (v : Word) : Prop := exec (i u d a b) s = .next (aluNext s u d a b v)
    let ok1 (i : Alu → Dst → Src → Instr) (v : Word) : Prop := exec (i u d a) s = .next (aluNext1 s u d a v)
    (readableAll s (a :: srcs9 b) = true →
      ok .bextu (BitVec.ofNat 64 (x.toNat / 2 ^ pos % 2 ^ len)) ∧ ok .bext (BitVec.ofInt 64 (sext len (x.toNat / 2 ^ pos))) ∧
      ok .zext (BitVec.ofNat 64 (x.toNat % 2 ^ ext)) ∧ ok .sext (BitVec.ofInt 64 (sext ext x.toNat)) ∧
      ∃ v : Word, ok .bins v ∧ ∀ j, j < 64 →
        v.getLsbD j = if pos ≤ j ∧ j < pos + len then x.getLsbD (j - pos) else (s.dstOld d).getLsbD j) ∧
    (readable s a = true →
      (∃ k, k ≤ 64 ∧ ok1 .clz (BitVec.ofNat 64 k) ∧ (∀ j, 64 - k ≤ j → x.getLsbD j = false) ∧ (k < 64 → x.getLsbD (63 - k) = true)) ∧
      (∃ k, k ≤ 64 ∧ ok1 .ctz (BitVec.ofNat 64 k) ∧ (∀ j, j < k → x.getLsbD j = false) ∧ (k < 64 → x.getLsbD k = true)) ∧
      ok1 .popc (BitVec.ofNat 64 ((List.range 64).countP fun j => x.getLsbD j)))

/-- Products (04 R112): the low or the high 64 bits, pending until SCALAR_RESULT_WRITE. Division (04 R113): a divisor 0 raises ARITH_DIV_ZERO at the bundle, with the slot number and the slot word as trap value, and no slot
takes effect; else quotient and remainder truncate toward zero, the single overflow case giving -2^63 and 0. -/
def Obligations.ProductsAndDivision : Prop :=
  (∀ (s : State) (u : Alu) (d : Dst) (a : Src) (b : Src9), readableAll s (a :: srcs9 b) = true →
      let x := s.src a
      let y := s.src9 b
      exec (.mul u d a b) s = .next (aluLater s u d a b (BitVec.ofNat 64 (x.toNat * y.toNat)) 0) ∧
      exec (.mulh u d a b) s = .next (aluLater s u d a b (BitVec.ofInt 64 (x.toInt * y.toInt / 2 ^ 64)) 0) ∧
      exec (.mulhu u d a b) s = .next (aluLater s u d a b (BitVec.ofNat 64 (x.toNat * y.toNat / 2 ^ 64)) 0)) ∧
  (∀ (s : State) (u : Alu) (d : Dst) (a : Src) (b : Src9), readableAll s (a :: srcs9 b) = true →
      let x := s.src a
      let y := s.src9 b
      let at0 (i : Alu → Dst → Src → Src9 → Instr) : Prop := exec (i u d a b) s = .next (trapped s .arithDivZero (slotNo s))
      (y = 0 → at0 .div ∧ at0 .divu ∧ at0 .rem ∧ at0 .remu) ∧
      (y ≠ 0 →
        exec (.divu u d a b) s = .next (aluLater s u d a b (BitVec.ofNat 64 (x.toNat / y.toNat)) 0) ∧
        exec (.remu u d a b) s = .next (aluLater s u d a b (BitVec.ofNat 64 (x.toNat - x.toNat / y.toNat * y.toNat)) 0) ∧
        exec (.div u d a b) s = .next (aluLater s u d a b (BitVec.ofInt 64 (x.toInt.tdiv y.toInt)) 0) ∧
        exec (.rem u d a b) s = .next (aluLater s u d a b (BitVec.ofInt 64 (x.toInt - x.toInt.tdiv y.toInt * y.toInt)) 0)))

/-- Scalar floating point (04 R116 to R118): each operation gives the value and the flags that 02 R38 gives for the exact values of its
operands, an immediate being its integer and the literal an f32 pattern; sums, products, quotients and roots are pending with their flags,
minimum, maximum and compares are written and their flags ORed into FFLAGS at once. -/
def Obligations.ScalarFloat : Prop :=
  ∀ (s : State) (w : Bool) (u : Alu) (d : Dst) (a : Src) (b : Src9),
    let F := if w then flt64 else flt32
    let pick (i j : Alu → Dst → Src → Src9 → Instr) : Instr := if w then j u d a b else i u d a b
    let x := F.num (s.src a).toNat
    let y := match b with
      | .src c => F.num (s.src c).toNat
      | .imm i => Machine.Num.fin (decide (i.toInt < 0)) i.toInt.natAbs 0
      | .lit => flt32.num s.iss.lit.toNat
    let later (i : Instr) (r : FR) : Prop := exec i s = .next (aluLater s u d a b (BitVec.ofNat 64 r.val) r.fl)
    let now (i : Instr) (r : FR) : Prop :=
      exec i s = .next ((aluNext s u d a b (BitVec.ofNat 64 r.val)).upd fun m => m.orFlags s.iss.core s.iss.fw r.fl)
    (readableAll s (a :: srcs9 b) = true →
      later (pick .faddF32 .faddF64) (F.addN false x y) ∧ later (pick .fsubF32 .fsubF64) (F.addN false x y.negate) ∧
      later (pick .fmulF32 .fmulF64) (F.mulN false x y) ∧ later (pick .fdivF32 .fdivF64) (F.divN false x y) ∧
      later (pick .fmaF32 .fmaF64) (F.fmaN false x y (F.num (s.dstOld d).toNat)) ∧
      now (pick .fminF32 .fminF64) (F.minMaxN false false x y) ∧ now (pick .fmaxF32 .fmaxF64) (F.minMaxN false true x y) ∧
      now (pick .fceqF32 .fceqF64) (cmpN 0 x y) ∧ now (pick .fcltF32 .fcltF64) (cmpN 1 x y) ∧
      now (pick .fcleF32 .fcleF64) (cmpN 2 x y)) ∧
    (readable s a = true →
      let t := (reads s [a]).latch u.unit.val false (s.src a)
      exec (if w then .fsqrtF64 u d a else .fsqrtF32 u d a) s =
        .next (t.putLate .scalar d (BitVec.ofNat 64 (F.sqrtN false x).val) (F.sqrtN false x).fl) ∧
      ∀ sel : CvtSel,
        let r := fmtConv (vtFmt (fcvtTypes sel.val).1) (vtFmt (fcvtTypes sel.val).2) false (decide (8 ≤ sel.val ∧ sel.val ≤ 11))
          ((s.src a).toNat % 2 ^ (8 * (fcvtTypes sel.val).1.bytes))
        exec (.fcvt u d a sel) s =
          .next ((t.latch u.unit.val true (BitVec.ofNat 64 sel.val)).putLate .scalar d (BitVec.ofNat 64 r.val) r.fl))

/-- The frame of S1 and S2. An operation that issues changes nothing of the device but its core, and of its core nothing but its context, the
streams it reads and the m register it names; of its context nothing but its destination, its unit's latches, its pending results and
FFLAGS; every byte of memory reads as before. One that does not issue leaves the machine as it was, or takes a trap of its bundle. -/
def Obligations.FrameScalar : Prop :=
  ∀ (i : Instr) (u : Alu) (d : Dst) (l : List Src) (s t : State), aluOf i = some (u, d, l) → s.iss.dead = false → exec i s = .next t →
    t.pre = s.pre ∧ t.agenda = s.agenda ∧ t.cur = s.cur ∧
    if t.iss.dead then t.m = s.pre ∨ ∃ c v, t = trapped s c v
    else
      t.iss = s.iss ∧ t.m = { s.m with cores := t.m.cores } ∧ (∀ c, c ≠ s.iss.core → t.m.core c = s.m.core c) ∧
      t.kc.ctx (!s.iss.fw) = s.kc.ctx (!s.iss.fw) ∧
      t.kc = { s.kc with c0 := t.kc.c0, c1 := t.kc.c1, m := t.kc.m } ∧
      (∀ n : BitVec 4, .q n ∉ l → t.xc.stream n.toNat = s.xc.stream n.toNat) ∧
      (∀ n : BitVec 3, d ≠ .m n → t.kc.m.get 0 n.toNat = s.kc.m.get 0 n.toNat) ∧
      t.xc = { s.xc with s := t.xc.s, p := t.xc.p, rq := t.xc.rq, lat := t.xc.lat, q := t.xc.q, pend := t.xc.pend,
                         fflags := t.xc.fflags } ∧
      (∀ n : BitVec 6, d ≠ .s n → t.xc.sreg n.toNat = s.xc.sreg n.toNat) ∧
      (∀ n : BitVec 4, d ≠ .p n → t.xc.preg n.toNat = s.xc.preg n.toNat) ∧
      (∀ v : Fin 7, d ≠ .handle v → t.xc.rqOf v.val = s.xc.rqOf v.val) ∧
      (∀ (v : Fin 6) (b : Bool), v.val ≠ u.unit.val → t.xc.latch v.val b = s.xc.latch v.val b) ∧
      (t.xc.pend = s.xc.pend ∨ ∃ v f, t.xc.pend = s.xc.pend ++ [{ kind := .scalar, dst := d, val := v, flags := f, err := none }]) ∧
      (∃ f, t.xc.fflags = s.xc.fflags ||| f) ∧ (isFloatOp i = false → t.xc.fflags = s.xc.fflags) ∧
      ∀ p : Place, (t.m.readPlace p 1).2 = (s.m.readPlace p 1).2

/-! # D. The address slot S3 -/

/-- LEA, LEAH, LEAW and LEAD write a + (b << n) modulo 2^64 at issue and access no memory: nothing but the issuing core changes, and every
byte of memory reads as before. D may be any destination that is legal for agu. -/
def Obligations.AddressArithmetic : Prop :=
  ∀ (i : Instr) (d : Dst) (a : Src) (b : Src9) (n : Nat), leaForm i = some (d, a, b, n) →
    i.wf = (d.okFor uAGU && b.ok) ∧
    ∀ s : State, readableAll s (a :: srcs9 b) = true →
      let t := (aguRead s [] a b).put d (BitVec.ofNat 64 ((s.src a).toNat + (s.src9 b).toNat * 2 ^ n))
      exec i s = .next t ∧ t.m = { s.m with cores := t.m.cores } ∧ (∀ c, c ≠ s.iss.core → t.m.core c = s.m.core c) ∧
      t.kc.spad = s.kc.spad ∧ ∀ p : Place, (t.m.readPlace p 1).2 = (s.m.readPlace p 1).2

/-- A scalar load from a scratchpad (04 R120, R122, R125): the aligned bytes, extended, are pending in D, at LAT_LD from the own scratchpad and
until LOAD_DATA_RETURN through the team window; where an older store of the sequencer to these bytes is still queued, the queue is performed
first. -/
def Obligations.LoadScratchpad : Prop :=
  ∀ (i : Instr) (d : Dst) (a : Src) (b : Src9) (n sc : Nat) (sg : Bool) (s : State),
    loadForm i = some (d, a, b, n, sc, sg) → readableAll s (a :: srcs9 b) = true → accessVa s a b sc % n = 0 →
    let u := aguRead s [] a b
    let seen (v : State) (c off : Nat) : State :=
      if v.xc.storeq.any (fun e => e.hits c off n) then v.upd fun m => m.drainStores s.iss.core s.iss.fw else v
    let bytes (v : State) (c off : Nat) : List Byte := ((seen v c off).m.core c).spad.read off n
    (∀ off, reach s (accessVa s a b sc) n true false = .ok (.own off) → s.pre.badSpad s.iss.core off n = false →
      exec i s = .next ((seen u s.iss.core off).putLate .scalar d (loaded sg (bytes u s.iss.core off)) 0)) ∧
    (∀ j off c o, reach s (accessVa s a b sc) n true false = .ok (.team j off) →
      s.spadOf (.team j off) = some (c, o) → s.pre.badSpad c o n = false →
      let v := if j = s.kp.member then u else u.updX fun x => { x with remoteSince := true }
      exec i s = .next ((seen v c o).putLate .load d (loaded sg (bytes v c o)) 0))

/-- A scalar load from memory (04 R123 to R125): outside a region its bundle is held until the memory side has answered, with the data or with
a fault that is raised at the bundle; inside a region it is pending, and sees the region's own stores. The stores of the sequencer's own
regions whose commits have not performed them yet come first. -/
def Obligations.LoadMemory : Prop :=
  ∀ (i : Instr) (d : Dst) (a : Src) (b : Src9) (n sc ia : Nat) (sg : Bool) (s : State),
    loadForm i = some (d, a, b, n, sc, sg) → readableAll s (a :: srcs9 b) = true → accessVa s a b sc % n = 0 →
    reach s (accessVa s a b sc) n true false = .ok (.mem ia) →
    let u := aguRead s [] a b
    (∀ t bs, loadGives u ia n t (.ok bs) →
      let own := u.m.ownBytes s.owner ia bs
      (s.inRegion = false → exec i s = .next (t.putLate .held d (loaded sg own) 0)) ∧
      (∀ r, s.inRegion = true → s.xp.region = some r → exec i s = .next (t.putLate .load d (loaded sg (r.overlay ia own)) 0))) ∧
    ∀ t c, loadGives u ia n t (.error c) →
      (s.inRegion = false → exec i s = .next (refusedAt u (accessVa s a b sc) ia .load c)) ∧
      (s.inRegion = true → exec i s = .next (t.updX fun x => { x with pend := x.pend ++
        [{ kind := .load, dst := .discard, val := BitVec.ofNat 64 ia, flags := 0,
           err := some (memTrap s (accessVa s a b sc) ia .load c) }] }))

/-- A scalar store (04 R120 to R124, 09 R242 to R244): the low bytes of the data enter the store queue for a scratchpad, with the core and
offset that the address names; to memory they are written at the home that the address translates to, after the older stores of the
sequencer, and the bundle is held; a store to a peer sends its WRITE frame, and its bundle issues once the frame is answered; inside a region
they are buffered in the declared granule and written to the slot of TASKREN that renames it, and an undeclared one aborts the region. -/
def Obligations.StoreAccess : Prop :=
  ∀ (i : Instr) (x a : Src) (b : Src9) (n sc : Nat) (s : State),
    storeForm i = some (x, a, b, n, sc) → readableAll s (x :: a :: srcs9 b) = true → accessVa s a b sc % n = 0 →
    let va := accessVa s a b sc
    let u := aguRead s [x] a b
    let z := u.drained
    let bs := bytesOfNat n (s.src x).toNat
    (∀ off, reach s va n false true = .ok (.own off) → exec i s = .next (u.queueStore s.iss.core off bs)) ∧
    (∀ j off c o, reach s va n false true = .ok (.team j off) → s.spadOf (.team j off) = some (c, o) →
      exec i s = .next (if j = s.kp.member then u.queueStore c o bs
        else (u.queueStore c o bs).updX fun y => { y with remoteSince := true })) ∧
    (∀ ia, reach s va n false true = .ok (.mem ia) →
      (∀ m1 p, s.inRegion = false → z.m.translate s.xp.asid ia .store = (m1, .ok p) → (∀ k o, p ≠ .peer k o) →
        exec i s =
          .next (({ z with m := (m1.cachedWrite s.iss.core p bs).supersede s.owner ia n } : State).putLate .held .discard 0 0)) ∧
      (∀ m1 k o, s.inRegion = false → z.m.translate s.xp.asid ia .store = (m1, .ok (.peer k o)) →
        (s.xp.peerSt = none → ∃ m2, ((s.pre.drainStores s.iss.core s.iss.fw).translate s.xp.asid ia .store).1 = m2 ∧
          exec i s = .next { u with
            m := (m2.peerRow k o bs (.scalar s.owner (BitVec.ofNat 64 va))).updCtx s.iss.core s.iss.fw fun y =>
              { y with peerSt := some (some (m2.nextTag % 65536)) },
            iss := { s.iss with dead := true } }) ∧
        (∀ tag, s.xp.peerSt = some (some tag) → exec i s = .next u.stall) ∧
        (s.xp.peerSt = some none → exec i s = .next ((u.updX fun y => { y with peerSt := none }).putLate .held .discard 0 0))) ∧
      (∀ m1 c, s.inRegion = false → z.m.translate s.xp.asid ia .store = (m1, .error c) →
        exec i s = .next (refusedAt u va ia .store c)) ∧
      (∀ r j m1 die off, s.inRegion = true → s.xp.region = some r → r.slotOf ia = some j →
        u.m.translate s.xp.asid ia .store = (m1, .ok (.hbm die off)) →
        exec i s = .next ((u.updX fun y => { y with region := y.region.map fun r => r.store j ia bs }).upd fun m =>
          m.fwWrite (r.ren + 4096 * j + ia % 4096) bs)) ∧
      ∀ r, s.inRegion = true → s.xp.region = some r → r.slotOf ia = none →
        exec i s = .next { u with
          m := u.pre.abortRegion s.iss.core s.iss.fw { cause := .taskUndeclaredWrite, val := BitVec.ofNat 64 va, viol := none } ia,
          iss := { u.iss with dead := true, late := true } })

/-- The checks of a scalar access, in order (04 R121): ALIGN_SCALAR, then the fault of the range registers or the team window; both are precise
at the bundle with the virtual address as trap value, nothing of the bundle takes effect, and no stream element is consumed. A range that
lacks the permission, or none, gives MEM_RANGE. -/
def Obligations.AccessFaults : Prop :=
  (∀ (i : Instr) (s : State) (l : List Src) (va n : Nat) (wr : Bool),
    ((∃ d a b sc sg, loadForm i = some (d, a, b, n, sc, sg) ∧ l = a :: srcs9 b ∧ va = accessVa s a b sc ∧ wr = false) ∨
     (∃ x a b sc, storeForm i = some (x, a, b, n, sc) ∧ l = x :: a :: srcs9 b ∧ va = accessVa s a b sc ∧ wr = true)) →
    readableAll s l = true →
    (va % n ≠ 0 → ∃ t, exec i s = .next t ∧ t.m = (trapped s .alignScalar (BitVec.ofNat 64 va)).m ∧ t.iss.dead = true) ∧
    (va % n = 0 → ∀ c, reach s va n (!wr) wr = .error c →
      ∃ t, exec i s = .next t ∧ t.m = (trapped s c (BitVec.ofNat 64 va)).m ∧ t.iss.dead = true)) ∧
  (∀ (s : State) (va n : Nat) (rd wr : Bool),
    (covering s.xp.ranges va n = none → reach s va n rd wr = .error .memRange) ∧
    (∀ k, covering s.xp.ranges va n = some k → rangeAllows s.xp.ranges k rd wr false = false →
      reach s va n rd wr = .error .memRange) ∧
    (∀ k, covering s.xp.ranges va n = some k → rangeAllows s.xp.ranges k rd wr false = true →
      iaTarget (rangeIa s.xp.ranges k va) = .mem (rangeIa s.xp.ranges k va) →
      reach s va n rd wr = .ok (.mem (rangeIa s.xp.ranges k va))))

/-- Results that come later (01 R18, R27, 04 R122 to R124, 09 R243): SCALAR_RESULT_WRITE, LOAD_DATA_RETURN and MEMORY_ACCESS_RESPONSE write the
oldest pending result of their kind, a fault that the memory side answered with is logged and raised at the bundle, and STORE_PERFORMED
writes the bytes at the head of the store queue, and sends them to the felt image too where their core's member has stopped for a switch. -/
def Obligations.PendingResults : Prop :=
  ∀ (s : State) (c : Nat) (fw : Bool), c < 384 →
    let x := s.m.ctx c fw
    let written (before rest : List Pend) (p : Pend) : State :=
      s.upd fun m => ((m.updCtx c fw fun y => { y with pend := before ++ rest }).putDst c fw p.dst p.val).orFlags c fw p.flags
    let logged (t : Trp) : Mach := match t.viol with | some v => s.m.logViol v | none => s.m
    (∀ before p rest, x.pend = before ++ p :: rest →
      ((∀ y ∈ before, y.kind ≠ .scalar) → p.kind = .scalar → exec (.scalarResultWrite c fw) s = .next (written before rest p)) ∧
      ((∀ y ∈ before, y.kind ≠ .load) → p.kind = .load →
        (p.err = none → exec (.loadDataReturn c fw) s = .next (written before rest p)) ∧
        ∀ t, p.err = some t →
          exec (.loadDataReturn c fw) s = .next { s with m := (logged t).abortRegion c fw t p.val.toNat }) ∧
      ((∀ y ∈ before, y.kind ≠ .held) → p.kind = .held → x.resp = none →
        exec (.memoryAccessResponse c fw) s = .next (written before rest p))) ∧
    (∀ t, x.resp = some t →
      exec (.memoryAccessResponse c fw) s = .next { s with m := (logged t).takeTrap c fw 0 t.cause.code x.pc t.val }) ∧
    (∀ e r, x.storeq = e :: r →
      let m1 := (s.m.updCtx c fw fun y => { y with storeq := r }).spadWrite e.core e.off e.data
      let away := fw = false ∧ (m1.core e.core).closed = true ∧ (m1.core e.core).c0.run = .switching
      (¬away → exec (.storePerformed c fw) s = .next { s with m := m1 }) ∧
      (away → exec (.storePerformed c fw) s = .next { s with m := m1.arriveBytes 0 e.core (m1.core e.core).epoch e.off e.data })) ∧
    (x.storeq = [] → exec (.storePerformed c fw) s = .next s)

/-- The frame of S3. An access or an address operation that issues leaves every register of its context but its destination and the latches of
agu, every other context and every other core as they were. A load leaves every byte of memory as it was but for the leaf whose A bit it sets;
a store to a scratchpad writes no byte yet, one to memory writes no byte but its own, at the place that its address
translates to, and the leaf's, and one in a region none but those of the slot that renames its granule, and the leaf's of the slot. What is
compared with is the state once the older stores of the sequencer that the access comes after have been performed: none for an address
operation and where its store queue is empty. -/
def Obligations.FrameAccess : Prop :=
  ∀ (i : Instr) (more : List Src) (a : Src) (b : Src9) (d : Dst) (n sc : Nat) (wr : Bool) (s t : State),
    (leaForm i = some (d, a, b, n) ∧ wr = false ∧ more = []) ∨
      (∃ sg, loadForm i = some (d, a, b, n, sc, sg) ∧ wr = false ∧ more = []) ∨
      (∃ x, storeForm i = some (x, a, b, n, sc) ∧ wr = true ∧ d = .discard ∧ more = [x]) →
    s.m.memWf = true → s.iss.dead = false → exec i s = .next t → t.iss.dead = false →
    let u := aguRead s more a b
    ∃ v z : State, (v = u ∨ v = u.updX fun x => { x with remoteSince := true }) ∧
    (z = v ∨ (leaForm i = none ∧ s.xc.storeq ≠ [] ∧ z = v.drained)) ∧
    t.iss = s.iss ∧ t.pre = s.pre ∧ t.agenda = s.agenda ∧ (∀ k, k ≠ s.iss.core → t.m.core k = z.m.core k) ∧
    t.kc.ctx (!s.iss.fw) = z.kc.ctx (!s.iss.fw) ∧
    t.kc = { z.kc with c0 := t.kc.c0, c1 := t.kc.c1, m := t.kc.m, dcache := t.kc.dcache } ∧
    (∀ n : BitVec 4, .q n ∉ more ++ a :: srcs9 b → u.xc.stream n.toNat = s.xc.stream n.toNat) ∧
    (∀ n : BitVec 3, d ≠ .m n → t.kc.m.get 0 n.toNat = z.kc.m.get 0 n.toNat) ∧
    t.xc = { z.xc with s := t.xc.s, p := t.xc.p, rq := t.xc.rq, pend := t.xc.pend, storeq := t.xc.storeq, peerSt := t.xc.peerSt,
                       remoteSince := t.xc.remoteSince, region := t.xc.region } ∧
    (∀ n : BitVec 6, d ≠ .s n → t.xc.sreg n.toNat = z.xc.sreg n.toNat) ∧
    (∀ n : BitVec 4, d ≠ .p n → t.xc.preg n.toNat = z.xc.preg n.toNat) ∧
    (∀ v : Fin 7, d ≠ .handle v → t.xc.rqOf v.val = z.xc.rqOf v.val) ∧
    (∀ (v : Fin 6) (h : Bool), v.val ≠ 2 → u.xc.latch v.val h = s.xc.latch v.val h) ∧
    (wr = false → t.xc.region = z.xc.region ∧ t.xc.storeq = z.xc.storeq) ∧
    ∀ p : Place, (∀ j o, p ≠ .peer j o) →
      (∀ ia, reach s (accessVa s a b sc) n (!wr) wr = .ok (.mem ia) →
        (∀ g o, leafAt z.m s.xp.asid ia g o → p ≠ .hbm g o) ∧
        (wr = true → ∀ q k, (z.m.translate s.xp.asid ia .store).2 = .ok q → k < n → p ≠ q.plus k) ∧
        ∀ r j, wr = true → s.inRegion = true → s.xp.region = some r → r.slotOf ia = some j →
          (∀ g o, leafAt z.m 0 (r.ren + 4096 * j + ia % 4096) g o → p ≠ .hbm g o) ∧
          ∀ q k, (z.m.translate 0 (r.ren + 4096 * j + ia % 4096) .store).2 = .ok q → k < n → p ≠ q.plus k) →
      (t.m.readPlace p 1).2 = (z.m.readPlace p 1).2

/-! # E. The control slot S0 and traps -/

/-- Relative and indirect transfers (04 R100, 01 R15): BC transfers when pP XOR N is 1 and else changes nothing; CALL and CALLR write the next
bundle's address to s63 and leave the loop stack alone; BC, JR and RET leave the loops whose body does not hold the target. -/
def Obligations.Transfers : Prop :=
  ∀ s : State,
    (∀ (neg : Bool) (p : BitVec 4) (off : BitVec 21),
      let t := s.iss.addr + off.signExtend 64
      (s.xp.preg p.toNat ≠ neg → exec (.bc neg p off) s = .next (s.jump t (leave t s.xc.loops))) ∧
      (s.xp.preg p.toNat = neg → exec (.bc neg p off) s = .next s)) ∧
    (∀ off : BitVec 26,
      exec (.call off) s = .next ((s.put (.s 63) s.iss.next).jump (s.iss.addr + off.signExtend 64) s.xc.loops)) ∧
    (∀ a : Src, readable s a = true →
      let u := reads s [a]
      exec (.callr a) s = .next ((u.put (.s 63) s.iss.next).jump (s.src a) s.xc.loops) ∧
      exec (.jr a) s = .next (u.jump (s.src a) (leave (s.src a) s.xc.loops)) ∧
      exec (.ret a) s = .next (u.jump (s.src a) (leave (s.src a) s.xc.loops))) ∧
    ∀ t l, (s.jump t l).iss = { s.iss with xfer := true } ∧ (s.jump t l).xc = { s.xc with pc := t, loops := l } ∧
      onlyCtx { s with iss := (s.jump t l).iss } (s.jump t l)

/-- The loop stack (01 R13 to R15, 04 R102, R103): LOOP pushes the entry that its fields give, skips the body for a count of 0, and raises
ILLEGAL_LOOP_OVERFLOW with six entries present, ILLEGAL_LOOP_END at the end address of the innermost body; after a bundle that made no
transfer, the innermost entry that ends at it goes back or is popped, and the next one decides. -/
def Obligations.Loops : Prop :=
  (∀ (s : State) (flex : Bool) (cnt : Src9) (endOff : BitVec 16), readableAll s (srcs9 cnt) = true →
    let u := reads s (srcs9 cnt)
    let e := s.iss.addr + endOff.setWidth 64
    let fits := s.xp.loops.length < 6
    let ends := ∃ x r, s.xp.loops = x :: r ∧ x.last = s.iss.addr
    (¬fits → exec (.loop flex cnt endOff) s = .next (trapped s .illegalLoopOverflow (slotNo s))) ∧
    (fits → ends → exec (.loop flex cnt endOff) s = .next (trapped s .illegalLoopEnd (slotNo s))) ∧
    (fits → ¬ends → (s.src9 cnt).setWidth 32 ≠ 0 →
      exec (.loop flex cnt endOff) s = .next (u.updX fun x =>
        { x with loops := { start := s.iss.next, last := e, count := (s.src9 cnt).setWidth 32, index := 0, flex := flex } :: x.loops })) ∧
    (fits → ¬ends → (s.src9 cnt).setWidth 32 = 0 →
      exec (.loop flex cnt endOff) s =
        .next (({ u with m := (u.m.afterBody s.iss.core s.iss.fw e).1 } : State).jump
          (u.m.afterBody s.iss.core s.iss.fw e).2 s.xc.loops))) ∧
  (∀ (a next : Word) (e : LoopEnt) (r : List LoopEnt),
    loopBack a next [] = ([], next) ∧ (a ≠ e.last → loopBack a next (e :: r) = (e :: r, next)) ∧
    (a = e.last → e.index.toNat + 1 < e.count.toNat → loopBack a next (e :: r) = ({ e with index := e.index + 1 } :: r, e.start)) ∧
    (a = e.last → ¬e.index.toNat + 1 < e.count.toNat → loopBack a next (e :: r) = loopBack a next r)) ∧
  ∀ s : State, (s.iss.xfer = true → s.goOn = s) ∧
    (s.iss.xfer = false → s.goOn.xc = { s.xc with loops := (loopBack s.iss.addr s.iss.next s.xc.loops).1,
                                                  pc := (loopBack s.iss.addr s.iss.next s.xc.loops).2 } ∧ onlyCtx s s.goOn)

/-- ADV (04 R105, 01 R17, R22) pops the queues it names, each by its count, and nothing else; a count above the entries of its queue raises
ILLEGAL_QUEUE_UNDERRUN. -/
def Obligations.QueuePops : Prop :=
  ∀ (s : State) (e0 e1 e2 e3 : AdvEnt),
    let n (e : AdvEnt) (u : Nat) : Nat := if e.unit.toNat = u then e.count.toNat else 0
    let short := ∃ e ∈ [e0, e1, e2, e3], e.count ≠ 0 ∧ (s.xp.rqOf e.unit.toNat).length < e.count.toNat
    (short → exec (.adv e0 e1 e2 e3) s = .next (trapped s .illegalQueueUnderrun (slotNo s))) ∧
    (¬short → ∃ t, exec (.adv e0 e1 e2 e3) s = .next t ∧ onlyCtx s t ∧ t.xc = { s.xc with rq := t.xc.rq } ∧
      ∀ u, t.xc.rqOf u = (s.xc.rqOf u).drop (n e0 u + n e1 u + n e2 u + n e3 u))

/-- Taking a trap (14 R320), once the context's older scalar results are written, a predicate's count too (01 R24): with no handler installed, or with both levels open, the
context is killed; else the next level opens, with the cause and its flags, the return address and the value, the loop stack saved with its
depth and emptied, s62 saved and set to the level's save area, its park flag clear, an open region suspended by level 1, and the pc at the
handler's line. Everything else of the context stays. -/
def Obligations.TrapEntry : Prop :=
  ∀ (m : Mach) (c : Nat) (fw : Bool) (flags : Word) (code : Nat) (epc val : Word),
    let m1 := ((m.drainScalars c fw).rowEnd c fw).updCtx c fw fun x => { x.leaveWait with resp := none, peerSt := none }
    let x := m1.ctx c fw
    let t := m.takeTrap c fw flags code epc val
    let y := t.ctx c fw
    let l := x.level + 1
    (x.tvec.getLsbD 0 = false → t = m1.kill c fw code 0) ∧
    (x.tvec.getLsbD 0 = true → x.level = 2 → t = m1.kill c fw 0xA2 code) ∧
    (x.tvec.getLsbD 0 = true → x.level < 2 →
      y.level = l ∧ y.pc = BitVec.ofNat 64 (x.tvec.toNat / 64 * 64) ∧ y.loops = [] ∧
      (y.levelOf l).cause = flags ||| BitVec.ofNat 64 code ∧ (y.levelOf l).epc = epc ∧ (y.levelOf l).tval = val ∧
      (y.levelOf l).tscr = x.sreg 62 ∧ y.sreg 62 = x.tsave + BitVec.ofNat 64 (512 * x.level) ∧
      (x.loops.length ≤ 6 → loopsOf (y.levelOf l).lstk = x.loops) ∧ y.park l = false ∧
      (y.regSusp = true ↔ x.regSusp = true ∨ (l = 1 ∧ x.region.isSome = true)) ∧
      (l = 2 → y.l1 = x.l1 ∧ y.park1 = x.park1) ∧ (l = 1 → y.l2 = x.l2) ∧ (∀ n, n ≠ 62 → y.sreg n = x.sreg n) ∧
      y = { x with s := y.s, loops := [], regSusp := y.regSusp, level := l, pc := y.pc, l1 := y.l1, l2 := y.l2,
                   park1 := y.park1, park2 := y.park2 } ∧
      t = { m1 with cores := t.cores } ∧ (∀ d, d ≠ c → t.core d = m1.core d) ∧ t.core c = (m1.core c).setCtx fw y)

/-- TRAP and ERET (04 R108, R110, 14 R322). TRAP lets every slot take effect and leaves CTX_TRAP, with CODE, for the bundle where the sequencer
goes on. ERET with no level open raises ILLEGAL_ERET, with the level's park flag set, or about to be set by its own bundle, MX_PARK_OPEN; else the level closes: loop stack and s62
are restored, the level falls, and the pc is the level's return address with the loops left that do not hold it; at level 1 a suspended region
resumes, or its pending abort is taken as a new trap at its TBEGIN bundle. HALT, BKPT, NOP, HINT and YIELD (04 R106, R107, R109, R111): NOP and HINT change nothing; HALT stops issue unless a region is open
(TASK_HALT_IN_REGION) or the team would lose a member (SYNC_TEAM_EXIT), and HALT_DONE ends it once older results are written; BKPT takes
CTX_BREAKPOINT, or stops an attached context 0 in debug state; YIELD counts away from a boundary, is offered at one outside a region, and does nothing in
context 1 or at a trap level (log 122). -/
def Obligations.TrapEretHalt : Prop :=
  ((∀ (s : State) (code : BitVec 8), s.iss.after = none →
      exec (.trap code) s =
        .next { s with iss := { s.iss with after := some { cause := .ctxTrap, val := code.setWidth 64, viol := none } } }) ∧
    ∀ s : State,
      (s.xp.level = 0 → exec .eret s = .next (trapped s .illegalEret (slotNo s))) ∧
      let parked := s.xc.park s.xp.level = true ∨ s.kc.mx.parkBusy = some (s.iss.fw, s.xp.level)
      (s.xp.level ≠ 0 → parked → exec .eret s = .next (trapped s .mxParkOpen 0)) ∧
      (s.xp.level ≠ 0 → ¬parked → ∃ t, exec .eret s = .next t ∧
        let x := (s.m.drainScalars s.iss.core s.iss.fw).ctx s.iss.core s.iss.fw
        let lv := x.levelOf x.level
        t.iss = { s.iss with xfer := true } ∧
        ((x.level = 1 ∧ x.abortPend = true → x.region = none) → x.waitKept = none →
          t.xc.level = x.level - 1 ∧ t.xc.sreg 62 = lv.tscr ∧ t.xc.pc = lv.epc ∧ t.xc.loops = leave lv.epc (loopsOf lv.lstk) ∧
          (x.level = 1 → t.xc.regSusp = false) ∧ (∀ n, n ≠ 62 → t.xc.sreg n = x.sreg n) ∧ t.xc.region = x.region) ∧
        ∀ r, x.level = 1 → x.abortPend = true → x.region = some r →
          let f := r.aborted.getD { cause := .memUncorrectable, val := 0, viol := none }
          t.m = ((s.m.drainScalars s.iss.core s.iss.fw).updCtx s.iss.core s.iss.fw fun x =>
            { x.setPark 1 false with
              loops := r.chk.loops, level := 0, regSusp := false, abortPend := false, region := none, s := r.chk.s, p := r.chk.p,
              rq := r.chk.rq, lat := r.chk.lat }).takeTrap s.iss.core s.iss.fw 0 f.cause.code r.beginPc f.val)) ∧
  (∀ s : State,
      exec .nop s = .next s ∧ (∀ n, exec (.hint n) s = .next s) ∧
      (s.inRegion = true → exec .halt s = .next (trapped s .taskHaltInRegion 0)) ∧
      (s.inRegion = false → s.teamExit = true → exec .halt s = .next (trapped s .syncTeamExit 0)) ∧
      (s.inRegion = false → s.teamExit = false → ∃ t, exec .halt s = .next t ∧ t.xc.run = .halting ∧
        (s.xc.level = 0 → t = s.updX fun x => { x with run := .halting }) ∧
        (s.xc.level ≠ 0 → t.xc.level = 0 ∧ t.xc.park1 = false ∧ t.xc.park2 = false ∧ t.xc.held = [] ∧ t.xc.absent = [])) ∧
      (∀ (c : Nat) (fw : Bool), c < 384 →
        ((s.m.ctx c fw).run = .halting → exec (.haltDone c fw) s =
          .next (s.upd fun m => (m.drainPend c fw).updCtx c fw fun x => { x with run := .halted })) ∧
        ((s.m.ctx c fw).run ≠ .halting → exec (.haltDone c fw) s = .next s)) ∧
      (∀ code : BitVec 8,
        ((s.iss.fw = true ∨ s.kp.dbg.attach = false) → exec (.bkpt code) s = .next (trapped s .ctxBreakpoint (code.setWidth 64))) ∧
        (s.iss.fw = false → s.kp.dbg.attach = true → ∃ t, exec (.bkpt code) s = .next t ∧ t.iss = { s.iss with dead := true } ∧
          t.m.core s.iss.core = { s.kp with c0 := { s.kp.c0 with run := .debug }, dbg := { s.kp.dbg with code := code } } ∧
          t.m = { s.pre with cores := t.m.cores } ∧ ∀ c, c ≠ s.iss.core → t.m.core c = s.pre.core c)) ∧
      ∀ (desc : BitVec 10) (budget : BitVec 16),
        let boundary := ∀ e r, s.xp.loops = e :: r → e.last = s.iss.addr
        let quiet := s.xp.region = none
        (s.iss.fw = true ∨ s.xp.level ≠ 0 → exec (.yield desc budget) s = .next s) ∧
        (s.iss.fw = false → s.xp.level = 0 → ¬boundary → exec (.yield desc budget) s = .next (s.updX fun x => { x with yieldSkip := x.yieldSkip + 1 })) ∧
        (s.iss.fw = false → s.xp.level = 0 → boundary → ¬quiet → exec (.yield desc budget) s = .next s) ∧
        (s.iss.fw = false → s.xp.level = 0 → boundary → quiet → s.xp.liveCount ≤ desc.toNat →
          exec (.yield desc budget) s = .next (trapped s .illegalOperand (slotNo s))) ∧
        (s.iss.fw = false → s.xp.level = 0 → boundary → quiet → desc.toNat < s.xp.liveCount →
          exec (.yield desc budget) s = .next { s with iss := { s.iss with offer := some (desc.toNat, budget.toNat) } }))


/-! # F. The vector slot S4 -/

/-- Vector arithmetic and compares (05 R127, R128, R133): min(COUNT, capacity) elements; a floating-point operation gives what 02 R38 gives for
its inputs, flushed as 02 R47 says, and its flags; an integer one wraps, or clamps in the saturating forms; a compare writes all ones or 0. -/
def Obligations.VectorArith : Prop :=
  ∀ (s : State) (t : VT) (vd va vb : BitVec 8), s.clobbered vd.toNat 1 = none →
    let w := t.bytes
    let n := min s.xp.vlCount (8192 / w)
    let F := fltOf t
    let fx := s.fxOut t
    let A := s.velems va w n
    let B := s.velems vb w n
    let flt (g : Machine.Num → Machine.Num → FR) : List FR := A.zipWith (fun x y => g (s.vin t x) (s.vin t y)) B
    let wrap (v : Int) : FR := { val := (v % 2 ^ (8 * w)).toNat, fl := 0 }
    let lo : Int := if t.isSigned then -(2 ^ (8 * w - 1)) else 0
    let hi : Int := if t.isSigned then 2 ^ (8 * w - 1) - 1 else 2 ^ (8 * w) - 1
    let int (h : Int → Int → Int) : List FR := A.zipWith (fun x y => wrap (h (intOf t x) (intOf t y))) B
    let sat (h : Int → Int → Int) : List FR := A.zipWith (fun x y => wrap (max lo (min hi (h (intOf t x) (intOf t y))))) B
    let ok (i : VT → BitVec 8 → BitVec 8 → BitVec 8 → Instr) (rs : List FR) : Prop := exec (i t vd va vb) s = .next (s.vresult t vd rs)
    let truth (i : VT → BitVec 8 → BitVec 8 → BitVec 8 → Instr) (k : Nat) : Prop :=
      let rs := A.zipWith (fun x y => cmpN k (vtNum t s.fxIn x) (vtNum t s.fxIn y)) B
      exec (i t vd va vb) s =
        .next ((s.vput vd w (rs.map fun r => if r.val = 0 then 0 else 2 ^ (8 * w) - 1)).vop [vd.toNat] (orAll rs) [] false)
    (t.isFloat = true →
      ok .vadd (flt (F.addN fx)) ∧ ok .vsub (flt fun x y => F.addN fx x y.negate) ∧ ok .vmul (flt (F.mulN fx)) ∧
      ok .vdiv (flt (F.divN fx)) ∧ ok .vmin (flt (F.minMaxN fx false)) ∧ ok .vmax (flt (F.minMaxN fx true)) ∧
      ok .vfma ((s.velems vd w n).zipWith (fun d p => F.fmaN fx (s.vin t p.1) (s.vin t p.2) (s.vin t d)) (A.zip B))) ∧
    (t.isFloat = false →
      ok .vadd (int (· + ·)) ∧ ok .vsub (int (· - ·)) ∧ ok .vmul (int (· * ·)) ∧ ok .vmin (int min) ∧ ok .vmax (int max) ∧
      ok .vadds (sat (· + ·)) ∧ ok .vsubs (sat (· - ·))) ∧
    truth .vceq 0 ∧ truth .vclt 1 ∧ truth .vcle 2

/-- Vector logic, selection, permutation, shifts, transposition and moves (05 R134): the elements of VL.VT or of the width that the instruction
carries; a permutation index past the register reads 0; VD[j × rows + i] = VA[i × columns + j]. -/
def Obligations.VectorBitsMoves : Prop :=
  ∀ (s : State) (vd va vb : BitVec 8), s.clobbered vd.toNat 1 = none →
    let w := s.xp.vlType.bytes
    let n := min s.xp.vlCount (8192 / w)
    let A := s.velems va w n
    let B := s.velems vb w n
    let all := 2 ^ (8 * w) - 1
    let perm (v : Nat) : List Nat :=
      (s.velems vb 2 (min s.xp.vlCount (8192 / max v 2))).map fun k => if 8192 / v ≤ k then 0 else (s.kp.vreg va.toNat).num (k * v) v
    exec (.vand vd va vb) s = .next (s.vmoved vd w (A.zipWith (· &&& ·) B)) ∧
    exec (.vor vd va vb) s = .next (s.vmoved vd w (A.zipWith (· ||| ·) B)) ∧
    exec (.vxor vd va vb) s = .next (s.vmoved vd w (A.zipWith (· ^^^ ·) B)) ∧
    exec (.vandn vd va vb) s = .next (s.vmoved vd w (A.zipWith (fun x y => x &&& (all - y)) B)) ∧
    exec (.vsel vd va vb) s =
      .next (s.vmoved vd w ((s.velems vd w n).zipWith (fun d p => (d &&& p.1) ||| ((all - d) &&& p.2)) (A.zip B))) ∧
    exec (.vperm8 vd va vb) s = .next (s.vmoved vd 1 (perm 1)) ∧ exec (.vperm16 vd va vb) s = .next (s.vmoved vd 2 (perm 2)) ∧
    exec (.vperm32 vd va vb) s = .next (s.vmoved vd 4 (perm 4)) ∧ exec (.vperm64 vd va vb) s = .next (s.vmoved vd 8 (perm 8)) ∧
    exec (.vmov vd va) s = .next (s.vmoved vd w A) ∧
    ∀ g : Width,
      let v := g.bytes
      let N := min s.xp.vlCount (8192 / v)
      let V := s.velems va v N
      let signed (x : Nat) : Int := if 2 * x < 2 ^ (8 * v) then (x : Int) else (x : Int) - 2 ^ (8 * v)
      (∀ k : BitVec 6, k.toNat < 8 * v →
        exec (.vshl g k vd va) s = .next (s.vmoved vd v (V.map fun x => x * 2 ^ k.toNat % 2 ^ (8 * v))) ∧
        exec (.vsrl g k vd va) s = .next (s.vmoved vd v (V.map fun x => x / 2 ^ k.toNat)) ∧
        exec (.vsra g k vd va) s = .next (s.vmoved vd v (V.map fun x => (signed x / 2 ^ k.toNat % 2 ^ (8 * v)).toNat))) ∧
      ∀ rows : BitVec 6, ∃ xs : List Nat,
        let r := rows.toNat + 1
        let q := N / r
        exec (.vtrans g rows vd va) s = .next (s.vmoved vd v xs) ∧ xs.length = r * q ∧
        ∀ i j, i < r → j < q → xs[j * r + i]? = (s.velems va v (r * q))[i * q + j]?

/-- VBCAST writes the low w bytes of the scalar source to VD[0 … n-1], unchanged and unconverted; C[7:4] must be zero. -/
def Obligations.Broadcast : Prop :=
  (∀ (s : State) (t : VT) (vd : BitVec 8) (a : Src), readable s a = true → s.clobbered vd.toNat 1 = none →
    exec (.vbcast t vd a) s =
      .next (((reads s [a]).latch uVU.val false (s.src a)).vmoved vd t.bytes
        (List.replicate (min s.xp.vlCount (8192 / t.bytes)) ((s.src a).toNat % 2 ^ (8 * t.bytes))))) ∧
  (∀ (fw : Bool) (len : Nat) (vd a : BitVec 8) (c : BitVec 8), c.extractLsb' 4 4 ≠ 0 →
    ∃ e, decodeSlot fw len 4 (0xF#4 ++ 0x8#4 ++ vd ++ a ++ c) = .error e) ∧
  ∀ (s : State) (vd : BitVec 8) (w : Nat) (xs : List Nat) (k : Nat), (s.kc.vreg vd.toNat).wf = true → 0 < w →
    let b := (s.vmoved vd w xs).kc.vreg vd.toNat
    (∀ i, i < xs.length → i * w ≤ k → k < i * w + w → b.byte k = BitVec.ofNat 8 (xs.getD i 0 / 256 ^ (k - i * w))) ∧
    (w * xs.length ≤ k → b.byte k = (s.kc.vreg vd.toNat).byte k)

/-- Vector loads and stores (05 R135 to R139): element addresses from base and stride, or from base and offsets. A misaligned base raises
ALIGN_VECTOR with the address of element 0, a misaligned stride with that of element 1 (the base where no such element moves: log 118), the
first element that fails a check its fault, with nothing moved. Where every element is aligned, covered by a range with the permission, and
lies in the own scratchpad, VLD, VST, VGATHER and VSCATTER complete: older stores of the sequencer are performed first, and the elements move
between VD and the scratchpad in ascending index order, each write followed by the waits that it releases; an uncorrectable element is read as
zero, and the bundle's context meets it once the bundle has retired. -/
def Obligations.VectorMemory : Prop :=
  ∀ (s : State) (g : Width) (vd : BitVec 8) (a c : Src) (vc : BitVec 8),
    let w := g.bytes
    let x := s.src a
    let st := s.src c
    let u := (reads s [a, c]).latchAB uVU.val x st
    let v := (reads s [a]).latch uVU.val false x
    let n := min s.xp.vlCount (8192 / w)
    let k := min s.xp.vlCount (8192 / max w 4)
    let lin := (List.range n).map fun i => (x.toNat + i * (if st = 0 then w else st.toNat)) % 2 ^ 64
    let ind := (s.velems vc 4 k).map fun o => (x.toNat + o) % 2 ^ 64
    let runs (vas : List Nat) (wr : Bool) : Prop :=
      ∀ va ∈ vas, va % w = 0 ∧ ∃ ia off, mapVa s.xp.ranges va w (!wr) wr false = some ia ∧ iaTarget ia = .own off
    let lands (vas offs : List Nat) (wr : Bool) : Prop := offs.length = vas.length ∧
      ∀ va off, (va, off) ∈ vas.zip offs → ∃ ia, mapVa s.xp.ranges va w (!wr) wr false = some ia ∧ iaTarget ia = .own off
    let fails (i : Instr) (e : Cause × Word) : Prop :=
      ∃ t, exec i s = .next t ∧ t.m = (trapped s e.1 e.2).m ∧ t.iss.dead = true
    let bad (o : Nat) : Bool := s.pre.badSpad s.iss.core o w
    let loads (i : Instr) (z : State) (offs : List Nat) : Prop := ∃ t, exec i s = .next t ∧
      let done := z.drained.vmoved vd w (offs.map fun o => if bad o then 0 else natOfBytes (z.drained.m.spadRead s.iss.core o w))
      t.kc = done.kc ∧ ((∀ o ∈ offs, bad o = false) → t = done) ∧
      ((∃ o ∈ offs, bad o = true) → ∃ f, t.iss = { s.iss with doom := some f } ∧
        (s.iss.doom = none → f.cause = .memUncorrectable ∧ f.val.toNat ∈ if i = .vld g vd a c then lin else ind))
    let stores (z : State) (xs offs : List Nat) : State :=
      (z.drained.upd fun m => (offs.zip xs).foldl (fun m p => (m.spadWrite s.iss.core p.1 (bytesOfNat w p.2)).wakeObjs) m).vop [] 0 [] false
    (readableAll s [a, c] = true →
      (x.toNat % w ≠ 0 → fails (.vst g vd a c) (.alignVector, x) ∧
        (s.clobbered vd.toNat 1 = none → fails (.vld g vd a c) (.alignVector, x))) ∧
      (x.toNat % w = 0 → st.toNat % w ≠ 0 →
        let at1 : Word := BitVec.ofNat 64 (lin.getD 1 x.toNat)
        fails (.vst g vd a c) (.alignVector, at1) ∧ (s.clobbered vd.toNat 1 = none → fails (.vld g vd a c) (.alignVector, at1))) ∧
      (x.toNat % w = 0 → st.toNat % w = 0 →
        (∀ e, s.velemAddrs w true lin = .error e → fails (.vst g vd a c) e) ∧
        (∀ e, s.clobbered vd.toNat 1 = none → s.velemAddrs w false lin = .error e → fails (.vld g vd a c) e) ∧
        (runs lin true → ∃ offs, lands lin offs true ∧ exec (.vst g vd a c) s = .next (stores u (s.velems vd w n) offs)) ∧
        (s.clobbered vd.toNat 1 = none → runs lin false → ∃ offs, lands lin offs false ∧ loads (.vld g vd a c) u offs))) ∧
    (readable s a = true →
      (x.toNat % w ≠ 0 →
        let at0 : Word := BitVec.ofNat 64 (ind.getD 0 x.toNat)
        fails (.vscatter g vd a vc) (.alignVector, at0) ∧
          (s.clobbered vd.toNat 1 = none → fails (.vgather g vd a vc) (.alignVector, at0))) ∧
      (x.toNat % w = 0 →
        (∀ e, s.velemAddrs w true ind = .error e → fails (.vscatter g vd a vc) e) ∧
        (∀ e, s.clobbered vd.toNat 1 = none → s.velemAddrs w false ind = .error e → fails (.vgather g vd a vc) e) ∧
        (runs ind true → ∃ offs, lands ind offs true ∧ exec (.vscatter g vd a vc) s = .next (stores v (s.velems vd w k) offs)) ∧
        (s.clobbered vd.toNat 1 = none → runs ind false → ∃ offs, lands ind offs false ∧ loads (.vgather g vd a vc) v offs)))

/-- Conversions and elementwise functions (05 R140 to R142, R145, R147): each element gives the value and flags of its rule; integers wrap in
VABS and VNEG; VQNT writes the codes to VD and the scale of each 64 elements to VD+1, VDQNT reads them from VA and VA+1. -/
def Obligations.VectorFunctions : Prop :=
  ∀ (s : State) (t : VT) (vd va : BitVec 8), s.clobbered vd.toNat 1 = none →
    let w := t.bytes
    let A := s.velems va w (min s.xp.vlCount (8192 / w))
    let F := fltOf t
    let fx := s.fxOut t
    let wrap (v : Int) : FR := { val := (v % 2 ^ (8 * w)).toNat, fl := 0 }
    let n4 := min s.xp.vlCount 2048
    (∀ (rz : Bool) (f : Fmt),
      exec (.vcvt t rz f vd va) s =
        .next (s.vconv f vd ((s.velems va w (min s.xp.vlCount (8192 / max w f.bytes))).map fun x =>
          fmtPut f (s.fxFmt f) rz (!t.isFloat) (vtNum t s.fxIn x)))) ∧
    (∀ f : Fmt, exec (.vcvtb t f vd va) s =
      .next (s.vresult t vd ((s.velems va 1 (min s.xp.vlCount (8192 / w))).map fun x => F.put false fx ((f8Of f).num x)))) ∧
    (t.isFloat = false →
      exec (.vabs t vd va) s = .next (s.vresult t vd (A.map fun x => wrap (intOf t x).natAbs)) ∧
      exec (.vneg t vd va) s = .next (s.vresult t vd (A.map fun x => wrap (-intOf t x)))) ∧
    (t.isFloat = true →
      exec (.vabs t vd va) s =
        .next (s.vresult t vd (A.map fun x => F.put false fx (if (s.vin t x).sign then (s.vin t x).negate else s.vin t x))) ∧
      exec (.vneg t vd va) s = .next (s.vresult t vd (A.map fun x => F.put false fx (s.vin t x).negate)) ∧
      exec (.vexp2 t vd va) s = .next (s.vresult t vd (A.map fun x => exp2N t fx (s.vin t x) x)) ∧
      exec (.vlog2 t vd va) s = .next (s.vresult t vd (A.map fun x => log2N t fx (s.vin t x) x)) ∧
      exec (.vrcp t vd va) s = .next (s.vresult t vd (A.map fun x => rcpN t fx (s.vin t x))) ∧
      exec (.vrsqrt t vd va) s = .next (s.vresult t vd (A.map fun x => rsqrtN t fx (s.vin t x)))) ∧
    (∀ f : Fmt, s.clobbered vd.toNat 2 = none →
      let bl := (chunks 64 ((n4 + 63) / 64) ((s.velems va 4 n4).map (s.vin .f32))).map (quantBlock (f8Of f))
      exec (.vqnt f vd va) s =
        .next (((s.vput vd 1 ((bl.flatMap fun b => b.1).map fun r => r.val)).vput (vd + 1) 1 (bl.map fun b => b.2)).vop
          [vd.toNat, vd.toNat + 1] (orAll (bl.flatMap fun b => b.1)) [] false)) ∧
    (∀ f : Fmt, exec (.vdqnt f vd va) s =
      .next (s.vresult .f32 vd ((s.velems va 1 n4).zipIdx.map fun p =>
        flt32.put false (s.fxOut .f32) (scaled (f8Of f) p.1 ((s.velems (va + 1) 1 ((n4 + 63) / 64)).getD (p.2 / 64) 0x7F))))) ∧
    ∀ a : Src, readable s a = true →
      exec (.vrand t vd a) s =
        .next (((reads s [a]).latch uVU.val false (s.src a)).vmoved vd 4 ((List.range n4).map (s.randElem t (s.src a))))

/-- Reductions, scans, lengths and drains (05 R132, R143, R148, 02 R55, R56): VRED gives the identity for no element and else the tree of its
operation, pending until the assist where a step gave a subnormal that needs one; VSCANX starts with the identity; VSETVL gives min(a, capacity) and writes VL; a write of VL clamps COUNT, and a type code from 12 on
raises ILLEGAL_FORMAT; VSTRM drains its bound stream. -/
def Obligations.VectorReduceLength : Prop :=
  ∀ (s : State) (op : RedOp) (t : VT) (d : Dst) (vd va : BitVec 8),
    let w := t.bytes
    let n := min s.xp.vlCount (8192 / w)
    let ins := (s.velems va w n).map (s.redIn t)
    let tree := redTree t op (s.fxOut t) 14 (ins.map fun r => r.val) (orAll ins, false)
    let late := s.assists t && tree.2.2
    let scan (k : Nat) : List Nat × BitVec 5 × Bool := s.scanOf op t (s.velems va w k)
    (n = 0 → exec (.vred op t d va) s =
      .next ((s.putLate .scalar d (redScalar t (s.redOut t (redIdent t op)).val) (s.redOut t (redIdent t op)).fl).vop [] 0 [] false)) ∧
    (n ≠ 0 → exec (.vred op t d va) s =
      .next ((s.putLate (if late then .assist else .scalar) d (redScalar t (s.redOut t tree.1).val)
        (tree.2.1 ||| (s.redOut t tree.1).fl)).vop [] 0 [] late)) ∧
    (s.clobbered vd.toNat 1 = none →
      exec (.vscan op t vd va) s = .next (s.vscanPut t vd (scan n).1 (scan n).2.1 (scan n).2.2) ∧
      exec (.vscanx op t vd va) s =
        .next (s.vscanPut t vd (if n = 0 then [] else redIdent t op :: (scan (n - 1)).1) (scan (n - 1)).2.1 (scan (n - 1)).2.2)) ∧
    (∀ a : Src, readable s a = true →
      let c := min (s.src a).toNat (8192 / w)
      exec (.vsetvl t d a) s =
        .next ((((reads s [a]).latch uVU.val false (s.src a)).updX fun x => { x with vl := BitVec.ofNat 64 (t.enc.toNat * 2 ^ 16 + c) }).put d
          (BitVec.ofNat 64 c))) ∧
    (∀ v : Word,
      let code := v.toNat / 2 ^ 16 % 16
      (12 ≤ code → exec (.vlWrite v) s = .next (trapped s .illegalFormat 0)) ∧
      (code = t.enc.toNat → exec (.vlWrite v) s =
        .next (s.updX fun x => { x with vl := BitVec.ofNat 64 (code * 2 ^ 16 + min (v.toNat % 2 ^ 14) (8192 / w)) }))) ∧
    ∀ q : BitVec 4,
      (s.inRegion = true → exec (.vstrm t vd q) s = .next (trapped s .regionIllegalOp 0)) ∧
      (s.inRegion = false → (s.xp.stream q.toNat).isBound = false → exec (.vstrm t vd q) s = .next (trapped s .engStreamUnbound 0)) ∧
      (s.inRegion = false → (s.xp.stream q.toNat).isBound = true → s.kp.strmBusy s.iss.fw q.toNat = false →
        exec (.vstrm t vd q) s = .next (s.updK fun k => { k with vops := k.vops ++
          [{ fw := s.iss.fw, flags := 0, assist := false, queued := false, marks := [],
             drain := some { q := q.toNat, vd := vd.toNat, w := w, want := n, got := 0 }, vds := [vd.toNat], mx := false }] }))

/-- VECTOR_OP_COMPLETE and ASSIST_ROUTINE (05 R130, 02 R46, R48): the oldest operation that has processed its last element ends and its flags are
ORed into its context's FFLAGS; one with marked elements is queued for the firmware of member 0's core and its context waits; the firmware
writes the marked elements and the context goes on. -/
def Obligations.VectorCompletion : Prop :=
  ∀ (s : State) (c : Nat), c < 384 →
    (∀ before v after, (s.m.core c).vops = before ++ v :: after → (∀ y ∈ before, y.queued = true ∨ y.last = false) →
      v.queued = false → v.last = true → v ∉ before →
      (v.assist = false → exec (.vectorOpComplete c false) s =
        .next (s.upd fun m => (m.updCore c fun k => { k with vops := before ++ after }).orFlags c v.fw v.flags)) ∧
      (v.assist = true → v ∉ after → ∃ t, exec (.vectorOpComplete c false) s = .next t ∧
        (t.m.core c).vops = before ++ { v with queued := true } :: after ∧ (t.m.ctx c v.fw).assist = true ∧
        (t.m.core (s.m.member0 c)).assistQ = (s.m.core (s.m.member0 c)).assistQ ++ [c]) ∧
      exec (.vectorOpComplete c true) s =
        .next (s.upd fun m => (m.updCore c fun k => { k with vops := before ++ after }).rasRaise c v.fw .rasVuResidue)) ∧
    ((∀ y ∈ (s.m.core c).vops, y.queued = true ∨ y.last = false) → ∀ r, exec (.vectorOpComplete c r) s = .next s) ∧
    ∀ d r, (s.m.core c).assistQ = d :: r → s.m.powered c = true →
      exec (.assistRoutine c) s = .next (s.upd fun m => (m.updCore c fun k => { k with assistQ := r }).assisted d)

/-- A destination of a vector instruction that is live-in to the open region raises REGION_CLOBBER with the register's number, and nothing of
the bundle takes effect (10 R271). -/
def Obligations.LiveInRegisters : Prop :=
  ∀ (i : Instr) (s : State) (vd n v : Nat) (l : List Src) (r : Region), vecDest i = some (vd, n, l) → readableAll s l = true →
    s.inRegion = true → s.xp.region = some r → vd ≤ v → v < vd + n → bitAt r.live.toNat v = true →
    (∀ j, vd ≤ j → j < v → bitAt r.live.toNat j = false) →
    ∃ t, exec i s = .next t ∧ t.m = (trapped s .regionClobber (BitVec.ofNat 64 v)).m ∧ t.iss.dead = true

/-- The frame of S4. A vector instruction that issues writes no v register but its destination (VQNT the next one too), no byte of it past its
elements, no byte of memory unless it is a store, no register of its context but the latches of vu, the pending result it asks for and, in
VSETVL, VL and its destination; nothing of another core. -/
def Obligations.FrameVector : Prop :=
  ∀ (i : Instr) (s t : State) (vd n : Nat) (l : List Src), vecDest i = some (vd, n, l) → i.wf = true → s.xc.storeq = [] →
    s.iss.dead = false →
    exec i s = .next t → t.iss.dead = false →
    t.pre = s.pre ∧ t.m = { s.m with cores := t.m.cores, hbm := t.m.hbm, el := t.m.el, out := t.m.out, msixPend := t.m.msixPend,
                                         msixSent := t.m.msixSent } ∧
    (∀ k, k ≠ s.iss.core → t.m.core k = s.m.core k) ∧ t.kc.ctx (!s.iss.fw) = s.kc.ctx (!s.iss.fw) ∧
    t.kc = { s.kc with c0 := t.kc.c0, c1 := t.kc.c1, v := t.kc.v, vops := t.kc.vops } ∧
    t.xc = { s.xc with lat := t.xc.lat, q := t.xc.q } ∧ (∀ (u : Fin 6) (h : Bool), u.val ≠ 3 → t.xc.latch u.val h = s.xc.latch u.val h) ∧
    (∀ q : BitVec 4, .q q ∉ l → t.xc.stream q.toNat = s.xc.stream q.toNat) ∧
    (∀ r, r < vd ∨ vd + n ≤ r → t.kc.vreg r = s.kc.vreg r) ∧
    (s.iss.doom = none → t.iss.doom = none → t.m = { s.m with cores := t.m.cores })

/-! # G. The matrix unit and the predicates (slot S5) -/

/-- The S5 instructions of the matrix unit (06 R149 to R152, R158, R161 to R163, R165). One that needs the unit waits while it is occupied; a
handler that has not parked the unit takes MX_NOT_PARKED. MXSET replaces one part of an m register, MXSR and a write of MXMODE by context 1 set
a legal mode, MXCALL opens a loaded routine with the next call number, once the older stores
of its sequencer that overlap the unit's rings are performed (09 R249), MXWAIT waits for its call to end, MXACC reads a tile out into v
registers, MXCLR empties a bank and its partner. -/
def Obligations.MatrixUnit : Prop :=
  ∀ s : State,
    let x := s.kp.mx
    let idle := x.rt = none ∧ x.parkBusy = none
    let mine := s.xp.level = 0 ∨ s.xp.park s.xp.level = true
    let upd (f : MxUnit → MxUnit) : State := s.updK fun k => { k with mx := f k.mx }
    (mine → ∀ (m : BitVec 3) (f : BitVec 6) (b : Src9), readableAll s (srcs9 b) = true →
      exec (.mxset m f b) s =
        .next (((reads s (srcs9 b)).latch uMX.val true (s.src9 b)).updK fun k =>
          { k with m := k.m.put m.toNat (setPart (s.kp.m.get 0 m.toNat) f (s.src9 b)) })) ∧
    (mine → ∀ semi acc op, exec (.mxsr semi acc op) s = .next (upd fun y => { y with mode := mxWord semi acc op })) ∧
    (∀ v : Word,
      (s.iss.fw = false → exec (.mxmodeWrite v) s = .next (trapped s .privCsr 0)) ∧
      (s.iss.fw = true → mxModeLegal (BitVec.ofNat 64 (v.toNat % 2 ^ 20)) = false →
        exec (.mxmodeWrite v) s = .next (trapped s .illegalFormat 0)) ∧
      (s.iss.fw = true → mxModeLegal (BitVec.ofNat 64 (v.toNat % 2 ^ 20)) = true →
        exec (.mxmodeWrite v) s = .next (upd fun y => { y with mode := BitVec.ofNat 64 (v.toNat % 2 ^ 20) }))) ∧
    (¬mine → (∀ m f b, exec (.mxset m f b) s = .next (trapped s .mxNotParked 0)) ∧
      (∀ semi acc op, exec (.mxsr semi acc op) s = .next (trapped s .mxNotParked 0)) ∧
      (∀ a, exec (.mxwait a) s = .next (trapped s .mxNotParked 0)) ∧
      (idle → (∀ d r b p, exec (.mxcall d r b p) s = .next (trapped s .mxNotParked 0)) ∧
        (∀ b p, exec (.mxclr b p) s = .next (trapped s .mxNotParked 0)) ∧
        ∀ b vd f c, exec (.mxacc b vd f c) s = .next (trapped s .mxNotParked 0))) ∧
    (¬idle → (∀ d r b p, exec (.mxcall d r b p) s = .next s.stall) ∧ (∀ b p, exec (.mxclr b p) s = .next s.stall) ∧
      (∀ b vd f c, exec (.mxacc b vd f c) s = .next s.stall) ∧ ∀ r a n, exec (.mxload r a n) s = .next s.stall) ∧
    (idle → mine → ∀ (d : Dst) (r : BitVec 8) (bank p : BitVec 3),
      let acc := mxAcc x.mode
      let fits := x.tag bank.toNat = 0 ∨ x.tag bank.toNat = accTag acc
      ((x.dir.get DirEnt.reset r.toNat).valid = false → exec (.mxcall d r bank p) s = .next (trapped s .mxNotLoaded 0)) ∧
      ((x.dir.get DirEnt.reset r.toNat).valid = true → (accPair acc = false ∨ bank.toNat % 2 = 0) →
        (¬fits → exec (.mxcall d r bank p) s = .next (trapped s .mxBankFormat 0)) ∧
        (fits → exec (.mxcall d r bank p) s =
          .next (((s.drainedOver fun e => s.kp.mxHits s.iss.core e).updK fun k => { k with mx := { k.mx with
            seq := x.seq + 1
            rt := some ({
              call := x.seq + 1, fw := s.iss.fw, owner := s.owner, routine := r.toNat, pc := 0, bank := bank.toNat, pbase := p.toNat,
              flex := s.xp.flex, mode := x.mode, m := s.kp.m, loops := [] } : Routine) } }).put d (x.seq + 1)))) ∧
      ((x.dir.get DirEnt.reset r.toNat).valid = true → accPair acc = true → bank.toNat % 2 = 1 →
        exec (.mxcall d r bank p) s = .next (trapped s .illegalOperand 0))) ∧
    (mine → ∀ a : Src, readable s a = true →
      let c := s.src a
      (0 < (c - x.seq).toInt → ∃ t, exec (.mxwait a) s = .next t ∧ t.m = (trapped s .illegalOperand 0).m ∧ t.iss.dead = true) ∧
      (¬0 < (c - x.seq).toInt →
        (∀ r, x.rt = some r → 0 ≤ (c - r.call).toInt → exec (.mxwait a) s = .next s.stall) ∧
        ((∀ r, x.rt = some r → (c - r.call).toInt < 0) →
          exec (.mxwait a) s = .next ((reads s [a]).latch uMX.val false c)))) ∧
    (idle → mine → ∀ (bank : BitVec 3) (pair : Bool),
      exec (.mxclr bank pair) s =
        .next (upd fun y => if pair then (y.clear bank.toNat).clear (bank.toNat + 1) else y.clear bank.toNat)) ∧
    (idle → mine → ∀ (bank : BitVec 3) (vd : BitVec 8) (f : Fmt) (clr : Bool),
      ((x.tag bank.toNat = 7 ∨ tagPairs (x.tag bank.toNat) f = false) →
        exec (.mxacc bank vd f clr) s = .next (trapped s .mxBankFormat 0)) ∧
      (x.tag bank.toNat ≠ 7 → tagPairs (x.tag bank.toNat) f = true → s.clobbered vd.toNat (mxaccRegs f) = none →
        let bs := x.drain bank.toNat f s.fxIn
        let vals := (x.readout bank.toNat f s.fxIn (s.fxFmt f)).map fun r => r.val
        let late (v : Nat) : Bool := match f.typ with | .vt ty => s.assists ty && (fltOf ty).isSub v | _ => false
        let out := if f.typ = .raw then bs else elemBytes f.bytes (vals.map fun v => if late v then 0 else v)
        let marks := if f.typ = .raw then [] else (vals.zipIdx.filter fun p => late p.1).map fun p =>
          (vd.toNat + p.2 * f.bytes / 8192, p.2 * f.bytes % 8192, bytesOfNat f.bytes p.1)
        let t := s.updK fun k => k.vrun vd.toNat (chunks 8192 ((out.length + 8191) / 8192) out)
        exec (.mxacc bank vd f clr) s =
          .next ((if clr then t.updK fun k => { k with mx := k.mx.clear bank.toNat } else t).vopOn true
            (rangeFrom vd.toNat (mxaccRegs f)) 0 marks (!marks.isEmpty))))

/-- Routines and images (06 R154, R165 to R167, 07 R213): MXLOAD checks its address and its words and places them at the lowest free start;
MXPARK and MXSAVE write the image page by page and hold the unit until PARK_IMAGE_WRITE_DONE, which empties the banks, resets the mode and sets
the park flag of the level that issued MXPARK; MXUNPARK reads an image that the device writes back into the unit and clears the flag. A misaligned address and pages that
no range covers or that are no legal target raise their faults before anything is written. -/
def Obligations.MatrixImages : Prop :=
  ∀ (s : State) (a : Src), readable s a = true →
    let va := s.src a
    let u := (reads s [a]).latch uMX.val false va
    let fails (i : Instr) (c : Cause) (v : Word) : Prop :=
      ∃ t, exec i s = .next t ∧ t.m = (trapped s c v).m ∧ t.iss.dead = true
    let idle := s.kp.mx.rt = none ∧ s.kp.mx.parkBusy = none
    let mine := s.xp.level = 0 ∨ s.xp.park s.xp.level = true
    let pages (wr : Bool) : Except (Cause × Word) (List Target) := s.mxTargets (piecesFrom va 4096 65) 4096 wr Target.notTeam
    (idle → mine → ∀ (r len : BitVec 8),
      let n := if len = 0 then 256 else len.toNat
      (va.toNat % 8 ≠ 0 → fails (.mxload r a len) .alignMxload 0) ∧
      (va.toNat % 8 = 0 →
        (∀ c, s.mxTargets (piecesFrom va 8 n) 8 false Target.isOwn = .error c → fails (.mxload r a len) c.1 0) ∧
        (∀ ts, s.mxTargets (piecesFrom va 8 n) 8 false Target.isOwn = .ok ts →
          (∀ t ∈ ts, s.pre.badSpad s.iss.core t.off 8 = false) →
          let ws := ts.map fun x => wordOfBytes ((reads s [a]).drained.m.spadRead s.iss.core x.off 8)
          (∀ i, badMicro n 0 [] ws = some i → fails (.mxload r a len) .mxBadMicroword (BitVec.ofNat 64 i)) ∧
          (badMicro n 0 [] ws = none →
            (s.kp.mx.place r.toNat ws = none → fails (.mxload r a len) .mxStoreFull 0) ∧
            ∀ x, s.kp.mx.place r.toNat ws = some x →
              exec (.mxload r a len) s = .next (((reads s [a]).drained.latch uMX.val false va).updK fun k =>
                { k with mx := { k.mx with store := x.store, dir := x.dir } }))))) ∧
    (s.kp.mx.parkBusy = none →
      (va.toNat % 4096 ≠ 0 → fails (.mxpark a) .alignMxpark 0 ∧ fails (.mxsave a) .alignMxpark va) ∧
      (va.toNat % 4096 = 0 →
        (∀ c, pages true = .error c → fails (.mxpark a) c.1 0 ∧ fails (.mxsave a) c.1 c.2) ∧
        ∀ ts, pages true = .ok ts → s.inRegion = false →
          let ps := (rangeFrom 0 65).zip ts
          let parked (z : State) (level : Nat) (m1 : Mach) : State :=
            { z.drained with m := m1.updMx s.iss.core fun x => { x with
              parkBusy := some (s.iss.fw, level)
              parked := (match x.rt with | some r => (r.call, r.fw, r.owner) :: x.parked | none => x.parked) } }
          let v := (reads s [a]).latch 5 false va
          ((s.xp.level = 0 ∨ s.xp.park s.xp.level = false) →
            ∀ m1, u.drained.m.putPages s.iss.core s.xp.asid ((u.drained.m.core s.iss.core).parkImage s.iss.fw) ps = (m1, none) →
              exec (.mxpark a) s = .next (parked u s.xp.level m1)) ∧
          (s.xp.level ≠ 0 → s.xp.park s.xp.level = true → fails (.mxpark a) .mxNotParked 0) ∧
          ∀ m1, v.drained.m.putPages s.iss.core s.xp.asid ((v.drained.m.core s.iss.core).parkImage false) ps = (m1, none) →
            exec (.mxsave a) s = .next (parked v 0 m1))) ∧
    (idle → va.toNat % 4096 = 0 → ∀ ts, pages false = .ok ts →
      (s.xp.park s.xp.level = false → fails (.mxunpark a) .mxNotParked 0) ∧
      (s.xp.park s.xp.level = true → ∀ m1 img,
        (reads s [a]).drained.m.getPages s.iss.core s.xp.asid Mem.empty ((rangeFrom 0 65).zip ts) = (m1, .ok img) →
        (imageOk img = false → fails (.mxunpark a) .mxBadImage 0) ∧
        (imageOk img = true → ∃ t, exec (.mxunpark a) s = .next t ∧ t.iss = s.iss ∧
          t.xc.park s.xp.level = false ∧ t.kc.mx.mode = BitVec.ofNat 64 (img.num 0x40000 8) ∧
          (∀ b, b < 8 → t.kc.mx.tag b = img.num 0x40008 8 / 2 ^ (4 * b) % 16) ∧
          (∀ b, b < 8 → t.kc.mx.bank b = img.slice (b * 0x8000) 0x8000 0) ∧
          (∀ j, j < 8 → t.kc.m.get 0 j = BitVec.ofNat 64 (img.num (0x40020 + 8 * j) 8)) ∧
          ∀ c, c ≠ s.iss.core → t.m.core c = m1.core c))) ∧
    ∀ (c : Nat) (fw : Bool), c < 384 →
      (∀ level, (s.m.core c).mx.parkBusy = some (fw, level) → ∃ t, exec (.parkImageWriteDone c fw) s = .next t ∧
        (t.m.core c).mx.tags = Tab.empty ∧ (t.m.core c).mx.mode = 0xA14 ∧ (t.m.core c).mx.rt = none ∧ (t.m.core c).mx.parkBusy = none ∧
        (t.m.core c).mx.held = (s.m.core c).mx.held ∧
        ((level = 1 ∨ level = 2) → level ≤ (s.m.ctx c fw).level → (t.m.ctx c fw).park level = true) ∧
        (level = 0 → t.m.ctx c fw = s.m.ctx c fw) ∧ (∀ d, d ≠ c → t.m.core d = s.m.core d) ∧
        t = { s with m := { s.m with cores := t.m.cores } }) ∧
      ((s.m.core c).mx.parkBusy = none → exec (.parkImageWriteDone c fw) s = .next s)

/-- The microwords (06 R155, R156): UEND ends the routine; UMMA makes one step once both rings hold a full slot, then pops and goes on; ULOOP
enters its body or skips it for a count of 0; UPOP frees slots; UOUT pushes the converted tile. A ring that is not defined or too small, and a
bank whose tag does not pair with the format, end the routine with a held fault. Where no routine is open, or the unit is being parked,
nothing happens. -/
def Obligations.Microwords : Prop :=
  ∀ (s : State) (r : Routine), s.kc.mx.rt = some r → s.kc.mx.parkBusy = none →
    let c := s.iss.core
    let held (e : Cause) : State := s.upd fun m => m.uFault c r e
    let need := mxSlotBytes (mxOp r.mode)
    exec .uend s = .next (s.updK fun k => { k with mx := { k.mx with rt := none } }) ∧
    (∀ (ra rb : BitVec 4) (pa pb : Bool),
      let ca := s.kc.ringCfgOf ra.toNat
      let cb := s.kc.ringCfgOf rb.toNat
      let qa := s.kc.ringOf ra.toNat
      let qb := s.kc.ringOf rb.toNat
      let oa := ringItemAt ca qa.r
      let ob := ringItemAt cb qb.r
      (∀ e, ringReadFault ca need = some e → exec (.umma ra rb pa pb) s = .next (held e)) ∧
      (ringReadFault ca need = none → ∀ e, ringReadFault cb need = some e → exec (.umma ra rb pa pb) s = .next (held e)) ∧
      (ringReadFault ca need = none → ringReadFault cb need = none →
        ((qa.ready && qb.ready) = false → exec (.umma ra rb pa pb) s = .next s) ∧
        ((qa.ready && qb.ready) = true → (s.m.badSpad c oa need || s.m.badSpad c ob need) = true →
          exec (.umma ra rb pa pb) s = .next (held .memUncorrectable)) ∧
        ((qa.ready && qb.ready) = true → s.m.badSpad c oa need = false → s.m.badSpad c ob need = false →
          exec (.umma ra rb pa pb) s = .next (s.upd fun m =>
            let m1 := m.updMx c fun x => x.step r.mode r.flex r.bank (m.spadRead c oa need) (m.spadRead c ob need)
            let m2 := if pa then m1.ringPop c ra.toNat 1 else m1
            (if pb then m2.ringPop c rb.toNat 1 else m2).uNext c r.pc)))) ∧
    (∀ (src : Bool) (mrel : BitVec 3) (f : BitVec 6) (body : BitVec 8) (count : BitVec 32),
      let n := if src then mPart (r.m.get 0 ((r.pbase + mrel.toNat) % 8)) f else count.toNat
      (n = 0 → exec (.uloop src mrel f body count) s = .next (s.upd fun m => m.uNext c (r.pc + body.toNat))) ∧
      (n ≠ 0 → exec (.uloop src mrel f body count) s =
        .next (s.updK fun k => { k with mx := { k.mx with rt :=
          if r.pc + 1 < (s.kc.mx.dir.get DirEnt.reset r.routine).len then some { r with
            loops := { start := r.pc + 1, last := r.pc + body.toNat, count := n, index := 0 } :: r.loops, pc := r.pc + 1 }
          else none } }))) ∧
    (∀ (ring : BitVec 4) (n : BitVec 8),
      (∀ e, ringReadFault (s.kc.ringCfgOf ring.toNat) 0 = some e → exec (.upop ring n) s = .next (held e)) ∧
      (ringReadFault (s.kc.ringCfgOf ring.toNat) 0 = none →
        ((s.kc.ringOf ring.toNat).full < n.toNat → exec (.upop ring n) s = .next s) ∧
        (n.toNat ≤ (s.kc.ringOf ring.toNat).full →
          exec (.upop ring n) s = .next (s.upd fun m => (m.ringPop c ring.toNat n.toNat).uNext c r.pc)))) ∧
    ∀ (ring : BitVec 4) (f : Fmt) (clr : Bool),
      let cfg := s.kc.ringCfgOf ring.toNat
      let defined := ringV cfg = true ∧ ringProd cfg = 2
      (¬defined → exec (.uout ring f clr) s = .next (held .mxRingUndefined)) ∧
      (defined → ringBytes cfg < drainBytes f → exec (.uout ring f clr) s = .next (held .mxRingSlot)) ∧
      (defined → drainBytes f ≤ ringBytes cfg →
        (tagPairs (s.kc.mx.tag r.bank) f = false → exec (.uout ring f clr) s = .next (held .mxBankFormat)) ∧
        (tagPairs (s.kc.mx.tag r.bank) f = true →
          (s.m.ringPut c ring.toNat (s.kc.mx.drain r.bank f (!r.flex)) = none → exec (.uout ring f clr) s = .next s) ∧
          ∀ m1, s.m.ringPut c ring.toNat (s.kc.mx.drain r.bank f (!r.flex)) = some m1 →
            exec (.uout ring f clr) s =
              .next { s with m := (if clr then m1.updMx c fun x => x.clear r.bank else m1).uNext c r.pc }))

/-- The exact predicates (06 R169 to R176): each lane's result is held by the EPU until PREDICATE_COMPLETE writes VD and, in D, the number of
exact-zero lanes; a NaN or an infinity in an operand raises GEO_NONFINITE with the lane and the register offset; GTIE sets the tie mode from 0
or 1. -/
def Obligations.Predicates : Prop :=
  ∀ (s : State) (g : GF) (vd va : BitVec 8) (d : Dst),
    let n := min s.xp.vlCount (8192 / g.bytes)
    let held (i : GF → BitVec 8 → BitVec 8 → Dst → Instr) (k dim : Nat) (lane : Bool → List (List Int) → Nat × Bool) : Prop :=
      let rs := (List.range n).map fun j => lane s.xp.geocfg (chunks dim (k / dim) (laneInts (s.laneNums g va k j)))
      (g.isFloat = true → ∀ v, s.geoBad g va k n = some v → exec (i g vd va d) s = .next (trapped s .geoNonfinite (BitVec.ofNat 64 v))) ∧
      ((g.isFloat = true → s.geoBad g va k n = none) →
        exec (i g vd va d) s = .next (s.updK fun c => { c with epu := some ({
          fw := s.iss.fw, vd := vd.toNat, res := rs.map fun r => BitVec.ofNat 8 r.1, dst := d,
          count := BitVec.ofNat 64 (rs.filter fun r => r.2).length } : EpuOp) }))
    (s.clobbered vd.toNat 1 = none →
      held .gorient2 6 2 (detLane orient2Det 2) ∧ held .gorient3 12 3 (detLane orient3Det 3) ∧ held .gincirc 8 2 (detLane incircDet 2) ∧
      held .ginsph 15 3 (detLane insphDet 3) ∧ held .gsegx 8 2 segLane) ∧
    (∀ v, s.clobbered vd.toNat 1 = some v →
      ∀ i ∈ [Instr.gorient2 g vd va d, .gorient3 g vd va d, .gincirc g vd va d, .ginsph g vd va d, .gsegx g vd va d],
        exec i s = .next (trapped s .regionClobber (BitVec.ofNat 64 v))) ∧
    (∀ a : Src, readable s a = true →
      ((s.src a).toNat ≤ 1 → exec (.gtie a) s = .next ((reads s [a]).updX fun x => { x with geocfg := decide (s.src a = 1) })) ∧
      (1 < (s.src a).toNat → ∃ t, exec (.gtie a) s = .next t ∧ t.m = (trapped s .illegalOperand 0).m ∧ t.iss.dead = true)) ∧
    ∀ c, c < 384 →
      ((s.m.core c).epu = none → exec (.predicateComplete c) s = .next s) ∧
      ∀ e, (s.m.core c).epu = some e → exec (.predicateComplete c) s =
        .next (s.upd fun m => (m.updCore c fun k =>
          { k with epu := none, v := k.v.put e.vd ((k.v.get Mem.empty e.vd).write 0 e.res) }).putDst c e.fw e.dst e.count)

/-- The signs of the predicates are those of the determinants over the exact coordinates (06 R170): 0x01 for a positive one, 0xFF for a negative
one, and in mode 0 the byte 0x00, counted as an exact zero, for 0. -/
def Obligations.PredicateSigns : Prop :=
  ∀ (x0 y0 z0 x1 y1 z1 x2 y2 z2 x3 y3 z3 x4 y4 z4 : Int),
    let lane (v : Int) : Nat × Bool := (if v < 0 then 0xFF else if v = 0 then 0x00 else 0x01, decide (v = 0))
    detLane orient2Det 2 false [[x0, y0], [x1, y1], [x2, y2]] = lane ((x1 - x0) * (y2 - y0) - (y1 - y0) * (x2 - x0)) ∧
    detLane orient3Det 3 false [[x0, y0, z0], [x1, y1, z1], [x2, y2, z2], [x3, y3, z3]] =
      lane (rows3 (x0 - x3) (y0 - y3) (z0 - z3) (x1 - x3) (y1 - y3) (z1 - z3) (x2 - x3) (y2 - y3) (z2 - z3)) ∧
    detLane incircDet 2 false [[x0, y0], [x1, y1], [x2, y2], [x3, y3]] =
      lane (rows3 (x0 - x3) (y0 - y3) (square (x0 - x3) + square (y0 - y3)) (x1 - x3) (y1 - y3) (square (x1 - x3) + square (y1 - y3))
        (x2 - x3) (y2 - y3) (square (x2 - x3) + square (y2 - y3))) ∧
    detLane insphDet 3 false [[x0, y0, z0], [x1, y1, z1], [x2, y2, z2], [x3, y3, z3], [x4, y4, z4]] =
      lane (rows4 [x0 - x4, y0 - y4, z0 - z4] [x1 - x4, y1 - y4, z1 - z4] [x2 - x4, y2 - y4, z2 - z4] [x3 - x4, y3 - y4, z3 - z4])

/-! # H. Synchronisation, copies, queues and regions (slot S6) -/

/-- The posted operations of synchronisation objects (07 R178, R179, R192, R194, R197, R208). Outside a region each acts at its object's home
and its bundle is held for the answer: SEMPOST adds, or answers SYNC_SEM_OVERFLOW; TLADD adds modulo 2^64; TLSET writes; BARARR counts an
arrival of an initialised record, advances it, and gives the generation that it arrived in. Inside a region an operation is buffered. A
misaligned address, and one that no range covers, raise their faults at issue. -/
def Obligations.SyncPosts : Prop :=
  ∀ (s : State) (d : Dst) (a b : Src),
    let va := s.src a
    let x := s.src b
    (readableAll s [a, b] = true →
      let t := (reads s [a, b]).latchAB 5 va x
      (va.toNat % 8 ≠ 0 →
        faults s (.sempost a b) .alignSync va ∧ faults s (.tladd a b) .alignSync va ∧ faults s (.tlset a b) .alignSync va) ∧
      (va.toNat % 8 = 0 → mapVa s.xp.ranges va.toNat 8 true true false = none →
        faults s (.sempost a b) .memRange va ∧ faults s (.tladd a b) .memRange va ∧ faults s (.tlset a b) .memRange va) ∧
      ∀ ia tg, objOf s va 8 true true ia tg →
        (s.inRegion = true → exec (.sempost a b) s = .next (t.buffer va ia x 0 []) ∧
          exec (.tladd a b) s = .next (t.buffer va ia x 0 []) ∧ exec (.tlset a b) s = .next (t.buffer va ia x 0 [])) ∧
        (s.inRegion = false → ∀ u p, homed s t 8 .atomic tg u p →
          let v := u.m.objWord p
          (v.toNat + x.toNat < 2 ^ 64 → exec (.sempost a b) s = .next (performed u p (bytesOfWord 8 (v + x)) .discard 0)) ∧
          (2 ^ 64 ≤ v.toNat + x.toNat → exec (.sempost a b) s = .next (answered s (noted .syncSemOverflow 0))) ∧
          exec (.tladd a b) s = .next (performed u p (bytesOfWord 8 (v + x)) .discard 0) ∧
          exec (.tlset a b) s = .next (performed u p (bytesOfWord 8 x) .discard 0))) ∧
    (readable s a = true →
      let t := (reads s [a]).latch 5 false va
      (s.inRegion = true → d ≠ .discard → faults s (.bararr d a) .regionIllegalOp 0) ∧
      ∀ ia tg, objOf s va 16 true true ia tg →
        (s.inRegion = true → exec (.bararr .discard a) s = .next (t.buffer va ia 0 0 [])) ∧
        (s.inRegion = false → ∀ u p, homed s t 16 .atomic tg u p →
          let r := Bar.ofBytes (u.m.readPlace p 16).2
          let r1 := { r with arrived := r.arrived + 1 }
          (r.init = false → exec (.bararr d a) s = .next (answered s (noted .syncBarrierUninit 0))) ∧
          (r.init = true → r.arrived = r.expected → exec (.bararr d a) s = .next (answered s (noted .syncBarrierOverrun 0))) ∧
          (r.init = true → r.arrived ≠ r.expected →
            exec (.bararr d a) s = .next (performed u p
              (if r1.arrived = r1.expected ∧ r1.beats = 0 then { r1 with gen := (r1.gen + 1) % 2 ^ 32, arrived := 0 } else r1).bytes
              d (BitVec.ofNat 64 r.gen)))))

/-- The waits of synchronisation objects (07 R180, R190 to R192, R195, R197, 09 R241). MON arms the monitor. MWAIT, SEMWAIT, BARWAIT and TLWAIT
complete as an acquire when their condition holds at the home: the word differs from the value taken, the semaphore covers the count with no
earlier waiter, the generation has passed, the timeline has reached its value; else the context waits there, with nothing of the bundle done.
One that the home has served completes with the value served, which D holds
already where the wait was served in the context's absence. None of them may stand in a region. -/
def Obligations.SyncWaits : Prop :=
  ∀ (s : State) (d : Dst) (a b : Src),
    let va := s.src a
    let x := s.src b
    let mine : Word := BitVec.ofNat 64 (s.xp.monStat.toNat / 8 * 8)
    let took (u : State) (v : Word) : State :=
      (u.updX fun y => { y with monVal := v, monStat := y.monStat ||| 2 }).putLate .held d v 0
    (s.inRegion = true → faults s (.mwait d b) .regionIllegalOp 0 ∧ faults s (.semwait d a b) .regionIllegalOp 0 ∧
      faults s (.barwait a b) .regionIllegalOp 0 ∧ faults s (.tlwait a b) .regionIllegalOp 0) ∧
    (readable s a = true → ∀ ia tg u p, objOf s va 8 true false ia tg → homed s ((reads s [a]).latch 5 false va) 8 .mon tg u p →
      exec (.mon a) s = .next ((u.updX fun y => { y with monStat := va + 1 }).putLate .held .discard 0 0)) ∧
    (s.inRegion = false → s.granted = none →
      (readable s b = true →
        (bitAt s.xp.monStat.toNat 0 = false → faults s (.mwait d b) .syncNoMonitor 0) ∧
        (bitAt s.xp.monStat.toNat 0 = true →
          ∀ ia tg u p, objOf s mine 8 true false ia tg → homed s ((reads s [b]).latch 5 true x) 8 .mon tg u p →
            let v := u.m.objWord p
            ((bitAt s.xp.monStat.toNat 1 = false ∨ v ≠ s.xp.monVal) → exec (.mwait d b) s = .next (took (acquired u p) v)) ∧
            (bitAt s.xp.monStat.toNat 1 = true → v = s.xp.monVal →
              exec (.mwait d b) s =
                .next (s.waitFor (.mon s.xp.monVal) mine (some p) (if x = 0 then none else some x))))) ∧
      (readableAll s [a, b] = true →
        let t := (reads s [a, b]).latchAB 5 va x
        (∀ ia tg u p, objOf s va 8 true true ia tg → homed s t 8 .atomic tg u p →
          let v := u.m.objWord p
          ((x = 0 ∨ (x ≤ v ∧ s.pre.semBusy p = false)) → exec (.semwait d a b) s =
            .next ((acquired (u.upd fun m => (m.cachedWrite s.iss.core p (bytesOfWord 8 (v - x))).objFelt s.iss.fw p
              (bytesOfWord 8 (v - x))) p).putLate .held d (v - x) 0)) ∧
          (x ≠ 0 → (v < x ∨ s.pre.semBusy p = true) → exec (.semwait d a b) s = .next (s.waitFor (.sem x) va (some p) none)) ∧
          ((v - x).toNat < 2 ^ 63 → exec (.tlwait a b) s = .next ((acquired u p).putLate .held .discard 0 0)) ∧
          (2 ^ 63 ≤ (v - x).toNat → exec (.tlwait a b) s = .next (s.waitFor (.tl x) va (some p) none))) ∧
        ∀ ia tg u p, objOf s va 16 true true ia tg → homed s t 16 .atomic tg u p →
          let r := Bar.ofBytes (u.m.readPlace p 16).2
          let past := 0 < (BitVec.ofNat 32 r.gen - BitVec.ofNat 32 x.toNat).toInt
          (r.init = false → exec (.barwait a b) s = .next (answered s (noted .syncBarrierUninit 0))) ∧
          (r.init = true → past → exec (.barwait a b) s = .next ((acquired u p).putLate .held .discard 0 0)) ∧
          (r.init = true → ¬past →
            exec (.barwait a b) s = .next (s.waitFor (.bar (BitVec.ofNat 32 x.toNat)) va (some p) none)))) ∧
    ∀ w v die off, s.inRegion = false → s.xp.wait = some w → w.granted = true → w.served = some [v] → w.obj = some (.hbm die off) →
      let fresh (t : State) : State := acquired (t.updX fun y => { y with wait := none }).drained (.hbm die off)
      let e : Dst := if w.done then .discard else d
      (readable s b = true → bitAt s.xp.monStat.toNat 0 = true →
        exec (.mwait d b) s = .next (((fresh ((reads s [b]).latch 5 true x)).updX fun y =>
          { y with monVal := v, monStat := y.monStat ||| 2 }).putLate .held e v 0)) ∧
      (readableAll s [a, b] = true →
        let t := fresh ((reads s [a, b]).latchAB 5 va x)
        exec (.semwait d a b) s = .next (t.putLate .held e v 0) ∧ exec (.barwait a b) s = .next (t.putLate .held .discard 0 0) ∧
        exec (.tlwait a b) s = .next (t.putLate .held .discard 0 0))

/-- Atomics (07 R201, 16 R350): the operation of R201 on 4 or 8 bytes at their home, the old value in D, sign-extended for the signed types; ACAS
compares with the value of D at issue; ACAS and ASWAP raise DET_ATOMIC_ORDER in a deterministic phase, and ACAS, like a form with a
destination, REGION_ILLEGAL_OP in a region; the others are buffered there. -/
def Obligations.AtomicOps : Prop :=
  ∀ (s : State) (ty : AtomT) (d : Dst) (r : BitVec 6) (a b : Src), readableAll s [a, b] = true →
    let va := s.src a
    let x := s.src b
    let n := if ty = .i32 ∨ ty = .n32 then 4 else 8
    let sg := decide (ty = .i32 ∨ ty = .i64)
    let y := x.toNat % 2 ^ (8 * n)
    let val (k : Nat) : Int := if sg ∧ 2 ^ (8 * n) ≤ 2 * k then (k : Int) - 2 ^ (8 * n) else k
    let det := bitAt s.xp.detStat.toNat 0
    let t := (reads s [a, b]).latchAB 5 va x
    let all : List Instr := [.aadd ty d a b, .amin ty d a b, .amax ty d a b, .aand ty d a b, .aor ty d a b, .axor ty d a b]
    (det = true → faults s (.aswap ty d a b) .detAtomicOrder 0 ∧ faults s (.acas ty r a b) .detAtomicOrder 0) ∧
    (det = false → s.inRegion = true → faults s (.acas ty r a b) .regionIllegalOp 0) ∧
    (s.inRegion = true → d ≠ .discard → ∀ i ∈ all, faults s i .regionIllegalOp 0) ∧
    (s.inRegion = true → d = .discard → ∀ ia tg, objOf s va n true true ia tg →
      (∀ i ∈ all, exec i s = .next (t.buffer va ia x 0 [])) ∧
      (det = false → exec (.aswap ty d a b) s = .next (t.buffer va ia x 0 []))) ∧
    (s.inRegion = false →
      (va.toNat % n ≠ 0 → ∀ i ∈ all, faults s i .alignAtomic va) ∧
      ∀ ia tg u p, objOf s va n true true ia tg → homed s t n .atomic tg u p →
        let old := (u.m.readPlace p n).2
        let o := natOfBytes old
        let gives (i : Instr) (k : Nat) : Prop := exec i s = .next (performed u p (bytesOfNat n k) d (loaded sg old))
        gives (.aadd ty d a b) ((o + y) % 2 ^ (8 * n)) ∧
        gives (.amin ty d a b) (if val y < val o then y else o) ∧ gives (.amax ty d a b) (if val o < val y then y else o) ∧
        gives (.aand ty d a b) (o &&& y) ∧ gives (.aor ty d a b) (o ||| y) ∧ gives (.axor ty d a b) (o ^^^ y) ∧
        (det = false → gives (.aswap ty d a b) y ∧
          exec (.acas ty r a b) s =
            .next (performed u p (bytesOfNat n (if o = (s.xp.sreg r.toNat).toNat % 2 ^ (8 * n) then y else o)) (.s r) (loaded sg old))))

/-- Fixed-point cells (02 R57 to R60, 07 R202): FXADD rounds its addend to the cell's exponent and adds it exactly; a sum out of range
saturates, sets OVF and raises FXCELL_OVERFLOW after the bundle's effect; a NaN or an infinity sets NONFIN and raises FXCELL_NONFINITE; FXREAD
gives the sum rounded once, with no flag; an uninitialised cell answers FXCELL_UNINIT; a cell in a scratchpad raises MEM_ATOMIC_TARGET. -/
def Obligations.FixedPointCells : Prop :=
  ∀ (s : State) (f64 : Bool) (d : Dst) (a b : Src),
    let va := s.src a
    let x : Machine.Num := if f64 then flt64.num (s.src b).toNat else flt32.num ((s.src b).toNat % 2 ^ 32)
    let sum (old : List Byte) (n : Bool) (m : Nat) (e : Int) : Int :=
      cellVal old + (if n then -1 else 1) * ((roundAt m (e - cellE old) 0 false).1 : Int)
    let fits (v : Int) : Prop := -(2 ^ 447 : Int) ≤ v ∧ v < 2 ^ 447
    (readableAll s [a, b] = true →
      let t := (reads s [a, b]).latchAB 5 va (s.src b)
      (∀ ia off, objOf s va 64 true true ia (.own off) → faults s (.fxadd f64 a b) .memAtomicTarget va) ∧
      (∀ ia j, objOf s va 64 true true ia (.mem j) → s.inRegion = true →
        exec (.fxadd f64 a b) s = .next (t.buffer va ia (s.src b) 0 [])) ∧
      ∀ ia j u p, s.inRegion = false → objOf s va 64 true true ia (.mem j) → homed s t 64 .atomic (.mem j) u p →
        let old := (u.m.readPlace p 64).2
        let st := cellSt old
        (bitAt st 0 = false → exec (.fxadd f64 a b) s = .next (answered s (noted .fxcellUninit 0))) ∧
        (bitAt st 0 = true → ∀ n m e, x = .fin n m e →
          (bitAt st 1 = false → fits (sum old n m e) →
            exec (.fxadd f64 a b) s = .next (performed u p (cellPut old st (sum old n m e)) .discard 0)) ∧
          (bitAt st 1 = true → exec (.fxadd f64 a b) s = .next (performed u p old .discard 0)) ∧
          (bitAt st 1 = false → 2 ^ 447 ≤ sum old n m e → s.iss.after = none →
            ∃ t', exec (.fxadd f64 a b) s = .next t' ∧ t'.iss.after = some (noted .fxcellOverflow 0) ∧
              t' = { ((performed u p (cellPut old (st + 2) (2 ^ 447 - 1)) .discard 0).upd fun m => m.logErr (Cause.code .fxcellOverflow)
                        kDetected { addr := ia, fw := s.iss.fw, loc := s.iss.core, info := BitVec.ofNat 64 ia }) with iss := t'.iss })) ∧
        (bitAt st 0 = true → bitAt st 2 = false → (∀ n m e, x ≠ .fin n m e) → s.iss.after = none →
          ∃ t', exec (.fxadd f64 a b) s = .next t' ∧ t'.iss.after = some (noted .fxcellNonfinite 0) ∧
            t' = { (performed u p (cellPut old (st + 4) (cellVal old)) .discard 0) with iss := t'.iss })) ∧
    (readable s a = true →
      (s.inRegion = true → faults s (.fxread f64 d a) .regionIllegalOp 0) ∧
      (s.inRegion = false → ∀ ia j u p, objOf s va 64 true false ia (.mem j) →
        homed s ((reads s [a]).latch 5 false va) 64 .mon (.mem j) u p →
        let old := (u.m.readPlace p 64).2
        let F := if f64 then flt64 else flt32
        let y : Machine.Num := if bitAt (cellSt old) 2 then .nan false else .fin (decide (cellVal old < 0)) (cellVal old).natAbs (cellE old)
        (bitAt (cellSt old) 0 = false → exec (.fxread f64 d a) s = .next (answered s (noted .fxcellUninit 0))) ∧
        (bitAt (cellSt old) 0 = true →
          exec (.fxread f64 d a) s = .next (performed u p old d (BitVec.ofNat 64 (F.put false false y).val)))))

/-- The team barrier, FENCE and QMARK (07 R196, R205, R206), and the events of waits (07 R180, R191, 10 R261): TBAR completes for the member that
arrives last, and for context 1 and a context of no team at once, with older stores performed, and else waits; QMARK performs older stores;
FENCE waits for the engine threads
of its context where PRED names them, and with nothing outstanding it is over at once; a request takes its place at its home; a served wait is granted; an MWAIT whose ticks have passed is
served with the word's value. -/
def Obligations.BarrierFenceWaits : Prop :=
  ∀ s : State,
    exec .qmark s = .next s.drained ∧
    (s.inRegion = true → faults s .tbar .regionIllegalOp 0) ∧
    (s.inRegion = false → (s.iss.fw = true ∨ s.kp.teamSize = 0) → exec .tbar s = .next s.drained) ∧
    (s.inRegion = false → s.iss.fw = false → s.kp.teamSize ≠ 0 → s.granted = none →
      let last := (∀ j, j < s.kp.teamSize → j ≠ s.kp.member → s.pre.hasTbar s.iss.core (s.xp.tbarIssued + 1) j = true) ∧
        s.pre.teamCopies s.owner = false
      (last → exec .tbar s = .next ((s.drained.updX fun x => { x with tbarIssued := x.tbarIssued + 1 }).updX fun x =>
        { x with tbarDone := x.tbarDone + 1, remoteSince := false })) ∧
      (¬last → exec .tbar s = .next (s.waitFor .tbar 0 none none))) ∧
    (∀ (sc : Scope) (pred succ : BitVec 8), s.m.copies = [] → s.m.subs = [] → s.m.commits = [] → s.pre.copies = [] → s.pre.subs = [] →
      s.pre.commits = [] → s.pre.peerReqs = [] → s.m.peerReqs = [] → s.kp.mx.rt = none → s.kp.xlatReqs = [] → s.xc.fences = [] →
      s.xc.storeq = [] →
      ∃ t, exec (.fence sc pred succ) s = .next t ∧ t.xc.fences = [] ∧ t.iss = s.iss ∧
        t.kc.dcache = (if (sc = .device ∨ sc = .system) ∧ (bitAt succ.toNat 0 ∨ bitAt succ.toNat 2) then Tab.empty else s.kc.dcache) ∧
        t = { s with m := { s.m with cores := t.m.cores } }) ∧
    (∀ (sc : Scope) (pred succ : BitVec 8), s.m = s.pre → s.xc.storeq = [] → (bitAt pred.toNat 3 = true ∨ bitAt pred.toNat 4 = true) →
      ∀ k ∈ s.m.copies, k.owner = s.owner → ∃ t, exec (.fence sc pred succ) s = .next t ∧
        ∃ f ∈ t.xc.fences, f.succ = succ ∧ k.id ∈ f.threads) ∧
    (∀ (who : Owner) (c : Nat) (fw : Bool) (w : Wait), s.m.homeOf who = some (c, fw) → (s.m.ctx c fw).wait = some w →
      (w.served.isSome = true → (s.m.ctx c fw).run = .running →
        exec (.waitComplete who) s = .next (s.upd fun m => m.updCtx c fw fun x => { x with wait := some { w with granted := true } })) ∧
      (w.served = none → exec (.waitComplete who) s = .next s) ∧
      (∀ r ∈ s.m.requests, r.who = who → (∀ q ∈ s.m.requests, q.who = who → q = r) → (s.m.ctx c fw).storeq = [] → s.m.waiters = [] →
        (∀ die off, r.obj ≠ some (.hbm die off)) → r.kept = false →
        ∀ n, r.kind = .sem n → exec (.waitRequestArrival who) s = .next (s.upd fun m => m.takePlace r)) ∧
      (∀ since ticks p, w.deadline = some (since, ticks) → w.obj = some p → w.served = none → ticks ≤ s.m.time - since →
        exec (.mwaitTimeout who) s = .next (s.upd fun m =>
          m.serveWait { who := who, obj := some p, kind := w.kind, asid := 0, det := false, kept := false } [m.objWord p]))) ∧
    ∀ who, s.m.requests = [] → exec (.waitRequestArrival who) s = .next s

/-- CPY, CPYT and SBIND (07 R182 to R185, R188): the checks of R185 in order, then the copy issues: its sequence number rises by one and goes to D,
the older stores that overlap its bytes are performed before it forks (09 R249), its record of 07 R183 is kept with where its ends lie, its beats
are added to its barrier record, and it waits in its context's queue, for its tick, or moves at once; SBIND binds the stream, which holds nothing yet. A full queue makes the context wait. -/
def Obligations.CopyIssue : Prop :=
  ∀ (s : State) (k : BitVec 3) (d : Dst) (b : Src) (q : BitVec 4), s.inRegion = false → readable s b = true →
    let ws : List Word := (List.range 8).map fun i => s.xp.sreg (8 * k.toNat + i)
    let sent (i : Instr) (z : State) (kind : CopyKind) (st : CopySt) : Prop :=
      let stream := match kind with | .sbind _ => true | _ => false
      let timed := match kind with | .cpyt _ => true | _ => false
      let u := z.updX fun x => { x with wait := none }
      let seq : Word := BitVec.ofNat 64 ((s.xp.cpySeq.toNat + 1) % 2 ^ 63)
      (∀ v, alignCopy ws = some v → faults s i .alignCopy v) ∧
      (alignCopy ws = none → ∀ e, s.copyMap ws stream = .error e → faults s i e.1 e.2) ∧
      (alignCopy ws = none → ∀ cm, s.copyMap ws stream = .ok cm →
        let reserved := Fmt.dec (BitVec.ofNat 8 (cSfmt ws)) = none ∨ Fmt.dec (BitVec.ofNat 8 (cDfmt ws)) = none
        let engine := s.pre.engineOf s.iss.core s.xp.asid (wordAt ws 0 + cm.src).toNat
          (if stream then iaOwn else (wordAt ws 1 + cm.dst).toNat)
        (reserved → faults s i .illegalFormat 0) ∧
        (¬reserved → badRecord ws stream = true → faults s i .engBadRecord 0) ∧
        (¬reserved → badRecord ws stream = false → stream = true → (s.xp.stream q.toNat).isBound = true →
          faults s i .engStreamBusy 0) ∧
        (¬reserved → badRecord ws stream = false → (stream = true → (s.xp.stream q.toNat).isBound = false) →
          (s.pre.copyFull s.owner timed engine = true → exec i s = .next (s.waitFor (.room timed engine) 0 none none)) ∧
          (s.pre.copyFull s.owner timed engine = false → cTotal ws ≠ 0 →
            let c : Copy :=
              { id := u.m.nextId, kind := kind, st := st, owner := s.owner, core := s.iss.core, fw := s.iss.fw, asid := s.xp.asid,
                seq := seq, desc := ws, srcDelta := cm.src, dstDelta := cm.dst, stampIa := cm.stamp, barIa := cm.bar,
                res := s.pre.resolve s.iss.core, moved := 0, beatsDone := 0, inRegion := false, waitTags := 0 }
            let w := (u.drainedOver c.hits).markCopy c
            ∀ m1, ((cm.bar = none ∧ m1 = w.m) ∨
             (∃ ia, cm.bar = some ia ∧
               w.m.raiseBeats (s.pre.agent s.iss.core s.iss.fw) (wordAt ws 6) ia (cBeats ws) = (m1, .ok ()))) →
            let v := ({ w with m := { m1 with nextId := m1.nextId + 1, copies := m1.copies ++ [c] } } : State).updX fun x =>
              { x with cpySeq := seq }
            exec i s = .next (if stream then
              v.updX fun y => { y with q := y.q.put q.toNat { bound := true, copy := c.id, complete := false, fifo := [] } }
            else v.put d seq))))
    sent (.cpy d k) s .cpy .queued ∧
    sent (.cpyt d k b) ((reads s [b]).latch 5 true (s.src b)) (.cpyt (s.src b))
      (if 0 < (s.src b - s.pre.time).toInt then .timed else .active) ∧
    sent (.sbind q k) s (.sbind q.toNat) .queued

/-- The life of a copy (07 R184, R186 to R189): the oldest queued copy of a context starts; a timed one starts once its tick has come; a copy that
is done, with every row and answer of its accesses in, writes its stamp and takes its last beats from its record, and is gone; one element of a
copy between two scratchpad places lands converted; a stream takes its next element; a copy that a fault met stops, once they are in; SADV
discards elements, waits for those to come, and reports those that never will (with a count of 0 on an unbound stream too: log 125). -/
def Obligations.CopyLife : Prop :=
  ∀ (s : State),
    (∀ (before after : List Copy) (k : Copy), s.m.copies = before ++ k :: after → (∀ j ∈ before, j.id ≠ k.id) → (∀ j ∈ after, j.id ≠ k.id) →
      let become (st : CopySt) : State := s.upd fun m => { m with copies := before ++ { k with st := st } :: after }
      let gone : State := s.upd fun m => { m with copies := before ++ after }
      (k.st = .queued → (∀ j ∈ before, j.owner = k.owner → j.st ≠ .queued) → exec (.copyStart k.id) s = .next (become .active)) ∧
      ((∃ j ∈ before, j.owner = k.owner ∧ j.st = .queued) → exec (.copyStart k.id) s = .next s) ∧
      (k.st = .timed → (∀ j ∈ before ++ after, j.st ≠ .timed) →
        ((k.tick - s.m.time).toInt ≤ 0 → exec (.timedCopyStart k.id) s = .next (become .active)) ∧
        (0 < (k.tick - s.m.time).toInt → exec (.timedCopyStart k.id) s = .next s)) ∧
      (k.st = .active → k.moved = cTotal k.desc → k.waitTags = 0 → s.m.inFlight k.id = false → k.kind = .cpy → k.stampIa = none → k.barIa = none →
        exec (.copyComplete k.id) s = .next gone) ∧
      (k.st = .active → k.moved = cTotal k.desc → k.waitTags = 0 → s.m.inFlight k.id = false → k.kind = .cpy → k.inRegion = false → ∀ c e o ia,
        k.res.of (iaTarget ia) = some (c, e, o) → s.m.accepts c e = true →
        (k.stampIa = some ia → k.barIa = none → o + 8 ≤ 0x180000 → exec (.copyComplete k.id) s = .next (s.upd fun m =>
          { m.spadWrite c o (bytesOfWord 8 (BitVec.ofNat 64 (k.seq.toNat % 2 ^ 63))) with copies := before ++ after })) ∧
        (k.stampIa = none → k.barIa = some ia → exec (.copyComplete k.id) s = .next (s.upd fun m =>
          { m.onBar (.spad c o) (fun r => r.fall (cBeats k.desc - k.beatsDone) false) with copies := before ++ after }))) ∧
      (k.st = .active → k.moved = 0 → cTotal k.desc = 1 → k.kind = .cpy → k.waitTags = 0 → k.stampIa = none → k.barIa = none →
        s.m.waiters = [] → k.inRegion = false → s.m.inFlight k.id = false → ∀ c e o1 o2,
        let x0 := (wordAt k.desc 0 + k.srcDelta).toNat
        let x1 := (wordAt k.desc 1 + k.dstDelta).toNat
        k.res.of (iaTarget x0) = some (c, e, o1) → k.res.of (iaTarget x1) = some (c, e, o2) → s.m.accepts c e = true →
        o1 + cWs k.desc ≤ 0x180000 → o2 + cWd k.desc ≤ 0x180000 → s.m.badSpad c o1 (cWs k.desc) = false →
        ∃ t, exec (.copyComplete k.id) s = .next t ∧ t.m.copies = before ++ after ∧
          (t.m.core c).spad = (s.m.core c).spad.write o2
            (convElem (cSfmt k.desc) (cDfmt k.desc) ((s.m.core c).spad.read o1 (cWs k.desc))) ∧
          ∀ c', c' ≠ c → t.m.core c' = s.m.core c') ∧
      (∀ t, k.st = .failed t → (k.waitTags ≠ 0 ∨ s.m.inFlight k.id = true) → exec (.copyStop k.id) s = .next s) ∧
      (∀ t, k.st = .failed t → k.waitTags = 0 → s.m.inFlight k.id = false →
        exec (.copyStop k.id) s = .next (s.upd fun m => m.stopCopy k t)) ∧
      (∀ t, k.st = .failed t → k.waitTags = 0 → s.m.inFlight k.id = false → t.viol = none → k.inRegion = false → k.stampIa = none → k.barIa = none → k.kind = .cpy →
        exec (.copyStop k.id) s = .next (gone.upd fun m => m.holdFault k.owner (Cause.code .engCopyError) k.seq)) ∧
      (∀ q, k.kind = .sbind q → exec (.streamAppend k.id) s = .next (s.upd fun m => m.land1 k.id)) ∧
      (∀ q, k.kind = .sbind q → (s.m.streamOf k q).fifo.length = 64 → exec (.streamAppend k.id) s = .next s)) ∧
    (∀ id, (∀ j ∈ s.m.copies, j.id ≠ id) → ∀ i ∈ [Instr.copyStart id, .timedCopyStart id, .copyComplete id, .copyStop id, .streamAppend id],
      exec i s = .next s) ∧
    ∀ (q : BitVec 4) (b : Src),
      let n := (s.src b).toNat
      let u := (reads s [b]).latch 5 true (s.src b)
      let st := u.xc.stream q.toNat
      (s.inRegion = true → faults s (.sadv q b) .regionIllegalOp 0) ∧
      (s.inRegion = false → readable s b = true → s.granted = none →
        ((s.xp.stream q.toNat).isBound = false → faults s (.sadv q b) .engStreamUnbound 0) ∧
        ((s.xp.stream q.toNat).isBound = true → n = 0 → exec (.sadv q b) s = .next u) ∧
        ((s.xp.stream q.toNat).isBound = true → s.kp.strmBusy s.iss.fw q.toNat = true → n ≠ 0 → exec (.sadv q b) s = .next s.stall) ∧
        ((s.xp.stream q.toNat).isBound = true → s.kp.strmBusy s.iss.fw q.toNat = false → n ≠ 0 →
          (n ≤ st.fifo.length →
            exec (.sadv q b) s = .next (u.updX fun x => { x with q := x.q.put q.toNat { st with fifo := st.fifo.drop n } })) ∧
          (st.fifo.length < n → st.complete = false → exec (.sadv q b) s = .next (s.waitFor (.sadv q.toNat n) 0 none none)) ∧
          (st.fifo.length < n → st.complete = true → s.iss.after = none → ∃ t, exec (.sadv q b) s = .next t ∧
            t.iss.after = some (noted .engStreamUnbound (BitVec.ofNat 64 (n - st.fifo.length))) ∧
            t.xc.stream q.toNat = { st with fifo := [] })))

/-- DEQ and ENQ (07 R199, R200, 10 R266, R267): the queue's number, owner and state are checked in order; DEQ gives the eight words of the oldest
ready item, an acquire, and the item leaves its queue; a closed queue with no item gives zeros; ENQ refuses an item of zeros and a closed
queue, and its item is appended; where there is no item or no room the context waits; inside a region DEQ is illegal and ENQ, after the same
checks (log 41), buffered. -/
def Obligations.WorkQueues : Prop :=
  ∀ (s : State) (k : BitVec 3) (a : Src), readable s a = true →
    let q := (s.src a).toNat
    let w := s.pre.wqAt q
    let u := (reads s [a]).latch 5 false (s.src a)
    let ws : List Word := (List.range 8).map fun i => s.xp.sreg (8 * k.toNat + i)
    let zero := ∀ x ∈ ws, x = 0
    (s.inRegion = true → faults s (.deq k a) .regionIllegalOp 0) ∧
    (s.granted = none → 1024 ≤ q → faults s (.enq a k) .syncQueueRange 0 ∧ (s.inRegion = false → faults s (.deq k a) .syncQueueRange 0)) ∧
    (s.granted = none → q < 1024 → s.inRegion = true → (∀ c, s.pre.queueGate s.xp.asid q = some c → faults s (.enq a k) c 0) ∧
      (s.pre.queueGate s.xp.asid q = none → (zero → faults s (.enq a k) .syncQueueItem 0) ∧
        (¬zero → w.state = 2 → faults s (.enq a k) .syncQueueClosed 0) ∧
        (¬zero → w.state ≠ 2 → exec (.enq a k) s = .next (u.buffer 0 0 (s.src a) q ws)))) ∧
    (s.granted = none → q < 1024 → s.inRegion = false →
      let both (c : Cause) : Prop := faults s (.deq k a) c 0 ∧ faults s (.enq a k) c 0
      let mine := w.cfg.toNat / 2 ^ 50 = s.xp.asid
      (¬mine → both .syncQueuePerm) ∧ (mine → w.state = 0 → both .syncQueueState) ∧ (mine → w.state = 3 → both .syncQueueError) ∧
      (mine → w.state ≠ 0 → w.state ≠ 3 →
        (s.pre.deqBusy q = true → exec (.deq k a) s = .next (s.waitFor (.deq q) 0 none none)) ∧
        (s.pre.deqBusy q = false →
          (u.drained.m.deqServe s.owner q s.det = none → exec (.deq k a) s = .next (s.waitFor (.deq q) 0 none none)) ∧
          ∀ vs m1, u.drained.m.deqServe s.owner q s.det = some (vs, m1) →
            exec (.deq k a) s = .next ((({ u with m := m1 } : State).upd fun m => m.dropCache s.iss.core).putGroup k.toNat vs)) ∧
        (zero → faults s (.enq a k) .syncQueueItem 0) ∧ (¬zero → w.state = 2 → faults s (.enq a k) .syncQueueClosed 0) ∧
        (¬zero → w.state ≠ 2 → ∀ m1 gs, u.drained.m.enqGranules (s.pre.agent s.iss.core s.iss.fw) ws = (m1, .ok gs) →
          ((m1.enqRoom q ws = true ∧ s.pre.enqBusy q = false) → exec (.enq a k) s = .next { u with m := m1.enqServe q ws gs s.det }) ∧
          (¬(m1.enqRoom q ws = true ∧ s.pre.enqBusy q = false) →
            exec (.enq a k) s = .next (s.waitFor (.enq q ws gs) 0 none none))))) ∧
    ∀ (m : Mach) (o : Owner) (n : Nat) (det : Bool) (it : QItem) (r : List QItem), (m.wqAt n).items = it :: r → it.bad = false →
      it.hold = none → it.ent = none → itemType it.words = 1 → m.waiters = [] → ((m.wqAt n).state = 1 ∨ (m.wqAt n).state = 2) →
      ∃ m1, m.deqServe o n det = some (it.words, m1) ∧ r <:+ (m1.wqAt n).items ∧
        m1.cores = m.cores

/-- The commands of WQCTL and a write of WQIDX.TAIL (12 R294, R295, 17 R357), on the queue that WQSEL of the core names: OPEN starts an OFF queue
at indexes 0 and reopens a closed one; CLOSE closes an open one; RESET empties it; RESTART of a queue in ERROR drops the items before an index;
a TAIL below the present one takes back the last items. In another state they raise SYNC_QUEUE_STATE, and so does a CMD that names no command. -/
def Obligations.WorkQueueCommands : Prop :=
  ∀ s : State, s.m.wq = s.pre.wq →
    let q := s.kp.wqSel.toNat % 1024
    let w := s.pre.wqAt q
    let len := (w.tail - w.head).toNat
    let becomes (f : WQ → WQ) : State := s.upd fun m => m.updWq q f
    (w.state = 0 → exec .wqOpen s =
      .next (becomes fun w => { w with state := 1, head := 0, tail := 0, items := [], requeue := [] })) ∧
    (w.state = 2 → exec .wqOpen s = .next (becomes fun w => { w with state := 1 })) ∧
    (w.state ≠ 0 → w.state ≠ 2 → faults s .wqOpen .syncQueueState 0) ∧
    (w.state = 1 → s.m.waiters = [] → exec .wqClose s = .next (becomes fun w => { w with state := 2 })) ∧
    (w.state ≠ 1 → faults s .wqClose .syncQueueState 0) ∧
    (∀ a, s.iss.fw = true → readable s a = true → (s.src a).toNat % 8 ∈ [0, 5, 6, 7] → faults s (.csrw 0x0F3 a) .syncQueueState 0) ∧
    (s.m.waiters = [] → (∀ it ∈ w.items ++ w.requeue, it.ent = none) →
      exec .wqReset s = .next (becomes fun w => { w with state := 0, items := [], requeue := [] })) ∧
    (∀ arg : BitVec 32, (w.state ≠ 3 → faults s (.wqRestart arg) .syncQueueState 0) ∧
      (w.state = 3 → len < (arg - w.head).toNat → faults s (.wqRestart arg) .illegalOperand 0) ∧
      (w.state = 3 → (arg - w.head).toNat ≤ len → (∀ it ∈ w.items, it.ent = none ∧ it.bad = false) → w.requeue = [] →
        ∃ t, exec (.wqRestart arg) s = .next t ∧ (t.m.wqAt q).items = w.items.drop (arg - w.head).toNat ∧
          (t.m.wqAt q).head = arg ∧ (t.m.wqAt q).state = w.prev ∧ t.m.cores = s.m.cores)) ∧
    ∀ tail : BitVec 32, (w.state = 0 → exec (.wqTailWrite tail) s = .next (becomes fun w => { w with tail := tail })) ∧
      (w.state ≠ 0 → (tail - w.head).toNat < len → (tail - w.head).toNat ≤ w.cap → (∀ it ∈ w.items, it.ent = none) →
        exec (.wqTailWrite tail) s =
          .next (becomes fun x => { x with items := w.items.take (tail - w.head).toNat, tail := tail }))

/-- Task regions (07 R207 to R209, 09 R253, 10 R268, R269): TBEGIN checks, in order, that no region is open, that the context holds a task, and
that the core renames for one that writes; it then checkpoints the registers and opens the region, an acquire. TEND waits for the region's
copies, leaves a region that its own bundle is to abort (05 R139), and else closes the region and forks its commit, or, in a deterministic phase, adds the
task's write set to the phase log, which a task that finds no room marks as overflown (16 R349); COMMIT_COMPLETE performs the stores and then
the operations, in program order, of a commit that no earlier task holds back, and the task leaves the dependence table; operations that must
wait are left for later. -/
def Obligations.TaskRegions : Prop :=
  ∀ s : State,
    (∀ k : BitVec 4,
      (s.xp.region ≠ none → faults s (.tbegin k) .regionNested 0) ∧
      (s.xp.region = none → (s.iss.fw = true ∨ s.xp.tasks = []) → faults s (.tbegin k) .taskNoTask 0) ∧
      (∀ t r, s.xp.region = none → s.iss.fw = false → s.xp.tasks = t :: r →
        (itemNw t.item ≠ 0 → bitAt s.kp.taskRen.toNat 0 = false → faults s (.tbegin k) .taskNoRename 0) ∧
        ((itemNw t.item = 0 ∨ bitAt s.kp.taskRen.toNat 0 = true) → ∀ e, s.pre.entOf t.ent = some e →
          exec (.tbegin k) s = .next ((s.upd fun m => m.dropCache s.iss.core).updX fun x => { x with region := some {
            task := t, beginPc := s.iss.addr, live := s.liveMask k.toNat,
            chk := { s := s.xp.s, p := s.xp.p, loops := s.xp.loops, rq := s.xp.rq, lat := s.xp.lat }, reads := e.reads, writes := e.writes,
            ren := s.kp.taskRen.toNat / 2 ^ 16 % 2 ^ 36 * 2 ^ 16, slots := Tab.empty, masks := Tab.empty, log := [], ops := [], copies := [],
            aborted := none } })))) ∧
    (s.inRegion = false → faults s .tend .regionNotOpen 0) ∧
    (∀ r, s.inRegion = true → s.xc.region = some r → (∀ p ∈ s.xc.pend, p.err = none) →
      ((∃ k ∈ s.m.copies, k.id ∈ r.copies) → exec .tend s = .next s.stall) ∧
      ((∀ k ∈ s.m.copies, k.id ∉ r.copies) → s.iss.doom ≠ none → exec .tend s = .next s) ∧
      ((∀ k ∈ s.m.copies, k.id ∉ r.copies) → s.iss.doom = none → s.det = false →
        let g := s.pre.agent s.iss.core s.iss.fw
        let u := s.updX fun x => { x with region := none, tasks := x.tasks.erase r.task }
        exec .tend s = .next { u with m := { u.m with
          tdt := u.m.tdt.map fun e => if r.task.ent = some e.id then { e with st := 2 } else e
          nextId := u.m.nextId + 1
          commits := u.m.commits ++ [{ id := u.m.nextId, owner := s.owner, core := g.core, fw := g.fw, asid := g.asid, ent := r.task.ent,
                                       queue := r.task.queue, stores := r.log, ops := r.ops, ranges := g.ranges, res := g.res, det := false }] } }) ∧
      ((∀ k ∈ s.m.copies, k.id ∉ r.copies) → s.iss.doom = none → s.det = true → (∀ b ∈ r.ops, b.isEnq = false) →
        let g := s.pre.agent s.iss.core s.iss.fw
        let u := s.updX fun x => { x with region := none, tasks := x.tasks.erase r.task }
        let x : LogTask := { tid := r.task.tid, asid := g.asid, owner := s.owner, core := g.core, grans := r.grans, ops := r.ops,
                             ranges := g.ranges, res := g.res }
        let m1 := u.m.appendLog x
        exec .tend s = .next { u with m := { m1 with tdt := m1.tdt.map fun e => if r.task.ent = some e.id then { e with st := 2 } else e } } ∧
        ∀ p, u.m.phase = some p →
          let n := logSize x.grans (x.ops.filter BufOp.logged)
          let room := p.overflow = false ∧ p.logBytes + n ≤ 2 ^ (u.m.detBuf.toNat % 32) * 65536
          (¬room → m1 = { u.m with phase := some { p with overflow := true } }) ∧
          (room → m1 = Mach.fwWrite
            { u.m with phase := some { p with log := p.log ++ [x], logBytes := p.logBytes + n }, nonce := u.m.nonce + n }
            (u.m.detBuf.toNat / 2 ^ 16 % 2 ^ 36 * 2 ^ 16 + 0x10000 + p.logBytes) (freeBytes n u.m.nonce)))) ∧
    (∀ id, (∀ k ∈ s.m.commits, k.id ≠ id) → exec (.commitComplete id) s = .next s) ∧
    ∀ (k : Commit) (before after : List Commit), s.m.commits = before ++ k :: after → (∀ j ∈ before, j.id ≠ k.id) →
      (∀ j ∈ after, j.id ≠ k.id) →
      (∀ e, s.m.entOf k.ent = some e → s.m.tdtCommit e = false → exec (.commitComplete k.id) s = .next s) ∧
      ((∀ e, s.m.entOf k.ent = some e → s.m.tdtCommit e = true) → k.ops = [] →
        let m1 := Mach.commitStores k.owner k.agent k.stores s.m
        exec (.commitComplete k.id) s =
          .next { s with m := Mach.dropEnt { m1 with commits := m1.commits.filter fun j => j.id ≠ k.id } k.ent }) ∧
      ((∀ e, s.m.entOf k.ent = some e → s.m.tdtCommit e = true) → ∀ left m2,
        Mach.commitOps k.owner k.agent k.det k.ops (Mach.commitStores k.owner k.agent k.stores s.m) = (left, m2) →
        (left = [] → exec (.commitComplete k.id) s =
          .next { s with m := Mach.dropEnt { m2 with commits := m2.commits.filter fun j => j.id ≠ k.id } k.ent }) ∧
        (left ≠ [] → exec (.commitComplete k.id) s =
          .next { s with m := { m2 with commits := m2.commits.map fun j =>
            if j.id = k.id then { j with stores := [], ops := left } else j } })) ∧
      (∀ (o : Owner) (g : Agent) (det : Bool) (m m1 : Mach) (b : BufOp) (r : List BufOp) (x y : Src) (die off : Nat),
        g.res.of (iaTarget b.ia) = none → m.translate g.asid b.ia .atomic = (m1, .ok (.hbm die off)) →
        let p : Place := .hbm die off
        let v := m1.objWord p
        let goesOn (m2 : Mach) : Prop := Mach.commitOps o g det (b :: r) m = Mach.commitOps o g det r m2.wakeObjs
        (b.instr = .tladd x y → goesOn (m1.writePlace p (bytesOfWord 8 (v + b.opnd)))) ∧
        (b.instr = .tlset x y → goesOn (m1.writePlace p (bytesOfWord 8 b.opnd))) ∧
        (b.instr = .sempost x y → v.toNat + b.opnd.toNat < 2 ^ 64 → goesOn (m1.writePlace p (bytesOfWord 8 (v + b.opnd)))) ∧
        (b.instr = .sempost x y → 2 ^ 64 ≤ v.toNat + b.opnd.toNat → goesOn (m1.holdFault o (Cause.code .syncSemOverflow) 0))) ∧
      (∀ (o : Owner) (g : Agent) (m m1 : Mach) (ia : Nat) (bs : List Byte) (r : List (Nat × List Byte)) (p : Place),
        m.translate g.asid ia .commitWr = (m1, .ok p) →
        (∀ c fw, m1.homeOf o = some (c, fw) →
          Mach.commitStores o g ((ia, bs) :: r) m = Mach.commitStores o g r (m1.cachedWrite c p bs).wakeObjs) ∧
        (m1.homeOf o = none → Mach.commitStores o g ((ia, bs) :: r) m = Mach.commitStores o g r (m1.writePlace p bs).wakeObjs))

/-! # I. The system instructions and the registers that command a unit -/

/-- CSRR, CSRW and RRW (07 R210, R211, 01 R33, 02 R46, 05 R132, R147, 06 R152, 14 R319): a privileged register raises PRIV_CSR in context 0, on any
access or on a write; CSRR reads the register as the bundle finds it; CSRW stores what the register keeps of the value, and nothing else
changes; FFLAGS waits for the older operations that will set it; RRW replaces the four words of a range register. -/
def Obligations.CsrAccess : Prop :=
  ∀ (s : State) (d : Dst) (a : Src) (n : BitVec 12), readable s a = true →
    let v := s.src a
    let k := s.kp
    let x := s.xp
    let u := reads s [a]
    let idle := ∀ o ∈ s.kp.vops, o.fw = s.iss.fw → o.drain ≠ none
    let closed (lo hi : Nat) : Prop := lo ≤ n.toNat ∧ n.toNat ≤ hi
    let priv := n = 0x049 ∨ closed 0x0F0 0x0F4 ∨ closed 0x0F8 0x0FB ∨ closed 0x101 0x10D ∨ closed 0x150 0x192 ∨ closed 0x1A0 0x1BF
    (s.iss.fw = false → priv → faults s (.csrr d n) .privCsr 0 ∧ faults s (.csrw n a) .privCsr 0) ∧
    (s.iss.fw = false → (closed 0x040 0x047 ∨ n ∈ [0x051, 0x052, 0x059, 0x061, 0x062, 0x069, 0x06C]) → faults s (.csrw n a) .privCsr 0) ∧
    (n = 0x048 → ¬idle → exec (.csrr d n) s = .next s.stall) ∧
    ((s.iss.fw = true ∨ ¬priv) → (n = 0x048 → idle) → ∃ w : Word, exec (.csrr d n) s = .next (s.put d w) ∧
      ∀ p ∈ [(0x040#12, (BitVec.ofNat 64 k.fwShare : Word)), (0x042, BitVec.ofNat 64 k.ilimit), (0x043, k.freezeCnt), (0x044, k.replayCnt),
        (0x045, BitVec.ofNat 64 ((if x.flex then 8 else 0) + x.loops.length)), (0x046, k.cycles), (0x047, x.yieldSkip),
        (0x048, BitVec.ofNat 64 x.fflags.toNat), (0x050, x.vl), (0x051, x.rngSeed), (0x052, x.rngCtr),
        (0x058, if x.geocfg then 1 else 0), (0x059, k.mx.mode), (0x05A, k.mx.seq), (0x060, x.cpySeq), (0x061, x.monStat),
        (0x062, x.monVal), (0x064, k.xlatDone), (0x065, x.lcid), (0x066, k.teamCfg), (0x067, x.cores), (0x069, k.taskRen),
        (0x06A, x.detStat), (0x06C, k.swimg), (0x0F0, k.wqSel), (0x0F8, k.slice), (0x100, BitVec.ofNat 64 x.asid), (0x101, s.pre.rootBase),
        (0x110, x.tvec), (0x111, x.tsave), (0x113, x.l1.cause), (0x114, x.l1.epc), (0x115, x.l1.tval), (0x116, x.l1.tscr),
        (0x117, x.l2.cause), (0x118, x.l2.epc), (0x119, x.l2.tval), (0x11A, x.l2.tscr), (0x11B, x.killRec)], n = p.1 → w = p.2) ∧
    (n = 0x048 → ¬idle → exec (.csrw n a) s = .next s.stall) ∧
    (idle → ∀ p ∈ [(0x048#12, fun y : Ctx => { y with fflags := v.setWidth 5 }), (0x058, fun y => { y with geocfg := v.getLsbD 0 }),
        (0x110, fun y => { y with tvec := v &&& ~~~(0x3E : Word) }), (0x111, fun y => { y with tsave := v &&& ~~~(0x3FF : Word) }),
        (0x114, fun y => { y with l1 := { y.l1 with epc := v } }), (0x116, fun y => { y with l1 := { y.l1 with tscr := v } }),
        (0x118, fun y => { y with l2 := { y.l2 with epc := v } }), (0x11A, fun y => { y with l2 := { y.l2 with tscr := v } })],
      exec (.csrw p.1 a) s = .next (u.updX p.2)) ∧
    (s.iss.fw = true → ∀ p ∈ [(0x047#12, fun y : Ctx => { y with yieldSkip := v }), (0x051, fun y => { y with rngSeed := v }),
        (0x052, fun y => { y with rngCtr := v }), (0x062, fun y => { y with monVal := v })],
      exec (.csrw p.1 a) s = .next (u.updX p.2)) ∧
    (s.iss.fw = true → ∀ p ∈ [(0x042#12, fun y : Core => { y with ilimit := max 72 (v.toNat % 2 ^ 16) }),
        (0x043, fun y => { y with freezeCnt := v }), (0x044, fun y => { y with replayCnt := v }),
        (0x0F0, fun y => { y with wqSel := v &&& 0x3FF }), (0x0F8, fun y => { y with slice := v }), (0x0FA, fun y => { y with divSel := v &&& 0xFFF })],
      exec (.csrw p.1 a) s = .next (u.updK p.2)) ∧
    (∀ p : BitVec 12, p ∈ [(0x045 : BitVec 12), 0x046, 0x05A, 0x05B, 0x060, 0x064, 0x065, 0x066, 0x067, 0x068, 0x06A] → s.iss.fw = true →
      exec (.csrw p a) s = .next u) ∧
    ∀ (ctx : Bool) (idx : BitVec 3) (g : BitVec 4),
      let w (j : Nat) : Word := s.xp.sreg (4 * g.toNat + j)
      (rangeWordsOk (w 0) (w 1) (w 2) (w 3) = false → faults s (.rrw ctx idx g) .illegalOperand 0) ∧
      (rangeWordsOk (w 0) (w 1) (w 2) (w 3) = true → ∃ t, exec (.rrw ctx idx g) s = .next t ∧
        (∀ j, j < 4 → (t.kc.ctx ctx).ranges.get 0 (4 * idx.toNat + j) = w j) ∧
        (∀ m e, (m < 4 * idx.toNat ∨ 4 * idx.toNat + 4 ≤ m) → (t.kc.ctx ctx).ranges.get e m = (s.kc.ctx ctx).ranges.get e m) ∧
        t.kc = s.kc.setCtx ctx { s.kc.ctx ctx with ranges := (t.kc.ctx ctx).ranges } ∧ (∀ c, c ≠ s.iss.core → t.m.core c = s.m.core c) ∧
        t = { s with m := { s.m with cores := t.m.cores } })

/-- The registers whose writes command rings (08 R222, R223, R225), the watchdog (20 R408), routing tables (13 R306), a stopped phase (16 R354)
and PEERAOP (18 R375): a refused value raises its fault; RINGCFG empties its ring; RINGPUSH and RINGPOP move its counts; WDOG feeds the watchdog;
XGEN INSTALL waits while an install drains, then makes the staged tables those of the next generation; a record outside the own scratchpad is refused after the checks of its
addresses, and DET_ATOMIC_ORDER comes before every other check of a remote atomic. MOULDGO, PRESSGO and PEERAOP with a record that passes every check (08 R229 to R232, 18 R375): the subscription is entered with its record,
or the atomic is sent, and CPYSEQ rises by one for it. -/
def Obligations.CsrCommands : Prop :=
  (∀ (s : State) (v : Word),
      let c := s.iss.core
      let r := v.toNat % 16
      let n := v.toNat / 256 % 256
      let cfg := s.kp.ringCfgOf r
      let arg := v.toNat / 2 ^ 16 = 0 ∧ v.toNat / 16 % 16 = 0 ∧ n ≠ 0
      exec (.wdogWrite v) s = .next (s.updK fun k => { k with wdogFed := true, wdogTick := s.pre.time }) ∧
      (¬arg → faults s (.ringpush v) .illegalOperand 0 ∧ faults s (.ringpop v) .illegalOperand 0) ∧
      (arg → (ringV cfg = false → faults s (.ringpush v) .engRingUndefined 0 ∧ faults s (.ringpop v) .engRingUndefined 0) ∧
        (ringV cfg = true →
          (ringProd cfg ≠ 0 → faults s (.ringpush v) .engRingRole 0) ∧ (ringCons cfg ≠ 0 → faults s (.ringpop v) .engRingRole 0) ∧
          (ringProd cfg = 0 →
            ((s.kp.ringOf r).free cfg < n → faults s (.ringpush v) .engRingOverrun 0) ∧
            (n ≤ (s.kp.ringOf r).free cfg → exec (.ringpush v) s = .next (s.drained.updK fun k => k.ringPush r n))) ∧
          (ringCons cfg = 0 →
            ((s.kp.ringOf r).full < n → faults s (.ringpop v) .engRingOverrun 0) ∧
            (n ≤ (s.kp.ringOf r).full → (s.kc.ringOf r).lent = [] →
              exec (.ringpop v) s = .next (s.upd fun m => m.ringPop c r n) ∧
              ((s.m.ringPop c r n).core c).ringOf r = { s.kc.ringOf r with r := (s.kc.ringOf r).r + BitVec.ofNat 32 n })))) ∧
      (∀ g : BitVec 4,
        let busy := (∃ x ∈ s.pre.subs, s.pre.serves x c g.toNat = true) ∨ s.kp.mx.rt ≠ none
        (ringCfgBad v.toNat = true → faults s (.ringcfgWrite g v) .illegalOperand 0) ∧
        (ringCfgBad v.toNat = false → busy → faults s (.ringcfgWrite g v) .engRingBusy 0) ∧
        (ringCfgBad v.toNat = false → ¬busy → (s.kp.ringOf g.toNat).lentCount = 0 → ∃ t, exec (.ringcfgWrite g v) s = .next t ∧
          t.kc.ringCfg.get 0 g.toNat = v ∧ t.kc.ringOf g.toNat = RingSt.reset ∧ (∀ j, j ≠ g.toNat → t.kc.ringOf j = s.kc.ringOf j) ∧
          t.kc.c0 = s.kc.c0 ∧ t.kc.c1 = s.kc.c1 ∧ ∀ k, k ≠ c → t.m.core k = s.m.core k)) ∧
      (s.m.genBusy = true → exec .xgenInstall s = .next (s.waitFor .install 0 none none)) ∧
      (s.m.genBusy = false →
        exec .xgenInstall s = .next (s.endWait.upd fun m => { m with gen := (m.gen + 1) % 256, genBusy := true, routes := m.staged })) ∧
      exec .xgenDrainDone s = .next (s.upd fun m => { m with genBusy := false }) ∧
      ((∀ p, s.pre.phase = some p → p.stopped = none) →
        faults s .replcmdCommit .illegalOperand 0 ∧ faults s .replcmdDiscard .illegalOperand 0) ∧
      (∀ p st, s.pre.phase = some p → p.stopped = some st →
        (∃ t, exec .replcmdDiscard s = .next t ∧ t.m.phase = some { p with stopped := none, report := some (6, p.digest) } ∧ t.iss = s.iss) ∧
        ∃ t, exec .replcmdCommit s = .next t ∧ t.m.phase = some { p with stopped := none, report := some (st, p.digest) } ∧ t.iss = s.iss) ∧
      (∀ i ∈ [Instr.mouldgo v, .pressgo v], v.toNat % 128 ≠ 0 → faults s i .alignCopy v) ∧
      (∀ e, v.toNat % 128 = 0 → reach s v.toNat 128 true false = .error e → ∀ i ∈ [Instr.mouldgo v, .pressgo v], faults s i e v) ∧
      (∀ tg, v.toNat % 128 = 0 → reach s v.toNat 128 true false = .ok tg → (∀ off, tg ≠ .own off) → ∀ mould : Bool,
        let i : Instr := if mould then .mouldgo v else .pressgo v
        (s.recordAt s.drained v 16 = none → faults s i .engBadRecord 0) ∧
        ∀ d, s.recordAt s.drained v 16 = some d → (∀ va, alignSub d = some va → faults s i .alignCopy va) ∧
          (alignSub d = none → (∀ e, s.subMaps d mould = .error e → faults s i e.1 e.2) ∧
            ∀ p, s.subMaps d mould = .ok p → faults s i .engBadRecord 0)) ∧
      (s.inRegion = true → faults s (.peeraop v) .regionIllegalOp 0) ∧
      (∀ d, s.inRegion = false → s.det = true → s.recordAt s.drained v 8 = some d →
        ((wordAt d 5).toNat / 2 ^ 8 % 2 ^ 8 = 0x13 ∨ (wordAt d 5).toNat / 2 ^ 8 % 2 ^ 8 = 0x14) → faults s (.peeraop v) .detAtomicOrder 0) ∧
      (s.inRegion = false → s.det = false → v.toNat % 64 ≠ 0 → faults s (.peeraop v) .alignCopy v) ∧
      (∀ e, s.inRegion = false → s.det = false → v.toNat % 64 = 0 → reach s v.toNat 64 true false = .error e →
        faults s (.peeraop v) e v)) ∧
  (∀ (s : State) (v : Word) (off : Nat),
      let rec128 := wordsOfBytes 16 (s.drained.m.spadRead s.iss.core off 128)
      let rec64 := wordsOfBytes 8 (s.drained.m.spadRead s.iss.core off 64)
      (∀ (mould : Bool) (scale : Word) (cm : CopyMap), v.toNat % 128 = 0 → reach s v.toNat 128 true false = .ok (.own off) →
        s.drained.m.badSpad s.iss.core off 128 = false → alignSub rec128 = none → s.subMaps rec128 mould = .ok (scale, cm) →
        badSub s.kp rec128 = false → (Fmt.dec (BitVec.ofNat 8 (uMfmt rec128))).isSome = true → badBank s.kp rec128 = false → s.subRing rec128 mould = none →
        cm.bar = none → uTiles rec128 ≠ 0 → (∀ y ∈ s.drained.m.subs, y.id ≠ s.drained.m.nextId) →
        ∃ x : Sub, exec (if mould then .mouldgo v else .pressgo v) s =
            .next (s.drained.upd fun m => { m with nextId := m.nextId + 1, subs := m.subs ++ [x] }) ∧
          x.id = s.drained.m.nextId ∧ x.mould = mould ∧ x.owner = s.owner ∧ x.core = s.iss.core ∧ x.fw = s.iss.fw ∧ x.desc = rec128 ∧
          x.tile = 0 ∧ x.err = none) ∧
      ∀ (ia : Nat) (r st : Option Nat), s.inRegion = false → v.toNat % 64 = 0 → reach s v.toNat 64 true false = .ok (.own off) →
        s.drained.m.badSpad s.iss.core off 64 = false → s.det = false → (wordAt rec64 0).toNat % modBytes ((wordAt rec64 5).toNat % 4) = 0 →
        (wordAt rec64 3).toNat % 8 = 0 → (wordAt rec64 4).toNat % 8 = 0 →
        mapVa s.xp.ranges (wordAt rec64 0).toNat (modBytes ((wordAt rec64 5).toNat % 4)) true true false = some ia →
        s.spotMap (wordAt rec64 3) 8 = .ok r → s.spotMap (wordAt rec64 4) 8 = .ok st → badAop rec64 = false →
        let seq : Word := BitVec.ofNat 64 ((s.xp.cpySeq.toNat + 1) % 2 ^ 63)
        exec (.peeraop v) s = .next ((s.drained.updX fun x => { x with cpySeq := seq }).upd fun m =>
          m.sendAop s.owner (s.pre.agent s.iss.core s.iss.fw) rec64 ia r st seq))

/-- XLATINV and its completion (07 R212, 13 R312): the request takes the next number, which goes to D; a bad page raises ALIGN_XLATINV, and
then a bad space ILLEGAL_OPERAND. Once the one request outstanding completes, no cached translation and no cached table entry that it covers is
left, and XLATDONE is the number of the latest request. -/
def Obligations.TranslationInvalidate : Prop :=
  (∀ (s : State) (d : Dst) (a b : Src), readableAll s [a, b] = true →
    let sp := s.src a
    let pg := s.src b
    let u := (reads s [a, b]).latchAB 5 sp pg
    (pg.toNat % 2 ^ 16 ≠ 0 → faults s (.xlatinv d a b) .alignXlatinv pg) ∧
    (pg.toNat % 2 ^ 16 = 0 → 2 ^ 14 ≤ sp.toNat → faults s (.xlatinv d a b) .illegalOperand 0) ∧
    (sp.toNat < 2 ^ 14 → pg.toNat % 2 ^ 16 = 0 → exec (.xlatinv d a b) s =
      .next ((u.updK fun k => { k with xlatSeq := s.kp.xlatSeq + 1,
                                       xlatReqs := k.xlatReqs ++ [{ num := s.kp.xlatSeq + 1, asid := sp.toNat, page := pg }] }).put d
        (s.kp.xlatSeq + 1)))) ∧
  ∀ (s : State) (c n : Nat) (r : XReq), c < 384 → s.m.waiters = [] → n < 2 ^ 64 → (s.m.core c).xlatReqs = [r] → r.num = BitVec.ofNat 64 n →
    ∃ t, exec (.xlatinvComplete c n) s = .next t ∧
      t.m.tlb = s.m.tlb.filter (fun e => !(e.asid == r.asid && (r.page == 0 || (decide (e.base ≤ r.page.toNat) &&
        decide (r.page.toNat < e.base + e.span))))) ∧
      t.m.tabs = s.m.tabs.filter (fun e => !(e.asid == r.asid && (r.page == 0 || (decide (e.base ≤ r.page.toNat) &&
        decide (r.page.toNat < e.base + e.span))))) ∧
      (t.m.core c).xlatReqs = [] ∧ (t.m.core c).xlatDone = (s.m.core c).xlatSeq ∧ t.iss = s.iss

/-! # J. The device's own events -/

/-- Subscriptions, lent slots and diverted accesses (08 R227, R230 to R232, 15 R335): a Mould whose slot awaits it fetches a tile, writes and
pushes it, and ends once its last tile is in; a fetch that faults marks the subscription; a Press reads the next full slot, writes its rows and
pops it; a subscription that met a fault stops once; a producer that waits and is the first of its pool's requests is granted a lent slot while
LEND and the pool allow it; a lent item moves into its slot once the
consumer has come far enough; an access under way reaches its core. An event that no subscription or condition stands behind changes nothing. -/
def Obligations.EngineEvents : Prop :=
  ∀ s : State,
    (∀ id, s.m.subOf id = none → ∀ i ∈ [Instr.mouldTilePush id, .pressSlotPop id, .subscriptionStop id], exec i s = .next s) ∧
    (∀ id x c, s.m.subOf id = some x → s.m.ringAtOf x = .core c →
      let cfg := (s.m.core c).ringCfgOf x.ring
      let r := (s.m.core c).ringOf x.ring
      (x.mould = true → x.tile < uTiles x.desc → x.err = none → x.stopped = false → s.m.inFlight id = false →
        (r.free cfg ≠ 0 ∨ r.granted = true) →
        let f := (s.m.core c).slotFmt cfg r.w
        (∀ m1 bs m2, Mach.tileRows x f (uRows x.desc) 0 s.m = (m1, .ok bs) → m1.ringPut c x.ring bs = some m2 →
          exec (.mouldTilePush id) s = .next { s with m := m2.tilePushed x true }) ∧
        (∀ m1 e ia, Mach.tileRows x f (uRows x.desc) 0 s.m = (m1, .error (e, ia)) →
          exec (.mouldTilePush id) s =
            .next { s with m := m1.updSub id fun y => { y with err := some (m1.subTrp x ia .mouldRd e) } })) ∧
      (x.mould = true → uTiles x.desc ≤ x.tile → s.m.inFlight id = false → exec (.mouldTilePush id) s = .next (s.upd fun m => m.endSub x)) ∧
      (x.mould = true → x.tile < uTiles x.desc → r.free cfg = 0 → r.granted = false → exec (.mouldTilePush id) s = .next s) ∧
      (x.mould = false → exec (.mouldTilePush id) s = .next s) ∧ (x.mould = true → exec (.pressSlotPop id) s = .next s) ∧
      (x.mould = false → x.owed = 0 → x.waitTags = 0 → s.m.inFlight id = false → x.tile < uTiles x.desc → x.err = none → x.stopped = false →
        r.full ≠ 0 →
        (∀ e ∈ r.lent, e.1 ≠ r.r.toNat) →
        let f := (s.m.core c).slotFmt cfg r.r
        let off := ringItemAt cfg r.r
        s.m.badSpad c off (uSlotBytes x.desc f) = false →
        ∀ m1, Mach.pressRows x f (uRows x.desc) 0 (s.m.spadRead c off (uSlotBytes x.desc f)) s.m = (m1, .ok 0) →
        ∀ y, (m1.updSub x.id fun y => { y with tile := y.tile + 1, owed := y.owed + 1 }).subOf id = some y →
          exec (.pressSlotPop id) s =
            .next { s with m := (m1.updSub x.id fun y => { y with tile := y.tile + 1, owed := y.owed + 1 }).pressPop y (.core c) })) ∧
    (∀ id x, s.m.subOf id = some x →
      ((x.err = none ∨ x.stopped = true) → exec (.subscriptionStop id) s = .next s) ∧
      (∀ t, x.err = some t → x.stopped = false → t.viol = none → x.stampIa = none → x.barIa = none → x.waitTags = 0 → s.m.inFlight id = false →
        s.m.ringAtOf x ≠ .none → ∃ u, exec (.subscriptionStop id) s = .next u ∧
        u.m = (((s.m.setStop x).updSub id fun y => { y with stopped := true, beatsLeft := 0 }).holdFault x.owner
          (Cause.code (if x.mould then .engMouldError else .engPressError)) 0).endSubOf id)) ∧
    (∀ c n, c < 384 →
      let cfg := (s.m.core c).ringCfgOf n
      let r := (s.m.core c).ringOf n
      let may := s.m.wantsLent c n = true ∧ r.lent.length + (if r.granted then 1 else 0) < cfg / 2 ^ 48 % 256 ∧
        s.m.lentNext (c, (s.m.core c).epoch, n) = true ∧ s.m.poolRoom (c / 48) (ringBytes cfg) = true
      (may → exec (.lentSlotGrant c n) s = .next (s.upd fun m =>
        Mach.updCore { m with lentUsed := m.lentUsed.upd 0 (c / 48) fun x => x + ringBytes cfg } c fun k =>
          { k with ring := k.ring.put n { r with granted := true } })) ∧
      (¬may → exec (.lentSlotGrant c n) s = .next s) ∧
      (r.lent = [] → exec (.lentItemMove c n) s = .next s) ∧
      (∀ x bs l, r.lent = (x, bs) :: l → (BitVec.ofNat 32 x - r.r).toNat < ringSlots cfg →
        exec (.lentItemMove c n) s = .next (s.upd fun m =>
          ((m.spadWrite c (ringItemAt cfg (BitVec.ofNat 32 x)) bs).updCore c fun k =>
            { k with ring := k.ring.put n { r with lent := l } }).unlend c (ringBytes cfg)))) ∧
    (s.m.arrivals = [] → ∃ t, exec .divertedAccess s = .next t ∧ t = s) ∧
    (∀ a r, s.m.arrivals = a :: r → s.m.accepts a.core a.epoch = true →
      exec .divertedAccess s = .next (s.upd fun m => (Mach.landAt { m with arrivals := r } a.core a.kind).arrived a))

/-- Submission queues (12 R279 to R282, R286, R291, R297, 20 R408): the command processor whose turn it is serves the next record by its kind; a
WAIT is passed once its counter has come far enough; firmware that has not fed its watchdog is served by the arbiter; the registers of a queue
take host writes as R279 says; a cancel retires what it names; firmware that is late, or has halted (04 R111), restarts. -/
def Obligations.QueueEvents : Prop :=
  ∀ (s : State) (q : Nat), q < 4096 →
    let x := s.m.sqAt q
    let others (c : Nat) : List Nat := ((s.m.sqsOf c).filter fun p => (s.m.serve p).isSome).filter fun p => p ≠ q
    let turn (c : Nat) : Prop := x.cp = some c ∧ s.m.powered c = true ∧ (s.m.core c).wdogFed = true ∧
      s.m.sqPick true ((s.m.sqsOf c).filter fun p => (s.m.serve p).isSome) = some q
    (∀ c r m1, turn c → s.m.serve q = some (r, m1) →
      (recKind r = 2 → exec (.sqWaitRecord q) s = .next { s with m := m1.sqPassed q (others c) } ∧
        exec (.sqHeadRecord q) s = .next s ∧ exec (.sqNopRecord q) s = .next s) ∧
      (recKind r = 3 → exec (.sqNopRecord q) s = .next { s with m := m1.sqPassed q (others c) } ∧
        exec (.sqHeadRecord q) s = .next s ∧ exec (.sqWaitRecord q) s = .next s) ∧
      (recKind r ≠ 2 → recKind r ≠ 3 → exec (.sqHeadRecord q) s = .next { s with m := m1.sqPassed q (others c) })) ∧
    (∀ r m1, x.en = true → x.state = 1 → 0 < x.avail → s.m.aheadAt q x.next = none → s.m.sqRec q x.next = (m1, .ok r) → recKind r = 3 →
      s.m.serve q = some (r, (m1.updSq q fun y => { y with next := y.next + 1, state := 1 }).sqSettle q)) ∧
    (x.cp = none → ∀ i ∈ [Instr.sqHeadRecord q, .sqWaitRecord q, .sqNopRecord q, .fallbackLaunch q], exec i s = .next s) ∧
    (∀ c, x.cp = some c → (s.m.core c).wdogFed = true → exec (.fallbackLaunch q) s = .next s) ∧
    (∀ c m1 m2 r, x.cp = some c → (s.m.core c).wdogFed = false → s.m.powered c = true → s.m.sqsOf c = [q] → x.en = true → x.state = 1 →
      0 < x.avail → s.m.aheadAt q x.next = none → s.m.sqRec q x.next = (m1, .ok r) → m1.tryHead q r true = some m2 →
      exec (.fallbackLaunch q) s = .next { s with m := m2.sqPassed q [] }) ∧
    (x.state ≠ 3 → exec (.sqWaitSatisfied q) s = .next s) ∧
    (∀ r m1 m2 bs, x.state = 3 → s.m.sqRec q x.next = (m1, .ok r) → m1.waitCancelled q = false →
      m1.cpRead (m1.cpOf q) (m1.sqAt q).asid (wordAt r 1).toNat 8 = (m2, .ok bs) →
      ((wordOfBytes bs - wordAt r 2).toNat < 2 ^ 63 → exec (.sqWaitSatisfied q) s =
        .next { s with m := ((m2.dropCache (m1.cpOf q)).updSq q fun y => { y with next := y.next + 1, state := 1 }).sqSettle q }) ∧
      (2 ^ 63 ≤ (wordOfBytes bs - wordAt r 2).toNat →
        exec (.sqWaitSatisfied q) s = .next { s with m := m2.updSq q fun y => { y with state := 3 } })) ∧
    (∀ t : BitVec 32,
      (x.state ≠ 0 → 2 ^ (x.cfg.toNat % 32) < (t - x.head).toNat →
        exec (.sqTailWrite q t) s = .next (s.upd fun m => m.updSq q fun y => { y with tailErr := true })) ∧
      (x.state ≠ 0 → (t - x.head).toNat ≤ 2 ^ (x.cfg.toNat % 32) →
        exec (.sqTailWrite q t) s = .next (s.upd fun m => m.updSq q fun y => { y with tail := t })) ∧
      (x.state = 0 → s.m.launches = [] →
        exec (.sqTailWrite q t) s = .next (s.upd fun m => m.updSq q fun y => { y with tail := t, head := t, next := t })) ∧
      (x.state ≠ 2 → exec (.sqRestart q t) s = .next s) ∧
      (x.state = 2 → s.m.launches = [] → s.m.phaseRec = [] → x.en = true → (t - x.head).toNat ≤ (x.tail - x.head).toNat →
        exec (.sqRestart q t) s = .next (s.upd fun m => m.updSq q fun y => { y with head := t, next := t, state := 1 }))) ∧
    (∀ cfg : Word, x.state = 0 →
      let w := sqCfgWord (cfg ||| BitVec.ofNat 64 (2 ^ 63))
      (w.toNat / 2 ^ 32 % 2 ^ 14 ≠ 0 → exec (.sqEnable q cfg) s =
        .next (s.upd fun m => m.updSq q fun y => { y with cfg := w, state := 1, next := y.head })) ∧
      ∃ t, exec (.sqDisable q cfg) s = .next t ∧ (t.m.sqAt q).state = 0 ∧ (t.m.sqAt q).en = false ∧ t.m.cores = s.m.cores) ∧
    (∀ id : BitVec 32, s.m.launches = [] → s.m.phase = none → s.m.sq = Tab.empty → s.m.cores = Tab.empty →
      ∀ i ∈ [Instr.cancelLaunch id, .cancelPhase id, .cancelGraph id, .cancelJob id], exec i s = .next s) ∧
    (∀ (id : BitVec 32) (la : Launch) (m1 : Mach), s.m.launches = [la] → s.m.sq = Tab.empty → la.recorded = false → la.retired = false →
      la.ahead = false → ∀ p ∈ [(0, Instr.cancelLaunch id), (1, .cancelPhase id), (2, .cancelGraph id), (3, .cancelJob id)],
      cancelHits p.1 id la.head = true →
      m1 = Mach.cancelTaken { s.m with phase := s.m.phase.map fun y => y.onCancel p.1 id [la] } la p.1 → m1.sq = Tab.empty →
      exec p.2 s = .next { s with m := m1.cores.keys.foldl (fun m c => m.refill c) m1 }) ∧
    ∀ c, c < 384 →
      let late := s.m.powered c = true ∧ ((s.m.core c).c1.run = .halted ∨
        ((s.m.core c).wdogFed = true ∧ (s.m.core c).wdt < (s.m.time - (s.m.core c).wdogTick).toNat))
      (late → exec (.watchdogExpiry c) s = .next (s.upd fun m => (m.restartFw c).msix 4)) ∧
      (¬late → exec (.watchdogExpiry c) s = .next s)

/-- Workers, teams and phases (12 R289, R290, 14 R324, 15 R328, R329, R341, 16 R351, R354): a worker whose part is over retires and its core
goes on; a retired launch has its record written; a member of a team with a killed member is killed; members stop, hand their cores over and
resume; a phase at its boundary ends; a peer that stays silent stops it; a digest frame of the replica peer is taken up. -/
def Obligations.LaunchAndSwitchEvents : Prop :=
  ∀ s : State,
    (∀ c, c < 384 →
      (∀ l i, (s.m.ctx c false).owner = some (l, i) → s.m.partDone c = true →
        exec (.workerRetire c) s = .next (s.upd fun m => ((m.retireWorker l i (some (c, (m.core c).epoch))).updCore c fun k =>
          { k with c0 := { k.c0 with owner := none, run := .idle }, switchTo := false, stop := none }).refill c)) ∧
      (s.m.susp = [] → s.m.partDone c = false → exec (.workerRetire c) s = .next s) ∧
      (s.m.teamDoomed c = true →
        exec (.teamMemberKill c) s = .next (s.upd fun m => m.kill c false (Cause.code .ctxTeamKilled) 0)) ∧
      (s.m.teamDoomed c = false → exec (.teamMemberKill c) s = .next s) ∧
      (s.m.susp = [] → exec (.memberSuspend c) s = .next s) ∧
      (∀ la t y, s.m.teamAt c = some (la, t) → s.m.switching la t = some y → (s.m.core c).switchTo = true → (s.m.core c).stop = none →
        (s.m.ctx c false).holdsWait = true →
        exec (.memberSuspend c) s = .next (s.upd fun m => (m.stopFor c none).trySave c la)) ∧
      (s.m.susp = [] → (s.m.core c).cands = [] → exec (.teamResume c) s = .next s) ∧
      (∀ y x, s.m.resuming c = some (y, x) → (s.m.core c).mx.busy = false →
        (y.members.length ≠ 1 → exec (.teamResume c) s = .next (s.upd fun m => m.restoreMember x c)) ∧
        (∀ z, y.members.length = 1 → (s.m.restoreMember x c).susp.find? (fun z => z.launch == y.launch && z.team == y.team) = some z →
          exec (.teamResume c) s = .next (s.upd fun m => ((m.restoreMember x c).allBack z).finishResume y.launch y.team)))) ∧
    (∀ l la, s.m.launchOf l = some la →
      (s.m.recReady la = false → exec (.launchRecordWrite l) s = .next s) ∧
      (s.m.recReady la = true → ∃ t, exec (.launchRecordWrite l) s = .next t ∧ t.iss = s.iss ∧ t.m.lrTail = s.m.lrTail + 1 ∧
        ∀ y ∈ t.m.launches, y.key = l → y.recorded = true) ∧
      ∀ t y, s.m.switching la t = some y →
        ((s.m.teamCores la t = [] ∧ y.members ≠ []) →
          exec (.teamHandover l t) s = .next (s.upd fun m => m.handOver y (sortMembers la t y.members))) ∧
        (¬(s.m.teamCores la t = [] ∧ y.members ≠ []) → exec (.teamHandover l t) s = .next s)) ∧
    (∀ l t, s.m.launchOf l = none → exec (.launchRecordWrite l) s = .next s ∧ exec (.teamHandover l t) s = .next s) ∧
    (s.m.phase = none → exec .phaseBoundaryCommit s = .next s ∧ exec .replicaTimeout s = .next s) ∧
    (∀ p, s.m.phase = some p →
      (s.m.atBoundary p = false → exec .phaseBoundaryCommit s = .next s) ∧
      (s.m.atBoundary p = true → (p.cancelled = true ∨ s.m.replCfg.getLsbD 63 = false) →
        exec .phaseBoundaryCommit s = .next (s.upd fun m => m.finishPhase p p.runStatus false)) ∧
      (p.sentAt = none → exec .replicaTimeout s = .next s) ∧
      (∀ tick, p.sentAt = some tick → p.report = none →
        let due := (s.m.replCfg.toNat % 2 ^ 48 ≠ 0 ∧ s.m.replCfg.toNat % 2 ^ 48 < (s.m.time - tick).toNat) ∨
          bitAt s.m.portDown.toNat (s.m.replCfg.toNat / 2 ^ 56 % 16) = true
        (due → exec .replicaTimeout s =
          .next (s.upd fun m => Mach.stopPhase { m with heard := [] } p 5 .replicaLink)) ∧
        (¬due → exec .replicaTimeout s = .next s))) ∧
    ∀ f : Frame, f.port < 12 →
      (s.m.knows f = false → exec (.peerDigestFrame f) s = .next (s.upd fun m => m.dropFrame f)) ∧
      (s.m.knows f = true → frTy f = 4 → s.m.replCfg.getLsbD 63 = true → f.port = s.m.replCfg.toNat / 2 ^ 56 % 16 → s.m.phase = none →
        exec (.peerDigestFrame f) s = .next (s.upd fun m => { m with heard := m.heard ++ [f.payload.take 64] }))

/-- Deckle, replay, fencing and power (01 R29, R30, 18 R366, R376 to R379, 19 R382 to R392, 20 R397, R400): a freeze cycle draws nothing and is
counted; a replay stalls the core, halves the rate of 32 cycles and is counted; windows end, steps settle, entries are written when due; a core
asked for is fenced once nothing holds it; the envelope clamps every step; links step, train and fail; dies gate once empty, and one that is
ungated is reset and stays GATED until its firmware has booted; stacks enter self-refresh once nothing waits there; scrub and self-test run as asked. -/
def Obligations.MarginAndPowerEvents : Prop :=
  ∀ s : State,
    (∀ c, c < 384 →
      let g := (s.m.core c).margin
      let same (i : Instr) : Prop := exec i s = .next s
      let becomes (i : Instr) (f : Margin → Margin) : Prop :=
        exec i s = .next (s.upd fun m => m.updCore c fun k => { k with margin := f k.margin })
      (s.m.powered c = false → same (.freezeCycle c)) ∧
      (let ws := match s.m.arbiter c with
         | some fw => s.m.nextWords c fw
         | none => []
       (s.m.mustFreeze c ws = false → same (.freezeCycle c)) ∧
       (s.m.powered c = true → s.m.mustFreeze c ws = true → exec (.freezeCycle c) s =
         .next (s.upd fun m => m.updCore c fun k => Core.cycle { k with freezeCnt := k.freezeCnt + 1 } 0 false))) ∧
      (∀ (fw : Bool) (n : Nat), (n < 2 ∨ 4 < n) → same (.shadowLatchReplay c fw n)) ∧
      (∀ (fw : Bool) (n : Nat), 2 ≤ n → n ≤ 4 → (s.m.ctx c fw).run = .running → s.m.powered c = true →
        g.four0 = false → g.four1 = false → (g.row fw + 1) % 8 ≠ 0 → g.row fw + 1 < 64 → g.wrep + 1 ≤ s.m.dkcfg.toNat / 2 ^ 24 % 256 →
        ∃ t, exec (.shadowLatchReplay c fw n) s = .next t ∧ (t.m.core c).replayCnt = (s.m.core c).replayCnt + 1 ∧
          (t.m.core c).margin.half = 32 ∧ (t.m.core c).margin.wrep = g.wrep + 1 ∧
          (t.m.core c).cycles = (s.m.core c).cycles + BitVec.ofNat 64 n ∧ t.m.ctx c false = s.m.ctx c false ∧
          t.m.ctx c true = s.m.ctx c true ∧ (∀ d, d ≠ c → t.m.core d = s.m.core d) ∧ t = { s with m := { s.m with cores := t.m.cores } }) ∧
      (g.retired < 2 ^ 20 → same (.deckleWindowEnd c)) ∧
      (2 ^ 20 ≤ g.retired → ∃ t, exec (.deckleWindowEnd c) s = .next t ∧ (t.m.core c).margin.retired = 0 ∧
        (t.m.core c).margin.wrep = 0 ∧ ∀ d, d ≠ c → t.m.core d = s.m.core d) ∧
      (g.settle = none → same (.regulatorSettleDone c)) ∧
      (∀ t, g.settle = some t → 0 ≤ (s.m.time - t).toInt → becomes (.regulatorSettleDone c) fun g => { g with settle := none }) ∧
      (let due := g.dirty = true ∧ s.m.power.off = false ∧ 600000000000 ≤ (s.m.time - g.lastWrite).toNat
       (due → exec (.marginEntryDeferredWrite c) s = .next (s.upd fun m => m.writeEntry c)) ∧
       (¬due → same (.marginEntryDeferredWrite c))) ∧
      (let due := s.m.power.off = false ∧ 86400000000000 ≤ (s.m.time - g.lastWrite).toNat
       (due → exec (.marginEntryRefresh c) s = .next (s.upd fun m => m.writeEntry c)) ∧ (¬due → same (.marginEntryRefresh c))) ∧
      (let w := ((s.m.writeEntry c).core c).margin
       w.dirty = false ∧ w.lastWrite = s.m.time ∧ w.seq = g.seq + 1 ∧ w.step = g.step ∧ w.floor = g.floor ∧
       ∀ d, d ≠ c → (s.m.writeEntry c).core d = s.m.core d) ∧
      (g.state = 0 → becomes (.coreFenceCmd c) fun g => if g.state = 0 then { g with state := 1, reason := Cause.code .rasCoreFenced } else g) ∧
      (g.state ≠ 0 → becomes (.coreUnfenceCmd c) fun g => if g.state = 0 then g else { g with unfence := true }) ∧
      ((g.state ≠ 1 ∨ (s.m.core c).holds = true) → same (.coreFenced c)) ∧
      (g.state = 1 → (s.m.core c).holds = false → ∃ t, exec (.coreFenced c) s = .next t ∧ (t.m.core c).margin.state = 2 ∧
        (t.m.ctx c false).run = .idle ∧ (t.m.ctx c true).run = .idle ∧ t.m.powered c = false ∧ ∀ d, d ≠ c → t.m.core d = s.m.core d)) ∧
    (∀ v : Word, (v.toNat / 256 % 128 < v.toNat % 128 → exec (.dkcfgWrite v) s = .next s) ∧
      (v.toNat % 128 ≤ v.toNat / 256 % 128 → ∃ t, exec (.dkcfgWrite v) s = .next t ∧
        t.m.dkMin = min (v.toNat % 128) 96 ∧ t.m.dkMax = min (v.toNat / 256 % 128) 96 ∧
        (t.m.dkMin ≤ t.m.dkMax → ∀ c, c < 384 → t.m.dkMin ≤ (t.m.core c).margin.step ∧ (t.m.core c).margin.step ≤ t.m.dkMax))) ∧
    (∀ v : BitVec 2, (s.m.power.pstate ≤ v →
      exec (.pstateWrite v) s = .next (s.upd fun m => { m with power := { m.power with pstate := v } })) ∧
      (v < s.m.power.pstate → ∃ t, exec (.pstateWrite v) s = .next t ∧ t.m.power.pstate = v ∧ ∀ c, c < 384 →
        (t.m.core c).margin.step = max (s.m.core c).margin.step (min ((s.m.core c).margin.step + 4) s.m.dkMax))) ∧
    (∀ l, l < 26 →
      let k := s.m.linkAt l
      exec (.flitCrcRetry l) s = .next s ∧
      (k.training = false → k.down = false →
        (k.rate < 3 → exec (.linkRateStep l true) s =
          .next (s.upd fun m => m.updLink l fun k => { k with rate := k.rate + 1, training := true })) ∧
        (0 < k.rate → exec (.linkRateStep l false) s =
          .next (s.upd fun m => m.updLink l fun k => { k with rate := k.rate - 1, training := true }))) ∧
      (k.training = false → ∀ ok, exec (.linkRetrainDone l ok) s = .next s) ∧
      (k.training = true → exec (.linkRetrainDone l true) s =
        .next (s.upd fun m => m.updLink l fun k => { k with training := false, fails := 0 })) ∧
      (k.training = true → k.fails < 2 → exec (.linkRetrainDone l false) s =
        .next (s.upd fun m => m.updLink l fun k => { k with fails := k.fails + 1 })) ∧
      (k.training = true → 2 ≤ k.fails → ∃ t, exec (.linkRetrainDone l false) s = .next t ∧ (t.m.linkAt l).down = true ∧
        (10 ≤ l → bitAt t.m.dieReset.toNat (l - 10) = true))) ∧
    exec .thermalLimit s = .next (s.upd fun m => m.msix 7) ∧
    (∀ d, d < 8 →
      let b : BitVec 8 := BitVec.ofNat 8 (2 ^ d)
      let empty := ∀ c, 48 * d ≤ c → c < 48 * d + 48 → (s.m.core c).holds = false
      (s.m.power.gated.getLsbD d = false →
        exec (.diegateSet d) s = .next (s.upd fun m => { m with power := { m.power with dieGate := m.power.dieGate ||| b } })) ∧
      (s.m.power.gated.getLsbD d = true → ∃ t, exec (.diegateSet d) s = .next t ∧ t.m.power.dieGate = s.m.power.dieGate ||| b ∧
        t.m.power.gated = s.m.power.gated ||| b ∧ (∀ c, 48 * d ≤ c → c < 48 * d + 48 → (t.m.ctx c true).run = .idle) ∧
        ∀ c, (c < 48 * d ∨ 48 * d + 48 ≤ c) → t.m.core c = s.m.core c) ∧
      (s.m.power.dieGate.getLsbD d = true → s.m.power.gated.getLsbD d = false → empty → ∃ t, exec (.dieGated d) s = .next t ∧
        t.m.power.gated = s.m.power.gated ||| b ∧ (∀ c, 48 * d ≤ c → c < 48 * d + 48 → (t.m.ctx c true).run = .idle) ∧
        ∀ c, (c < 48 * d ∨ 48 * d + 48 ≤ c) → t.m.core c = s.m.core c) ∧
      ((s.m.power.dieGate.getLsbD d = false ∨ s.m.power.gated.getLsbD d = true ∨ ¬empty) → exec (.dieGated d) s = .next s) ∧
      (s.m.power.dieGate.getLsbD d = false → exec (.diegateClear d) s = .next s) ∧
      (s.m.power.dieGate.getLsbD d = true → s.m.power.gated.getLsbD d = false → exec (.diegateClear d) s =
        .next (s.upd fun m => { m with power := { m.power with dieGate := m.power.dieGate &&& ~~~b } })) ∧
      (s.m.power.dieGate.getLsbD d = true → s.m.power.gated.getLsbD d = true → ∃ t, exec (.diegateClear d) s = .next t ∧
        t.m.power.dieGate = s.m.power.dieGate &&& ~~~b ∧ t.m.power.gated = s.m.power.gated ∧
        ∀ c, 48 * d ≤ c → c < 48 * d + 48 → t.m.ctx c true = Ctx.reset)) ∧
    (∀ h, h < 16 →
      let b : BitVec 16 := BitVec.ofNat 16 (2 ^ h)
      let power (f : Power → Power) : State := s.upd fun m => { m with power := f m.power }
      exec (.hbmsrSet h) s = .next (power fun p => { p with hbmSr := p.hbmSr ||| b }) ∧
      exec (.hbmsrClear h) s = .next (power fun p => { p with hbmSr := p.hbmSr &&& ~~~b, inSr := p.inSr &&& ~~~b }) ∧
      (s.m.power.hbmSr.getLsbD h = true → (∀ w ∈ s.m.waiters, w.inStack h = false) →
        exec (.hbmSelfRefreshEntry h) s = .next (power fun p => { p with inSr := p.inSr ||| b })) ∧
      ((s.m.power.hbmSr.getLsbD h = false ∨ ∃ w ∈ s.m.waiters, w.inStack h = true) → exec (.hbmSelfRefreshEntry h) s = .next s) ∧
      ∃ t, exec (.baseDieReset h) s = .next t ∧ (s.m.waiters = [] → t.m.dieReset = s.m.dieReset ||| b)) ∧
    (s.m.scrub.getLsbD 8 = true → s.m.power.off = false →
      exec (.patrolScrub none) s = .next (s.upd fun m => { m with scrubPos := m.scrubPos + 1 }) ∧
      ∀ f, ∃ t, exec (.patrolScrub (some f)) s = .next t ∧ t.m.scrubPos = s.m.scrubPos + 1 ∧ t.m.cores = s.m.cores) ∧
    (∀ x, (s.m.scrub.getLsbD 8 = false ∨ s.m.power.off = true) → exec (.patrolScrub x) s = .next s) ∧
    (s.m.stStatus = 3 → (∀ dies, exec (.selfTestStart dies) s = .next s) ∧
      exec (.selfTestComplete []) s =
        .next (s.upd fun m => { m with stFails := 0, stDies := 0, stStatus := if s.m.stSkip then 2 else 0 }) ∧
      ∀ f fs, ∃ t, exec (.selfTestComplete (f :: fs)) s = .next t ∧ t.m.stStatus = 1 ∧ t.m.stFails = min 255 (fs.length + 1) ∧
        (f.site = 0 → f.place < 384 → (t.m.core f.place).margin.state ≠ 0)) ∧
    (s.m.stStatus ≠ 3 → (∀ fs, exec (.selfTestComplete fs) s = .next s) ∧
      ∀ dies, ∃ t, exec (.selfTestStart dies) s = .next t ∧ t.m.stStatus = 3 ∧ t.m.stFails = 0 ∧ t.m.cores = s.m.cores)

/-- Boot, debug, host and peers (18 R368 to R374, R380, 20 R399 to R404): a device reset clears the cores, launches and phase; OFF keeps the
stacks in self-refresh, a loss of power none; the commands of Snowdrop act on fuses and flash or are refused; ATTGO writes the report; the debug block stops and resumes an
attached context; host accesses reach HBM at their home; frames of a known peer are performed and answered, others dropped; a port that goes down
answers every request that awaits a RESPONSE on it; a vector unmasked sends what was recorded, unless an unserviced message of it is out. An event that names what the device does not have is a fault of its caller. -/
def Obligations.BootHostPeerEvents : Prop :=
  ∀ s : State,
    (∃ t, exec .deviceReset s = .next t ∧ t.iss = s.iss ∧ t.m.phase = none ∧ t.m.launches = [] ∧ t.m.power = Mach.reset.power ∧
      t.m.time = s.m.time ∧ ∀ c, (t.m.core c).c1 = Ctx.reset ∧ (t.m.core c).spad = Mem.empty) ∧
    (∃ t, exec .powerOff s = .next t ∧ t.m.power.off = true ∧ t.m.trust.svn = s.m.trust.svn ∧
      ∀ d, s.m.power.inSr.getLsbD d = true → t.m.stack d = s.m.stack d) ∧
    (∃ t, exec .powerLoss s = .next t ∧ t.m.power.off = true ∧ ∀ d, t.m.stack d = Mem.empty) ∧
    (∃ t, exec .bootSnow s = .next t ∧ t.m.trust.image = 1 ∧ t.m.trust.snowReq = false) ∧
    (let snow := s.m.trust.image = 1 ∧ s.m.trust.status = 2
     let refuse := s.upd fun m => { m with trust := { m.trust with refused := true } }
     let blow (f : Trust → Trust) : State := s.upd fun m => { m with trust := { f m.trust with refused := false } }
     (∀ slot hash, (¬snow ∨ slot = 0 ∨ 4 < slot ∨ (s.m.trust.slots.get KeySlot.reset slot).enrolled = true →
        exec (.bootEnroll slot hash) s = .next refuse) ∧
      (snow → 1 ≤ slot → slot ≤ 4 → (s.m.trust.slots.get KeySlot.reset slot).enrolled = false → exec (.bootEnroll slot hash) s =
        .next (blow fun t => { t with slots := t.slots.upd KeySlot.reset slot fun k => { k with hash := hash.take 32, enrolled := true } })) ∧
      (snow → 1 ≤ slot → slot ≤ 4 → exec (.bootRevoke slot) s =
        .next (blow fun t => { t with slots := t.slots.upd KeySlot.reset slot fun k => { k with revoked := true } }))) ∧
     (snow → (∃ i, 1 ≤ i ∧ i ≤ 4 ∧ (s.m.trust.slots.get KeySlot.reset i).enrolled = true ∧ (s.m.trust.slots.get KeySlot.reset i).revoked = false) →
       exec .bootOwneronly s = .next (blow fun t => { t with ownerOnly := true })) ∧
     (¬snow → exec .bootOwneronly s = .next refuse ∧ exec .bootSetsvn s = .next refuse ∧ ∀ off, exec (.bootReflash off) s = .next refuse) ∧
     (snow → s.m.trust.verify s.m.trust.main = true → exec .bootSetsvn s =
       .next (blow fun t => { t with svn := max t.svn (imgSvn s.m.trust.main) })) ∧
     (∀ off, snow → s.m.trust.verify (s.m.staging off) = true → exec (.bootReflash off) s = .next (blow fun t => { t with main := s.m.staging off })) ∧
     ∀ off, snow → s.m.trust.verify (s.m.staging off) = false → exec (.bootReflash off) s = .next refuse) ∧
    (let a := s.m.trust.attDst.toNat
     s.m.homeFault (a / 2 ^ 36 % 16) = none → exec .attgo s = .next (s.upd fun m => (m.hbmWrite (a / 2 ^ 36 % 16) (a % 2 ^ 36)
       (m.reportBody ++ (Config.sigSign m.reportBody ++ List.replicate 7856 0).take 7856)).msix 8)) ∧
    (∀ c, c < 384 →
      let k := s.m.core c
      let core (f : Core → Core) : State := s.upd fun m => m.updCore c f
      (k.dbg.attach = true → ∃ t, exec (.debugHaltreq c) s = .next t ∧ t.m.core c = { k with dbg := { k.dbg with haltReq := true } }) ∧
      (k.c0.run = .debug → ∃ t, exec (.debugResume c) s = .next t ∧ t.m.core c = { k with c0 := { k.c0 with run := .running } }) ∧
      exec (.debugAttach c true) s = .next (core fun k => { k with dbg := { k.dbg with attach := true, haltReq := k.dbg.haltReq && true } })) ∧
    (∀ v, v < 9 →
      (bitAt s.m.msixPend.toNat v = true → bitAt s.m.msixSent.toNat v = false → ∃ t, exec (.msixVectorUnmask v) s = .next t ∧
        t.m.out = .msix v :: s.m.out ∧ t.m.msixMask = s.m.msixMask &&& ~~~BitVec.ofNat 9 (2 ^ v)) ∧
      (bitAt s.m.msixPend.toNat v = true → bitAt s.m.msixSent.toNat v = true → ∃ t, exec (.msixVectorUnmask v) s = .next t ∧
        t.m.out = s.m.out ∧ t.m.msixMask = s.m.msixMask &&& ~~~BitVec.ofNat 9 (2 ^ v)) ∧
      (bitAt s.m.msixPend.toNat v = false → ∃ t, exec (.msixVectorUnmask v) s = .next t ∧ t.m.out = s.m.out)) ∧
    (∀ (off : Nat) (v : Word), exec (.hostRegisterWrite off v) s = .next (if s.m.power.off then s else s.upd fun m => m.barWrite off v)) ∧
    (∀ (off n : Nat) (bs : List Byte), off + n ≤ 2 ^ 40 → off % 2 ^ 36 + n ≤ 2 ^ 36 → s.m.power.off = false → s.m.homeFault (off / 2 ^ 36) = none →
      exec (.hostMemoryRead off n) s = .next (s.upd fun m => m.send (.readData ((m.stack (off / 2 ^ 36)).read (off % 2 ^ 36) n))) ∧
      (bs.length = n → exec (.hostMemoryWrite off bs) s = .next (s.upd fun m => (m.hbmWrite (off / 2 ^ 36) (off % 2 ^ 36) bs).wakeObjs))) ∧
    (∀ f : Frame, f.port < 12 →
      let at_ := frAt f
      let w := (wordAt f.hdr 2).toNat
      let ty := modAtom (w / 256 % 4)
      (s.m.knows f = false → ∀ i ∈ [Instr.peerWriteFrame f, .peerAtomicFrame f, .peerResponseFrame f],
        exec i s = .next (s.upd fun m => m.dropFrame f)) ∧
      (s.m.knows f = true → frTy f = 1 → s.m.homeFault at_.1 = none → exec (.peerWriteFrame f) s =
        .next (s.upd fun m => (Mach.writeFlits w at_.1 ((wordAt f.hdr 0).toNat / 2 ^ 53 % 8) at_.2 f.payload m).respond f 0 0)) ∧
      (s.m.knows f = true → frTy f = 2 → 0x0D ≤ w % 256 → w % 256 ≤ 0x14 → at_.2 % atomBytes ty = 0 → s.m.homeFault at_.1 = none →
        s.m.badAt (.hbm at_.1 at_.2) = false →
        let n := atomBytes ty
        let o := natOfBytes ((s.m.stack at_.1).read at_.2 n)
        let new := aopNew (w % 256) ty ((wordAt f.hdr 4).toNat % 2 ^ (8 * n)) ((wordAt f.hdr 3).toNat % 2 ^ (8 * n)) o
        exec (.peerAtomicFrame f) s = .next (s.upd fun m => (m.hbmWrite at_.1 at_.2 (bytesOfNat n new)).respond f (BitVec.ofNat 64 o) 0)) ∧
      (s.m.knows f = true → frTy f = 3 → ∀ r, s.m.peerReqs = [r] → r.tag = frTag f → r.port = f.port → r.for_ = .store →
        (wordAt f.hdr 6).toNat % 256 = 0 → exec (.peerResponseFrame f) s = .next (s.upd fun m => { m with peerReqs := [] })) ∧
      (s.m.knows f = true → frTy f = 3 → ∀ r o va c fw, s.m.peerReqs = [r] → r.tag = frTag f → r.port = f.port → r.for_ = .scalar o va →
        (wordAt f.hdr 6).toNat % 256 = 0 → s.m.homeOf o = some (c, fw) → (s.m.ctx c fw).peerSt = some (some r.tag) →
        exec (.peerResponseFrame f) s = .next (s.upd fun m =>
          Mach.updCtx { m with peerReqs := [] } c fw fun x => { x with peerSt := some none }))) ∧
    (∀ port, port < 12 →
      let m1 : Mach := { s.m with portDown := s.m.portDown ||| BitVec.ofNat 12 (2 ^ port) }
      let m2 := if bitAt s.m.portDown.toNat port then m1 else
        (m1.logErr (Cause.code .rasLinkDown) kDetected { site := 2, unit := 0xF, loc := port / 6 }).msix 6
      let m3 : Mach := { m2 with peerReqs := s.m.peerReqs.filter fun r => r.port != port }
      let m4 := (s.m.peerReqs.filter fun r => r.port == port).foldl
        (fun m r => m.answered r.tag r.for_ 0 (Cause.code .rasLinkDown)) m3
      exec (.peerPortDown port) s = .next { s with m := m4 } ∧
      (bitAt s.m.portDown.toNat port = true → (∀ r ∈ s.m.peerReqs, r.port ≠ port) → exec (.peerPortDown port) s = .next s)) ∧
    (∀ n fw, 384 ≤ n → ∀ i ∈ [Instr.freezeCycle n, .deckleWindowEnd n, .coreFenceCmd n, .debugResume n, .haltDone n fw, .storePerformed n fw],
      exec i s = .fault (.noSuchObject "core")) ∧
    (∀ n, 4096 ≤ n → exec (.sqHeadRecord n) s = .fault (.noSuchObject "queue")) ∧
    (∀ n, 8 ≤ n → exec (.diegateSet n) s = .fault (.noSuchObject "die")) ∧
    (∀ n, 16 ≤ n → exec (.hbmsrSet n) s = .fault (.noSuchObject "stack")) ∧
    ∀ n, 26 ≤ n → exec (.flitCrcRetry n) s = .fault (.noSuchObject "link")

/-! # K. The memories -/

/-- Every step keeps the memories in the one form in which equal contents are equal data: addresses rise and no byte that reads 0 is listed, in
every scratchpad, v register and accumulator bank, every stack, host and CXL memory and every pulp pool (the form is the model's own, log 2). -/
def Obligations.StepKeepsForm : Prop :=
  ∀ s t : State, s.pre = s.m → s.m.memWf = true → step s = .next t → t.m.memWf = true
end

