-- ==== Sys2Proof/Laws/Mem.lean ====
section
/-!
SUPPORT. The laws of the two containers: a table reads back what was put at a key and nothing else changes; a byte memory reads back
what was written and nothing else changes; every operation keeps the one canonical form (log 2).
-/
namespace Sys2Proof

/-! ## Tables -/

@[simp] theorem assocGet_put_same {α : Type} (d v : α) (k : Nat) (l : List (Nat × α)) :
    assocGet d k (assocPut k v l) = v := by
  induction l with
  | nil => simp [assocPut, assocGet]
  | cons e r ih =>
    obtain ⟨i, w⟩ := e
    unfold assocPut
    by_cases h1 : k < i
    · simp [h1, assocGet]
    · by_cases h2 : k = i
      · simp [h2, assocGet]
      · have h3 : ¬ i = k := fun h => h2 h.symm
        simp [h1, h2, h3, assocGet, ih]

theorem assocGet_put_other {α : Type} (d v : α) {k j : Nat} (h : j ≠ k) (l : List (Nat × α)) :
    assocGet d j (assocPut k v l) = assocGet d j l := by
  have hk : ¬ k = j := fun e => h e.symm
  induction l with
  | nil => simp [assocPut, assocGet, hk]
  | cons e r ih =>
    obtain ⟨i, w⟩ := e
    unfold assocPut
    by_cases h1 : k < i
    · simp [h1, assocGet, hk]
    · by_cases h2 : k = i
      · subst h2; simp [assocGet, hk]
      · simp [h1, h2, assocGet, ih]

/-- A table reads back what was put at the key. -/
@[simp] theorem Tab.get_put_same {α : Type} (t : Tab α) (d v : α) (k : Nat) : (t.put k v).get d k = v :=
  assocGet_put_same d v k t.l

/-- Another key reads as before. -/
theorem Tab.get_put_other {α : Type} (t : Tab α) (d v : α) {k j : Nat} (h : j ≠ k) :
    (t.put k v).get d j = t.get d j := assocGet_put_other d v h t.l

/-- Both cases of reading a table after a put. -/
theorem Tab.get_put {α : Type} (t : Tab α) (d v : α) (k j : Nat) :
    (t.put k v).get d j = if j = k then v else t.get d j := by
  by_cases h : j = k
  · subst h; simp
  · simp [h, Tab.get_put_other]

@[simp] theorem Tab.get_empty {α : Type} (d : α) (k : Nat) : (Tab.empty : Tab α).get d k = d := rfl

theorem assocWf_mono {α : Type} {a b : Nat} (h : a ≤ b) {l : List (Nat × α)} (hl : assocWf b l = true) : assocWf a l = true := by
  cases l with
  | nil => rfl
  | cons e r =>
    obtain ⟨i, w⟩ := e
    simp only [assocWf, Bool.and_eq_true, decide_eq_true_eq] at hl ⊢
    exact ⟨by omega, hl.2⟩

theorem assocWf_put {α : Type} {lo k : Nat} (v : α) {l : List (Nat × α)} (hk : lo ≤ k) (hl : assocWf lo l = true) :
    assocWf lo (assocPut k v l) = true := by
  induction l generalizing lo with
  | nil => simp [assocPut, assocWf, hk]
  | cons e r ih =>
    obtain ⟨i, w⟩ := e
    simp only [assocWf, Bool.and_eq_true, decide_eq_true_eq] at hl
    unfold assocPut
    by_cases h1 : k < i
    · simp only [h1, if_true, assocWf, Bool.and_eq_true, decide_eq_true_eq]
      exact ⟨hk, by omega, hl.2⟩
    · by_cases h2 : k = i
      · subst h2
        simp only [h1, if_false, if_true, assocWf, Bool.and_eq_true, decide_eq_true_eq]
        exact ⟨hk, hl.2⟩
      · simp only [h1, h2, if_false, assocWf, Bool.and_eq_true, decide_eq_true_eq]
        exact ⟨hl.1, ih (by omega) hl.2⟩

/-- A put keeps the form of a table. -/
theorem Tab.wf_put {α : Type} {t : Tab α} (h : t.wf = true) (k : Nat) (v : α) : (t.put k v).wf = true :=
  assocWf_put v (Nat.zero_le k) h

@[simp] theorem Tab.wf_empty {α : Type} : (Tab.empty : Tab α).wf = true := rfl

/-- What holds of every listed value and of a value put holds of every listed value afterwards. -/
theorem Tab.all_put {α : Type} {p : Nat × α → Bool} {t : Tab α} {k : Nat} {v : α} (h : t.l.all p = true) (hv : p (k, v) = true) :
    (t.put k v).l.all p = true := by
  obtain ⟨l⟩ := t
  simp only [Tab.put] at h ⊢
  induction l with
  | nil => simp [assocPut, hv]
  | cons e r ih =>
    obtain ⟨i, w⟩ := e
    simp only [List.all_cons, Bool.and_eq_true] at h
    unfold assocPut
    by_cases h1 : k < i
    · simp only [h1, if_true, List.all_cons, Bool.and_eq_true]; exact ⟨hv, h.1, h.2⟩
    · by_cases h2 : k = i
      · subst h2
        simp only [Nat.lt_irrefl, if_false, if_true, List.all_cons, Bool.and_eq_true]
        exact ⟨hv, h.2⟩
      · simp only [h1, h2, if_false, List.all_cons, Bool.and_eq_true]; exact ⟨h.1, ih h.2⟩

/-- What holds of every listed value and of the default holds of what is read. -/
theorem Tab.get_of_all {α : Type} {p : α → Bool} {t : Tab α} {d : α} (h : (t.l.all fun e => p e.2) = true) (hd : p d = true)
    (k : Nat) : p (t.get d k) = true := by
  obtain ⟨l⟩ := t
  simp only [Tab.get] at h ⊢
  induction l with
  | nil => exact hd
  | cons e r ih =>
    obtain ⟨i, w⟩ := e
    simp only [List.all_cons, Bool.and_eq_true] at h
    unfold assocGet
    by_cases hi : i = k
    · simp [hi, h.1]
    · simp [hi, ih h.2]

/-! ## The canonical form of a byte memory -/

theorem cellsWf_mono {a b : Nat} (h : a ≤ b) {l : List Host.Cell} (hl : cellsWf b l = true) : cellsWf a l = true := by
  cases l with
  | nil => rfl
  | cons e r =>
    obtain ⟨i, w⟩ := e
    simp only [cellsWf, Bool.and_eq_true, decide_eq_true_eq] at hl ⊢
    exact ⟨⟨by omega, hl.1.2⟩, hl.2⟩

theorem cellsWf_from {lo : Nat} (a : Nat) {l : List Host.Cell} (hl : cellsWf lo l = true) :
    cellsWf (max a lo) (cellsFrom a l) = true := by
  induction l generalizing lo with
  | nil => rfl
  | cons e r ih =>
    obtain ⟨i, b⟩ := e
    simp only [cellsWf, Bool.and_eq_true, decide_eq_true_eq] at hl
    unfold cellsFrom
    by_cases h : i < a
    · simp only [h, if_true]; exact cellsWf_mono (by omega) (ih hl.2)
    · simp only [h, if_false, cellsWf, Bool.and_eq_true, decide_eq_true_eq]
      exact ⟨⟨by omega, hl.1.2⟩, hl.2⟩

/-- Cells below a, followed by cells from a on, keep the form. -/
theorem cellsWf_below_append {lo a : Nat} {l r : List Host.Cell} (hl : cellsWf lo l = true) (hr : cellsWf (max lo a) r = true) :
    cellsWf lo (cellsBelow a l ++ r) = true := by
  induction l generalizing lo with
  | nil => exact cellsWf_mono (by omega) hr
  | cons e t ih =>
    obtain ⟨i, b⟩ := e
    simp only [cellsWf, Bool.and_eq_true, decide_eq_true_eq] at hl
    unfold cellsBelow
    by_cases h : i < a
    · simp only [h, if_true, List.cons_append, cellsWf, Bool.and_eq_true, decide_eq_true_eq]
      exact ⟨hl.1, ih hl.2 (cellsWf_mono (by omega) hr)⟩
    · simp only [h, if_false, List.nil_append]; exact cellsWf_mono (by omega) hr

theorem cellsWf_below {lo : Nat} (a : Nat) {l : List Host.Cell} (hl : cellsWf lo l = true) : cellsWf lo (cellsBelow a l) = true := by
  have := cellsWf_below_append (a := a) (r := []) hl rfl
  simpa using this

theorem cellsWf_of_append {a : Nat} (bs : List Byte) {r : List Host.Cell} (hr : cellsWf (a + bs.length) r = true) :
    cellsWf a (cellsOf a bs ++ r) = true := by
  induction bs generalizing a with
  | nil => simpa [cellsOf] using hr
  | cons b t ih =>
    have ht : cellsWf (a + 1) (cellsOf (a + 1) t ++ r) = true :=
      ih (by simpa [List.length_cons, Nat.add_assoc, Nat.add_comm 1] using hr)
    unfold cellsOf
    by_cases h : b = 0
    · simp only [h, if_true]; exact cellsWf_mono (by omega) ht
    · simp only [h, if_false, List.cons_append, cellsWf, Bool.and_eq_true, decide_eq_true_eq]
      exact ⟨⟨by omega, by simpa using h⟩, ht⟩

@[simp] theorem Mem.wf_empty : Mem.empty.wf = true := rfl

/-- A write keeps the form of a memory. -/
theorem Mem.wf_write {m : Mem} (h : m.wf = true) (a : Nat) (bs : List Byte) : (m.write a bs).wf = true := by
  refine cellsWf_below_append h (cellsWf_mono (by omega) (cellsWf_of_append bs ?_))
  exact cellsWf_mono (by omega) (cellsWf_from (a + bs.length) h)

theorem cellsWf_shift {lo a b : Nat} (ha : a ≤ lo) {l : List Host.Cell} (hl : cellsWf lo l = true) :
    cellsWf (lo - a + b) (l.map fun c => (c.1 - a + b, c.2)) = true := by
  induction l generalizing lo with
  | nil => rfl
  | cons e r ih =>
    obtain ⟨i, w⟩ := e
    simp only [cellsWf, Bool.and_eq_true, decide_eq_true_eq] at hl
    simp only [List.map_cons, cellsWf, Bool.and_eq_true, decide_eq_true_eq]
    refine ⟨⟨by omega, hl.1.2⟩, ?_⟩
    have := ih (lo := i + 1) (by omega) hl.2
    exact cellsWf_mono (by omega) this

theorem cellsWf_slice {m : Mem} (h : m.wf = true) (a n b : Nat) : cellsWf b (m.slice a n b).cells = true := by
  have h1 : cellsWf (max a 0) (cellsFrom a m.cells) = true := cellsWf_from a h
  have h2 := cellsWf_shift (a := a) (b := b) (by omega) (cellsWf_below (a + n) h1)
  exact cellsWf_mono (by omega) h2

/-- A slice has the form of a memory. -/
theorem Mem.wf_slice {m : Mem} (h : m.wf = true) (a n b : Nat) : (m.slice a n b).wf = true :=
  cellsWf_mono (Nat.zero_le b) (cellsWf_slice h a n b)

theorem cellsWf_append {lo hi : Nat} {l r : List Host.Cell} (hl : cellsWf lo l = true) (hb : ∀ c ∈ l, c.1 < hi) (hlo : lo ≤ hi)
    (hr : cellsWf hi r = true) : cellsWf lo (l ++ r) = true := by
  induction l generalizing lo with
  | nil => exact cellsWf_mono hlo hr
  | cons e t ih =>
    obtain ⟨i, b⟩ := e
    simp only [cellsWf, Bool.and_eq_true, decide_eq_true_eq] at hl
    simp only [List.cons_append, cellsWf, Bool.and_eq_true, decide_eq_true_eq]
    have hi' : i < hi := hb (i, b) (by simp)
    exact ⟨hl.1, ih hl.2 (fun c hc => hb c (by simp [hc])) (by omega)⟩

theorem mem_below {a : Nat} {l : List Host.Cell} {c : Host.Cell} (h : c ∈ cellsBelow a l) : c.1 < a := by
  induction l with
  | nil => simp [cellsBelow] at h
  | cons e r ih =>
    obtain ⟨i, b⟩ := e
    unfold cellsBelow at h
    by_cases hi : i < a
    · simp only [hi, if_true, List.mem_cons] at h
      rcases h with h | h
      · rw [h]; exact hi
      · exact ih h
    · simp [hi] at h

/-- A splice keeps the form of a memory. -/
theorem Mem.wf_splice {m src : Mem} (h : m.wf = true) (hs : src.wf = true) (a n : Nat) : (m.splice a n src).wf = true := by
  refine cellsWf_below_append h (cellsWf_mono (b := a) (by omega) ?_)
  refine cellsWf_append (hi := a + n) (cellsWf_slice hs 0 n a) ?_ (by omega) (cellsWf_mono (by omega) (cellsWf_from (a + n) h))
  intro c hc
  simp only [Mem.slice, List.mem_map] at hc
  obtain ⟨e, he, rfl⟩ := hc
  have := mem_below he
  simp only; omega

theorem Mem.wf_setNum {m : Mem} (h : m.wf = true) (a n x : Nat) : (m.setNum a n x).wf = true := Mem.wf_write h a _

theorem Mem.wf_putWords {m : Mem} (h : m.wf = true) (a : Nat) (ws : List Word) : (m.putWords a ws).wf = true := Mem.wf_write h a _

/-! ## Reading after a write -/

theorem assocGet_low {lo a : Nat} {l : List Host.Cell} (hl : cellsWf lo l = true) (h : a < lo) : assocGet (0 : Byte) a l = 0 := by
  induction l generalizing lo with
  | nil => rfl
  | cons e r ih =>
    obtain ⟨i, b⟩ := e
    simp only [cellsWf, Bool.and_eq_true, decide_eq_true_eq] at hl
    have hi : ¬ i = a := by omega
    simp only [assocGet, hi, if_false]
    exact ih hl.2 (by omega)

theorem assocGet_from {lo a x : Nat} {l : List Host.Cell} (hl : cellsWf lo l = true) (h : a ≤ x) :
    assocGet (0 : Byte) x (cellsFrom a l) = assocGet 0 x l := by
  induction l generalizing lo with
  | nil => rfl
  | cons e r ih =>
    obtain ⟨i, b⟩ := e
    simp only [cellsWf, Bool.and_eq_true, decide_eq_true_eq] at hl
    unfold cellsFrom
    by_cases hi : i < a
    · have : ¬ i = x := by omega
      simp only [hi, if_true, assocGet, this, if_false]; exact ih hl.2
    · simp [hi]

theorem assocGet_append {x : Nat} {l r : List Host.Cell} (h : ∀ c ∈ l, c.1 ≠ x) : assocGet (0 : Byte) x (l ++ r) = assocGet 0 x r := by
  induction l with
  | nil => rfl
  | cons e t ih =>
    obtain ⟨i, b⟩ := e
    have hi : ¬ i = x := h (i, b) (by simp)
    simp only [List.cons_append, assocGet, hi, if_false]
    exact ih fun c hc => h c (by simp [hc])

theorem assocGet_below_append {lo a x : Nat} {l r : List Host.Cell} (hl : cellsWf lo l = true) (h : x < a)
    (hr : cellsWf a r = true) : assocGet (0 : Byte) x (cellsBelow a l ++ r) = assocGet 0 x l := by
  induction l generalizing lo with
  | nil => exact assocGet_low hr h
  | cons e t ih =>
    obtain ⟨i, b⟩ := e
    simp only [cellsWf, Bool.and_eq_true, decide_eq_true_eq] at hl
    unfold cellsBelow
    by_cases hi : i < a
    · simp only [hi, if_true, List.cons_append, assocGet]
      by_cases hx : i = x
      · simp [hx]
      · simp only [hx, if_false]; exact ih hl.2
    · have hx : ¬ i = x := by omega
      simp only [hi, if_false, List.nil_append, assocGet, hx]
      rw [assocGet_low hr h, assocGet_low hl.2 (by omega)]

theorem mem_cellsOf {a : Nat} {bs : List Byte} {c : Host.Cell} (h : c ∈ cellsOf a bs) : a ≤ c.1 ∧ c.1 < a + bs.length := by
  induction bs generalizing a with
  | nil => simp [cellsOf] at h
  | cons b t ih =>
    unfold cellsOf at h
    simp only [List.length_cons]
    by_cases hb : b = 0
    · simp only [hb, if_true] at h; have := ih h; omega
    · simp only [hb, if_false, List.mem_cons] at h
      rcases h with h | h
      · rw [h]; simp only; omega
      · have := ih h; omega

theorem assocGet_cellsOf {a i : Nat} {bs : List Byte} {r : List Host.Cell} (hi : i < bs.length)
    (hr : cellsWf (a + bs.length) r = true) : assocGet (0 : Byte) (a + i) (cellsOf a bs ++ r) = bs.getD i 0 := by
  induction bs generalizing a i with
  | nil => simp at hi
  | cons b t ih =>
    have hr' : cellsWf (a + 1 + t.length) r = true := by
      simpa [List.length_cons, Nat.add_assoc, Nat.add_comm 1] using hr
    unfold cellsOf
    cases i with
    | zero =>
      by_cases hb : b = 0
      · simp only [hb, if_true, Nat.add_zero]
        have : cellsWf (a + 1) (cellsOf (a + 1) t ++ r) = true := cellsWf_of_append t hr'
        simpa using assocGet_low this (by omega)
      · simp only [hb, if_false, List.cons_append, Nat.add_zero, assocGet, if_true]
        rfl
    | succ j =>
      have e : a + (j + 1) = a + 1 + j := by omega
      have hj : j < t.length := by simpa using hi
      have ha : ¬ a = a + 1 + j := by omega
      by_cases hb : b = 0
      · simp only [hb, if_true, e]; simpa using ih hj hr'
      · simp only [hb, if_false, e, List.cons_append, assocGet, ha]; simpa using ih hj hr'

/-- A byte just written reads back. -/
theorem Mem.byte_write_in {m : Mem} (h : m.wf = true) {a i : Nat} {bs : List Byte} (hi : i < bs.length) :
    (m.write a bs).byte (a + i) = bs.getD i 0 := by
  have hf : cellsWf (a + bs.length) (cellsFrom (a + bs.length) m.cells) = true :=
    cellsWf_mono (by omega) (cellsWf_from (a + bs.length) h)
  unfold Mem.byte Mem.write
  rw [assocGet_append fun c hc => by have := mem_below hc; omega]
  exact assocGet_cellsOf hi hf

/-- A byte outside those written reads as before. -/
theorem Mem.byte_write_out {m : Mem} (h : m.wf = true) {a x : Nat} {bs : List Byte} (hx : x < a ∨ a + bs.length ≤ x) :
    (m.write a bs).byte x = m.byte x := by
  have hf : cellsWf (a + bs.length) (cellsFrom (a + bs.length) m.cells) = true :=
    cellsWf_mono (by omega) (cellsWf_from (a + bs.length) h)
  unfold Mem.byte Mem.write
  rcases hx with hx | hx
  · exact assocGet_below_append h hx (cellsWf_of_append bs hf)
  · rw [assocGet_append fun c hc => by have := mem_below hc; omega,
      assocGet_append fun c hc => by have := mem_cellsOf hc; omega, assocGet_from h hx]

theorem le_of_mem_rangeFrom {n a x : Nat} (h : x ∈ rangeFrom a n) : a ≤ x := by
  induction n generalizing a with
  | zero => simp [rangeFrom] at h
  | succ n ih =>
    simp only [rangeFrom, List.mem_cons] at h
    rcases h with h | h
    · omega
    · have := ih h; omega

theorem takeBytes_eq {lo n a : Nat} {l : List Host.Cell} (hl : cellsWf lo l = true) (ha : a ≤ lo) :
    takeBytes n a l = (rangeFrom a n).map fun x => assocGet (0 : Byte) x l := by
  induction n generalizing lo a l with
  | zero => simp [takeBytes, rangeFrom]
  | succ n ih =>
    cases l with
    | nil =>
      have h0 : ∀ (n b c : Nat), takeBytes n b [] = (rangeFrom c n).map fun x => assocGet (0 : Byte) x [] := by
        intro n
        induction n with
        | zero => intro b c; rfl
        | succ n ih2 => intro b c; simp only [takeBytes, rangeFrom, List.map_cons, assocGet]; rw [ih2 0 (c + 1)]; rfl
      exact h0 (n + 1) a a
    | cons e r =>
      obtain ⟨i, b⟩ := e
      have hl' := hl
      simp only [cellsWf, Bool.and_eq_true, decide_eq_true_eq] at hl
      simp only [takeBytes, rangeFrom, List.map_cons, assocGet]
      by_cases hi : i = a
      · subst hi
        simp only [if_true]
        rw [ih hl.2 (by omega)]
        congr 1
        apply List.map_congr_left
        intro x hx
        have hx' : i < x := by
          have := le_of_mem_rangeFrom hx; omega
        have : ¬ i = x := by omega
        simp [this]
      · simp only [hi, if_false]
        have hw : cellsWf i ((i, b) :: r) = true := by
          simp only [cellsWf, Bool.and_eq_true, decide_eq_true_eq]; exact ⟨⟨Nat.le_refl i, hl.1.2⟩, hl.2⟩
        rw [ih hw (by omega), assocGet_low hl.2 (by omega)]
        rfl

/-- Reading n bytes reads each of them. -/
theorem Mem.read_eq {m : Mem} (h : m.wf = true) (a n : Nat) : m.read a n = (rangeFrom a n).map m.byte := by
  unfold Mem.read
  have hf : cellsWf (max a 0) (cellsFrom a m.cells) = true := cellsWf_from a h
  rw [takeBytes_eq (lo := a) (cellsWf_mono (by omega) hf) (Nat.le_refl a)]
  apply List.map_congr_left
  intro x hx
  exact assocGet_from h (le_of_mem_rangeFrom hx)

@[simp] theorem rangeFrom_length (a n : Nat) : (rangeFrom a n).length = n := by
  induction n generalizing a with
  | zero => rfl
  | succ n ih => simp [rangeFrom, ih]

@[simp] theorem Mem.read_length (m : Mem) (a n : Nat) : (m.read a n).length = n := by
  unfold Mem.read
  generalize cellsFrom a m.cells = l
  induction n generalizing a l with
  | zero => rfl
  | succ n ih =>
    cases l with
    | nil => simp [takeBytes, ih]
    | cons e r =>
      obtain ⟨i, b⟩ := e
      unfold takeBytes
      by_cases h : i = a <;> simp [h, ih]

theorem getElem_rangeFrom (a n i : Nat) (h : i < (rangeFrom a n).length) : (rangeFrom a n)[i] = a + i := by
  induction n generalizing a i with
  | zero => simp [rangeFrom] at h
  | succ n ih =>
    cases i with
    | zero => rfl
    | succ j =>
      simp only [rangeFrom, List.getElem_cons_succ]
      rw [ih]; omega

/-- Bytes just written read back. -/
theorem Mem.read_write_same {m : Mem} (h : m.wf = true) (a : Nat) (bs : List Byte) : (m.write a bs).read a bs.length = bs := by
  rw [Mem.read_eq (Mem.wf_write h a bs)]
  apply List.ext_getElem
  · simp
  · intro i h1 h2
    simp only [List.getElem_map, getElem_rangeFrom]
    rw [Mem.byte_write_in h h2]
    simp [List.getD, h2]

/-- Bytes apart from those written read as before. -/
theorem Mem.read_write_apart {m : Mem} (h : m.wf = true) {a b n : Nat} {bs : List Byte} (hd : b + n ≤ a ∨ a + bs.length ≤ b) :
    (m.write a bs).read b n = m.read b n := by
  rw [Mem.read_eq (Mem.wf_write h a bs), Mem.read_eq h]
  apply List.ext_getElem
  · simp
  · intro i h1 h2
    have hi : i < n := by simpa using h1
    simp only [List.getElem_map, getElem_rangeFrom]
    exact Mem.byte_write_out h (by omega)

/-! ## Little-endian numbers (00 R4) -/

@[simp] theorem bytesOfNat_length (n x : Nat) : (bytesOfNat n x).length = n := by
  induction n generalizing x with
  | zero => rfl
  | succ n ih => simp [bytesOfNat, ih]

@[simp] theorem bytesOfWord_length (n : Nat) (w : Word) : (bytesOfWord n w).length = n := bytesOfNat_length n _

/-- A number laid out as n bytes and read back keeps its low 8 n bits. -/
theorem natOfBytes_bytesOfNat (n x : Nat) : natOfBytes (bytesOfNat n x) = x % 256 ^ n := by
  induction n generalizing x with
  | zero => simp [bytesOfNat, natOfBytes, Nat.mod_one]
  | succ n ih =>
    simp only [bytesOfNat, natOfBytes, ih, BitVec.toNat_ofNat]
    rw [show (2 : Nat) ^ 8 = 256 from rfl, Nat.pow_succ, Nat.mul_comm (256 ^ n) 256, Nat.mod_mul]

/-- A word laid out as 8 bytes reads back. -/
@[simp] theorem wordOfBytes_bytesOfWord (w : Word) : wordOfBytes (bytesOfWord 8 w) = w := by
  unfold wordOfBytes bytesOfWord
  rw [natOfBytes_bytesOfNat]
  have : w.toNat < 256 ^ 8 := w.isLt
  rw [Nat.mod_eq_of_lt this]
  simp

end Sys2Proof
end

