-- ==== Sys2Proof/Laws/State.lean ====
section
/-!
SUPPORT. The small laws of the state: what each named update leaves in each field, true by unfolding the update, and what an accessor reads
after an update. Later proofs rewrite with these and unfold no record update.
-/
namespace Sys2Proof.Machine

/-! ## The device -/

@[simp] theorem Mach.setCore_time (m : Mach) (c : Nat) (k : Core) : (m.setCore c k).time = m.time := rfl
@[simp] theorem Mach.setCore_hbm (m : Mach) (c : Nat) (k : Core) : (m.setCore c k).hbm = m.hbm := rfl
@[simp] theorem Mach.setCore_hostMem (m : Mach) (c : Nat) (k : Core) : (m.setCore c k).hostMem = m.hostMem := rfl
@[simp] theorem Mach.setCore_cxlMem (m : Mach) (c : Nat) (k : Core) : (m.setCore c k).cxlMem = m.cxlMem := rfl
@[simp] theorem Mach.setCore_pool (m : Mach) (c : Nat) (k : Core) : (m.setCore c k).pool = m.pool := rfl
@[simp] theorem Mach.setCore_lentUsed (m : Mach) (c : Nat) (k : Core) : (m.setCore c k).lentUsed = m.lentUsed := rfl
@[simp] theorem Mach.setCore_lentQ (m : Mach) (c : Nat) (k : Core) : (m.setCore c k).lentQ = m.lentQ := rfl
@[simp] theorem Mach.setCore_rootBase (m : Mach) (c : Nat) (k : Core) : (m.setCore c k).rootBase = m.rootBase := rfl
@[simp] theorem Mach.setCore_rtSel (m : Mach) (c : Nat) (k : Core) : (m.setCore c k).rtSel = m.rtSel := rfl
@[simp] theorem Mach.setCore_staged (m : Mach) (c : Nat) (k : Core) : (m.setCore c k).staged = m.staged := rfl
@[simp] theorem Mach.setCore_routes (m : Mach) (c : Nat) (k : Core) : (m.setCore c k).routes = m.routes := rfl
@[simp] theorem Mach.setCore_gen (m : Mach) (c : Nat) (k : Core) : (m.setCore c k).gen = m.gen := rfl
@[simp] theorem Mach.setCore_genBusy (m : Mach) (c : Nat) (k : Core) : (m.setCore c k).genBusy = m.genBusy := rfl
@[simp] theorem Mach.setCore_tlb (m : Mach) (c : Nat) (k : Core) : (m.setCore c k).tlb = m.tlb := rfl
@[simp] theorem Mach.setCore_tabs (m : Mach) (c : Nat) (k : Core) : (m.setCore c k).tabs = m.tabs := rfl
@[simp] theorem Mach.setCore_lineMaps (m : Mach) (c : Nat) (k : Core) : (m.setCore c k).lineMaps = m.lineMaps := rfl
@[simp] theorem Mach.setCore_dieReset (m : Mach) (c : Nat) (k : Core) : (m.setCore c k).dieReset = m.dieReset := rfl
@[simp] theorem Mach.setCore_vl (m : Mach) (c : Nat) (k : Core) : (m.setCore c k).vl = m.vl := rfl
@[simp] theorem Mach.setCore_el (m : Mach) (c : Nat) (k : Core) : (m.setCore c k).el = m.el := rfl
@[simp] theorem Mach.setCore_copies (m : Mach) (c : Nat) (k : Core) : (m.setCore c k).copies = m.copies := rfl
@[simp] theorem Mach.setCore_subs (m : Mach) (c : Nat) (k : Core) : (m.setCore c k).subs = m.subs := rfl
@[simp] theorem Mach.setCore_commits (m : Mach) (c : Nat) (k : Core) : (m.setCore c k).commits = m.commits := rfl
@[simp] theorem Mach.setCore_arrivals (m : Mach) (c : Nat) (k : Core) : (m.setCore c k).arrivals = m.arrivals := rfl
@[simp] theorem Mach.setCore_heldArr (m : Mach) (c : Nat) (k : Core) : (m.setCore c k).heldArr = m.heldArr := rfl
@[simp] theorem Mach.setCore_requests (m : Mach) (c : Nat) (k : Core) : (m.setCore c k).requests = m.requests := rfl
@[simp] theorem Mach.setCore_waiters (m : Mach) (c : Nat) (k : Core) : (m.setCore c k).waiters = m.waiters := rfl
@[simp] theorem Mach.setCore_wq (m : Mach) (c : Nat) (k : Core) : (m.setCore c k).wq = m.wq := rfl
@[simp] theorem Mach.setCore_tdt (m : Mach) (c : Nat) (k : Core) : (m.setCore c k).tdt = m.tdt := rfl
@[simp] theorem Mach.setCore_sq (m : Mach) (c : Nat) (k : Core) : (m.setCore c k).sq = m.sq := rfl
@[simp] theorem Mach.setCore_launches (m : Mach) (c : Nat) (k : Core) : (m.setCore c k).launches = m.launches := rfl
@[simp] theorem Mach.setCore_susp (m : Mach) (c : Nat) (k : Core) : (m.setCore c k).susp = m.susp := rfl
@[simp] theorem Mach.setCore_lrBase (m : Mach) (c : Nat) (k : Core) : (m.setCore c k).lrBase = m.lrBase := rfl
@[simp] theorem Mach.setCore_lrLog (m : Mach) (c : Nat) (k : Core) : (m.setCore c k).lrLog = m.lrLog := rfl
@[simp] theorem Mach.setCore_lrTail (m : Mach) (c : Nat) (k : Core) : (m.setCore c k).lrTail = m.lrTail := rfl
@[simp] theorem Mach.setCore_lrHead (m : Mach) (c : Nat) (k : Core) : (m.setCore c k).lrHead = m.lrHead := rfl
@[simp] theorem Mach.setCore_phase (m : Mach) (c : Nat) (k : Core) : (m.setCore c k).phase = m.phase := rfl
@[simp] theorem Mach.setCore_phaseRec (m : Mach) (c : Nat) (k : Core) : (m.setCore c k).phaseRec = m.phaseRec := rfl
@[simp] theorem Mach.setCore_heard (m : Mach) (c : Nat) (k : Core) : (m.setCore c k).heard = m.heard := rfl
@[simp] theorem Mach.setCore_detBuf (m : Mach) (c : Nat) (k : Core) : (m.setCore c k).detBuf = m.detBuf := rfl
@[simp] theorem Mach.setCore_replCfg (m : Mach) (c : Nat) (k : Core) : (m.setCore c k).replCfg = m.replCfg := rfl
@[simp] theorem Mach.setCore_nextId (m : Mach) (c : Nat) (k : Core) : (m.setCore c k).nextId = m.nextId := rfl
@[simp] theorem Mach.setCore_power (m : Mach) (c : Nat) (k : Core) : (m.setCore c k).power = m.power := rfl
@[simp] theorem Mach.setCore_links (m : Mach) (c : Nat) (k : Core) : (m.setCore c k).links = m.links := rfl
@[simp] theorem Mach.setCore_msixTab (m : Mach) (c : Nat) (k : Core) : (m.setCore c k).msixTab = m.msixTab := rfl
@[simp] theorem Mach.setCore_msixMask (m : Mach) (c : Nat) (k : Core) : (m.setCore c k).msixMask = m.msixMask := rfl
@[simp] theorem Mach.setCore_msixPend (m : Mach) (c : Nat) (k : Core) : (m.setCore c k).msixPend = m.msixPend := rfl
@[simp] theorem Mach.setCore_msixSent (m : Mach) (c : Nat) (k : Core) : (m.setCore c k).msixSent = m.msixSent := rfl
@[simp] theorem Mach.setCore_peerMap (m : Mach) (c : Nat) (k : Core) : (m.setCore c k).peerMap = m.peerMap := rfl
@[simp] theorem Mach.setCore_devId (m : Mach) (c : Nat) (k : Core) : (m.setCore c k).devId = m.devId := rfl
@[simp] theorem Mach.setCore_portDown (m : Mach) (c : Nat) (k : Core) : (m.setCore c k).portDown = m.portDown := rfl
@[simp] theorem Mach.setCore_peerReqs (m : Mach) (c : Nat) (k : Core) : (m.setCore c k).peerReqs = m.peerReqs := rfl
@[simp] theorem Mach.setCore_nextTag (m : Mach) (c : Nat) (k : Core) : (m.setCore c k).nextTag = m.nextTag := rfl
@[simp] theorem Mach.setCore_dkcfg (m : Mach) (c : Nat) (k : Core) : (m.setCore c k).dkcfg = m.dkcfg := rfl
@[simp] theorem Mach.setCore_scrub (m : Mach) (c : Nat) (k : Core) : (m.setCore c k).scrub = m.scrub := rfl
@[simp] theorem Mach.setCore_scrubPos (m : Mach) (c : Nat) (k : Core) : (m.setCore c k).scrubPos = m.scrubPos := rfl
@[simp] theorem Mach.setCore_stFails (m : Mach) (c : Nat) (k : Core) : (m.setCore c k).stFails = m.stFails := rfl
@[simp] theorem Mach.setCore_stStatus (m : Mach) (c : Nat) (k : Core) : (m.setCore c k).stStatus = m.stStatus := rfl
@[simp] theorem Mach.setCore_stSkip (m : Mach) (c : Nat) (k : Core) : (m.setCore c k).stSkip = m.stSkip := rfl
@[simp] theorem Mach.setCore_stDies (m : Mach) (c : Nat) (k : Core) : (m.setCore c k).stDies = m.stDies := rfl
@[simp] theorem Mach.setCore_trust (m : Mach) (c : Nat) (k : Core) : (m.setCore c k).trust = m.trust := rfl
@[simp] theorem Mach.setCore_out (m : Mach) (c : Nat) (k : Core) : (m.setCore c k).out = m.out := rfl
@[simp] theorem Mach.setCore_nonce (m : Mach) (c : Nat) (k : Core) : (m.setCore c k).nonce = m.nonce := rfl
@[simp] theorem Mach.setCore_bad (m : Mach) (c : Nat) (k : Core) : (m.setCore c k).bad = m.bad := rfl

@[simp] theorem Mach.updCore_time (m : Mach) (c : Nat) (f : Core → Core) : (m.updCore c f).time = m.time := rfl
@[simp] theorem Mach.updCore_hbm (m : Mach) (c : Nat) (f : Core → Core) : (m.updCore c f).hbm = m.hbm := rfl
@[simp] theorem Mach.updCore_hostMem (m : Mach) (c : Nat) (f : Core → Core) : (m.updCore c f).hostMem = m.hostMem := rfl
@[simp] theorem Mach.updCore_cxlMem (m : Mach) (c : Nat) (f : Core → Core) : (m.updCore c f).cxlMem = m.cxlMem := rfl
@[simp] theorem Mach.updCore_pool (m : Mach) (c : Nat) (f : Core → Core) : (m.updCore c f).pool = m.pool := rfl
@[simp] theorem Mach.updCore_lentUsed (m : Mach) (c : Nat) (f : Core → Core) : (m.updCore c f).lentUsed = m.lentUsed := rfl
@[simp] theorem Mach.updCore_lentQ (m : Mach) (c : Nat) (f : Core → Core) : (m.updCore c f).lentQ = m.lentQ := rfl
@[simp] theorem Mach.updCore_rootBase (m : Mach) (c : Nat) (f : Core → Core) : (m.updCore c f).rootBase = m.rootBase := rfl
@[simp] theorem Mach.updCore_rtSel (m : Mach) (c : Nat) (f : Core → Core) : (m.updCore c f).rtSel = m.rtSel := rfl
@[simp] theorem Mach.updCore_staged (m : Mach) (c : Nat) (f : Core → Core) : (m.updCore c f).staged = m.staged := rfl
@[simp] theorem Mach.updCore_routes (m : Mach) (c : Nat) (f : Core → Core) : (m.updCore c f).routes = m.routes := rfl
@[simp] theorem Mach.updCore_gen (m : Mach) (c : Nat) (f : Core → Core) : (m.updCore c f).gen = m.gen := rfl
@[simp] theorem Mach.updCore_genBusy (m : Mach) (c : Nat) (f : Core → Core) : (m.updCore c f).genBusy = m.genBusy := rfl
@[simp] theorem Mach.updCore_tlb (m : Mach) (c : Nat) (f : Core → Core) : (m.updCore c f).tlb = m.tlb := rfl
@[simp] theorem Mach.updCore_tabs (m : Mach) (c : Nat) (f : Core → Core) : (m.updCore c f).tabs = m.tabs := rfl
@[simp] theorem Mach.updCore_lineMaps (m : Mach) (c : Nat) (f : Core → Core) : (m.updCore c f).lineMaps = m.lineMaps := rfl
@[simp] theorem Mach.updCore_dieReset (m : Mach) (c : Nat) (f : Core → Core) : (m.updCore c f).dieReset = m.dieReset := rfl
@[simp] theorem Mach.updCore_vl (m : Mach) (c : Nat) (f : Core → Core) : (m.updCore c f).vl = m.vl := rfl
@[simp] theorem Mach.updCore_el (m : Mach) (c : Nat) (f : Core → Core) : (m.updCore c f).el = m.el := rfl
@[simp] theorem Mach.updCore_copies (m : Mach) (c : Nat) (f : Core → Core) : (m.updCore c f).copies = m.copies := rfl
@[simp] theorem Mach.updCore_subs (m : Mach) (c : Nat) (f : Core → Core) : (m.updCore c f).subs = m.subs := rfl
@[simp] theorem Mach.updCore_commits (m : Mach) (c : Nat) (f : Core → Core) : (m.updCore c f).commits = m.commits := rfl
@[simp] theorem Mach.updCore_arrivals (m : Mach) (c : Nat) (f : Core → Core) : (m.updCore c f).arrivals = m.arrivals := rfl
@[simp] theorem Mach.updCore_heldArr (m : Mach) (c : Nat) (f : Core → Core) : (m.updCore c f).heldArr = m.heldArr := rfl
@[simp] theorem Mach.updCore_requests (m : Mach) (c : Nat) (f : Core → Core) : (m.updCore c f).requests = m.requests := rfl
@[simp] theorem Mach.updCore_waiters (m : Mach) (c : Nat) (f : Core → Core) : (m.updCore c f).waiters = m.waiters := rfl
@[simp] theorem Mach.updCore_wq (m : Mach) (c : Nat) (f : Core → Core) : (m.updCore c f).wq = m.wq := rfl
@[simp] theorem Mach.updCore_tdt (m : Mach) (c : Nat) (f : Core → Core) : (m.updCore c f).tdt = m.tdt := rfl
@[simp] theorem Mach.updCore_sq (m : Mach) (c : Nat) (f : Core → Core) : (m.updCore c f).sq = m.sq := rfl
@[simp] theorem Mach.updCore_launches (m : Mach) (c : Nat) (f : Core → Core) : (m.updCore c f).launches = m.launches := rfl
@[simp] theorem Mach.updCore_susp (m : Mach) (c : Nat) (f : Core → Core) : (m.updCore c f).susp = m.susp := rfl
@[simp] theorem Mach.updCore_lrBase (m : Mach) (c : Nat) (f : Core → Core) : (m.updCore c f).lrBase = m.lrBase := rfl
@[simp] theorem Mach.updCore_lrLog (m : Mach) (c : Nat) (f : Core → Core) : (m.updCore c f).lrLog = m.lrLog := rfl
@[simp] theorem Mach.updCore_lrTail (m : Mach) (c : Nat) (f : Core → Core) : (m.updCore c f).lrTail = m.lrTail := rfl
@[simp] theorem Mach.updCore_lrHead (m : Mach) (c : Nat) (f : Core → Core) : (m.updCore c f).lrHead = m.lrHead := rfl
@[simp] theorem Mach.updCore_phase (m : Mach) (c : Nat) (f : Core → Core) : (m.updCore c f).phase = m.phase := rfl
@[simp] theorem Mach.updCore_phaseRec (m : Mach) (c : Nat) (f : Core → Core) : (m.updCore c f).phaseRec = m.phaseRec := rfl
@[simp] theorem Mach.updCore_heard (m : Mach) (c : Nat) (f : Core → Core) : (m.updCore c f).heard = m.heard := rfl
@[simp] theorem Mach.updCore_detBuf (m : Mach) (c : Nat) (f : Core → Core) : (m.updCore c f).detBuf = m.detBuf := rfl
@[simp] theorem Mach.updCore_replCfg (m : Mach) (c : Nat) (f : Core → Core) : (m.updCore c f).replCfg = m.replCfg := rfl
@[simp] theorem Mach.updCore_nextId (m : Mach) (c : Nat) (f : Core → Core) : (m.updCore c f).nextId = m.nextId := rfl
@[simp] theorem Mach.updCore_power (m : Mach) (c : Nat) (f : Core → Core) : (m.updCore c f).power = m.power := rfl
@[simp] theorem Mach.updCore_links (m : Mach) (c : Nat) (f : Core → Core) : (m.updCore c f).links = m.links := rfl
@[simp] theorem Mach.updCore_msixTab (m : Mach) (c : Nat) (f : Core → Core) : (m.updCore c f).msixTab = m.msixTab := rfl
@[simp] theorem Mach.updCore_msixMask (m : Mach) (c : Nat) (f : Core → Core) : (m.updCore c f).msixMask = m.msixMask := rfl
@[simp] theorem Mach.updCore_msixPend (m : Mach) (c : Nat) (f : Core → Core) : (m.updCore c f).msixPend = m.msixPend := rfl
@[simp] theorem Mach.updCore_msixSent (m : Mach) (c : Nat) (f : Core → Core) : (m.updCore c f).msixSent = m.msixSent := rfl
@[simp] theorem Mach.updCore_peerMap (m : Mach) (c : Nat) (f : Core → Core) : (m.updCore c f).peerMap = m.peerMap := rfl
@[simp] theorem Mach.updCore_devId (m : Mach) (c : Nat) (f : Core → Core) : (m.updCore c f).devId = m.devId := rfl
@[simp] theorem Mach.updCore_portDown (m : Mach) (c : Nat) (f : Core → Core) : (m.updCore c f).portDown = m.portDown := rfl
@[simp] theorem Mach.updCore_peerReqs (m : Mach) (c : Nat) (f : Core → Core) : (m.updCore c f).peerReqs = m.peerReqs := rfl
@[simp] theorem Mach.updCore_nextTag (m : Mach) (c : Nat) (f : Core → Core) : (m.updCore c f).nextTag = m.nextTag := rfl
@[simp] theorem Mach.updCore_dkcfg (m : Mach) (c : Nat) (f : Core → Core) : (m.updCore c f).dkcfg = m.dkcfg := rfl
@[simp] theorem Mach.updCore_scrub (m : Mach) (c : Nat) (f : Core → Core) : (m.updCore c f).scrub = m.scrub := rfl
@[simp] theorem Mach.updCore_scrubPos (m : Mach) (c : Nat) (f : Core → Core) : (m.updCore c f).scrubPos = m.scrubPos := rfl
@[simp] theorem Mach.updCore_stFails (m : Mach) (c : Nat) (f : Core → Core) : (m.updCore c f).stFails = m.stFails := rfl
@[simp] theorem Mach.updCore_stStatus (m : Mach) (c : Nat) (f : Core → Core) : (m.updCore c f).stStatus = m.stStatus := rfl
@[simp] theorem Mach.updCore_stSkip (m : Mach) (c : Nat) (f : Core → Core) : (m.updCore c f).stSkip = m.stSkip := rfl
@[simp] theorem Mach.updCore_stDies (m : Mach) (c : Nat) (f : Core → Core) : (m.updCore c f).stDies = m.stDies := rfl
@[simp] theorem Mach.updCore_trust (m : Mach) (c : Nat) (f : Core → Core) : (m.updCore c f).trust = m.trust := rfl
@[simp] theorem Mach.updCore_out (m : Mach) (c : Nat) (f : Core → Core) : (m.updCore c f).out = m.out := rfl
@[simp] theorem Mach.updCore_nonce (m : Mach) (c : Nat) (f : Core → Core) : (m.updCore c f).nonce = m.nonce := rfl
@[simp] theorem Mach.updCore_bad (m : Mach) (c : Nat) (f : Core → Core) : (m.updCore c f).bad = m.bad := rfl

@[simp] theorem Mach.updCtx_time (m : Mach) (c : Nat) (fw : Bool) (f : Ctx → Ctx) : (m.updCtx c fw f).time = m.time := rfl
@[simp] theorem Mach.updCtx_hbm (m : Mach) (c : Nat) (fw : Bool) (f : Ctx → Ctx) : (m.updCtx c fw f).hbm = m.hbm := rfl
@[simp] theorem Mach.updCtx_hostMem (m : Mach) (c : Nat) (fw : Bool) (f : Ctx → Ctx) : (m.updCtx c fw f).hostMem = m.hostMem := rfl
@[simp] theorem Mach.updCtx_cxlMem (m : Mach) (c : Nat) (fw : Bool) (f : Ctx → Ctx) : (m.updCtx c fw f).cxlMem = m.cxlMem := rfl
@[simp] theorem Mach.updCtx_pool (m : Mach) (c : Nat) (fw : Bool) (f : Ctx → Ctx) : (m.updCtx c fw f).pool = m.pool := rfl
@[simp] theorem Mach.updCtx_lentUsed (m : Mach) (c : Nat) (fw : Bool) (f : Ctx → Ctx) : (m.updCtx c fw f).lentUsed = m.lentUsed := rfl
@[simp] theorem Mach.updCtx_lentQ (m : Mach) (c : Nat) (fw : Bool) (f : Ctx → Ctx) : (m.updCtx c fw f).lentQ = m.lentQ := rfl
@[simp] theorem Mach.updCtx_rootBase (m : Mach) (c : Nat) (fw : Bool) (f : Ctx → Ctx) : (m.updCtx c fw f).rootBase = m.rootBase := rfl
@[simp] theorem Mach.updCtx_rtSel (m : Mach) (c : Nat) (fw : Bool) (f : Ctx → Ctx) : (m.updCtx c fw f).rtSel = m.rtSel := rfl
@[simp] theorem Mach.updCtx_staged (m : Mach) (c : Nat) (fw : Bool) (f : Ctx → Ctx) : (m.updCtx c fw f).staged = m.staged := rfl
@[simp] theorem Mach.updCtx_routes (m : Mach) (c : Nat) (fw : Bool) (f : Ctx → Ctx) : (m.updCtx c fw f).routes = m.routes := rfl
@[simp] theorem Mach.updCtx_gen (m : Mach) (c : Nat) (fw : Bool) (f : Ctx → Ctx) : (m.updCtx c fw f).gen = m.gen := rfl
@[simp] theorem Mach.updCtx_genBusy (m : Mach) (c : Nat) (fw : Bool) (f : Ctx → Ctx) : (m.updCtx c fw f).genBusy = m.genBusy := rfl
@[simp] theorem Mach.updCtx_tlb (m : Mach) (c : Nat) (fw : Bool) (f : Ctx → Ctx) : (m.updCtx c fw f).tlb = m.tlb := rfl
@[simp] theorem Mach.updCtx_tabs (m : Mach) (c : Nat) (fw : Bool) (f : Ctx → Ctx) : (m.updCtx c fw f).tabs = m.tabs := rfl
@[simp] theorem Mach.updCtx_lineMaps (m : Mach) (c : Nat) (fw : Bool) (f : Ctx → Ctx) : (m.updCtx c fw f).lineMaps = m.lineMaps := rfl
@[simp] theorem Mach.updCtx_dieReset (m : Mach) (c : Nat) (fw : Bool) (f : Ctx → Ctx) : (m.updCtx c fw f).dieReset = m.dieReset := rfl
@[simp] theorem Mach.updCtx_vl (m : Mach) (c : Nat) (fw : Bool) (f : Ctx → Ctx) : (m.updCtx c fw f).vl = m.vl := rfl
@[simp] theorem Mach.updCtx_el (m : Mach) (c : Nat) (fw : Bool) (f : Ctx → Ctx) : (m.updCtx c fw f).el = m.el := rfl
@[simp] theorem Mach.updCtx_copies (m : Mach) (c : Nat) (fw : Bool) (f : Ctx → Ctx) : (m.updCtx c fw f).copies = m.copies := rfl
@[simp] theorem Mach.updCtx_subs (m : Mach) (c : Nat) (fw : Bool) (f : Ctx → Ctx) : (m.updCtx c fw f).subs = m.subs := rfl
@[simp] theorem Mach.updCtx_commits (m : Mach) (c : Nat) (fw : Bool) (f : Ctx → Ctx) : (m.updCtx c fw f).commits = m.commits := rfl
@[simp] theorem Mach.updCtx_arrivals (m : Mach) (c : Nat) (fw : Bool) (f : Ctx → Ctx) : (m.updCtx c fw f).arrivals = m.arrivals := rfl
@[simp] theorem Mach.updCtx_heldArr (m : Mach) (c : Nat) (fw : Bool) (f : Ctx → Ctx) : (m.updCtx c fw f).heldArr = m.heldArr := rfl
@[simp] theorem Mach.updCtx_requests (m : Mach) (c : Nat) (fw : Bool) (f : Ctx → Ctx) : (m.updCtx c fw f).requests = m.requests := rfl
@[simp] theorem Mach.updCtx_waiters (m : Mach) (c : Nat) (fw : Bool) (f : Ctx → Ctx) : (m.updCtx c fw f).waiters = m.waiters := rfl
@[simp] theorem Mach.updCtx_wq (m : Mach) (c : Nat) (fw : Bool) (f : Ctx → Ctx) : (m.updCtx c fw f).wq = m.wq := rfl
@[simp] theorem Mach.updCtx_tdt (m : Mach) (c : Nat) (fw : Bool) (f : Ctx → Ctx) : (m.updCtx c fw f).tdt = m.tdt := rfl
@[simp] theorem Mach.updCtx_sq (m : Mach) (c : Nat) (fw : Bool) (f : Ctx → Ctx) : (m.updCtx c fw f).sq = m.sq := rfl
@[simp] theorem Mach.updCtx_launches (m : Mach) (c : Nat) (fw : Bool) (f : Ctx → Ctx) : (m.updCtx c fw f).launches = m.launches := rfl
@[simp] theorem Mach.updCtx_susp (m : Mach) (c : Nat) (fw : Bool) (f : Ctx → Ctx) : (m.updCtx c fw f).susp = m.susp := rfl
@[simp] theorem Mach.updCtx_lrBase (m : Mach) (c : Nat) (fw : Bool) (f : Ctx → Ctx) : (m.updCtx c fw f).lrBase = m.lrBase := rfl
@[simp] theorem Mach.updCtx_lrLog (m : Mach) (c : Nat) (fw : Bool) (f : Ctx → Ctx) : (m.updCtx c fw f).lrLog = m.lrLog := rfl
@[simp] theorem Mach.updCtx_lrTail (m : Mach) (c : Nat) (fw : Bool) (f : Ctx → Ctx) : (m.updCtx c fw f).lrTail = m.lrTail := rfl
@[simp] theorem Mach.updCtx_lrHead (m : Mach) (c : Nat) (fw : Bool) (f : Ctx → Ctx) : (m.updCtx c fw f).lrHead = m.lrHead := rfl
@[simp] theorem Mach.updCtx_phase (m : Mach) (c : Nat) (fw : Bool) (f : Ctx → Ctx) : (m.updCtx c fw f).phase = m.phase := rfl
@[simp] theorem Mach.updCtx_phaseRec (m : Mach) (c : Nat) (fw : Bool) (f : Ctx → Ctx) : (m.updCtx c fw f).phaseRec = m.phaseRec := rfl
@[simp] theorem Mach.updCtx_heard (m : Mach) (c : Nat) (fw : Bool) (f : Ctx → Ctx) : (m.updCtx c fw f).heard = m.heard := rfl
@[simp] theorem Mach.updCtx_detBuf (m : Mach) (c : Nat) (fw : Bool) (f : Ctx → Ctx) : (m.updCtx c fw f).detBuf = m.detBuf := rfl
@[simp] theorem Mach.updCtx_replCfg (m : Mach) (c : Nat) (fw : Bool) (f : Ctx → Ctx) : (m.updCtx c fw f).replCfg = m.replCfg := rfl
@[simp] theorem Mach.updCtx_nextId (m : Mach) (c : Nat) (fw : Bool) (f : Ctx → Ctx) : (m.updCtx c fw f).nextId = m.nextId := rfl
@[simp] theorem Mach.updCtx_power (m : Mach) (c : Nat) (fw : Bool) (f : Ctx → Ctx) : (m.updCtx c fw f).power = m.power := rfl
@[simp] theorem Mach.updCtx_links (m : Mach) (c : Nat) (fw : Bool) (f : Ctx → Ctx) : (m.updCtx c fw f).links = m.links := rfl
@[simp] theorem Mach.updCtx_msixTab (m : Mach) (c : Nat) (fw : Bool) (f : Ctx → Ctx) : (m.updCtx c fw f).msixTab = m.msixTab := rfl
@[simp] theorem Mach.updCtx_msixMask (m : Mach) (c : Nat) (fw : Bool) (f : Ctx → Ctx) : (m.updCtx c fw f).msixMask = m.msixMask := rfl
@[simp] theorem Mach.updCtx_msixPend (m : Mach) (c : Nat) (fw : Bool) (f : Ctx → Ctx) : (m.updCtx c fw f).msixPend = m.msixPend := rfl
@[simp] theorem Mach.updCtx_msixSent (m : Mach) (c : Nat) (fw : Bool) (f : Ctx → Ctx) : (m.updCtx c fw f).msixSent = m.msixSent := rfl
@[simp] theorem Mach.updCtx_peerMap (m : Mach) (c : Nat) (fw : Bool) (f : Ctx → Ctx) : (m.updCtx c fw f).peerMap = m.peerMap := rfl
@[simp] theorem Mach.updCtx_devId (m : Mach) (c : Nat) (fw : Bool) (f : Ctx → Ctx) : (m.updCtx c fw f).devId = m.devId := rfl
@[simp] theorem Mach.updCtx_portDown (m : Mach) (c : Nat) (fw : Bool) (f : Ctx → Ctx) : (m.updCtx c fw f).portDown = m.portDown := rfl
@[simp] theorem Mach.updCtx_peerReqs (m : Mach) (c : Nat) (fw : Bool) (f : Ctx → Ctx) : (m.updCtx c fw f).peerReqs = m.peerReqs := rfl
@[simp] theorem Mach.updCtx_nextTag (m : Mach) (c : Nat) (fw : Bool) (f : Ctx → Ctx) : (m.updCtx c fw f).nextTag = m.nextTag := rfl
@[simp] theorem Mach.updCtx_dkcfg (m : Mach) (c : Nat) (fw : Bool) (f : Ctx → Ctx) : (m.updCtx c fw f).dkcfg = m.dkcfg := rfl
@[simp] theorem Mach.updCtx_scrub (m : Mach) (c : Nat) (fw : Bool) (f : Ctx → Ctx) : (m.updCtx c fw f).scrub = m.scrub := rfl
@[simp] theorem Mach.updCtx_scrubPos (m : Mach) (c : Nat) (fw : Bool) (f : Ctx → Ctx) : (m.updCtx c fw f).scrubPos = m.scrubPos := rfl
@[simp] theorem Mach.updCtx_stFails (m : Mach) (c : Nat) (fw : Bool) (f : Ctx → Ctx) : (m.updCtx c fw f).stFails = m.stFails := rfl
@[simp] theorem Mach.updCtx_stStatus (m : Mach) (c : Nat) (fw : Bool) (f : Ctx → Ctx) : (m.updCtx c fw f).stStatus = m.stStatus := rfl
@[simp] theorem Mach.updCtx_stSkip (m : Mach) (c : Nat) (fw : Bool) (f : Ctx → Ctx) : (m.updCtx c fw f).stSkip = m.stSkip := rfl
@[simp] theorem Mach.updCtx_stDies (m : Mach) (c : Nat) (fw : Bool) (f : Ctx → Ctx) : (m.updCtx c fw f).stDies = m.stDies := rfl
@[simp] theorem Mach.updCtx_trust (m : Mach) (c : Nat) (fw : Bool) (f : Ctx → Ctx) : (m.updCtx c fw f).trust = m.trust := rfl
@[simp] theorem Mach.updCtx_out (m : Mach) (c : Nat) (fw : Bool) (f : Ctx → Ctx) : (m.updCtx c fw f).out = m.out := rfl
@[simp] theorem Mach.updCtx_nonce (m : Mach) (c : Nat) (fw : Bool) (f : Ctx → Ctx) : (m.updCtx c fw f).nonce = m.nonce := rfl
@[simp] theorem Mach.updCtx_bad (m : Mach) (c : Nat) (fw : Bool) (f : Ctx → Ctx) : (m.updCtx c fw f).bad = m.bad := rfl

@[simp] theorem Mach.orFlags_time (m : Mach) (c : Nat) (fw : Bool) (b : BitVec 5) : (m.orFlags c fw b).time = m.time := rfl
@[simp] theorem Mach.orFlags_hbm (m : Mach) (c : Nat) (fw : Bool) (b : BitVec 5) : (m.orFlags c fw b).hbm = m.hbm := rfl
@[simp] theorem Mach.orFlags_hostMem (m : Mach) (c : Nat) (fw : Bool) (b : BitVec 5) : (m.orFlags c fw b).hostMem = m.hostMem := rfl
@[simp] theorem Mach.orFlags_cxlMem (m : Mach) (c : Nat) (fw : Bool) (b : BitVec 5) : (m.orFlags c fw b).cxlMem = m.cxlMem := rfl
@[simp] theorem Mach.orFlags_pool (m : Mach) (c : Nat) (fw : Bool) (b : BitVec 5) : (m.orFlags c fw b).pool = m.pool := rfl
@[simp] theorem Mach.orFlags_lentUsed (m : Mach) (c : Nat) (fw : Bool) (b : BitVec 5) : (m.orFlags c fw b).lentUsed = m.lentUsed := rfl
@[simp] theorem Mach.orFlags_lentQ (m : Mach) (c : Nat) (fw : Bool) (b : BitVec 5) : (m.orFlags c fw b).lentQ = m.lentQ := rfl
@[simp] theorem Mach.orFlags_rootBase (m : Mach) (c : Nat) (fw : Bool) (b : BitVec 5) : (m.orFlags c fw b).rootBase = m.rootBase := rfl
@[simp] theorem Mach.orFlags_rtSel (m : Mach) (c : Nat) (fw : Bool) (b : BitVec 5) : (m.orFlags c fw b).rtSel = m.rtSel := rfl
@[simp] theorem Mach.orFlags_staged (m : Mach) (c : Nat) (fw : Bool) (b : BitVec 5) : (m.orFlags c fw b).staged = m.staged := rfl
@[simp] theorem Mach.orFlags_routes (m : Mach) (c : Nat) (fw : Bool) (b : BitVec 5) : (m.orFlags c fw b).routes = m.routes := rfl
@[simp] theorem Mach.orFlags_gen (m : Mach) (c : Nat) (fw : Bool) (b : BitVec 5) : (m.orFlags c fw b).gen = m.gen := rfl
@[simp] theorem Mach.orFlags_genBusy (m : Mach) (c : Nat) (fw : Bool) (b : BitVec 5) : (m.orFlags c fw b).genBusy = m.genBusy := rfl
@[simp] theorem Mach.orFlags_tlb (m : Mach) (c : Nat) (fw : Bool) (b : BitVec 5) : (m.orFlags c fw b).tlb = m.tlb := rfl
@[simp] theorem Mach.orFlags_tabs (m : Mach) (c : Nat) (fw : Bool) (b : BitVec 5) : (m.orFlags c fw b).tabs = m.tabs := rfl
@[simp] theorem Mach.orFlags_lineMaps (m : Mach) (c : Nat) (fw : Bool) (b : BitVec 5) : (m.orFlags c fw b).lineMaps = m.lineMaps := rfl
@[simp] theorem Mach.orFlags_dieReset (m : Mach) (c : Nat) (fw : Bool) (b : BitVec 5) : (m.orFlags c fw b).dieReset = m.dieReset := rfl
@[simp] theorem Mach.orFlags_vl (m : Mach) (c : Nat) (fw : Bool) (b : BitVec 5) : (m.orFlags c fw b).vl = m.vl := rfl
@[simp] theorem Mach.orFlags_el (m : Mach) (c : Nat) (fw : Bool) (b : BitVec 5) : (m.orFlags c fw b).el = m.el := rfl
@[simp] theorem Mach.orFlags_copies (m : Mach) (c : Nat) (fw : Bool) (b : BitVec 5) : (m.orFlags c fw b).copies = m.copies := rfl
@[simp] theorem Mach.orFlags_subs (m : Mach) (c : Nat) (fw : Bool) (b : BitVec 5) : (m.orFlags c fw b).subs = m.subs := rfl
@[simp] theorem Mach.orFlags_commits (m : Mach) (c : Nat) (fw : Bool) (b : BitVec 5) : (m.orFlags c fw b).commits = m.commits := rfl
@[simp] theorem Mach.orFlags_arrivals (m : Mach) (c : Nat) (fw : Bool) (b : BitVec 5) : (m.orFlags c fw b).arrivals = m.arrivals := rfl
@[simp] theorem Mach.orFlags_heldArr (m : Mach) (c : Nat) (fw : Bool) (b : BitVec 5) : (m.orFlags c fw b).heldArr = m.heldArr := rfl
@[simp] theorem Mach.orFlags_requests (m : Mach) (c : Nat) (fw : Bool) (b : BitVec 5) : (m.orFlags c fw b).requests = m.requests := rfl
@[simp] theorem Mach.orFlags_waiters (m : Mach) (c : Nat) (fw : Bool) (b : BitVec 5) : (m.orFlags c fw b).waiters = m.waiters := rfl
@[simp] theorem Mach.orFlags_wq (m : Mach) (c : Nat) (fw : Bool) (b : BitVec 5) : (m.orFlags c fw b).wq = m.wq := rfl
@[simp] theorem Mach.orFlags_tdt (m : Mach) (c : Nat) (fw : Bool) (b : BitVec 5) : (m.orFlags c fw b).tdt = m.tdt := rfl
@[simp] theorem Mach.orFlags_sq (m : Mach) (c : Nat) (fw : Bool) (b : BitVec 5) : (m.orFlags c fw b).sq = m.sq := rfl
@[simp] theorem Mach.orFlags_launches (m : Mach) (c : Nat) (fw : Bool) (b : BitVec 5) : (m.orFlags c fw b).launches = m.launches := rfl
@[simp] theorem Mach.orFlags_susp (m : Mach) (c : Nat) (fw : Bool) (b : BitVec 5) : (m.orFlags c fw b).susp = m.susp := rfl
@[simp] theorem Mach.orFlags_lrBase (m : Mach) (c : Nat) (fw : Bool) (b : BitVec 5) : (m.orFlags c fw b).lrBase = m.lrBase := rfl
@[simp] theorem Mach.orFlags_lrLog (m : Mach) (c : Nat) (fw : Bool) (b : BitVec 5) : (m.orFlags c fw b).lrLog = m.lrLog := rfl
@[simp] theorem Mach.orFlags_lrTail (m : Mach) (c : Nat) (fw : Bool) (b : BitVec 5) : (m.orFlags c fw b).lrTail = m.lrTail := rfl
@[simp] theorem Mach.orFlags_lrHead (m : Mach) (c : Nat) (fw : Bool) (b : BitVec 5) : (m.orFlags c fw b).lrHead = m.lrHead := rfl
@[simp] theorem Mach.orFlags_phase (m : Mach) (c : Nat) (fw : Bool) (b : BitVec 5) : (m.orFlags c fw b).phase = m.phase := rfl
@[simp] theorem Mach.orFlags_phaseRec (m : Mach) (c : Nat) (fw : Bool) (b : BitVec 5) : (m.orFlags c fw b).phaseRec = m.phaseRec := rfl
@[simp] theorem Mach.orFlags_heard (m : Mach) (c : Nat) (fw : Bool) (b : BitVec 5) : (m.orFlags c fw b).heard = m.heard := rfl
@[simp] theorem Mach.orFlags_detBuf (m : Mach) (c : Nat) (fw : Bool) (b : BitVec 5) : (m.orFlags c fw b).detBuf = m.detBuf := rfl
@[simp] theorem Mach.orFlags_replCfg (m : Mach) (c : Nat) (fw : Bool) (b : BitVec 5) : (m.orFlags c fw b).replCfg = m.replCfg := rfl
@[simp] theorem Mach.orFlags_nextId (m : Mach) (c : Nat) (fw : Bool) (b : BitVec 5) : (m.orFlags c fw b).nextId = m.nextId := rfl
@[simp] theorem Mach.orFlags_power (m : Mach) (c : Nat) (fw : Bool) (b : BitVec 5) : (m.orFlags c fw b).power = m.power := rfl
@[simp] theorem Mach.orFlags_links (m : Mach) (c : Nat) (fw : Bool) (b : BitVec 5) : (m.orFlags c fw b).links = m.links := rfl
@[simp] theorem Mach.orFlags_msixTab (m : Mach) (c : Nat) (fw : Bool) (b : BitVec 5) : (m.orFlags c fw b).msixTab = m.msixTab := rfl
@[simp] theorem Mach.orFlags_msixMask (m : Mach) (c : Nat) (fw : Bool) (b : BitVec 5) : (m.orFlags c fw b).msixMask = m.msixMask := rfl
@[simp] theorem Mach.orFlags_msixPend (m : Mach) (c : Nat) (fw : Bool) (b : BitVec 5) : (m.orFlags c fw b).msixPend = m.msixPend := rfl
@[simp] theorem Mach.orFlags_msixSent (m : Mach) (c : Nat) (fw : Bool) (b : BitVec 5) : (m.orFlags c fw b).msixSent = m.msixSent := rfl
@[simp] theorem Mach.orFlags_peerMap (m : Mach) (c : Nat) (fw : Bool) (b : BitVec 5) : (m.orFlags c fw b).peerMap = m.peerMap := rfl
@[simp] theorem Mach.orFlags_devId (m : Mach) (c : Nat) (fw : Bool) (b : BitVec 5) : (m.orFlags c fw b).devId = m.devId := rfl
@[simp] theorem Mach.orFlags_portDown (m : Mach) (c : Nat) (fw : Bool) (b : BitVec 5) : (m.orFlags c fw b).portDown = m.portDown := rfl
@[simp] theorem Mach.orFlags_peerReqs (m : Mach) (c : Nat) (fw : Bool) (b : BitVec 5) : (m.orFlags c fw b).peerReqs = m.peerReqs := rfl
@[simp] theorem Mach.orFlags_nextTag (m : Mach) (c : Nat) (fw : Bool) (b : BitVec 5) : (m.orFlags c fw b).nextTag = m.nextTag := rfl
@[simp] theorem Mach.orFlags_dkcfg (m : Mach) (c : Nat) (fw : Bool) (b : BitVec 5) : (m.orFlags c fw b).dkcfg = m.dkcfg := rfl
@[simp] theorem Mach.orFlags_scrub (m : Mach) (c : Nat) (fw : Bool) (b : BitVec 5) : (m.orFlags c fw b).scrub = m.scrub := rfl
@[simp] theorem Mach.orFlags_scrubPos (m : Mach) (c : Nat) (fw : Bool) (b : BitVec 5) : (m.orFlags c fw b).scrubPos = m.scrubPos := rfl
@[simp] theorem Mach.orFlags_stFails (m : Mach) (c : Nat) (fw : Bool) (b : BitVec 5) : (m.orFlags c fw b).stFails = m.stFails := rfl
@[simp] theorem Mach.orFlags_stStatus (m : Mach) (c : Nat) (fw : Bool) (b : BitVec 5) : (m.orFlags c fw b).stStatus = m.stStatus := rfl
@[simp] theorem Mach.orFlags_stSkip (m : Mach) (c : Nat) (fw : Bool) (b : BitVec 5) : (m.orFlags c fw b).stSkip = m.stSkip := rfl
@[simp] theorem Mach.orFlags_stDies (m : Mach) (c : Nat) (fw : Bool) (b : BitVec 5) : (m.orFlags c fw b).stDies = m.stDies := rfl
@[simp] theorem Mach.orFlags_trust (m : Mach) (c : Nat) (fw : Bool) (b : BitVec 5) : (m.orFlags c fw b).trust = m.trust := rfl
@[simp] theorem Mach.orFlags_out (m : Mach) (c : Nat) (fw : Bool) (b : BitVec 5) : (m.orFlags c fw b).out = m.out := rfl
@[simp] theorem Mach.orFlags_nonce (m : Mach) (c : Nat) (fw : Bool) (b : BitVec 5) : (m.orFlags c fw b).nonce = m.nonce := rfl
@[simp] theorem Mach.orFlags_bad (m : Mach) (c : Nat) (fw : Bool) (b : BitVec 5) : (m.orFlags c fw b).bad = m.bad := rfl

@[simp] theorem Mach.spadWrite_time (m : Mach) (c off : Nat) (bs : List Byte) : (m.spadWrite c off bs).time = m.time := rfl
@[simp] theorem Mach.spadWrite_hbm (m : Mach) (c off : Nat) (bs : List Byte) : (m.spadWrite c off bs).hbm = m.hbm := rfl
@[simp] theorem Mach.spadWrite_hostMem (m : Mach) (c off : Nat) (bs : List Byte) : (m.spadWrite c off bs).hostMem = m.hostMem := rfl
@[simp] theorem Mach.spadWrite_cxlMem (m : Mach) (c off : Nat) (bs : List Byte) : (m.spadWrite c off bs).cxlMem = m.cxlMem := rfl
@[simp] theorem Mach.spadWrite_pool (m : Mach) (c off : Nat) (bs : List Byte) : (m.spadWrite c off bs).pool = m.pool := rfl
@[simp] theorem Mach.spadWrite_lentUsed (m : Mach) (c off : Nat) (bs : List Byte) : (m.spadWrite c off bs).lentUsed = m.lentUsed := rfl
@[simp] theorem Mach.spadWrite_lentQ (m : Mach) (c off : Nat) (bs : List Byte) : (m.spadWrite c off bs).lentQ = m.lentQ := rfl
@[simp] theorem Mach.spadWrite_rootBase (m : Mach) (c off : Nat) (bs : List Byte) : (m.spadWrite c off bs).rootBase = m.rootBase := rfl
@[simp] theorem Mach.spadWrite_rtSel (m : Mach) (c off : Nat) (bs : List Byte) : (m.spadWrite c off bs).rtSel = m.rtSel := rfl
@[simp] theorem Mach.spadWrite_staged (m : Mach) (c off : Nat) (bs : List Byte) : (m.spadWrite c off bs).staged = m.staged := rfl
@[simp] theorem Mach.spadWrite_routes (m : Mach) (c off : Nat) (bs : List Byte) : (m.spadWrite c off bs).routes = m.routes := rfl
@[simp] theorem Mach.spadWrite_gen (m : Mach) (c off : Nat) (bs : List Byte) : (m.spadWrite c off bs).gen = m.gen := rfl
@[simp] theorem Mach.spadWrite_genBusy (m : Mach) (c off : Nat) (bs : List Byte) : (m.spadWrite c off bs).genBusy = m.genBusy := rfl
@[simp] theorem Mach.spadWrite_tlb (m : Mach) (c off : Nat) (bs : List Byte) : (m.spadWrite c off bs).tlb = m.tlb := rfl
@[simp] theorem Mach.spadWrite_tabs (m : Mach) (c off : Nat) (bs : List Byte) : (m.spadWrite c off bs).tabs = m.tabs := rfl
@[simp] theorem Mach.spadWrite_lineMaps (m : Mach) (c off : Nat) (bs : List Byte) : (m.spadWrite c off bs).lineMaps = m.lineMaps := rfl
@[simp] theorem Mach.spadWrite_dieReset (m : Mach) (c off : Nat) (bs : List Byte) : (m.spadWrite c off bs).dieReset = m.dieReset := rfl
@[simp] theorem Mach.spadWrite_vl (m : Mach) (c off : Nat) (bs : List Byte) : (m.spadWrite c off bs).vl = m.vl := rfl
@[simp] theorem Mach.spadWrite_el (m : Mach) (c off : Nat) (bs : List Byte) : (m.spadWrite c off bs).el = m.el := rfl
@[simp] theorem Mach.spadWrite_copies (m : Mach) (c off : Nat) (bs : List Byte) : (m.spadWrite c off bs).copies = m.copies := rfl
@[simp] theorem Mach.spadWrite_subs (m : Mach) (c off : Nat) (bs : List Byte) : (m.spadWrite c off bs).subs = m.subs := rfl
@[simp] theorem Mach.spadWrite_commits (m : Mach) (c off : Nat) (bs : List Byte) : (m.spadWrite c off bs).commits = m.commits := rfl
@[simp] theorem Mach.spadWrite_arrivals (m : Mach) (c off : Nat) (bs : List Byte) : (m.spadWrite c off bs).arrivals = m.arrivals := rfl
@[simp] theorem Mach.spadWrite_heldArr (m : Mach) (c off : Nat) (bs : List Byte) : (m.spadWrite c off bs).heldArr = m.heldArr := rfl
@[simp] theorem Mach.spadWrite_requests (m : Mach) (c off : Nat) (bs : List Byte) : (m.spadWrite c off bs).requests = m.requests := rfl
@[simp] theorem Mach.spadWrite_waiters (m : Mach) (c off : Nat) (bs : List Byte) : (m.spadWrite c off bs).waiters = m.waiters := rfl
@[simp] theorem Mach.spadWrite_wq (m : Mach) (c off : Nat) (bs : List Byte) : (m.spadWrite c off bs).wq = m.wq := rfl
@[simp] theorem Mach.spadWrite_tdt (m : Mach) (c off : Nat) (bs : List Byte) : (m.spadWrite c off bs).tdt = m.tdt := rfl
@[simp] theorem Mach.spadWrite_sq (m : Mach) (c off : Nat) (bs : List Byte) : (m.spadWrite c off bs).sq = m.sq := rfl
@[simp] theorem Mach.spadWrite_launches (m : Mach) (c off : Nat) (bs : List Byte) : (m.spadWrite c off bs).launches = m.launches := rfl
@[simp] theorem Mach.spadWrite_susp (m : Mach) (c off : Nat) (bs : List Byte) : (m.spadWrite c off bs).susp = m.susp := rfl
@[simp] theorem Mach.spadWrite_lrBase (m : Mach) (c off : Nat) (bs : List Byte) : (m.spadWrite c off bs).lrBase = m.lrBase := rfl
@[simp] theorem Mach.spadWrite_lrLog (m : Mach) (c off : Nat) (bs : List Byte) : (m.spadWrite c off bs).lrLog = m.lrLog := rfl
@[simp] theorem Mach.spadWrite_lrTail (m : Mach) (c off : Nat) (bs : List Byte) : (m.spadWrite c off bs).lrTail = m.lrTail := rfl
@[simp] theorem Mach.spadWrite_lrHead (m : Mach) (c off : Nat) (bs : List Byte) : (m.spadWrite c off bs).lrHead = m.lrHead := rfl
@[simp] theorem Mach.spadWrite_phase (m : Mach) (c off : Nat) (bs : List Byte) : (m.spadWrite c off bs).phase = m.phase := rfl
@[simp] theorem Mach.spadWrite_phaseRec (m : Mach) (c off : Nat) (bs : List Byte) : (m.spadWrite c off bs).phaseRec = m.phaseRec := rfl
@[simp] theorem Mach.spadWrite_heard (m : Mach) (c off : Nat) (bs : List Byte) : (m.spadWrite c off bs).heard = m.heard := rfl
@[simp] theorem Mach.spadWrite_detBuf (m : Mach) (c off : Nat) (bs : List Byte) : (m.spadWrite c off bs).detBuf = m.detBuf := rfl
@[simp] theorem Mach.spadWrite_replCfg (m : Mach) (c off : Nat) (bs : List Byte) : (m.spadWrite c off bs).replCfg = m.replCfg := rfl
@[simp] theorem Mach.spadWrite_nextId (m : Mach) (c off : Nat) (bs : List Byte) : (m.spadWrite c off bs).nextId = m.nextId := rfl
@[simp] theorem Mach.spadWrite_power (m : Mach) (c off : Nat) (bs : List Byte) : (m.spadWrite c off bs).power = m.power := rfl
@[simp] theorem Mach.spadWrite_links (m : Mach) (c off : Nat) (bs : List Byte) : (m.spadWrite c off bs).links = m.links := rfl
@[simp] theorem Mach.spadWrite_msixTab (m : Mach) (c off : Nat) (bs : List Byte) : (m.spadWrite c off bs).msixTab = m.msixTab := rfl
@[simp] theorem Mach.spadWrite_msixMask (m : Mach) (c off : Nat) (bs : List Byte) : (m.spadWrite c off bs).msixMask = m.msixMask := rfl
@[simp] theorem Mach.spadWrite_msixPend (m : Mach) (c off : Nat) (bs : List Byte) : (m.spadWrite c off bs).msixPend = m.msixPend := rfl
@[simp] theorem Mach.spadWrite_msixSent (m : Mach) (c off : Nat) (bs : List Byte) : (m.spadWrite c off bs).msixSent = m.msixSent := rfl
@[simp] theorem Mach.spadWrite_peerMap (m : Mach) (c off : Nat) (bs : List Byte) : (m.spadWrite c off bs).peerMap = m.peerMap := rfl
@[simp] theorem Mach.spadWrite_devId (m : Mach) (c off : Nat) (bs : List Byte) : (m.spadWrite c off bs).devId = m.devId := rfl
@[simp] theorem Mach.spadWrite_portDown (m : Mach) (c off : Nat) (bs : List Byte) : (m.spadWrite c off bs).portDown = m.portDown := rfl
@[simp] theorem Mach.spadWrite_peerReqs (m : Mach) (c off : Nat) (bs : List Byte) : (m.spadWrite c off bs).peerReqs = m.peerReqs := rfl
@[simp] theorem Mach.spadWrite_nextTag (m : Mach) (c off : Nat) (bs : List Byte) : (m.spadWrite c off bs).nextTag = m.nextTag := rfl
@[simp] theorem Mach.spadWrite_dkcfg (m : Mach) (c off : Nat) (bs : List Byte) : (m.spadWrite c off bs).dkcfg = m.dkcfg := rfl
@[simp] theorem Mach.spadWrite_scrub (m : Mach) (c off : Nat) (bs : List Byte) : (m.spadWrite c off bs).scrub = m.scrub := rfl
@[simp] theorem Mach.spadWrite_scrubPos (m : Mach) (c off : Nat) (bs : List Byte) : (m.spadWrite c off bs).scrubPos = m.scrubPos := rfl
@[simp] theorem Mach.spadWrite_stFails (m : Mach) (c off : Nat) (bs : List Byte) : (m.spadWrite c off bs).stFails = m.stFails := rfl
@[simp] theorem Mach.spadWrite_stStatus (m : Mach) (c off : Nat) (bs : List Byte) : (m.spadWrite c off bs).stStatus = m.stStatus := rfl
@[simp] theorem Mach.spadWrite_stSkip (m : Mach) (c off : Nat) (bs : List Byte) : (m.spadWrite c off bs).stSkip = m.stSkip := rfl
@[simp] theorem Mach.spadWrite_stDies (m : Mach) (c off : Nat) (bs : List Byte) : (m.spadWrite c off bs).stDies = m.stDies := rfl
@[simp] theorem Mach.spadWrite_trust (m : Mach) (c off : Nat) (bs : List Byte) : (m.spadWrite c off bs).trust = m.trust := rfl
@[simp] theorem Mach.spadWrite_out (m : Mach) (c off : Nat) (bs : List Byte) : (m.spadWrite c off bs).out = m.out := rfl
@[simp] theorem Mach.spadWrite_nonce (m : Mach) (c off : Nat) (bs : List Byte) : (m.spadWrite c off bs).nonce = m.nonce := rfl
@[simp] theorem Mach.spadWrite_bad (m : Mach) (c off : Nat) (bs : List Byte) : (m.spadWrite c off bs).bad = m.bad := rfl

@[simp] theorem Mach.hbmWrite_time (m : Mach) (d off : Nat) (bs : List Byte) : (m.hbmWrite d off bs).time = m.time := rfl
@[simp] theorem Mach.hbmWrite_cores (m : Mach) (d off : Nat) (bs : List Byte) : (m.hbmWrite d off bs).cores = m.cores := rfl
@[simp] theorem Mach.hbmWrite_hostMem (m : Mach) (d off : Nat) (bs : List Byte) : (m.hbmWrite d off bs).hostMem = m.hostMem := rfl
@[simp] theorem Mach.hbmWrite_cxlMem (m : Mach) (d off : Nat) (bs : List Byte) : (m.hbmWrite d off bs).cxlMem = m.cxlMem := rfl
@[simp] theorem Mach.hbmWrite_pool (m : Mach) (d off : Nat) (bs : List Byte) : (m.hbmWrite d off bs).pool = m.pool := rfl
@[simp] theorem Mach.hbmWrite_lentUsed (m : Mach) (d off : Nat) (bs : List Byte) : (m.hbmWrite d off bs).lentUsed = m.lentUsed := rfl
@[simp] theorem Mach.hbmWrite_lentQ (m : Mach) (d off : Nat) (bs : List Byte) : (m.hbmWrite d off bs).lentQ = m.lentQ := rfl
@[simp] theorem Mach.hbmWrite_rootBase (m : Mach) (d off : Nat) (bs : List Byte) : (m.hbmWrite d off bs).rootBase = m.rootBase := rfl
@[simp] theorem Mach.hbmWrite_rtSel (m : Mach) (d off : Nat) (bs : List Byte) : (m.hbmWrite d off bs).rtSel = m.rtSel := rfl
@[simp] theorem Mach.hbmWrite_staged (m : Mach) (d off : Nat) (bs : List Byte) : (m.hbmWrite d off bs).staged = m.staged := rfl
@[simp] theorem Mach.hbmWrite_routes (m : Mach) (d off : Nat) (bs : List Byte) : (m.hbmWrite d off bs).routes = m.routes := rfl
@[simp] theorem Mach.hbmWrite_gen (m : Mach) (d off : Nat) (bs : List Byte) : (m.hbmWrite d off bs).gen = m.gen := rfl
@[simp] theorem Mach.hbmWrite_genBusy (m : Mach) (d off : Nat) (bs : List Byte) : (m.hbmWrite d off bs).genBusy = m.genBusy := rfl
@[simp] theorem Mach.hbmWrite_tlb (m : Mach) (d off : Nat) (bs : List Byte) : (m.hbmWrite d off bs).tlb = m.tlb := rfl
@[simp] theorem Mach.hbmWrite_tabs (m : Mach) (d off : Nat) (bs : List Byte) : (m.hbmWrite d off bs).tabs = m.tabs := rfl
@[simp] theorem Mach.hbmWrite_lineMaps (m : Mach) (d off : Nat) (bs : List Byte) : (m.hbmWrite d off bs).lineMaps = m.lineMaps := rfl
@[simp] theorem Mach.hbmWrite_dieReset (m : Mach) (d off : Nat) (bs : List Byte) : (m.hbmWrite d off bs).dieReset = m.dieReset := rfl
@[simp] theorem Mach.hbmWrite_vl (m : Mach) (d off : Nat) (bs : List Byte) : (m.hbmWrite d off bs).vl = m.vl := rfl
@[simp] theorem Mach.hbmWrite_el (m : Mach) (d off : Nat) (bs : List Byte) : (m.hbmWrite d off bs).el = m.el := rfl
@[simp] theorem Mach.hbmWrite_copies (m : Mach) (d off : Nat) (bs : List Byte) : (m.hbmWrite d off bs).copies = m.copies := rfl
@[simp] theorem Mach.hbmWrite_subs (m : Mach) (d off : Nat) (bs : List Byte) : (m.hbmWrite d off bs).subs = m.subs := rfl
@[simp] theorem Mach.hbmWrite_commits (m : Mach) (d off : Nat) (bs : List Byte) : (m.hbmWrite d off bs).commits = m.commits := rfl
@[simp] theorem Mach.hbmWrite_arrivals (m : Mach) (d off : Nat) (bs : List Byte) : (m.hbmWrite d off bs).arrivals = m.arrivals := rfl
@[simp] theorem Mach.hbmWrite_heldArr (m : Mach) (d off : Nat) (bs : List Byte) : (m.hbmWrite d off bs).heldArr = m.heldArr := rfl
@[simp] theorem Mach.hbmWrite_requests (m : Mach) (d off : Nat) (bs : List Byte) : (m.hbmWrite d off bs).requests = m.requests := rfl
@[simp] theorem Mach.hbmWrite_waiters (m : Mach) (d off : Nat) (bs : List Byte) : (m.hbmWrite d off bs).waiters = m.waiters := rfl
@[simp] theorem Mach.hbmWrite_wq (m : Mach) (d off : Nat) (bs : List Byte) : (m.hbmWrite d off bs).wq = m.wq := rfl
@[simp] theorem Mach.hbmWrite_tdt (m : Mach) (d off : Nat) (bs : List Byte) : (m.hbmWrite d off bs).tdt = m.tdt := rfl
@[simp] theorem Mach.hbmWrite_sq (m : Mach) (d off : Nat) (bs : List Byte) : (m.hbmWrite d off bs).sq = m.sq := rfl
@[simp] theorem Mach.hbmWrite_launches (m : Mach) (d off : Nat) (bs : List Byte) : (m.hbmWrite d off bs).launches = m.launches := rfl
@[simp] theorem Mach.hbmWrite_susp (m : Mach) (d off : Nat) (bs : List Byte) : (m.hbmWrite d off bs).susp = m.susp := rfl
@[simp] theorem Mach.hbmWrite_lrBase (m : Mach) (d off : Nat) (bs : List Byte) : (m.hbmWrite d off bs).lrBase = m.lrBase := rfl
@[simp] theorem Mach.hbmWrite_lrLog (m : Mach) (d off : Nat) (bs : List Byte) : (m.hbmWrite d off bs).lrLog = m.lrLog := rfl
@[simp] theorem Mach.hbmWrite_lrTail (m : Mach) (d off : Nat) (bs : List Byte) : (m.hbmWrite d off bs).lrTail = m.lrTail := rfl
@[simp] theorem Mach.hbmWrite_lrHead (m : Mach) (d off : Nat) (bs : List Byte) : (m.hbmWrite d off bs).lrHead = m.lrHead := rfl
@[simp] theorem Mach.hbmWrite_phase (m : Mach) (d off : Nat) (bs : List Byte) : (m.hbmWrite d off bs).phase = m.phase := rfl
@[simp] theorem Mach.hbmWrite_phaseRec (m : Mach) (d off : Nat) (bs : List Byte) : (m.hbmWrite d off bs).phaseRec = m.phaseRec := rfl
@[simp] theorem Mach.hbmWrite_heard (m : Mach) (d off : Nat) (bs : List Byte) : (m.hbmWrite d off bs).heard = m.heard := rfl
@[simp] theorem Mach.hbmWrite_detBuf (m : Mach) (d off : Nat) (bs : List Byte) : (m.hbmWrite d off bs).detBuf = m.detBuf := rfl
@[simp] theorem Mach.hbmWrite_replCfg (m : Mach) (d off : Nat) (bs : List Byte) : (m.hbmWrite d off bs).replCfg = m.replCfg := rfl
@[simp] theorem Mach.hbmWrite_nextId (m : Mach) (d off : Nat) (bs : List Byte) : (m.hbmWrite d off bs).nextId = m.nextId := rfl
@[simp] theorem Mach.hbmWrite_power (m : Mach) (d off : Nat) (bs : List Byte) : (m.hbmWrite d off bs).power = m.power := rfl
@[simp] theorem Mach.hbmWrite_links (m : Mach) (d off : Nat) (bs : List Byte) : (m.hbmWrite d off bs).links = m.links := rfl
@[simp] theorem Mach.hbmWrite_msixTab (m : Mach) (d off : Nat) (bs : List Byte) : (m.hbmWrite d off bs).msixTab = m.msixTab := rfl
@[simp] theorem Mach.hbmWrite_msixMask (m : Mach) (d off : Nat) (bs : List Byte) : (m.hbmWrite d off bs).msixMask = m.msixMask := rfl
@[simp] theorem Mach.hbmWrite_msixPend (m : Mach) (d off : Nat) (bs : List Byte) : (m.hbmWrite d off bs).msixPend = m.msixPend := rfl
@[simp] theorem Mach.hbmWrite_msixSent (m : Mach) (d off : Nat) (bs : List Byte) : (m.hbmWrite d off bs).msixSent = m.msixSent := rfl
@[simp] theorem Mach.hbmWrite_peerMap (m : Mach) (d off : Nat) (bs : List Byte) : (m.hbmWrite d off bs).peerMap = m.peerMap := rfl
@[simp] theorem Mach.hbmWrite_devId (m : Mach) (d off : Nat) (bs : List Byte) : (m.hbmWrite d off bs).devId = m.devId := rfl
@[simp] theorem Mach.hbmWrite_portDown (m : Mach) (d off : Nat) (bs : List Byte) : (m.hbmWrite d off bs).portDown = m.portDown := rfl
@[simp] theorem Mach.hbmWrite_peerReqs (m : Mach) (d off : Nat) (bs : List Byte) : (m.hbmWrite d off bs).peerReqs = m.peerReqs := rfl
@[simp] theorem Mach.hbmWrite_nextTag (m : Mach) (d off : Nat) (bs : List Byte) : (m.hbmWrite d off bs).nextTag = m.nextTag := rfl
@[simp] theorem Mach.hbmWrite_dkcfg (m : Mach) (d off : Nat) (bs : List Byte) : (m.hbmWrite d off bs).dkcfg = m.dkcfg := rfl
@[simp] theorem Mach.hbmWrite_scrub (m : Mach) (d off : Nat) (bs : List Byte) : (m.hbmWrite d off bs).scrub = m.scrub := rfl
@[simp] theorem Mach.hbmWrite_scrubPos (m : Mach) (d off : Nat) (bs : List Byte) : (m.hbmWrite d off bs).scrubPos = m.scrubPos := rfl
@[simp] theorem Mach.hbmWrite_stFails (m : Mach) (d off : Nat) (bs : List Byte) : (m.hbmWrite d off bs).stFails = m.stFails := rfl
@[simp] theorem Mach.hbmWrite_stStatus (m : Mach) (d off : Nat) (bs : List Byte) : (m.hbmWrite d off bs).stStatus = m.stStatus := rfl
@[simp] theorem Mach.hbmWrite_stSkip (m : Mach) (d off : Nat) (bs : List Byte) : (m.hbmWrite d off bs).stSkip = m.stSkip := rfl
@[simp] theorem Mach.hbmWrite_stDies (m : Mach) (d off : Nat) (bs : List Byte) : (m.hbmWrite d off bs).stDies = m.stDies := rfl
@[simp] theorem Mach.hbmWrite_trust (m : Mach) (d off : Nat) (bs : List Byte) : (m.hbmWrite d off bs).trust = m.trust := rfl
@[simp] theorem Mach.hbmWrite_out (m : Mach) (d off : Nat) (bs : List Byte) : (m.hbmWrite d off bs).out = m.out := rfl
@[simp] theorem Mach.hbmWrite_nonce (m : Mach) (d off : Nat) (bs : List Byte) : (m.hbmWrite d off bs).nonce = m.nonce := rfl
@[simp] theorem Mach.hbmWrite_bad (m : Mach) (d off : Nat) (bs : List Byte) : (m.hbmWrite d off bs).bad = m.bad := rfl

@[simp] theorem Mach.poolWrite_time (m : Mach) (d off : Nat) (bs : List Byte) : (m.poolWrite d off bs).time = m.time := rfl
@[simp] theorem Mach.poolWrite_cores (m : Mach) (d off : Nat) (bs : List Byte) : (m.poolWrite d off bs).cores = m.cores := rfl
@[simp] theorem Mach.poolWrite_hbm (m : Mach) (d off : Nat) (bs : List Byte) : (m.poolWrite d off bs).hbm = m.hbm := rfl
@[simp] theorem Mach.poolWrite_hostMem (m : Mach) (d off : Nat) (bs : List Byte) : (m.poolWrite d off bs).hostMem = m.hostMem := rfl
@[simp] theorem Mach.poolWrite_cxlMem (m : Mach) (d off : Nat) (bs : List Byte) : (m.poolWrite d off bs).cxlMem = m.cxlMem := rfl
@[simp] theorem Mach.poolWrite_lentUsed (m : Mach) (d off : Nat) (bs : List Byte) : (m.poolWrite d off bs).lentUsed = m.lentUsed := rfl
@[simp] theorem Mach.poolWrite_lentQ (m : Mach) (d off : Nat) (bs : List Byte) : (m.poolWrite d off bs).lentQ = m.lentQ := rfl
@[simp] theorem Mach.poolWrite_rootBase (m : Mach) (d off : Nat) (bs : List Byte) : (m.poolWrite d off bs).rootBase = m.rootBase := rfl
@[simp] theorem Mach.poolWrite_rtSel (m : Mach) (d off : Nat) (bs : List Byte) : (m.poolWrite d off bs).rtSel = m.rtSel := rfl
@[simp] theorem Mach.poolWrite_staged (m : Mach) (d off : Nat) (bs : List Byte) : (m.poolWrite d off bs).staged = m.staged := rfl
@[simp] theorem Mach.poolWrite_routes (m : Mach) (d off : Nat) (bs : List Byte) : (m.poolWrite d off bs).routes = m.routes := rfl
@[simp] theorem Mach.poolWrite_gen (m : Mach) (d off : Nat) (bs : List Byte) : (m.poolWrite d off bs).gen = m.gen := rfl
@[simp] theorem Mach.poolWrite_genBusy (m : Mach) (d off : Nat) (bs : List Byte) : (m.poolWrite d off bs).genBusy = m.genBusy := rfl
@[simp] theorem Mach.poolWrite_tlb (m : Mach) (d off : Nat) (bs : List Byte) : (m.poolWrite d off bs).tlb = m.tlb := rfl
@[simp] theorem Mach.poolWrite_tabs (m : Mach) (d off : Nat) (bs : List Byte) : (m.poolWrite d off bs).tabs = m.tabs := rfl
@[simp] theorem Mach.poolWrite_lineMaps (m : Mach) (d off : Nat) (bs : List Byte) : (m.poolWrite d off bs).lineMaps = m.lineMaps := rfl
@[simp] theorem Mach.poolWrite_dieReset (m : Mach) (d off : Nat) (bs : List Byte) : (m.poolWrite d off bs).dieReset = m.dieReset := rfl
@[simp] theorem Mach.poolWrite_vl (m : Mach) (d off : Nat) (bs : List Byte) : (m.poolWrite d off bs).vl = m.vl := rfl
@[simp] theorem Mach.poolWrite_el (m : Mach) (d off : Nat) (bs : List Byte) : (m.poolWrite d off bs).el = m.el := rfl
@[simp] theorem Mach.poolWrite_copies (m : Mach) (d off : Nat) (bs : List Byte) : (m.poolWrite d off bs).copies = m.copies := rfl
@[simp] theorem Mach.poolWrite_subs (m : Mach) (d off : Nat) (bs : List Byte) : (m.poolWrite d off bs).subs = m.subs := rfl
@[simp] theorem Mach.poolWrite_commits (m : Mach) (d off : Nat) (bs : List Byte) : (m.poolWrite d off bs).commits = m.commits := rfl
@[simp] theorem Mach.poolWrite_arrivals (m : Mach) (d off : Nat) (bs : List Byte) : (m.poolWrite d off bs).arrivals = m.arrivals := rfl
@[simp] theorem Mach.poolWrite_heldArr (m : Mach) (d off : Nat) (bs : List Byte) : (m.poolWrite d off bs).heldArr = m.heldArr := rfl
@[simp] theorem Mach.poolWrite_requests (m : Mach) (d off : Nat) (bs : List Byte) : (m.poolWrite d off bs).requests = m.requests := rfl
@[simp] theorem Mach.poolWrite_waiters (m : Mach) (d off : Nat) (bs : List Byte) : (m.poolWrite d off bs).waiters = m.waiters := rfl
@[simp] theorem Mach.poolWrite_wq (m : Mach) (d off : Nat) (bs : List Byte) : (m.poolWrite d off bs).wq = m.wq := rfl
@[simp] theorem Mach.poolWrite_tdt (m : Mach) (d off : Nat) (bs : List Byte) : (m.poolWrite d off bs).tdt = m.tdt := rfl
@[simp] theorem Mach.poolWrite_sq (m : Mach) (d off : Nat) (bs : List Byte) : (m.poolWrite d off bs).sq = m.sq := rfl
@[simp] theorem Mach.poolWrite_launches (m : Mach) (d off : Nat) (bs : List Byte) : (m.poolWrite d off bs).launches = m.launches := rfl
@[simp] theorem Mach.poolWrite_susp (m : Mach) (d off : Nat) (bs : List Byte) : (m.poolWrite d off bs).susp = m.susp := rfl
@[simp] theorem Mach.poolWrite_lrBase (m : Mach) (d off : Nat) (bs : List Byte) : (m.poolWrite d off bs).lrBase = m.lrBase := rfl
@[simp] theorem Mach.poolWrite_lrLog (m : Mach) (d off : Nat) (bs : List Byte) : (m.poolWrite d off bs).lrLog = m.lrLog := rfl
@[simp] theorem Mach.poolWrite_lrTail (m : Mach) (d off : Nat) (bs : List Byte) : (m.poolWrite d off bs).lrTail = m.lrTail := rfl
@[simp] theorem Mach.poolWrite_lrHead (m : Mach) (d off : Nat) (bs : List Byte) : (m.poolWrite d off bs).lrHead = m.lrHead := rfl
@[simp] theorem Mach.poolWrite_phase (m : Mach) (d off : Nat) (bs : List Byte) : (m.poolWrite d off bs).phase = m.phase := rfl
@[simp] theorem Mach.poolWrite_phaseRec (m : Mach) (d off : Nat) (bs : List Byte) : (m.poolWrite d off bs).phaseRec = m.phaseRec := rfl
@[simp] theorem Mach.poolWrite_heard (m : Mach) (d off : Nat) (bs : List Byte) : (m.poolWrite d off bs).heard = m.heard := rfl
@[simp] theorem Mach.poolWrite_detBuf (m : Mach) (d off : Nat) (bs : List Byte) : (m.poolWrite d off bs).detBuf = m.detBuf := rfl
@[simp] theorem Mach.poolWrite_replCfg (m : Mach) (d off : Nat) (bs : List Byte) : (m.poolWrite d off bs).replCfg = m.replCfg := rfl
@[simp] theorem Mach.poolWrite_nextId (m : Mach) (d off : Nat) (bs : List Byte) : (m.poolWrite d off bs).nextId = m.nextId := rfl
@[simp] theorem Mach.poolWrite_power (m : Mach) (d off : Nat) (bs : List Byte) : (m.poolWrite d off bs).power = m.power := rfl
@[simp] theorem Mach.poolWrite_links (m : Mach) (d off : Nat) (bs : List Byte) : (m.poolWrite d off bs).links = m.links := rfl
@[simp] theorem Mach.poolWrite_msixTab (m : Mach) (d off : Nat) (bs : List Byte) : (m.poolWrite d off bs).msixTab = m.msixTab := rfl
@[simp] theorem Mach.poolWrite_msixMask (m : Mach) (d off : Nat) (bs : List Byte) : (m.poolWrite d off bs).msixMask = m.msixMask := rfl
@[simp] theorem Mach.poolWrite_msixPend (m : Mach) (d off : Nat) (bs : List Byte) : (m.poolWrite d off bs).msixPend = m.msixPend := rfl
@[simp] theorem Mach.poolWrite_msixSent (m : Mach) (d off : Nat) (bs : List Byte) : (m.poolWrite d off bs).msixSent = m.msixSent := rfl
@[simp] theorem Mach.poolWrite_peerMap (m : Mach) (d off : Nat) (bs : List Byte) : (m.poolWrite d off bs).peerMap = m.peerMap := rfl
@[simp] theorem Mach.poolWrite_devId (m : Mach) (d off : Nat) (bs : List Byte) : (m.poolWrite d off bs).devId = m.devId := rfl
@[simp] theorem Mach.poolWrite_portDown (m : Mach) (d off : Nat) (bs : List Byte) : (m.poolWrite d off bs).portDown = m.portDown := rfl
@[simp] theorem Mach.poolWrite_peerReqs (m : Mach) (d off : Nat) (bs : List Byte) : (m.poolWrite d off bs).peerReqs = m.peerReqs := rfl
@[simp] theorem Mach.poolWrite_nextTag (m : Mach) (d off : Nat) (bs : List Byte) : (m.poolWrite d off bs).nextTag = m.nextTag := rfl
@[simp] theorem Mach.poolWrite_dkcfg (m : Mach) (d off : Nat) (bs : List Byte) : (m.poolWrite d off bs).dkcfg = m.dkcfg := rfl
@[simp] theorem Mach.poolWrite_scrub (m : Mach) (d off : Nat) (bs : List Byte) : (m.poolWrite d off bs).scrub = m.scrub := rfl
@[simp] theorem Mach.poolWrite_scrubPos (m : Mach) (d off : Nat) (bs : List Byte) : (m.poolWrite d off bs).scrubPos = m.scrubPos := rfl
@[simp] theorem Mach.poolWrite_stFails (m : Mach) (d off : Nat) (bs : List Byte) : (m.poolWrite d off bs).stFails = m.stFails := rfl
@[simp] theorem Mach.poolWrite_stStatus (m : Mach) (d off : Nat) (bs : List Byte) : (m.poolWrite d off bs).stStatus = m.stStatus := rfl
@[simp] theorem Mach.poolWrite_stSkip (m : Mach) (d off : Nat) (bs : List Byte) : (m.poolWrite d off bs).stSkip = m.stSkip := rfl
@[simp] theorem Mach.poolWrite_stDies (m : Mach) (d off : Nat) (bs : List Byte) : (m.poolWrite d off bs).stDies = m.stDies := rfl
@[simp] theorem Mach.poolWrite_trust (m : Mach) (d off : Nat) (bs : List Byte) : (m.poolWrite d off bs).trust = m.trust := rfl
@[simp] theorem Mach.poolWrite_out (m : Mach) (d off : Nat) (bs : List Byte) : (m.poolWrite d off bs).out = m.out := rfl
@[simp] theorem Mach.poolWrite_nonce (m : Mach) (d off : Nat) (bs : List Byte) : (m.poolWrite d off bs).nonce = m.nonce := rfl
@[simp] theorem Mach.poolWrite_bad (m : Mach) (d off : Nat) (bs : List Byte) : (m.poolWrite d off bs).bad = m.bad := rfl

@[simp] theorem Mach.updWq_time (m : Mach) (q : Nat) (f : WQ → WQ) : (m.updWq q f).time = m.time := rfl
@[simp] theorem Mach.updWq_cores (m : Mach) (q : Nat) (f : WQ → WQ) : (m.updWq q f).cores = m.cores := rfl
@[simp] theorem Mach.updWq_hbm (m : Mach) (q : Nat) (f : WQ → WQ) : (m.updWq q f).hbm = m.hbm := rfl
@[simp] theorem Mach.updWq_hostMem (m : Mach) (q : Nat) (f : WQ → WQ) : (m.updWq q f).hostMem = m.hostMem := rfl
@[simp] theorem Mach.updWq_cxlMem (m : Mach) (q : Nat) (f : WQ → WQ) : (m.updWq q f).cxlMem = m.cxlMem := rfl
@[simp] theorem Mach.updWq_pool (m : Mach) (q : Nat) (f : WQ → WQ) : (m.updWq q f).pool = m.pool := rfl
@[simp] theorem Mach.updWq_lentUsed (m : Mach) (q : Nat) (f : WQ → WQ) : (m.updWq q f).lentUsed = m.lentUsed := rfl
@[simp] theorem Mach.updWq_lentQ (m : Mach) (q : Nat) (f : WQ → WQ) : (m.updWq q f).lentQ = m.lentQ := rfl
@[simp] theorem Mach.updWq_rootBase (m : Mach) (q : Nat) (f : WQ → WQ) : (m.updWq q f).rootBase = m.rootBase := rfl
@[simp] theorem Mach.updWq_rtSel (m : Mach) (q : Nat) (f : WQ → WQ) : (m.updWq q f).rtSel = m.rtSel := rfl
@[simp] theorem Mach.updWq_staged (m : Mach) (q : Nat) (f : WQ → WQ) : (m.updWq q f).staged = m.staged := rfl
@[simp] theorem Mach.updWq_routes (m : Mach) (q : Nat) (f : WQ → WQ) : (m.updWq q f).routes = m.routes := rfl
@[simp] theorem Mach.updWq_gen (m : Mach) (q : Nat) (f : WQ → WQ) : (m.updWq q f).gen = m.gen := rfl
@[simp] theorem Mach.updWq_genBusy (m : Mach) (q : Nat) (f : WQ → WQ) : (m.updWq q f).genBusy = m.genBusy := rfl
@[simp] theorem Mach.updWq_tlb (m : Mach) (q : Nat) (f : WQ → WQ) : (m.updWq q f).tlb = m.tlb := rfl
@[simp] theorem Mach.updWq_tabs (m : Mach) (q : Nat) (f : WQ → WQ) : (m.updWq q f).tabs = m.tabs := rfl
@[simp] theorem Mach.updWq_lineMaps (m : Mach) (q : Nat) (f : WQ → WQ) : (m.updWq q f).lineMaps = m.lineMaps := rfl
@[simp] theorem Mach.updWq_dieReset (m : Mach) (q : Nat) (f : WQ → WQ) : (m.updWq q f).dieReset = m.dieReset := rfl
@[simp] theorem Mach.updWq_vl (m : Mach) (q : Nat) (f : WQ → WQ) : (m.updWq q f).vl = m.vl := rfl
@[simp] theorem Mach.updWq_el (m : Mach) (q : Nat) (f : WQ → WQ) : (m.updWq q f).el = m.el := rfl
@[simp] theorem Mach.updWq_copies (m : Mach) (q : Nat) (f : WQ → WQ) : (m.updWq q f).copies = m.copies := rfl
@[simp] theorem Mach.updWq_subs (m : Mach) (q : Nat) (f : WQ → WQ) : (m.updWq q f).subs = m.subs := rfl
@[simp] theorem Mach.updWq_commits (m : Mach) (q : Nat) (f : WQ → WQ) : (m.updWq q f).commits = m.commits := rfl
@[simp] theorem Mach.updWq_arrivals (m : Mach) (q : Nat) (f : WQ → WQ) : (m.updWq q f).arrivals = m.arrivals := rfl
@[simp] theorem Mach.updWq_heldArr (m : Mach) (q : Nat) (f : WQ → WQ) : (m.updWq q f).heldArr = m.heldArr := rfl
@[simp] theorem Mach.updWq_requests (m : Mach) (q : Nat) (f : WQ → WQ) : (m.updWq q f).requests = m.requests := rfl
@[simp] theorem Mach.updWq_waiters (m : Mach) (q : Nat) (f : WQ → WQ) : (m.updWq q f).waiters = m.waiters := rfl
@[simp] theorem Mach.updWq_tdt (m : Mach) (q : Nat) (f : WQ → WQ) : (m.updWq q f).tdt = m.tdt := rfl
@[simp] theorem Mach.updWq_sq (m : Mach) (q : Nat) (f : WQ → WQ) : (m.updWq q f).sq = m.sq := rfl
@[simp] theorem Mach.updWq_launches (m : Mach) (q : Nat) (f : WQ → WQ) : (m.updWq q f).launches = m.launches := rfl
@[simp] theorem Mach.updWq_susp (m : Mach) (q : Nat) (f : WQ → WQ) : (m.updWq q f).susp = m.susp := rfl
@[simp] theorem Mach.updWq_lrBase (m : Mach) (q : Nat) (f : WQ → WQ) : (m.updWq q f).lrBase = m.lrBase := rfl
@[simp] theorem Mach.updWq_lrLog (m : Mach) (q : Nat) (f : WQ → WQ) : (m.updWq q f).lrLog = m.lrLog := rfl
@[simp] theorem Mach.updWq_lrTail (m : Mach) (q : Nat) (f : WQ → WQ) : (m.updWq q f).lrTail = m.lrTail := rfl
@[simp] theorem Mach.updWq_lrHead (m : Mach) (q : Nat) (f : WQ → WQ) : (m.updWq q f).lrHead = m.lrHead := rfl
@[simp] theorem Mach.updWq_phase (m : Mach) (q : Nat) (f : WQ → WQ) : (m.updWq q f).phase = m.phase := rfl
@[simp] theorem Mach.updWq_phaseRec (m : Mach) (q : Nat) (f : WQ → WQ) : (m.updWq q f).phaseRec = m.phaseRec := rfl
@[simp] theorem Mach.updWq_heard (m : Mach) (q : Nat) (f : WQ → WQ) : (m.updWq q f).heard = m.heard := rfl
@[simp] theorem Mach.updWq_detBuf (m : Mach) (q : Nat) (f : WQ → WQ) : (m.updWq q f).detBuf = m.detBuf := rfl
@[simp] theorem Mach.updWq_replCfg (m : Mach) (q : Nat) (f : WQ → WQ) : (m.updWq q f).replCfg = m.replCfg := rfl
@[simp] theorem Mach.updWq_nextId (m : Mach) (q : Nat) (f : WQ → WQ) : (m.updWq q f).nextId = m.nextId := rfl
@[simp] theorem Mach.updWq_power (m : Mach) (q : Nat) (f : WQ → WQ) : (m.updWq q f).power = m.power := rfl
@[simp] theorem Mach.updWq_links (m : Mach) (q : Nat) (f : WQ → WQ) : (m.updWq q f).links = m.links := rfl
@[simp] theorem Mach.updWq_msixTab (m : Mach) (q : Nat) (f : WQ → WQ) : (m.updWq q f).msixTab = m.msixTab := rfl
@[simp] theorem Mach.updWq_msixMask (m : Mach) (q : Nat) (f : WQ → WQ) : (m.updWq q f).msixMask = m.msixMask := rfl
@[simp] theorem Mach.updWq_msixPend (m : Mach) (q : Nat) (f : WQ → WQ) : (m.updWq q f).msixPend = m.msixPend := rfl
@[simp] theorem Mach.updWq_msixSent (m : Mach) (q : Nat) (f : WQ → WQ) : (m.updWq q f).msixSent = m.msixSent := rfl
@[simp] theorem Mach.updWq_peerMap (m : Mach) (q : Nat) (f : WQ → WQ) : (m.updWq q f).peerMap = m.peerMap := rfl
@[simp] theorem Mach.updWq_devId (m : Mach) (q : Nat) (f : WQ → WQ) : (m.updWq q f).devId = m.devId := rfl
@[simp] theorem Mach.updWq_portDown (m : Mach) (q : Nat) (f : WQ → WQ) : (m.updWq q f).portDown = m.portDown := rfl
@[simp] theorem Mach.updWq_peerReqs (m : Mach) (q : Nat) (f : WQ → WQ) : (m.updWq q f).peerReqs = m.peerReqs := rfl
@[simp] theorem Mach.updWq_nextTag (m : Mach) (q : Nat) (f : WQ → WQ) : (m.updWq q f).nextTag = m.nextTag := rfl
@[simp] theorem Mach.updWq_dkcfg (m : Mach) (q : Nat) (f : WQ → WQ) : (m.updWq q f).dkcfg = m.dkcfg := rfl
@[simp] theorem Mach.updWq_scrub (m : Mach) (q : Nat) (f : WQ → WQ) : (m.updWq q f).scrub = m.scrub := rfl
@[simp] theorem Mach.updWq_scrubPos (m : Mach) (q : Nat) (f : WQ → WQ) : (m.updWq q f).scrubPos = m.scrubPos := rfl
@[simp] theorem Mach.updWq_stFails (m : Mach) (q : Nat) (f : WQ → WQ) : (m.updWq q f).stFails = m.stFails := rfl
@[simp] theorem Mach.updWq_stStatus (m : Mach) (q : Nat) (f : WQ → WQ) : (m.updWq q f).stStatus = m.stStatus := rfl
@[simp] theorem Mach.updWq_stSkip (m : Mach) (q : Nat) (f : WQ → WQ) : (m.updWq q f).stSkip = m.stSkip := rfl
@[simp] theorem Mach.updWq_stDies (m : Mach) (q : Nat) (f : WQ → WQ) : (m.updWq q f).stDies = m.stDies := rfl
@[simp] theorem Mach.updWq_trust (m : Mach) (q : Nat) (f : WQ → WQ) : (m.updWq q f).trust = m.trust := rfl
@[simp] theorem Mach.updWq_out (m : Mach) (q : Nat) (f : WQ → WQ) : (m.updWq q f).out = m.out := rfl
@[simp] theorem Mach.updWq_nonce (m : Mach) (q : Nat) (f : WQ → WQ) : (m.updWq q f).nonce = m.nonce := rfl
@[simp] theorem Mach.updWq_bad (m : Mach) (q : Nat) (f : WQ → WQ) : (m.updWq q f).bad = m.bad := rfl

@[simp] theorem Mach.updSq_time (m : Mach) (q : Nat) (f : SQ → SQ) : (m.updSq q f).time = m.time := rfl
@[simp] theorem Mach.updSq_cores (m : Mach) (q : Nat) (f : SQ → SQ) : (m.updSq q f).cores = m.cores := rfl
@[simp] theorem Mach.updSq_hbm (m : Mach) (q : Nat) (f : SQ → SQ) : (m.updSq q f).hbm = m.hbm := rfl
@[simp] theorem Mach.updSq_hostMem (m : Mach) (q : Nat) (f : SQ → SQ) : (m.updSq q f).hostMem = m.hostMem := rfl
@[simp] theorem Mach.updSq_cxlMem (m : Mach) (q : Nat) (f : SQ → SQ) : (m.updSq q f).cxlMem = m.cxlMem := rfl
@[simp] theorem Mach.updSq_pool (m : Mach) (q : Nat) (f : SQ → SQ) : (m.updSq q f).pool = m.pool := rfl
@[simp] theorem Mach.updSq_lentUsed (m : Mach) (q : Nat) (f : SQ → SQ) : (m.updSq q f).lentUsed = m.lentUsed := rfl
@[simp] theorem Mach.updSq_lentQ (m : Mach) (q : Nat) (f : SQ → SQ) : (m.updSq q f).lentQ = m.lentQ := rfl
@[simp] theorem Mach.updSq_rootBase (m : Mach) (q : Nat) (f : SQ → SQ) : (m.updSq q f).rootBase = m.rootBase := rfl
@[simp] theorem Mach.updSq_rtSel (m : Mach) (q : Nat) (f : SQ → SQ) : (m.updSq q f).rtSel = m.rtSel := rfl
@[simp] theorem Mach.updSq_staged (m : Mach) (q : Nat) (f : SQ → SQ) : (m.updSq q f).staged = m.staged := rfl
@[simp] theorem Mach.updSq_routes (m : Mach) (q : Nat) (f : SQ → SQ) : (m.updSq q f).routes = m.routes := rfl
@[simp] theorem Mach.updSq_gen (m : Mach) (q : Nat) (f : SQ → SQ) : (m.updSq q f).gen = m.gen := rfl
@[simp] theorem Mach.updSq_genBusy (m : Mach) (q : Nat) (f : SQ → SQ) : (m.updSq q f).genBusy = m.genBusy := rfl
@[simp] theorem Mach.updSq_tlb (m : Mach) (q : Nat) (f : SQ → SQ) : (m.updSq q f).tlb = m.tlb := rfl
@[simp] theorem Mach.updSq_tabs (m : Mach) (q : Nat) (f : SQ → SQ) : (m.updSq q f).tabs = m.tabs := rfl
@[simp] theorem Mach.updSq_lineMaps (m : Mach) (q : Nat) (f : SQ → SQ) : (m.updSq q f).lineMaps = m.lineMaps := rfl
@[simp] theorem Mach.updSq_dieReset (m : Mach) (q : Nat) (f : SQ → SQ) : (m.updSq q f).dieReset = m.dieReset := rfl
@[simp] theorem Mach.updSq_vl (m : Mach) (q : Nat) (f : SQ → SQ) : (m.updSq q f).vl = m.vl := rfl
@[simp] theorem Mach.updSq_el (m : Mach) (q : Nat) (f : SQ → SQ) : (m.updSq q f).el = m.el := rfl
@[simp] theorem Mach.updSq_copies (m : Mach) (q : Nat) (f : SQ → SQ) : (m.updSq q f).copies = m.copies := rfl
@[simp] theorem Mach.updSq_subs (m : Mach) (q : Nat) (f : SQ → SQ) : (m.updSq q f).subs = m.subs := rfl
@[simp] theorem Mach.updSq_commits (m : Mach) (q : Nat) (f : SQ → SQ) : (m.updSq q f).commits = m.commits := rfl
@[simp] theorem Mach.updSq_arrivals (m : Mach) (q : Nat) (f : SQ → SQ) : (m.updSq q f).arrivals = m.arrivals := rfl
@[simp] theorem Mach.updSq_heldArr (m : Mach) (q : Nat) (f : SQ → SQ) : (m.updSq q f).heldArr = m.heldArr := rfl
@[simp] theorem Mach.updSq_requests (m : Mach) (q : Nat) (f : SQ → SQ) : (m.updSq q f).requests = m.requests := rfl
@[simp] theorem Mach.updSq_waiters (m : Mach) (q : Nat) (f : SQ → SQ) : (m.updSq q f).waiters = m.waiters := rfl
@[simp] theorem Mach.updSq_wq (m : Mach) (q : Nat) (f : SQ → SQ) : (m.updSq q f).wq = m.wq := rfl
@[simp] theorem Mach.updSq_tdt (m : Mach) (q : Nat) (f : SQ → SQ) : (m.updSq q f).tdt = m.tdt := rfl
@[simp] theorem Mach.updSq_launches (m : Mach) (q : Nat) (f : SQ → SQ) : (m.updSq q f).launches = m.launches := rfl
@[simp] theorem Mach.updSq_susp (m : Mach) (q : Nat) (f : SQ → SQ) : (m.updSq q f).susp = m.susp := rfl
@[simp] theorem Mach.updSq_lrBase (m : Mach) (q : Nat) (f : SQ → SQ) : (m.updSq q f).lrBase = m.lrBase := rfl
@[simp] theorem Mach.updSq_lrLog (m : Mach) (q : Nat) (f : SQ → SQ) : (m.updSq q f).lrLog = m.lrLog := rfl
@[simp] theorem Mach.updSq_lrTail (m : Mach) (q : Nat) (f : SQ → SQ) : (m.updSq q f).lrTail = m.lrTail := rfl
@[simp] theorem Mach.updSq_lrHead (m : Mach) (q : Nat) (f : SQ → SQ) : (m.updSq q f).lrHead = m.lrHead := rfl
@[simp] theorem Mach.updSq_phase (m : Mach) (q : Nat) (f : SQ → SQ) : (m.updSq q f).phase = m.phase := rfl
@[simp] theorem Mach.updSq_phaseRec (m : Mach) (q : Nat) (f : SQ → SQ) : (m.updSq q f).phaseRec = m.phaseRec := rfl
@[simp] theorem Mach.updSq_heard (m : Mach) (q : Nat) (f : SQ → SQ) : (m.updSq q f).heard = m.heard := rfl
@[simp] theorem Mach.updSq_detBuf (m : Mach) (q : Nat) (f : SQ → SQ) : (m.updSq q f).detBuf = m.detBuf := rfl
@[simp] theorem Mach.updSq_replCfg (m : Mach) (q : Nat) (f : SQ → SQ) : (m.updSq q f).replCfg = m.replCfg := rfl
@[simp] theorem Mach.updSq_nextId (m : Mach) (q : Nat) (f : SQ → SQ) : (m.updSq q f).nextId = m.nextId := rfl
@[simp] theorem Mach.updSq_power (m : Mach) (q : Nat) (f : SQ → SQ) : (m.updSq q f).power = m.power := rfl
@[simp] theorem Mach.updSq_links (m : Mach) (q : Nat) (f : SQ → SQ) : (m.updSq q f).links = m.links := rfl
@[simp] theorem Mach.updSq_msixTab (m : Mach) (q : Nat) (f : SQ → SQ) : (m.updSq q f).msixTab = m.msixTab := rfl
@[simp] theorem Mach.updSq_msixMask (m : Mach) (q : Nat) (f : SQ → SQ) : (m.updSq q f).msixMask = m.msixMask := rfl
@[simp] theorem Mach.updSq_msixPend (m : Mach) (q : Nat) (f : SQ → SQ) : (m.updSq q f).msixPend = m.msixPend := rfl
@[simp] theorem Mach.updSq_msixSent (m : Mach) (q : Nat) (f : SQ → SQ) : (m.updSq q f).msixSent = m.msixSent := rfl
@[simp] theorem Mach.updSq_peerMap (m : Mach) (q : Nat) (f : SQ → SQ) : (m.updSq q f).peerMap = m.peerMap := rfl
@[simp] theorem Mach.updSq_devId (m : Mach) (q : Nat) (f : SQ → SQ) : (m.updSq q f).devId = m.devId := rfl
@[simp] theorem Mach.updSq_portDown (m : Mach) (q : Nat) (f : SQ → SQ) : (m.updSq q f).portDown = m.portDown := rfl
@[simp] theorem Mach.updSq_peerReqs (m : Mach) (q : Nat) (f : SQ → SQ) : (m.updSq q f).peerReqs = m.peerReqs := rfl
@[simp] theorem Mach.updSq_nextTag (m : Mach) (q : Nat) (f : SQ → SQ) : (m.updSq q f).nextTag = m.nextTag := rfl
@[simp] theorem Mach.updSq_dkcfg (m : Mach) (q : Nat) (f : SQ → SQ) : (m.updSq q f).dkcfg = m.dkcfg := rfl
@[simp] theorem Mach.updSq_scrub (m : Mach) (q : Nat) (f : SQ → SQ) : (m.updSq q f).scrub = m.scrub := rfl
@[simp] theorem Mach.updSq_scrubPos (m : Mach) (q : Nat) (f : SQ → SQ) : (m.updSq q f).scrubPos = m.scrubPos := rfl
@[simp] theorem Mach.updSq_stFails (m : Mach) (q : Nat) (f : SQ → SQ) : (m.updSq q f).stFails = m.stFails := rfl
@[simp] theorem Mach.updSq_stStatus (m : Mach) (q : Nat) (f : SQ → SQ) : (m.updSq q f).stStatus = m.stStatus := rfl
@[simp] theorem Mach.updSq_stSkip (m : Mach) (q : Nat) (f : SQ → SQ) : (m.updSq q f).stSkip = m.stSkip := rfl
@[simp] theorem Mach.updSq_stDies (m : Mach) (q : Nat) (f : SQ → SQ) : (m.updSq q f).stDies = m.stDies := rfl
@[simp] theorem Mach.updSq_trust (m : Mach) (q : Nat) (f : SQ → SQ) : (m.updSq q f).trust = m.trust := rfl
@[simp] theorem Mach.updSq_out (m : Mach) (q : Nat) (f : SQ → SQ) : (m.updSq q f).out = m.out := rfl
@[simp] theorem Mach.updSq_nonce (m : Mach) (q : Nat) (f : SQ → SQ) : (m.updSq q f).nonce = m.nonce := rfl
@[simp] theorem Mach.updSq_bad (m : Mach) (q : Nat) (f : SQ → SQ) : (m.updSq q f).bad = m.bad := rfl

@[simp] theorem Mach.updLaunch_time (m : Mach) (k : Nat) (f : Launch → Launch) : (m.updLaunch k f).time = m.time := rfl
@[simp] theorem Mach.updLaunch_cores (m : Mach) (k : Nat) (f : Launch → Launch) : (m.updLaunch k f).cores = m.cores := rfl
@[simp] theorem Mach.updLaunch_hbm (m : Mach) (k : Nat) (f : Launch → Launch) : (m.updLaunch k f).hbm = m.hbm := rfl
@[simp] theorem Mach.updLaunch_hostMem (m : Mach) (k : Nat) (f : Launch → Launch) : (m.updLaunch k f).hostMem = m.hostMem := rfl
@[simp] theorem Mach.updLaunch_cxlMem (m : Mach) (k : Nat) (f : Launch → Launch) : (m.updLaunch k f).cxlMem = m.cxlMem := rfl
@[simp] theorem Mach.updLaunch_pool (m : Mach) (k : Nat) (f : Launch → Launch) : (m.updLaunch k f).pool = m.pool := rfl
@[simp] theorem Mach.updLaunch_lentUsed (m : Mach) (k : Nat) (f : Launch → Launch) : (m.updLaunch k f).lentUsed = m.lentUsed := rfl
@[simp] theorem Mach.updLaunch_lentQ (m : Mach) (k : Nat) (f : Launch → Launch) : (m.updLaunch k f).lentQ = m.lentQ := rfl
@[simp] theorem Mach.updLaunch_rootBase (m : Mach) (k : Nat) (f : Launch → Launch) : (m.updLaunch k f).rootBase = m.rootBase := rfl
@[simp] theorem Mach.updLaunch_rtSel (m : Mach) (k : Nat) (f : Launch → Launch) : (m.updLaunch k f).rtSel = m.rtSel := rfl
@[simp] theorem Mach.updLaunch_staged (m : Mach) (k : Nat) (f : Launch → Launch) : (m.updLaunch k f).staged = m.staged := rfl
@[simp] theorem Mach.updLaunch_routes (m : Mach) (k : Nat) (f : Launch → Launch) : (m.updLaunch k f).routes = m.routes := rfl
@[simp] theorem Mach.updLaunch_gen (m : Mach) (k : Nat) (f : Launch → Launch) : (m.updLaunch k f).gen = m.gen := rfl
@[simp] theorem Mach.updLaunch_genBusy (m : Mach) (k : Nat) (f : Launch → Launch) : (m.updLaunch k f).genBusy = m.genBusy := rfl
@[simp] theorem Mach.updLaunch_tlb (m : Mach) (k : Nat) (f : Launch → Launch) : (m.updLaunch k f).tlb = m.tlb := rfl
@[simp] theorem Mach.updLaunch_tabs (m : Mach) (k : Nat) (f : Launch → Launch) : (m.updLaunch k f).tabs = m.tabs := rfl
@[simp] theorem Mach.updLaunch_lineMaps (m : Mach) (k : Nat) (f : Launch → Launch) : (m.updLaunch k f).lineMaps = m.lineMaps := rfl
@[simp] theorem Mach.updLaunch_dieReset (m : Mach) (k : Nat) (f : Launch → Launch) : (m.updLaunch k f).dieReset = m.dieReset := rfl
@[simp] theorem Mach.updLaunch_vl (m : Mach) (k : Nat) (f : Launch → Launch) : (m.updLaunch k f).vl = m.vl := rfl
@[simp] theorem Mach.updLaunch_el (m : Mach) (k : Nat) (f : Launch → Launch) : (m.updLaunch k f).el = m.el := rfl
@[simp] theorem Mach.updLaunch_copies (m : Mach) (k : Nat) (f : Launch → Launch) : (m.updLaunch k f).copies = m.copies := rfl
@[simp] theorem Mach.updLaunch_subs (m : Mach) (k : Nat) (f : Launch → Launch) : (m.updLaunch k f).subs = m.subs := rfl
@[simp] theorem Mach.updLaunch_commits (m : Mach) (k : Nat) (f : Launch → Launch) : (m.updLaunch k f).commits = m.commits := rfl
@[simp] theorem Mach.updLaunch_arrivals (m : Mach) (k : Nat) (f : Launch → Launch) : (m.updLaunch k f).arrivals = m.arrivals := rfl
@[simp] theorem Mach.updLaunch_heldArr (m : Mach) (k : Nat) (f : Launch → Launch) : (m.updLaunch k f).heldArr = m.heldArr := rfl
@[simp] theorem Mach.updLaunch_requests (m : Mach) (k : Nat) (f : Launch → Launch) : (m.updLaunch k f).requests = m.requests := rfl
@[simp] theorem Mach.updLaunch_waiters (m : Mach) (k : Nat) (f : Launch → Launch) : (m.updLaunch k f).waiters = m.waiters := rfl
@[simp] theorem Mach.updLaunch_wq (m : Mach) (k : Nat) (f : Launch → Launch) : (m.updLaunch k f).wq = m.wq := rfl
@[simp] theorem Mach.updLaunch_tdt (m : Mach) (k : Nat) (f : Launch → Launch) : (m.updLaunch k f).tdt = m.tdt := rfl
@[simp] theorem Mach.updLaunch_sq (m : Mach) (k : Nat) (f : Launch → Launch) : (m.updLaunch k f).sq = m.sq := rfl
@[simp] theorem Mach.updLaunch_susp (m : Mach) (k : Nat) (f : Launch → Launch) : (m.updLaunch k f).susp = m.susp := rfl
@[simp] theorem Mach.updLaunch_lrBase (m : Mach) (k : Nat) (f : Launch → Launch) : (m.updLaunch k f).lrBase = m.lrBase := rfl
@[simp] theorem Mach.updLaunch_lrLog (m : Mach) (k : Nat) (f : Launch → Launch) : (m.updLaunch k f).lrLog = m.lrLog := rfl
@[simp] theorem Mach.updLaunch_lrTail (m : Mach) (k : Nat) (f : Launch → Launch) : (m.updLaunch k f).lrTail = m.lrTail := rfl
@[simp] theorem Mach.updLaunch_lrHead (m : Mach) (k : Nat) (f : Launch → Launch) : (m.updLaunch k f).lrHead = m.lrHead := rfl
@[simp] theorem Mach.updLaunch_phase (m : Mach) (k : Nat) (f : Launch → Launch) : (m.updLaunch k f).phase = m.phase := rfl
@[simp] theorem Mach.updLaunch_phaseRec (m : Mach) (k : Nat) (f : Launch → Launch) : (m.updLaunch k f).phaseRec = m.phaseRec := rfl
@[simp] theorem Mach.updLaunch_heard (m : Mach) (k : Nat) (f : Launch → Launch) : (m.updLaunch k f).heard = m.heard := rfl
@[simp] theorem Mach.updLaunch_detBuf (m : Mach) (k : Nat) (f : Launch → Launch) : (m.updLaunch k f).detBuf = m.detBuf := rfl
@[simp] theorem Mach.updLaunch_replCfg (m : Mach) (k : Nat) (f : Launch → Launch) : (m.updLaunch k f).replCfg = m.replCfg := rfl
@[simp] theorem Mach.updLaunch_nextId (m : Mach) (k : Nat) (f : Launch → Launch) : (m.updLaunch k f).nextId = m.nextId := rfl
@[simp] theorem Mach.updLaunch_power (m : Mach) (k : Nat) (f : Launch → Launch) : (m.updLaunch k f).power = m.power := rfl
@[simp] theorem Mach.updLaunch_links (m : Mach) (k : Nat) (f : Launch → Launch) : (m.updLaunch k f).links = m.links := rfl
@[simp] theorem Mach.updLaunch_msixTab (m : Mach) (k : Nat) (f : Launch → Launch) : (m.updLaunch k f).msixTab = m.msixTab := rfl
@[simp] theorem Mach.updLaunch_msixMask (m : Mach) (k : Nat) (f : Launch → Launch) : (m.updLaunch k f).msixMask = m.msixMask := rfl
@[simp] theorem Mach.updLaunch_msixPend (m : Mach) (k : Nat) (f : Launch → Launch) : (m.updLaunch k f).msixPend = m.msixPend := rfl
@[simp] theorem Mach.updLaunch_msixSent (m : Mach) (k : Nat) (f : Launch → Launch) : (m.updLaunch k f).msixSent = m.msixSent := rfl
@[simp] theorem Mach.updLaunch_peerMap (m : Mach) (k : Nat) (f : Launch → Launch) : (m.updLaunch k f).peerMap = m.peerMap := rfl
@[simp] theorem Mach.updLaunch_devId (m : Mach) (k : Nat) (f : Launch → Launch) : (m.updLaunch k f).devId = m.devId := rfl
@[simp] theorem Mach.updLaunch_portDown (m : Mach) (k : Nat) (f : Launch → Launch) : (m.updLaunch k f).portDown = m.portDown := rfl
@[simp] theorem Mach.updLaunch_peerReqs (m : Mach) (k : Nat) (f : Launch → Launch) : (m.updLaunch k f).peerReqs = m.peerReqs := rfl
@[simp] theorem Mach.updLaunch_nextTag (m : Mach) (k : Nat) (f : Launch → Launch) : (m.updLaunch k f).nextTag = m.nextTag := rfl
@[simp] theorem Mach.updLaunch_dkcfg (m : Mach) (k : Nat) (f : Launch → Launch) : (m.updLaunch k f).dkcfg = m.dkcfg := rfl
@[simp] theorem Mach.updLaunch_scrub (m : Mach) (k : Nat) (f : Launch → Launch) : (m.updLaunch k f).scrub = m.scrub := rfl
@[simp] theorem Mach.updLaunch_scrubPos (m : Mach) (k : Nat) (f : Launch → Launch) : (m.updLaunch k f).scrubPos = m.scrubPos := rfl
@[simp] theorem Mach.updLaunch_stFails (m : Mach) (k : Nat) (f : Launch → Launch) : (m.updLaunch k f).stFails = m.stFails := rfl
@[simp] theorem Mach.updLaunch_stStatus (m : Mach) (k : Nat) (f : Launch → Launch) : (m.updLaunch k f).stStatus = m.stStatus := rfl
@[simp] theorem Mach.updLaunch_stSkip (m : Mach) (k : Nat) (f : Launch → Launch) : (m.updLaunch k f).stSkip = m.stSkip := rfl
@[simp] theorem Mach.updLaunch_stDies (m : Mach) (k : Nat) (f : Launch → Launch) : (m.updLaunch k f).stDies = m.stDies := rfl
@[simp] theorem Mach.updLaunch_trust (m : Mach) (k : Nat) (f : Launch → Launch) : (m.updLaunch k f).trust = m.trust := rfl
@[simp] theorem Mach.updLaunch_out (m : Mach) (k : Nat) (f : Launch → Launch) : (m.updLaunch k f).out = m.out := rfl
@[simp] theorem Mach.updLaunch_nonce (m : Mach) (k : Nat) (f : Launch → Launch) : (m.updLaunch k f).nonce = m.nonce := rfl
@[simp] theorem Mach.updLaunch_bad (m : Mach) (k : Nat) (f : Launch → Launch) : (m.updLaunch k f).bad = m.bad := rfl

@[simp] theorem Mach.tickNonce_time (m : Mach) : (m.tickNonce).time = m.time := rfl
@[simp] theorem Mach.tickNonce_cores (m : Mach) : (m.tickNonce).cores = m.cores := rfl
@[simp] theorem Mach.tickNonce_hbm (m : Mach) : (m.tickNonce).hbm = m.hbm := rfl
@[simp] theorem Mach.tickNonce_hostMem (m : Mach) : (m.tickNonce).hostMem = m.hostMem := rfl
@[simp] theorem Mach.tickNonce_cxlMem (m : Mach) : (m.tickNonce).cxlMem = m.cxlMem := rfl
@[simp] theorem Mach.tickNonce_pool (m : Mach) : (m.tickNonce).pool = m.pool := rfl
@[simp] theorem Mach.tickNonce_lentUsed (m : Mach) : (m.tickNonce).lentUsed = m.lentUsed := rfl
@[simp] theorem Mach.tickNonce_lentQ (m : Mach) : (m.tickNonce).lentQ = m.lentQ := rfl
@[simp] theorem Mach.tickNonce_rootBase (m : Mach) : (m.tickNonce).rootBase = m.rootBase := rfl
@[simp] theorem Mach.tickNonce_rtSel (m : Mach) : (m.tickNonce).rtSel = m.rtSel := rfl
@[simp] theorem Mach.tickNonce_staged (m : Mach) : (m.tickNonce).staged = m.staged := rfl
@[simp] theorem Mach.tickNonce_routes (m : Mach) : (m.tickNonce).routes = m.routes := rfl
@[simp] theorem Mach.tickNonce_gen (m : Mach) : (m.tickNonce).gen = m.gen := rfl
@[simp] theorem Mach.tickNonce_genBusy (m : Mach) : (m.tickNonce).genBusy = m.genBusy := rfl
@[simp] theorem Mach.tickNonce_tlb (m : Mach) : (m.tickNonce).tlb = m.tlb := rfl
@[simp] theorem Mach.tickNonce_tabs (m : Mach) : (m.tickNonce).tabs = m.tabs := rfl
@[simp] theorem Mach.tickNonce_lineMaps (m : Mach) : (m.tickNonce).lineMaps = m.lineMaps := rfl
@[simp] theorem Mach.tickNonce_dieReset (m : Mach) : (m.tickNonce).dieReset = m.dieReset := rfl
@[simp] theorem Mach.tickNonce_vl (m : Mach) : (m.tickNonce).vl = m.vl := rfl
@[simp] theorem Mach.tickNonce_el (m : Mach) : (m.tickNonce).el = m.el := rfl
@[simp] theorem Mach.tickNonce_copies (m : Mach) : (m.tickNonce).copies = m.copies := rfl
@[simp] theorem Mach.tickNonce_subs (m : Mach) : (m.tickNonce).subs = m.subs := rfl
@[simp] theorem Mach.tickNonce_commits (m : Mach) : (m.tickNonce).commits = m.commits := rfl
@[simp] theorem Mach.tickNonce_arrivals (m : Mach) : (m.tickNonce).arrivals = m.arrivals := rfl
@[simp] theorem Mach.tickNonce_heldArr (m : Mach) : (m.tickNonce).heldArr = m.heldArr := rfl
@[simp] theorem Mach.tickNonce_requests (m : Mach) : (m.tickNonce).requests = m.requests := rfl
@[simp] theorem Mach.tickNonce_waiters (m : Mach) : (m.tickNonce).waiters = m.waiters := rfl
@[simp] theorem Mach.tickNonce_wq (m : Mach) : (m.tickNonce).wq = m.wq := rfl
@[simp] theorem Mach.tickNonce_tdt (m : Mach) : (m.tickNonce).tdt = m.tdt := rfl
@[simp] theorem Mach.tickNonce_sq (m : Mach) : (m.tickNonce).sq = m.sq := rfl
@[simp] theorem Mach.tickNonce_launches (m : Mach) : (m.tickNonce).launches = m.launches := rfl
@[simp] theorem Mach.tickNonce_susp (m : Mach) : (m.tickNonce).susp = m.susp := rfl
@[simp] theorem Mach.tickNonce_lrBase (m : Mach) : (m.tickNonce).lrBase = m.lrBase := rfl
@[simp] theorem Mach.tickNonce_lrLog (m : Mach) : (m.tickNonce).lrLog = m.lrLog := rfl
@[simp] theorem Mach.tickNonce_lrTail (m : Mach) : (m.tickNonce).lrTail = m.lrTail := rfl
@[simp] theorem Mach.tickNonce_lrHead (m : Mach) : (m.tickNonce).lrHead = m.lrHead := rfl
@[simp] theorem Mach.tickNonce_phase (m : Mach) : (m.tickNonce).phase = m.phase := rfl
@[simp] theorem Mach.tickNonce_phaseRec (m : Mach) : (m.tickNonce).phaseRec = m.phaseRec := rfl
@[simp] theorem Mach.tickNonce_heard (m : Mach) : (m.tickNonce).heard = m.heard := rfl
@[simp] theorem Mach.tickNonce_detBuf (m : Mach) : (m.tickNonce).detBuf = m.detBuf := rfl
@[simp] theorem Mach.tickNonce_replCfg (m : Mach) : (m.tickNonce).replCfg = m.replCfg := rfl
@[simp] theorem Mach.tickNonce_nextId (m : Mach) : (m.tickNonce).nextId = m.nextId := rfl
@[simp] theorem Mach.tickNonce_power (m : Mach) : (m.tickNonce).power = m.power := rfl
@[simp] theorem Mach.tickNonce_links (m : Mach) : (m.tickNonce).links = m.links := rfl
@[simp] theorem Mach.tickNonce_msixTab (m : Mach) : (m.tickNonce).msixTab = m.msixTab := rfl
@[simp] theorem Mach.tickNonce_msixMask (m : Mach) : (m.tickNonce).msixMask = m.msixMask := rfl
@[simp] theorem Mach.tickNonce_msixPend (m : Mach) : (m.tickNonce).msixPend = m.msixPend := rfl
@[simp] theorem Mach.tickNonce_msixSent (m : Mach) : (m.tickNonce).msixSent = m.msixSent := rfl
@[simp] theorem Mach.tickNonce_peerMap (m : Mach) : (m.tickNonce).peerMap = m.peerMap := rfl
@[simp] theorem Mach.tickNonce_devId (m : Mach) : (m.tickNonce).devId = m.devId := rfl
@[simp] theorem Mach.tickNonce_portDown (m : Mach) : (m.tickNonce).portDown = m.portDown := rfl
@[simp] theorem Mach.tickNonce_peerReqs (m : Mach) : (m.tickNonce).peerReqs = m.peerReqs := rfl
@[simp] theorem Mach.tickNonce_nextTag (m : Mach) : (m.tickNonce).nextTag = m.nextTag := rfl
@[simp] theorem Mach.tickNonce_dkcfg (m : Mach) : (m.tickNonce).dkcfg = m.dkcfg := rfl
@[simp] theorem Mach.tickNonce_scrub (m : Mach) : (m.tickNonce).scrub = m.scrub := rfl
@[simp] theorem Mach.tickNonce_scrubPos (m : Mach) : (m.tickNonce).scrubPos = m.scrubPos := rfl
@[simp] theorem Mach.tickNonce_stFails (m : Mach) : (m.tickNonce).stFails = m.stFails := rfl
@[simp] theorem Mach.tickNonce_stStatus (m : Mach) : (m.tickNonce).stStatus = m.stStatus := rfl
@[simp] theorem Mach.tickNonce_stSkip (m : Mach) : (m.tickNonce).stSkip = m.stSkip := rfl
@[simp] theorem Mach.tickNonce_stDies (m : Mach) : (m.tickNonce).stDies = m.stDies := rfl
@[simp] theorem Mach.tickNonce_trust (m : Mach) : (m.tickNonce).trust = m.trust := rfl
@[simp] theorem Mach.tickNonce_out (m : Mach) : (m.tickNonce).out = m.out := rfl
@[simp] theorem Mach.tickNonce_bad (m : Mach) : (m.tickNonce).bad = m.bad := rfl

@[simp] theorem Mach.send_time (m : Mach) (msg : OutMsg) : (m.send msg).time = m.time := rfl
@[simp] theorem Mach.send_cores (m : Mach) (msg : OutMsg) : (m.send msg).cores = m.cores := rfl
@[simp] theorem Mach.send_hbm (m : Mach) (msg : OutMsg) : (m.send msg).hbm = m.hbm := rfl
@[simp] theorem Mach.send_hostMem (m : Mach) (msg : OutMsg) : (m.send msg).hostMem = m.hostMem := rfl
@[simp] theorem Mach.send_cxlMem (m : Mach) (msg : OutMsg) : (m.send msg).cxlMem = m.cxlMem := rfl
@[simp] theorem Mach.send_pool (m : Mach) (msg : OutMsg) : (m.send msg).pool = m.pool := rfl
@[simp] theorem Mach.send_lentUsed (m : Mach) (msg : OutMsg) : (m.send msg).lentUsed = m.lentUsed := rfl
@[simp] theorem Mach.send_lentQ (m : Mach) (msg : OutMsg) : (m.send msg).lentQ = m.lentQ := rfl
@[simp] theorem Mach.send_rootBase (m : Mach) (msg : OutMsg) : (m.send msg).rootBase = m.rootBase := rfl
@[simp] theorem Mach.send_rtSel (m : Mach) (msg : OutMsg) : (m.send msg).rtSel = m.rtSel := rfl
@[simp] theorem Mach.send_staged (m : Mach) (msg : OutMsg) : (m.send msg).staged = m.staged := rfl
@[simp] theorem Mach.send_routes (m : Mach) (msg : OutMsg) : (m.send msg).routes = m.routes := rfl
@[simp] theorem Mach.send_gen (m : Mach) (msg : OutMsg) : (m.send msg).gen = m.gen := rfl
@[simp] theorem Mach.send_genBusy (m : Mach) (msg : OutMsg) : (m.send msg).genBusy = m.genBusy := rfl
@[simp] theorem Mach.send_tlb (m : Mach) (msg : OutMsg) : (m.send msg).tlb = m.tlb := rfl
@[simp] theorem Mach.send_tabs (m : Mach) (msg : OutMsg) : (m.send msg).tabs = m.tabs := rfl
@[simp] theorem Mach.send_lineMaps (m : Mach) (msg : OutMsg) : (m.send msg).lineMaps = m.lineMaps := rfl
@[simp] theorem Mach.send_dieReset (m : Mach) (msg : OutMsg) : (m.send msg).dieReset = m.dieReset := rfl
@[simp] theorem Mach.send_vl (m : Mach) (msg : OutMsg) : (m.send msg).vl = m.vl := rfl
@[simp] theorem Mach.send_el (m : Mach) (msg : OutMsg) : (m.send msg).el = m.el := rfl
@[simp] theorem Mach.send_copies (m : Mach) (msg : OutMsg) : (m.send msg).copies = m.copies := rfl
@[simp] theorem Mach.send_subs (m : Mach) (msg : OutMsg) : (m.send msg).subs = m.subs := rfl
@[simp] theorem Mach.send_commits (m : Mach) (msg : OutMsg) : (m.send msg).commits = m.commits := rfl
@[simp] theorem Mach.send_arrivals (m : Mach) (msg : OutMsg) : (m.send msg).arrivals = m.arrivals := rfl
@[simp] theorem Mach.send_heldArr (m : Mach) (msg : OutMsg) : (m.send msg).heldArr = m.heldArr := rfl
@[simp] theorem Mach.send_requests (m : Mach) (msg : OutMsg) : (m.send msg).requests = m.requests := rfl
@[simp] theorem Mach.send_waiters (m : Mach) (msg : OutMsg) : (m.send msg).waiters = m.waiters := rfl
@[simp] theorem Mach.send_wq (m : Mach) (msg : OutMsg) : (m.send msg).wq = m.wq := rfl
@[simp] theorem Mach.send_tdt (m : Mach) (msg : OutMsg) : (m.send msg).tdt = m.tdt := rfl
@[simp] theorem Mach.send_sq (m : Mach) (msg : OutMsg) : (m.send msg).sq = m.sq := rfl
@[simp] theorem Mach.send_launches (m : Mach) (msg : OutMsg) : (m.send msg).launches = m.launches := rfl
@[simp] theorem Mach.send_susp (m : Mach) (msg : OutMsg) : (m.send msg).susp = m.susp := rfl
@[simp] theorem Mach.send_lrBase (m : Mach) (msg : OutMsg) : (m.send msg).lrBase = m.lrBase := rfl
@[simp] theorem Mach.send_lrLog (m : Mach) (msg : OutMsg) : (m.send msg).lrLog = m.lrLog := rfl
@[simp] theorem Mach.send_lrTail (m : Mach) (msg : OutMsg) : (m.send msg).lrTail = m.lrTail := rfl
@[simp] theorem Mach.send_lrHead (m : Mach) (msg : OutMsg) : (m.send msg).lrHead = m.lrHead := rfl
@[simp] theorem Mach.send_phase (m : Mach) (msg : OutMsg) : (m.send msg).phase = m.phase := rfl
@[simp] theorem Mach.send_phaseRec (m : Mach) (msg : OutMsg) : (m.send msg).phaseRec = m.phaseRec := rfl
@[simp] theorem Mach.send_heard (m : Mach) (msg : OutMsg) : (m.send msg).heard = m.heard := rfl
@[simp] theorem Mach.send_detBuf (m : Mach) (msg : OutMsg) : (m.send msg).detBuf = m.detBuf := rfl
@[simp] theorem Mach.send_replCfg (m : Mach) (msg : OutMsg) : (m.send msg).replCfg = m.replCfg := rfl
@[simp] theorem Mach.send_nextId (m : Mach) (msg : OutMsg) : (m.send msg).nextId = m.nextId := rfl
@[simp] theorem Mach.send_power (m : Mach) (msg : OutMsg) : (m.send msg).power = m.power := rfl
@[simp] theorem Mach.send_links (m : Mach) (msg : OutMsg) : (m.send msg).links = m.links := rfl
@[simp] theorem Mach.send_msixTab (m : Mach) (msg : OutMsg) : (m.send msg).msixTab = m.msixTab := rfl
@[simp] theorem Mach.send_msixMask (m : Mach) (msg : OutMsg) : (m.send msg).msixMask = m.msixMask := rfl
@[simp] theorem Mach.send_msixPend (m : Mach) (msg : OutMsg) : (m.send msg).msixPend = m.msixPend := rfl
@[simp] theorem Mach.send_msixSent (m : Mach) (msg : OutMsg) : (m.send msg).msixSent = m.msixSent := rfl
@[simp] theorem Mach.send_peerMap (m : Mach) (msg : OutMsg) : (m.send msg).peerMap = m.peerMap := rfl
@[simp] theorem Mach.send_devId (m : Mach) (msg : OutMsg) : (m.send msg).devId = m.devId := rfl
@[simp] theorem Mach.send_portDown (m : Mach) (msg : OutMsg) : (m.send msg).portDown = m.portDown := rfl
@[simp] theorem Mach.send_peerReqs (m : Mach) (msg : OutMsg) : (m.send msg).peerReqs = m.peerReqs := rfl
@[simp] theorem Mach.send_nextTag (m : Mach) (msg : OutMsg) : (m.send msg).nextTag = m.nextTag := rfl
@[simp] theorem Mach.send_dkcfg (m : Mach) (msg : OutMsg) : (m.send msg).dkcfg = m.dkcfg := rfl
@[simp] theorem Mach.send_scrub (m : Mach) (msg : OutMsg) : (m.send msg).scrub = m.scrub := rfl
@[simp] theorem Mach.send_scrubPos (m : Mach) (msg : OutMsg) : (m.send msg).scrubPos = m.scrubPos := rfl
@[simp] theorem Mach.send_stFails (m : Mach) (msg : OutMsg) : (m.send msg).stFails = m.stFails := rfl
@[simp] theorem Mach.send_stStatus (m : Mach) (msg : OutMsg) : (m.send msg).stStatus = m.stStatus := rfl
@[simp] theorem Mach.send_stSkip (m : Mach) (msg : OutMsg) : (m.send msg).stSkip = m.stSkip := rfl
@[simp] theorem Mach.send_stDies (m : Mach) (msg : OutMsg) : (m.send msg).stDies = m.stDies := rfl
@[simp] theorem Mach.send_trust (m : Mach) (msg : OutMsg) : (m.send msg).trust = m.trust := rfl
@[simp] theorem Mach.send_nonce (m : Mach) (msg : OutMsg) : (m.send msg).nonce = m.nonce := rfl
@[simp] theorem Mach.send_bad (m : Mach) (msg : OutMsg) : (m.send msg).bad = m.bad := rfl

/-! ## A core and its contexts -/

@[simp] theorem Core.setCtx_m (k : Core) (fw : Bool) (x : Ctx) : (k.setCtx fw x).m = k.m := by cases fw <;> rfl
@[simp] theorem Core.setCtx_v (k : Core) (fw : Bool) (x : Ctx) : (k.setCtx fw x).v = k.v := by cases fw <;> rfl
@[simp] theorem Core.setCtx_spad (k : Core) (fw : Bool) (x : Ctx) : (k.setCtx fw x).spad = k.spad := by cases fw <;> rfl
@[simp] theorem Core.setCtx_mx (k : Core) (fw : Bool) (x : Ctx) : (k.setCtx fw x).mx = k.mx := by cases fw <;> rfl
@[simp] theorem Core.setCtx_bfmt (k : Core) (fw : Bool) (x : Ctx) : (k.setCtx fw x).bfmt = k.bfmt := by cases fw <;> rfl
@[simp] theorem Core.setCtx_teamCfg (k : Core) (fw : Bool) (x : Ctx) : (k.setCtx fw x).teamCfg = k.teamCfg := by cases fw <;> rfl
@[simp] theorem Core.setCtx_ringCfg (k : Core) (fw : Bool) (x : Ctx) : (k.setCtx fw x).ringCfg = k.ringCfg := by cases fw <;> rfl
@[simp] theorem Core.setCtx_ring (k : Core) (fw : Bool) (x : Ctx) : (k.setCtx fw x).ring = k.ring := by cases fw <;> rfl
@[simp] theorem Core.setCtx_vops (k : Core) (fw : Bool) (x : Ctx) : (k.setCtx fw x).vops = k.vops := by cases fw <;> rfl
@[simp] theorem Core.setCtx_epu (k : Core) (fw : Bool) (x : Ctx) : (k.setCtx fw x).epu = k.epu := by cases fw <;> rfl
@[simp] theorem Core.setCtx_dcache (k : Core) (fw : Bool) (x : Ctx) : (k.setCtx fw x).dcache = k.dcache := by cases fw <;> rfl
@[simp] theorem Core.setCtx_icache (k : Core) (fw : Bool) (x : Ctx) : (k.setCtx fw x).icache = k.icache := by cases fw <;> rfl
@[simp] theorem Core.setCtx_taskRen (k : Core) (fw : Bool) (x : Ctx) : (k.setCtx fw x).taskRen = k.taskRen := by cases fw <;> rfl
@[simp] theorem Core.setCtx_xlatSeq (k : Core) (fw : Bool) (x : Ctx) : (k.setCtx fw x).xlatSeq = k.xlatSeq := by cases fw <;> rfl
@[simp] theorem Core.setCtx_xlatDone (k : Core) (fw : Bool) (x : Ctx) : (k.setCtx fw x).xlatDone = k.xlatDone := by cases fw <;> rfl
@[simp] theorem Core.setCtx_xlatReqs (k : Core) (fw : Bool) (x : Ctx) : (k.setCtx fw x).xlatReqs = k.xlatReqs := by cases fw <;> rfl
@[simp] theorem Core.setCtx_fwShare (k : Core) (fw : Bool) (x : Ctx) : (k.setCtx fw x).fwShare = k.fwShare := by cases fw <;> rfl
@[simp] theorem Core.setCtx_fwCount (k : Core) (fw : Bool) (x : Ctx) : (k.setCtx fw x).fwCount = k.fwCount := by cases fw <;> rfl
@[simp] theorem Core.setCtx_winPos (k : Core) (fw : Bool) (x : Ctx) : (k.setCtx fw x).winPos = k.winPos := by cases fw <;> rfl
@[simp] theorem Core.setCtx_ilimit (k : Core) (fw : Bool) (x : Ctx) : (k.setCtx fw x).ilimit = k.ilimit := by cases fw <;> rfl
@[simp] theorem Core.setCtx_weights (k : Core) (fw : Bool) (x : Ctx) : (k.setCtx fw x).weights = k.weights := by cases fw <;> rfl
@[simp] theorem Core.setCtx_freezeCnt (k : Core) (fw : Bool) (x : Ctx) : (k.setCtx fw x).freezeCnt = k.freezeCnt := by cases fw <;> rfl
@[simp] theorem Core.setCtx_replayCnt (k : Core) (fw : Bool) (x : Ctx) : (k.setCtx fw x).replayCnt = k.replayCnt := by cases fw <;> rfl
@[simp] theorem Core.setCtx_cycles (k : Core) (fw : Bool) (x : Ctx) : (k.setCtx fw x).cycles = k.cycles := by cases fw <;> rfl
@[simp] theorem Core.setCtx_swimg (k : Core) (fw : Bool) (x : Ctx) : (k.setCtx fw x).swimg = k.swimg := by cases fw <;> rfl
@[simp] theorem Core.setCtx_epoch (k : Core) (fw : Bool) (x : Ctx) : (k.setCtx fw x).epoch = k.epoch := by cases fw <;> rfl
@[simp] theorem Core.setCtx_closed (k : Core) (fw : Bool) (x : Ctx) : (k.setCtx fw x).closed = k.closed := by cases fw <;> rfl
@[simp] theorem Core.setCtx_divs (k : Core) (fw : Bool) (x : Ctx) : (k.setCtx fw x).divs = k.divs := by cases fw <;> rfl
@[simp] theorem Core.setCtx_divSel (k : Core) (fw : Bool) (x : Ctx) : (k.setCtx fw x).divSel = k.divSel := by cases fw <;> rfl
@[simp] theorem Core.setCtx_wqSel (k : Core) (fw : Bool) (x : Ctx) : (k.setCtx fw x).wqSel = k.wqSel := by cases fw <;> rfl
@[simp] theorem Core.setCtx_slice (k : Core) (fw : Bool) (x : Ctx) : (k.setCtx fw x).slice = k.slice := by cases fw <;> rfl
@[simp] theorem Core.setCtx_used (k : Core) (fw : Bool) (x : Ctx) : (k.setCtx fw x).used = k.used := by cases fw <;> rfl
@[simp] theorem Core.setCtx_cands (k : Core) (fw : Bool) (x : Ctx) : (k.setCtx fw x).cands = k.cands := by cases fw <;> rfl
@[simp] theorem Core.setCtx_shadow (k : Core) (fw : Bool) (x : Ctx) : (k.setCtx fw x).shadow = k.shadow := by cases fw <;> rfl
@[simp] theorem Core.setCtx_switchTo (k : Core) (fw : Bool) (x : Ctx) : (k.setCtx fw x).switchTo = k.switchTo := by cases fw <;> rfl
@[simp] theorem Core.setCtx_stop (k : Core) (fw : Bool) (x : Ctx) : (k.setCtx fw x).stop = k.stop := by cases fw <;> rfl
@[simp] theorem Core.setCtx_wdt (k : Core) (fw : Bool) (x : Ctx) : (k.setCtx fw x).wdt = k.wdt := by cases fw <;> rfl
@[simp] theorem Core.setCtx_wdogTick (k : Core) (fw : Bool) (x : Ctx) : (k.setCtx fw x).wdogTick = k.wdogTick := by cases fw <;> rfl
@[simp] theorem Core.setCtx_wdogFed (k : Core) (fw : Bool) (x : Ctx) : (k.setCtx fw x).wdogFed = k.wdogFed := by cases fw <;> rfl
@[simp] theorem Core.setCtx_assistQ (k : Core) (fw : Bool) (x : Ctx) : (k.setCtx fw x).assistQ = k.assistQ := by cases fw <;> rfl
@[simp] theorem Core.setCtx_margin (k : Core) (fw : Bool) (x : Ctx) : (k.setCtx fw x).margin = k.margin := by cases fw <;> rfl
@[simp] theorem Core.setCtx_dbg (k : Core) (fw : Bool) (x : Ctx) : (k.setCtx fw x).dbg = k.dbg := by cases fw <;> rfl

@[simp] theorem Ctx.setS_p (x : Ctx) (n : Nat) (v : Word) : (x.setS n v).p = x.p := rfl
@[simp] theorem Ctx.setS_lat (x : Ctx) (n : Nat) (v : Word) : (x.setS n v).lat = x.lat := rfl
@[simp] theorem Ctx.setS_rq (x : Ctx) (n : Nat) (v : Word) : (x.setS n v).rq = x.rq := rfl
@[simp] theorem Ctx.setS_q (x : Ctx) (n : Nat) (v : Word) : (x.setS n v).q = x.q := rfl
@[simp] theorem Ctx.setS_pc (x : Ctx) (n : Nat) (v : Word) : (x.setS n v).pc = x.pc := rfl
@[simp] theorem Ctx.setS_loops (x : Ctx) (n : Nat) (v : Word) : (x.setS n v).loops = x.loops := rfl
@[simp] theorem Ctx.setS_run (x : Ctx) (n : Nat) (v : Word) : (x.setS n v).run = x.run := rfl
@[simp] theorem Ctx.setS_ranges (x : Ctx) (n : Nat) (v : Word) : (x.setS n v).ranges = x.ranges := rfl
@[simp] theorem Ctx.setS_fflags (x : Ctx) (n : Nat) (v : Word) : (x.setS n v).fflags = x.fflags := rfl
@[simp] theorem Ctx.setS_yieldSkip (x : Ctx) (n : Nat) (v : Word) : (x.setS n v).yieldSkip = x.yieldSkip := rfl
@[simp] theorem Ctx.setS_vl (x : Ctx) (n : Nat) (v : Word) : (x.setS n v).vl = x.vl := rfl
@[simp] theorem Ctx.setS_rngSeed (x : Ctx) (n : Nat) (v : Word) : (x.setS n v).rngSeed = x.rngSeed := rfl
@[simp] theorem Ctx.setS_rngCtr (x : Ctx) (n : Nat) (v : Word) : (x.setS n v).rngCtr = x.rngCtr := rfl
@[simp] theorem Ctx.setS_geocfg (x : Ctx) (n : Nat) (v : Word) : (x.setS n v).geocfg = x.geocfg := rfl
@[simp] theorem Ctx.setS_cpySeq (x : Ctx) (n : Nat) (v : Word) : (x.setS n v).cpySeq = x.cpySeq := rfl
@[simp] theorem Ctx.setS_monStat (x : Ctx) (n : Nat) (v : Word) : (x.setS n v).monStat = x.monStat := rfl
@[simp] theorem Ctx.setS_monVal (x : Ctx) (n : Nat) (v : Word) : (x.setS n v).monVal = x.monVal := rfl
@[simp] theorem Ctx.setS_asid (x : Ctx) (n : Nat) (v : Word) : (x.setS n v).asid = x.asid := rfl
@[simp] theorem Ctx.setS_lcid (x : Ctx) (n : Nat) (v : Word) : (x.setS n v).lcid = x.lcid := rfl
@[simp] theorem Ctx.setS_cores (x : Ctx) (n : Nat) (v : Word) : (x.setS n v).cores = x.cores := rfl
@[simp] theorem Ctx.setS_liveBase (x : Ctx) (n : Nat) (v : Word) : (x.setS n v).liveBase = x.liveBase := rfl
@[simp] theorem Ctx.setS_detStat (x : Ctx) (n : Nat) (v : Word) : (x.setS n v).detStat = x.detStat := rfl
@[simp] theorem Ctx.setS_tvec (x : Ctx) (n : Nat) (v : Word) : (x.setS n v).tvec = x.tvec := rfl
@[simp] theorem Ctx.setS_tsave (x : Ctx) (n : Nat) (v : Word) : (x.setS n v).tsave = x.tsave := rfl
@[simp] theorem Ctx.setS_level (x : Ctx) (n : Nat) (v : Word) : (x.setS n v).level = x.level := rfl
@[simp] theorem Ctx.setS_park1 (x : Ctx) (n : Nat) (v : Word) : (x.setS n v).park1 = x.park1 := rfl
@[simp] theorem Ctx.setS_park2 (x : Ctx) (n : Nat) (v : Word) : (x.setS n v).park2 = x.park2 := rfl
@[simp] theorem Ctx.setS_regSusp (x : Ctx) (n : Nat) (v : Word) : (x.setS n v).regSusp = x.regSusp := rfl
@[simp] theorem Ctx.setS_abortPend (x : Ctx) (n : Nat) (v : Word) : (x.setS n v).abortPend = x.abortPend := rfl
@[simp] theorem Ctx.setS_l1 (x : Ctx) (n : Nat) (v : Word) : (x.setS n v).l1 = x.l1 := rfl
@[simp] theorem Ctx.setS_l2 (x : Ctx) (n : Nat) (v : Word) : (x.setS n v).l2 = x.l2 := rfl
@[simp] theorem Ctx.setS_killRec (x : Ctx) (n : Nat) (v : Word) : (x.setS n v).killRec = x.killRec := rfl
@[simp] theorem Ctx.setS_held (x : Ctx) (n : Nat) (v : Word) : (x.setS n v).held = x.held := rfl
@[simp] theorem Ctx.setS_heldLost (x : Ctx) (n : Nat) (v : Word) : (x.setS n v).heldLost = x.heldLost := rfl
@[simp] theorem Ctx.setS_absent (x : Ctx) (n : Nat) (v : Word) : (x.setS n v).absent = x.absent := rfl
@[simp] theorem Ctx.setS_absentHeld (x : Ctx) (n : Nat) (v : Word) : (x.setS n v).absentHeld = x.absentHeld := rfl
@[simp] theorem Ctx.setS_absentLost (x : Ctx) (n : Nat) (v : Word) : (x.setS n v).absentLost = x.absentLost := rfl
@[simp] theorem Ctx.setS_pend (x : Ctx) (n : Nat) (v : Word) : (x.setS n v).pend = x.pend := rfl
@[simp] theorem Ctx.setS_resp (x : Ctx) (n : Nat) (v : Word) : (x.setS n v).resp = x.resp := rfl
@[simp] theorem Ctx.setS_peerSt (x : Ctx) (n : Nat) (v : Word) : (x.setS n v).peerSt = x.peerSt := rfl
@[simp] theorem Ctx.setS_storeq (x : Ctx) (n : Nat) (v : Word) : (x.setS n v).storeq = x.storeq := rfl
@[simp] theorem Ctx.setS_fences (x : Ctx) (n : Nat) (v : Word) : (x.setS n v).fences = x.fences := rfl
@[simp] theorem Ctx.setS_wait (x : Ctx) (n : Nat) (v : Word) : (x.setS n v).wait = x.wait := rfl
@[simp] theorem Ctx.setS_waitKept (x : Ctx) (n : Nat) (v : Word) : (x.setS n v).waitKept = x.waitKept := rfl
@[simp] theorem Ctx.setS_assist (x : Ctx) (n : Nat) (v : Word) : (x.setS n v).assist = x.assist := rfl
@[simp] theorem Ctx.setS_tasks (x : Ctx) (n : Nat) (v : Word) : (x.setS n v).tasks = x.tasks := rfl
@[simp] theorem Ctx.setS_taskReq (x : Ctx) (n : Nat) (v : Word) : (x.setS n v).taskReq = x.taskReq := rfl
@[simp] theorem Ctx.setS_taskDrop (x : Ctx) (n : Nat) (v : Word) : (x.setS n v).taskDrop = x.taskDrop := rfl
@[simp] theorem Ctx.setS_region (x : Ctx) (n : Nat) (v : Word) : (x.setS n v).region = x.region := rfl
@[simp] theorem Ctx.setS_tbarIssued (x : Ctx) (n : Nat) (v : Word) : (x.setS n v).tbarIssued = x.tbarIssued := rfl
@[simp] theorem Ctx.setS_tbarDone (x : Ctx) (n : Nat) (v : Word) : (x.setS n v).tbarDone = x.tbarDone := rfl
@[simp] theorem Ctx.setS_remoteSince (x : Ctx) (n : Nat) (v : Word) : (x.setS n v).remoteSince = x.remoteSince := rfl
@[simp] theorem Ctx.setS_owner (x : Ctx) (n : Nat) (v : Word) : (x.setS n v).owner = x.owner := rfl

@[simp] theorem Ctx.setLatch_s (x : Ctx) (u : Nat) (l : Bool) (v : Word) : (x.setLatch u l v).s = x.s := rfl
@[simp] theorem Ctx.setLatch_p (x : Ctx) (u : Nat) (l : Bool) (v : Word) : (x.setLatch u l v).p = x.p := rfl
@[simp] theorem Ctx.setLatch_rq (x : Ctx) (u : Nat) (l : Bool) (v : Word) : (x.setLatch u l v).rq = x.rq := rfl
@[simp] theorem Ctx.setLatch_q (x : Ctx) (u : Nat) (l : Bool) (v : Word) : (x.setLatch u l v).q = x.q := rfl
@[simp] theorem Ctx.setLatch_pc (x : Ctx) (u : Nat) (l : Bool) (v : Word) : (x.setLatch u l v).pc = x.pc := rfl
@[simp] theorem Ctx.setLatch_loops (x : Ctx) (u : Nat) (l : Bool) (v : Word) : (x.setLatch u l v).loops = x.loops := rfl
@[simp] theorem Ctx.setLatch_run (x : Ctx) (u : Nat) (l : Bool) (v : Word) : (x.setLatch u l v).run = x.run := rfl
@[simp] theorem Ctx.setLatch_ranges (x : Ctx) (u : Nat) (l : Bool) (v : Word) : (x.setLatch u l v).ranges = x.ranges := rfl
@[simp] theorem Ctx.setLatch_fflags (x : Ctx) (u : Nat) (l : Bool) (v : Word) : (x.setLatch u l v).fflags = x.fflags := rfl
@[simp] theorem Ctx.setLatch_yieldSkip (x : Ctx) (u : Nat) (l : Bool) (v : Word) : (x.setLatch u l v).yieldSkip = x.yieldSkip := rfl
@[simp] theorem Ctx.setLatch_vl (x : Ctx) (u : Nat) (l : Bool) (v : Word) : (x.setLatch u l v).vl = x.vl := rfl
@[simp] theorem Ctx.setLatch_rngSeed (x : Ctx) (u : Nat) (l : Bool) (v : Word) : (x.setLatch u l v).rngSeed = x.rngSeed := rfl
@[simp] theorem Ctx.setLatch_rngCtr (x : Ctx) (u : Nat) (l : Bool) (v : Word) : (x.setLatch u l v).rngCtr = x.rngCtr := rfl
@[simp] theorem Ctx.setLatch_geocfg (x : Ctx) (u : Nat) (l : Bool) (v : Word) : (x.setLatch u l v).geocfg = x.geocfg := rfl
@[simp] theorem Ctx.setLatch_cpySeq (x : Ctx) (u : Nat) (l : Bool) (v : Word) : (x.setLatch u l v).cpySeq = x.cpySeq := rfl
@[simp] theorem Ctx.setLatch_monStat (x : Ctx) (u : Nat) (l : Bool) (v : Word) : (x.setLatch u l v).monStat = x.monStat := rfl
@[simp] theorem Ctx.setLatch_monVal (x : Ctx) (u : Nat) (l : Bool) (v : Word) : (x.setLatch u l v).monVal = x.monVal := rfl
@[simp] theorem Ctx.setLatch_asid (x : Ctx) (u : Nat) (l : Bool) (v : Word) : (x.setLatch u l v).asid = x.asid := rfl
@[simp] theorem Ctx.setLatch_lcid (x : Ctx) (u : Nat) (l : Bool) (v : Word) : (x.setLatch u l v).lcid = x.lcid := rfl
@[simp] theorem Ctx.setLatch_cores (x : Ctx) (u : Nat) (l : Bool) (v : Word) : (x.setLatch u l v).cores = x.cores := rfl
@[simp] theorem Ctx.setLatch_liveBase (x : Ctx) (u : Nat) (l : Bool) (v : Word) : (x.setLatch u l v).liveBase = x.liveBase := rfl
@[simp] theorem Ctx.setLatch_detStat (x : Ctx) (u : Nat) (l : Bool) (v : Word) : (x.setLatch u l v).detStat = x.detStat := rfl
@[simp] theorem Ctx.setLatch_tvec (x : Ctx) (u : Nat) (l : Bool) (v : Word) : (x.setLatch u l v).tvec = x.tvec := rfl
@[simp] theorem Ctx.setLatch_tsave (x : Ctx) (u : Nat) (l : Bool) (v : Word) : (x.setLatch u l v).tsave = x.tsave := rfl
@[simp] theorem Ctx.setLatch_level (x : Ctx) (u : Nat) (l : Bool) (v : Word) : (x.setLatch u l v).level = x.level := rfl
@[simp] theorem Ctx.setLatch_park1 (x : Ctx) (u : Nat) (l : Bool) (v : Word) : (x.setLatch u l v).park1 = x.park1 := rfl
@[simp] theorem Ctx.setLatch_park2 (x : Ctx) (u : Nat) (l : Bool) (v : Word) : (x.setLatch u l v).park2 = x.park2 := rfl
@[simp] theorem Ctx.setLatch_regSusp (x : Ctx) (u : Nat) (l : Bool) (v : Word) : (x.setLatch u l v).regSusp = x.regSusp := rfl
@[simp] theorem Ctx.setLatch_abortPend (x : Ctx) (u : Nat) (l : Bool) (v : Word) : (x.setLatch u l v).abortPend = x.abortPend := rfl
@[simp] theorem Ctx.setLatch_l1 (x : Ctx) (u : Nat) (l : Bool) (v : Word) : (x.setLatch u l v).l1 = x.l1 := rfl
@[simp] theorem Ctx.setLatch_l2 (x : Ctx) (u : Nat) (l : Bool) (v : Word) : (x.setLatch u l v).l2 = x.l2 := rfl
@[simp] theorem Ctx.setLatch_killRec (x : Ctx) (u : Nat) (l : Bool) (v : Word) : (x.setLatch u l v).killRec = x.killRec := rfl
@[simp] theorem Ctx.setLatch_held (x : Ctx) (u : Nat) (l : Bool) (v : Word) : (x.setLatch u l v).held = x.held := rfl
@[simp] theorem Ctx.setLatch_heldLost (x : Ctx) (u : Nat) (l : Bool) (v : Word) : (x.setLatch u l v).heldLost = x.heldLost := rfl
@[simp] theorem Ctx.setLatch_absent (x : Ctx) (u : Nat) (l : Bool) (v : Word) : (x.setLatch u l v).absent = x.absent := rfl
@[simp] theorem Ctx.setLatch_absentHeld (x : Ctx) (u : Nat) (l : Bool) (v : Word) : (x.setLatch u l v).absentHeld = x.absentHeld := rfl
@[simp] theorem Ctx.setLatch_absentLost (x : Ctx) (u : Nat) (l : Bool) (v : Word) : (x.setLatch u l v).absentLost = x.absentLost := rfl
@[simp] theorem Ctx.setLatch_pend (x : Ctx) (u : Nat) (l : Bool) (v : Word) : (x.setLatch u l v).pend = x.pend := rfl
@[simp] theorem Ctx.setLatch_resp (x : Ctx) (u : Nat) (l : Bool) (v : Word) : (x.setLatch u l v).resp = x.resp := rfl
@[simp] theorem Ctx.setLatch_peerSt (x : Ctx) (u : Nat) (l : Bool) (v : Word) : (x.setLatch u l v).peerSt = x.peerSt := rfl
@[simp] theorem Ctx.setLatch_storeq (x : Ctx) (u : Nat) (l : Bool) (v : Word) : (x.setLatch u l v).storeq = x.storeq := rfl
@[simp] theorem Ctx.setLatch_fences (x : Ctx) (u : Nat) (l : Bool) (v : Word) : (x.setLatch u l v).fences = x.fences := rfl
@[simp] theorem Ctx.setLatch_wait (x : Ctx) (u : Nat) (l : Bool) (v : Word) : (x.setLatch u l v).wait = x.wait := rfl
@[simp] theorem Ctx.setLatch_waitKept (x : Ctx) (u : Nat) (l : Bool) (v : Word) : (x.setLatch u l v).waitKept = x.waitKept := rfl
@[simp] theorem Ctx.setLatch_assist (x : Ctx) (u : Nat) (l : Bool) (v : Word) : (x.setLatch u l v).assist = x.assist := rfl
@[simp] theorem Ctx.setLatch_tasks (x : Ctx) (u : Nat) (l : Bool) (v : Word) : (x.setLatch u l v).tasks = x.tasks := rfl
@[simp] theorem Ctx.setLatch_taskReq (x : Ctx) (u : Nat) (l : Bool) (v : Word) : (x.setLatch u l v).taskReq = x.taskReq := rfl
@[simp] theorem Ctx.setLatch_taskDrop (x : Ctx) (u : Nat) (l : Bool) (v : Word) : (x.setLatch u l v).taskDrop = x.taskDrop := rfl
@[simp] theorem Ctx.setLatch_region (x : Ctx) (u : Nat) (l : Bool) (v : Word) : (x.setLatch u l v).region = x.region := rfl
@[simp] theorem Ctx.setLatch_tbarIssued (x : Ctx) (u : Nat) (l : Bool) (v : Word) : (x.setLatch u l v).tbarIssued = x.tbarIssued := rfl
@[simp] theorem Ctx.setLatch_tbarDone (x : Ctx) (u : Nat) (l : Bool) (v : Word) : (x.setLatch u l v).tbarDone = x.tbarDone := rfl
@[simp] theorem Ctx.setLatch_remoteSince (x : Ctx) (u : Nat) (l : Bool) (v : Word) : (x.setLatch u l v).remoteSince = x.remoteSince := rfl
@[simp] theorem Ctx.setLatch_owner (x : Ctx) (u : Nat) (l : Bool) (v : Word) : (x.setLatch u l v).owner = x.owner := rfl

@[simp] theorem Ctx.setP_s (x : Ctx) (n : Nat) (b : Bool) : (x.setP n b).s = x.s := by unfold Ctx.setP; split <;> rfl
@[simp] theorem Ctx.setP_lat (x : Ctx) (n : Nat) (b : Bool) : (x.setP n b).lat = x.lat := by unfold Ctx.setP; split <;> rfl
@[simp] theorem Ctx.setP_rq (x : Ctx) (n : Nat) (b : Bool) : (x.setP n b).rq = x.rq := by unfold Ctx.setP; split <;> rfl
@[simp] theorem Ctx.setP_q (x : Ctx) (n : Nat) (b : Bool) : (x.setP n b).q = x.q := by unfold Ctx.setP; split <;> rfl
@[simp] theorem Ctx.setP_pc (x : Ctx) (n : Nat) (b : Bool) : (x.setP n b).pc = x.pc := by unfold Ctx.setP; split <;> rfl
@[simp] theorem Ctx.setP_loops (x : Ctx) (n : Nat) (b : Bool) : (x.setP n b).loops = x.loops := by unfold Ctx.setP; split <;> rfl
@[simp] theorem Ctx.setP_run (x : Ctx) (n : Nat) (b : Bool) : (x.setP n b).run = x.run := by unfold Ctx.setP; split <;> rfl
@[simp] theorem Ctx.setP_ranges (x : Ctx) (n : Nat) (b : Bool) : (x.setP n b).ranges = x.ranges := by unfold Ctx.setP; split <;> rfl
@[simp] theorem Ctx.setP_fflags (x : Ctx) (n : Nat) (b : Bool) : (x.setP n b).fflags = x.fflags := by unfold Ctx.setP; split <;> rfl
@[simp] theorem Ctx.setP_yieldSkip (x : Ctx) (n : Nat) (b : Bool) : (x.setP n b).yieldSkip = x.yieldSkip := by unfold Ctx.setP; split <;> rfl
@[simp] theorem Ctx.setP_vl (x : Ctx) (n : Nat) (b : Bool) : (x.setP n b).vl = x.vl := by unfold Ctx.setP; split <;> rfl
@[simp] theorem Ctx.setP_rngSeed (x : Ctx) (n : Nat) (b : Bool) : (x.setP n b).rngSeed = x.rngSeed := by unfold Ctx.setP; split <;> rfl
@[simp] theorem Ctx.setP_rngCtr (x : Ctx) (n : Nat) (b : Bool) : (x.setP n b).rngCtr = x.rngCtr := by unfold Ctx.setP; split <;> rfl
@[simp] theorem Ctx.setP_geocfg (x : Ctx) (n : Nat) (b : Bool) : (x.setP n b).geocfg = x.geocfg := by unfold Ctx.setP; split <;> rfl
@[simp] theorem Ctx.setP_cpySeq (x : Ctx) (n : Nat) (b : Bool) : (x.setP n b).cpySeq = x.cpySeq := by unfold Ctx.setP; split <;> rfl
@[simp] theorem Ctx.setP_monStat (x : Ctx) (n : Nat) (b : Bool) : (x.setP n b).monStat = x.monStat := by unfold Ctx.setP; split <;> rfl
@[simp] theorem Ctx.setP_monVal (x : Ctx) (n : Nat) (b : Bool) : (x.setP n b).monVal = x.monVal := by unfold Ctx.setP; split <;> rfl
@[simp] theorem Ctx.setP_asid (x : Ctx) (n : Nat) (b : Bool) : (x.setP n b).asid = x.asid := by unfold Ctx.setP; split <;> rfl
@[simp] theorem Ctx.setP_lcid (x : Ctx) (n : Nat) (b : Bool) : (x.setP n b).lcid = x.lcid := by unfold Ctx.setP; split <;> rfl
@[simp] theorem Ctx.setP_cores (x : Ctx) (n : Nat) (b : Bool) : (x.setP n b).cores = x.cores := by unfold Ctx.setP; split <;> rfl
@[simp] theorem Ctx.setP_liveBase (x : Ctx) (n : Nat) (b : Bool) : (x.setP n b).liveBase = x.liveBase := by unfold Ctx.setP; split <;> rfl
@[simp] theorem Ctx.setP_detStat (x : Ctx) (n : Nat) (b : Bool) : (x.setP n b).detStat = x.detStat := by unfold Ctx.setP; split <;> rfl
@[simp] theorem Ctx.setP_tvec (x : Ctx) (n : Nat) (b : Bool) : (x.setP n b).tvec = x.tvec := by unfold Ctx.setP; split <;> rfl
@[simp] theorem Ctx.setP_tsave (x : Ctx) (n : Nat) (b : Bool) : (x.setP n b).tsave = x.tsave := by unfold Ctx.setP; split <;> rfl
@[simp] theorem Ctx.setP_level (x : Ctx) (n : Nat) (b : Bool) : (x.setP n b).level = x.level := by unfold Ctx.setP; split <;> rfl
@[simp] theorem Ctx.setP_park1 (x : Ctx) (n : Nat) (b : Bool) : (x.setP n b).park1 = x.park1 := by unfold Ctx.setP; split <;> rfl
@[simp] theorem Ctx.setP_park2 (x : Ctx) (n : Nat) (b : Bool) : (x.setP n b).park2 = x.park2 := by unfold Ctx.setP; split <;> rfl
@[simp] theorem Ctx.setP_regSusp (x : Ctx) (n : Nat) (b : Bool) : (x.setP n b).regSusp = x.regSusp := by unfold Ctx.setP; split <;> rfl
@[simp] theorem Ctx.setP_abortPend (x : Ctx) (n : Nat) (b : Bool) : (x.setP n b).abortPend = x.abortPend := by unfold Ctx.setP; split <;> rfl
@[simp] theorem Ctx.setP_l1 (x : Ctx) (n : Nat) (b : Bool) : (x.setP n b).l1 = x.l1 := by unfold Ctx.setP; split <;> rfl
@[simp] theorem Ctx.setP_l2 (x : Ctx) (n : Nat) (b : Bool) : (x.setP n b).l2 = x.l2 := by unfold Ctx.setP; split <;> rfl
@[simp] theorem Ctx.setP_killRec (x : Ctx) (n : Nat) (b : Bool) : (x.setP n b).killRec = x.killRec := by unfold Ctx.setP; split <;> rfl
@[simp] theorem Ctx.setP_held (x : Ctx) (n : Nat) (b : Bool) : (x.setP n b).held = x.held := by unfold Ctx.setP; split <;> rfl
@[simp] theorem Ctx.setP_heldLost (x : Ctx) (n : Nat) (b : Bool) : (x.setP n b).heldLost = x.heldLost := by unfold Ctx.setP; split <;> rfl
@[simp] theorem Ctx.setP_absent (x : Ctx) (n : Nat) (b : Bool) : (x.setP n b).absent = x.absent := by unfold Ctx.setP; split <;> rfl
@[simp] theorem Ctx.setP_absentHeld (x : Ctx) (n : Nat) (b : Bool) : (x.setP n b).absentHeld = x.absentHeld := by unfold Ctx.setP; split <;> rfl
@[simp] theorem Ctx.setP_absentLost (x : Ctx) (n : Nat) (b : Bool) : (x.setP n b).absentLost = x.absentLost := by unfold Ctx.setP; split <;> rfl
@[simp] theorem Ctx.setP_pend (x : Ctx) (n : Nat) (b : Bool) : (x.setP n b).pend = x.pend := by unfold Ctx.setP; split <;> rfl
@[simp] theorem Ctx.setP_resp (x : Ctx) (n : Nat) (b : Bool) : (x.setP n b).resp = x.resp := by unfold Ctx.setP; split <;> rfl
@[simp] theorem Ctx.setP_peerSt (x : Ctx) (n : Nat) (b : Bool) : (x.setP n b).peerSt = x.peerSt := by unfold Ctx.setP; split <;> rfl
@[simp] theorem Ctx.setP_storeq (x : Ctx) (n : Nat) (b : Bool) : (x.setP n b).storeq = x.storeq := by unfold Ctx.setP; split <;> rfl
@[simp] theorem Ctx.setP_fences (x : Ctx) (n : Nat) (b : Bool) : (x.setP n b).fences = x.fences := by unfold Ctx.setP; split <;> rfl
@[simp] theorem Ctx.setP_wait (x : Ctx) (n : Nat) (b : Bool) : (x.setP n b).wait = x.wait := by unfold Ctx.setP; split <;> rfl
@[simp] theorem Ctx.setP_waitKept (x : Ctx) (n : Nat) (b : Bool) : (x.setP n b).waitKept = x.waitKept := by unfold Ctx.setP; split <;> rfl
@[simp] theorem Ctx.setP_assist (x : Ctx) (n : Nat) (b : Bool) : (x.setP n b).assist = x.assist := by unfold Ctx.setP; split <;> rfl
@[simp] theorem Ctx.setP_tasks (x : Ctx) (n : Nat) (b : Bool) : (x.setP n b).tasks = x.tasks := by unfold Ctx.setP; split <;> rfl
@[simp] theorem Ctx.setP_taskReq (x : Ctx) (n : Nat) (b : Bool) : (x.setP n b).taskReq = x.taskReq := by unfold Ctx.setP; split <;> rfl
@[simp] theorem Ctx.setP_taskDrop (x : Ctx) (n : Nat) (b : Bool) : (x.setP n b).taskDrop = x.taskDrop := by unfold Ctx.setP; split <;> rfl
@[simp] theorem Ctx.setP_region (x : Ctx) (n : Nat) (b : Bool) : (x.setP n b).region = x.region := by unfold Ctx.setP; split <;> rfl
@[simp] theorem Ctx.setP_tbarIssued (x : Ctx) (n : Nat) (b : Bool) : (x.setP n b).tbarIssued = x.tbarIssued := by unfold Ctx.setP; split <;> rfl
@[simp] theorem Ctx.setP_tbarDone (x : Ctx) (n : Nat) (b : Bool) : (x.setP n b).tbarDone = x.tbarDone := by unfold Ctx.setP; split <;> rfl
@[simp] theorem Ctx.setP_remoteSince (x : Ctx) (n : Nat) (b : Bool) : (x.setP n b).remoteSince = x.remoteSince := by unfold Ctx.setP; split <;> rfl
@[simp] theorem Ctx.setP_owner (x : Ctx) (n : Nat) (b : Bool) : (x.setP n b).owner = x.owner := by unfold Ctx.setP; split <;> rfl

@[simp] theorem Core.setCtx_same (k : Core) (fw : Bool) (x : Ctx) : (k.setCtx fw x).ctx fw = x := by cases fw <;> rfl
@[simp] theorem Core.setCtx_other (k : Core) (fw : Bool) (x : Ctx) : (k.setCtx fw x).ctx (!fw) = k.ctx (!fw) := by cases fw <;> rfl

@[simp] theorem Mach.core_setCore (m : Mach) (c : Nat) (k : Core) : (m.setCore c k).core c = k := by
  simp [Mach.core, Mach.setCore]
theorem Mach.core_setCore_other (m : Mach) {c d : Nat} (h : d ≠ c) (k : Core) : (m.setCore c k).core d = m.core d := by
  simp [Mach.core, Mach.setCore, Tab.get_put_other _ _ _ h]
@[simp] theorem Mach.core_updCore (m : Mach) (c : Nat) (f : Core → Core) : (m.updCore c f).core c = f (m.core c) := by
  simp [Mach.updCore]
theorem Mach.core_updCore_other (m : Mach) {c d : Nat} (h : d ≠ c) (f : Core → Core) : (m.updCore c f).core d = m.core d :=
  Mach.core_setCore_other m h _
@[simp] theorem Mach.ctx_updCtx (m : Mach) (c : Nat) (fw : Bool) (f : Ctx → Ctx) : (m.updCtx c fw f).ctx c fw = f (m.ctx c fw) := by
  simp [Mach.updCtx, Mach.ctx]
theorem Mach.ctx_updCtx_other (m : Mach) (c : Nat) (fw : Bool) (f : Ctx → Ctx) :
    (m.updCtx c fw f).ctx c (!fw) = m.ctx c (!fw) := by
  simp [Mach.updCtx, Mach.ctx]
theorem Mach.core_updCtx_other (m : Mach) {c d : Nat} (h : d ≠ c) (fw : Bool) (f : Ctx → Ctx) :
    (m.updCtx c fw f).core d = m.core d := Mach.core_updCore_other m h _
@[simp] theorem Mach.core_updCtx (m : Mach) (c : Nat) (fw : Bool) (f : Ctx → Ctx) :
    (m.updCtx c fw f).core c = (m.core c).setCtx fw (f (m.ctx c fw)) := by
  simp [Mach.updCtx, Mach.ctx]

@[simp] theorem Ctx.setS_sreg_same (x : Ctx) (n : Nat) (v : Word) : (x.setS n v).sreg n = v := by
  simp [Ctx.sreg, Ctx.setS]
theorem Ctx.setS_sreg_other (x : Ctx) {n j : Nat} (h : j ≠ n) (v : Word) : (x.setS n v).sreg j = x.sreg j := by
  simp [Ctx.sreg, Ctx.setS, Tab.get_put_other _ _ _ h]
@[simp] theorem Ctx.setLatch_latch_same (x : Ctx) (u : Nat) (l : Bool) (v : Word) : (x.setLatch u l v).latch u l = v := by
  simp [Ctx.latch, Ctx.setLatch]
/-- p0 reads 1 whatever is written (01 R10). -/
@[simp] theorem Ctx.preg_zero (x : Ctx) : x.preg 0 = true := rfl
/-- A write to p0 is discarded (01 R10). -/
@[simp] theorem Ctx.setP_zero (x : Ctx) (b : Bool) : x.setP 0 b = x := rfl
/-- A p register written reads back, p0 apart (01 R10). -/
theorem Ctx.setP_preg_same (x : Ctx) (b : Bool) : ∀ n, 0 < n → n < 16 → (x.setP n b).preg n = b := by
  intro n h0 h1
  have hn : n ≠ 0 := by omega
  have hb : ∀ v : BitVec 16, bitAt v.toNat n = v.getLsbD n := by
    intro v; simp only [bitAt, BitVec.getLsbD, Nat.testBit_eq_decide_div_mod_eq]; rfl
  have hk : (BitVec.ofNat 16 (2 ^ n)).getLsbD n = true := by
    rw [BitVec.getLsbD_ofNat]; simp [h1, Nat.testBit_two_pow_self]
  have hr : ∀ y : Ctx, y.preg n = y.p.getLsbD n := by
    intro y; unfold Ctx.preg; rw [hb]; simp [hn]
  rw [hr]
  unfold Ctx.setP
  cases b
  · simp only [hn, if_false, Bool.false_eq_true, BitVec.getLsbD_and, BitVec.getLsbD_not, hk]; simp
  · simp only [hn, if_false, if_true, BitVec.getLsbD_or, hk]; simp

/-! ## The state of the model -/

@[simp] theorem State.upd_pre (s : State) (f : Mach → Mach) : (s.upd f).pre = s.pre := rfl
@[simp] theorem State.upd_iss (s : State) (f : Mach → Mach) : (s.upd f).iss = s.iss := rfl
@[simp] theorem State.upd_agenda (s : State) (f : Mach → Mach) : (s.upd f).agenda = s.agenda := rfl
@[simp] theorem State.upd_cur (s : State) (f : Mach → Mach) : (s.upd f).cur = s.cur := rfl
@[simp] theorem State.upd_tickStep (s : State) (f : Mach → Mach) : (s.upd f).tickStep = s.tickStep := rfl

@[simp] theorem State.upd_m (s : State) (f : Mach → Mach) : (s.upd f).m = f s.m := rfl
@[simp] theorem State.updK_pre (s : State) (f : Core → Core) : (s.updK f).pre = s.pre := rfl
@[simp] theorem State.updK_iss (s : State) (f : Core → Core) : (s.updK f).iss = s.iss := rfl
@[simp] theorem State.updK_agenda (s : State) (f : Core → Core) : (s.updK f).agenda = s.agenda := rfl
@[simp] theorem State.updK_cur (s : State) (f : Core → Core) : (s.updK f).cur = s.cur := rfl
@[simp] theorem State.updK_tickStep (s : State) (f : Core → Core) : (s.updK f).tickStep = s.tickStep := rfl

@[simp] theorem State.updK_m (s : State) (f : Core → Core) : (s.updK f).m = s.m.updCore s.iss.core f := rfl
@[simp] theorem State.updX_pre (s : State) (f : Ctx → Ctx) : (s.updX f).pre = s.pre := rfl
@[simp] theorem State.updX_iss (s : State) (f : Ctx → Ctx) : (s.updX f).iss = s.iss := rfl
@[simp] theorem State.updX_agenda (s : State) (f : Ctx → Ctx) : (s.updX f).agenda = s.agenda := rfl
@[simp] theorem State.updX_cur (s : State) (f : Ctx → Ctx) : (s.updX f).cur = s.cur := rfl
@[simp] theorem State.updX_tickStep (s : State) (f : Ctx → Ctx) : (s.updX f).tickStep = s.tickStep := rfl

@[simp] theorem State.updX_m (s : State) (f : Ctx → Ctx) : (s.updX f).m = s.m.updCtx s.iss.core s.iss.fw f := rfl
@[simp] theorem State.latch_pre (s : State) (u : Nat) (l : Bool) (v : Word) : (s.latch u l v).pre = s.pre := rfl
@[simp] theorem State.latch_iss (s : State) (u : Nat) (l : Bool) (v : Word) : (s.latch u l v).iss = s.iss := rfl
@[simp] theorem State.latch_agenda (s : State) (u : Nat) (l : Bool) (v : Word) : (s.latch u l v).agenda = s.agenda := rfl
@[simp] theorem State.latch_cur (s : State) (u : Nat) (l : Bool) (v : Word) : (s.latch u l v).cur = s.cur := rfl
@[simp] theorem State.latch_tickStep (s : State) (u : Nat) (l : Bool) (v : Word) : (s.latch u l v).tickStep = s.tickStep := rfl

@[simp] theorem State.latchAB_pre (s : State) (u : Nat) (a b : Word) : (s.latchAB u a b).pre = s.pre := rfl
@[simp] theorem State.latchAB_iss (s : State) (u : Nat) (a b : Word) : (s.latchAB u a b).iss = s.iss := rfl
@[simp] theorem State.latchAB_agenda (s : State) (u : Nat) (a b : Word) : (s.latchAB u a b).agenda = s.agenda := rfl
@[simp] theorem State.latchAB_cur (s : State) (u : Nat) (a b : Word) : (s.latchAB u a b).cur = s.cur := rfl
@[simp] theorem State.latchAB_tickStep (s : State) (u : Nat) (a b : Word) : (s.latchAB u a b).tickStep = s.tickStep := rfl

@[simp] theorem State.putLate_pre (s : State) (k : PendKind) (d : Dst) (v : Word) (b : BitVec 5) : (s.putLate k d v b).pre = s.pre := rfl
@[simp] theorem State.putLate_iss (s : State) (k : PendKind) (d : Dst) (v : Word) (b : BitVec 5) : (s.putLate k d v b).iss = s.iss := rfl
@[simp] theorem State.putLate_agenda (s : State) (k : PendKind) (d : Dst) (v : Word) (b : BitVec 5) : (s.putLate k d v b).agenda = s.agenda := rfl
@[simp] theorem State.putLate_cur (s : State) (k : PendKind) (d : Dst) (v : Word) (b : BitVec 5) : (s.putLate k d v b).cur = s.cur := rfl
@[simp] theorem State.putLate_tickStep (s : State) (k : PendKind) (d : Dst) (v : Word) (b : BitVec 5) : (s.putLate k d v b).tickStep = s.tickStep := rfl

@[simp] theorem State.stall_pre (s : State) : s.stall.pre = s.pre := rfl
@[simp] theorem State.trapWith_pre (s : State) (fl : Word) (code : Nat) (v : Word) : (s.trapWith fl code v).pre = s.pre := rfl
@[simp] theorem State.trap_pre (s : State) (c : Cause) (v : Word) : (s.trap c v).pre = s.pre := rfl
@[simp] theorem State.illegal_pre (s : State) (c : Cause) : (s.illegal c).pre = s.pre := rfl
@[simp] theorem State.jump_pre (s : State) (t : Word) (l : List LoopEnt) : (s.jump t l).pre = s.pre := rfl
@[simp] theorem State.stall_agenda (s : State) : s.stall.agenda = s.agenda := rfl
@[simp] theorem State.trapWith_agenda (s : State) (fl : Word) (code : Nat) (v : Word) : (s.trapWith fl code v).agenda = s.agenda := rfl
@[simp] theorem State.trap_agenda (s : State) (c : Cause) (v : Word) : (s.trap c v).agenda = s.agenda := rfl
@[simp] theorem State.illegal_agenda (s : State) (c : Cause) : (s.illegal c).agenda = s.agenda := rfl
@[simp] theorem State.jump_agenda (s : State) (t : Word) (l : List LoopEnt) : (s.jump t l).agenda = s.agenda := rfl
@[simp] theorem State.stall_cur (s : State) : s.stall.cur = s.cur := rfl
@[simp] theorem State.trapWith_cur (s : State) (fl : Word) (code : Nat) (v : Word) : (s.trapWith fl code v).cur = s.cur := rfl
@[simp] theorem State.trap_cur (s : State) (c : Cause) (v : Word) : (s.trap c v).cur = s.cur := rfl
@[simp] theorem State.illegal_cur (s : State) (c : Cause) : (s.illegal c).cur = s.cur := rfl
@[simp] theorem State.jump_cur (s : State) (t : Word) (l : List LoopEnt) : (s.jump t l).cur = s.cur := rfl
@[simp] theorem State.stall_tickStep (s : State) : s.stall.tickStep = s.tickStep := rfl
@[simp] theorem State.trapWith_tickStep (s : State) (fl : Word) (code : Nat) (v : Word) : (s.trapWith fl code v).tickStep = s.tickStep := rfl
@[simp] theorem State.trap_tickStep (s : State) (c : Cause) (v : Word) : (s.trap c v).tickStep = s.tickStep := rfl
@[simp] theorem State.illegal_tickStep (s : State) (c : Cause) : (s.illegal c).tickStep = s.tickStep := rfl
@[simp] theorem State.jump_tickStep (s : State) (t : Word) (l : List LoopEnt) : (s.jump t l).tickStep = s.tickStep := rfl
@[simp] theorem State.stall_m (s : State) : s.stall.m = s.pre := rfl
@[simp] theorem State.stall_dead (s : State) : s.stall.iss.dead = true := rfl
@[simp] theorem State.trapWith_m (s : State) (fl : Word) (code : Nat) (v : Word) :
    (s.trapWith fl code v).m = s.pre.takeTrap s.iss.core s.iss.fw fl code s.iss.addr v := rfl
@[simp] theorem State.trapWith_dead (s : State) (fl : Word) (code : Nat) (v : Word) : (s.trapWith fl code v).iss.dead = true := rfl
@[simp] theorem State.trap_dead (s : State) (c : Cause) (v : Word) : (s.trap c v).iss.dead = true := rfl
@[simp] theorem State.illegal_dead (s : State) (c : Cause) : (s.illegal c).iss.dead = true := rfl

@[simp] theorem State.put_pre (s : State) (d : Dst) (v : Word) : (s.put d v).pre = s.pre := by cases d <;> rfl
@[simp] theorem State.take1_pre (s : State) (a : Src) : (s.take1 a).pre = s.pre := by cases a <;> first | rfl | (unfold State.take1; dsimp only; split <;> rfl)
@[simp] theorem State.put_iss (s : State) (d : Dst) (v : Word) : (s.put d v).iss = s.iss := by cases d <;> rfl
@[simp] theorem State.take1_iss (s : State) (a : Src) : (s.take1 a).iss = s.iss := by cases a <;> first | rfl | (unfold State.take1; dsimp only; split <;> rfl)
@[simp] theorem State.put_agenda (s : State) (d : Dst) (v : Word) : (s.put d v).agenda = s.agenda := by cases d <;> rfl
@[simp] theorem State.take1_agenda (s : State) (a : Src) : (s.take1 a).agenda = s.agenda := by cases a <;> first | rfl | (unfold State.take1; dsimp only; split <;> rfl)
@[simp] theorem State.put_cur (s : State) (d : Dst) (v : Word) : (s.put d v).cur = s.cur := by cases d <;> rfl
@[simp] theorem State.take1_cur (s : State) (a : Src) : (s.take1 a).cur = s.cur := by cases a <;> first | rfl | (unfold State.take1; dsimp only; split <;> rfl)
@[simp] theorem State.put_tickStep (s : State) (d : Dst) (v : Word) : (s.put d v).tickStep = s.tickStep := by cases d <;> rfl
@[simp] theorem State.take1_tickStep (s : State) (a : Src) : (s.take1 a).tickStep = s.tickStep := by cases a <;> first | rfl | (unfold State.take1; dsimp only; split <;> rfl)

@[simp] theorem State.stall_out (s : State) : s.stall.iss = { s.iss with dead := true } := rfl

end Sys2Proof.Machine
end

