-- ==== Sys2Proof/Laws/Operands.lean ====
section
/-!
SUPPORT. What the operand operations of a bundle can do: when the sources of a list can be read and what reading them leaves, when a
destination is barred, and what the latches, the pending results and the destinations leave of the device, the core and the context.
-/
namespace Sys2Proof.Machine

/-! ## The issuing core and context under an update -/

@[simp] theorem State.kc_upd (s : State) (f : Mach → Mach) : (s.upd f).kc = (f s.m).core s.iss.core := rfl
@[simp] theorem State.xc_upd (s : State) (f : Mach → Mach) : (s.upd f).xc = (f s.m).ctx s.iss.core s.iss.fw := rfl
@[simp] theorem State.kc_updK (s : State) (f : Core → Core) : (s.updK f).kc = f s.kc := Mach.core_updCore _ _ _
@[simp] theorem State.xc_updK (s : State) (f : Core → Core) : (s.updK f).xc = (f s.kc).ctx s.iss.fw := by
  simp [State.updK, State.kc, Mach.ctx]
@[simp] theorem State.xc_updX (s : State) (f : Ctx → Ctx) : (s.updX f).xc = f s.xc := Mach.ctx_updCtx _ _ _ _
@[simp] theorem State.kc_updX (s : State) (f : Ctx → Ctx) : (s.updX f).kc = s.kc.setCtx s.iss.fw (f s.xc) := Mach.core_updCtx _ _ _ _
theorem State.ctx_kc (s : State) : s.kc.ctx s.iss.fw = s.xc := rfl
theorem State.ctx_kp (s : State) : s.kp.ctx s.iss.fw = s.xp := rfl

@[simp] theorem Core.ctx_setCtx (k : Core) (fw : Bool) (x : Ctx) : (k.setCtx fw x).ctx fw = x := by cases fw <;> rfl
@[simp] theorem Core.ctx_setCtx_other (k : Core) (fw : Bool) (x : Ctx) : (k.setCtx fw x).ctx (!fw) = k.ctx (!fw) := by cases fw <;> rfl
@[simp] theorem Core.setCtx_ctx (k : Core) (fw : Bool) : k.setCtx fw (k.ctx fw) = k := by cases fw <;> rfl
@[simp] theorem Core.setCtx_setCtx (k : Core) (fw : Bool) (x y : Ctx) : (k.setCtx fw x).setCtx fw y = k.setCtx fw y := by cases fw <;> rfl

/-! ## Sources -/

/-- A list of sources can be read exactly when each of them can. -/
theorem State.firstStop_eq_none {s : State} {l : List Src} : s.firstStop l = none ↔ ∀ a ∈ l, s.srcStop a = none := by
  induction l with
  | nil => simp [State.firstStop]
  | cons a r ih =>
    simp only [State.firstStop, List.forall_mem_cons]
    cases s.srcStop a with
    | none => simpa using ih
    | some t => simp

/-- The first source that cannot be read decides how the bundle ends. -/
theorem State.firstStop_append {s t : State} {l r : List Src} {a : Src} (hl : ∀ b ∈ l, s.srcStop b = none) (ha : s.srcStop a = some t) :
    s.firstStop (l ++ a :: r) = some t := by
  induction l with
  | nil => simp [State.firstStop, ha]
  | cons b l ih =>
    have hb := hl b (List.mem_cons_self ..)
    simp only [List.cons_append, State.firstStop, hb]
    exact ih fun c hc => hl c (List.mem_cons_of_mem _ hc)

/-- With every source readable, the meaning goes on from the state that has read them. -/
theorem State.withSrcs_of_none {s : State} {l : List Src} (h : s.firstStop l = none) (k : State → Out) :
    s.withSrcs l k = k (l.foldl State.take1 s) := by simp [State.withSrcs, h]

/-- A source that cannot be read ends the bundle. -/
theorem State.withSrcs_of_some {s t : State} {l : List Src} (h : s.firstStop l = some t) (k : State → Out) : s.withSrcs l k = .next t := by
  simp [State.withSrcs, h]

/-- Reading sources goes on, or ends the bundle: the one way a meaning over sources can answer. -/
theorem State.withSrcs_cases (s : State) (l : List Src) (k : State → Out) :
    (s.firstStop l = none ∧ s.withSrcs l k = k (l.foldl State.take1 s)) ∨ ∃ t, s.firstStop l = some t ∧ s.withSrcs l k = .next t := by
  cases h : s.firstStop l with
  | none => exact .inl ⟨rfl, State.withSrcs_of_none h k⟩
  | some t => exact .inr ⟨t, rfl, State.withSrcs_of_some h k⟩

/-- Only a stream or a handle can keep a bundle from its effect. -/
theorem State.srcStop_eq_some {s t : State} {a : Src} (h : s.srcStop a = some t) :
    (∃ n, a = .q n ∧ (t = s.trap .regionIllegalOp 0 ∨ t = s.trap .engStreamUnbound 0 ∨ t = s.stall)) ∨
    ∃ u k, a = .handle u k ∧ t = s.illegal .illegalQueueUnderrun := by
  cases a <;> simp only [State.srcStop, reduceCtorEq] at h
  · refine .inl ⟨_, rfl, ?_⟩
    split at h
    · exact .inl (Option.some.inj h).symm
    · split at h
      · cases h
      · split at h
        · exact .inr (.inl (Option.some.inj h).symm)
        · split at h
          · exact .inr (.inr (Option.some.inj h).symm)
          · cases h
  · split at h
    · exact .inr ⟨_, _, rfl, (Option.some.inj h).symm⟩
    · cases h

/-- Reading one source takes an element of the stream it names, unless the bundle took it when it began to wait, and nothing else. -/
theorem State.take1_eq (s : State) (a : Src) : s.take1 a = s ∨ ∃ n, a = .q n ∧ s.take1 a = s.updX fun x =>
    { x with q := x.q.put n.toNat { x.stream n.toNat with fifo := (s.xp.stream n.toNat).fifo.tail } } := by
  cases a with
  | q n =>
    by_cases h : (s.xp.keptElem n.toNat).isSome
    · exact .inl (by simp [State.take1, h])
    · exact .inr ⟨n, rfl, by simp [State.take1, h]⟩
  | _ => exact .inl rfl

@[simp] theorem State.reads_pre (s : State) (l : List Src) : (l.foldl State.take1 s).pre = s.pre := by
  induction l generalizing s <;> simp [*]
@[simp] theorem State.reads_iss (s : State) (l : List Src) : (l.foldl State.take1 s).iss = s.iss := by
  induction l generalizing s <;> simp [*]
@[simp] theorem State.reads_agenda (s : State) (l : List Src) : (l.foldl State.take1 s).agenda = s.agenda := by
  induction l generalizing s <;> simp [*]
@[simp] theorem State.reads_cur (s : State) (l : List Src) : (l.foldl State.take1 s).cur = s.cur := by
  induction l generalizing s <;> simp [*]
@[simp] theorem State.reads_tickStep (s : State) (l : List Src) : (l.foldl State.take1 s).tickStep = s.tickStep := by
  induction l generalizing s <;> simp [*]

/-- Reading one source leaves the context but for its streams. -/
theorem State.take1_xc (s : State) (a : Src) : (s.take1 a).xc = { s.xc with q := (s.take1 a).xc.q } := by
  obtain h | ⟨n, rfl, h⟩ := s.take1_eq a <;> rw [h]
  simp
/-- Reading sources leaves the context but for its streams. -/
theorem State.reads_xc (s : State) (l : List Src) : (l.foldl State.take1 s).xc = { s.xc with q := (l.foldl State.take1 s).xc.q } := by
  induction l generalizing s with
  | nil => rfl
  | cons a r ih => rw [List.foldl_cons, ih, s.take1_xc a]
/-- Reading one source leaves the core but for its context. -/
theorem State.take1_kc (s : State) (a : Src) : (s.take1 a).kc = s.kc.setCtx s.iss.fw (s.take1 a).xc := by
  obtain h | ⟨n, rfl, h⟩ := s.take1_eq a <;> rw [h]
  · exact (Core.setCtx_ctx s.kc s.iss.fw).symm
  · simp
/-- Reading sources leaves the core but for its context. -/
theorem State.reads_kc (s : State) (l : List Src) : (l.foldl State.take1 s).kc = s.kc.setCtx s.iss.fw (l.foldl State.take1 s).xc := by
  induction l generalizing s with
  | nil => exact (Core.setCtx_ctx s.kc s.iss.fw).symm
  | cons a r ih => rw [List.foldl_cons, ih, s.take1_kc a, State.take1_iss, Core.setCtx_setCtx]

/-- Reading one source leaves the device but for its cores. -/
theorem State.take1_m (s : State) (a : Src) : (s.take1 a).m = { s.m with cores := (s.take1 a).m.cores } := by
  obtain h | ⟨n, rfl, h⟩ := s.take1_eq a <;> rw [h] <;> rfl
/-- Reading sources leaves the device but for its cores. -/
theorem State.reads_m (s : State) (l : List Src) : (l.foldl State.take1 s).m = { s.m with cores := (l.foldl State.take1 s).m.cores } := by
  induction l generalizing s with
  | nil => rfl
  | cons a r ih => rw [List.foldl_cons, ih, s.take1_m a]
theorem State.take1_core_other (s : State) (a : Src) {c : Nat} (h : c ≠ s.iss.core) : (s.take1 a).m.core c = s.m.core c := by
  obtain e | ⟨n, rfl, e⟩ := s.take1_eq a <;> rw [e]
  exact Mach.core_updCtx_other _ h _ _
theorem State.reads_core_other (s : State) (l : List Src) {c : Nat} (h : c ≠ s.iss.core) :
    (l.foldl State.take1 s).m.core c = s.m.core c := by
  induction l generalizing s with
  | nil => rfl
  | cons a r ih => rw [List.foldl_cons, ih _ (by simpa using h), s.take1_core_other a h]

/-- A stream that no source names keeps its elements. -/
theorem State.take1_stream_other (s : State) {a : Src} {n : BitVec 4} (h : a ≠ .q n) : (s.take1 a).xc.stream n.toNat = s.xc.stream n.toNat := by
  obtain e | ⟨j, rfl, e⟩ := s.take1_eq a <;> rw [e]
  have : n.toNat ≠ j.toNat := fun he => h (by rw [BitVec.eq_of_toNat_eq he])
  simp [Ctx.stream, Tab.get_put_other _ _ _ this]
theorem State.reads_stream_other (s : State) {l : List Src} {n : BitVec 4} (h : .q n ∉ l) :
    (l.foldl State.take1 s).xc.stream n.toNat = s.xc.stream n.toNat := by
  induction l generalizing s with
  | nil => rfl
  | cons a r ih =>
    rw [List.mem_cons, not_or] at h
    rw [List.foldl_cons, ih _ h.2, s.take1_stream_other (Ne.symm h.1)]

/-! ## Destinations -/

theorem State.withDests_of_none {s : State} {vd n : Nat} (h : s.clobbered vd n = none) (k : State → Out) : s.withDests vd n k = k s := by
  simp [State.withDests, h]
theorem State.withDests_of_some {s : State} {vd n v : Nat} (h : s.clobbered vd n = some v) (k : State → Out) :
    s.withDests vd n k = .next (s.trap .regionClobber (W v)) := by simp [State.withDests, h]

/-- Outside a region no destination is barred. -/
theorem State.clobbered_of_outside {s : State} (h : s.inRegion = false) (vd n : Nat) : s.clobbered vd n = none := by simp [State.clobbered, h]

@[simp] theorem State.put_discard (s : State) (v : Word) : s.put .discard v = s := rfl
theorem State.put_s (s : State) (n : BitVec 6) (v : Word) : s.put (.s n) v = s.updX fun x => x.setS n.toNat v := rfl
theorem State.put_p (s : State) (n : BitVec 4) (v : Word) : s.put (.p n) v = s.updX fun x => x.setP n.toNat (bitAt v.toNat 0) := rfl
theorem State.put_handle (s : State) (u : Fin 7) (v : Word) :
    s.put (.handle u) v = s.updX fun x => { x with rq := x.rq.put u.val (x.rqOf u.val ++ [v]) } := rfl
theorem State.put_m (s : State) (n : BitVec 3) (v : Word) : s.put (.m n) v = s.updK fun k => { k with m := k.m.put n.toNat v } := rfl
theorem State.put_latch (s : State) (u : Fin 6) (l : Bool) (v : Word) : s.put (.latch u l) v = s.putLate .scalar (.latch u l) v 0 := rfl

/-- Writing a destination leaves the device but for its cores. -/
theorem State.put_dev (s : State) (d : Dst) (v : Word) : (s.put d v).m = { s.m with cores := (s.put d v).m.cores } := by
  cases d <;> rfl
/-- Writing a destination leaves every other core. -/
theorem State.put_core_other (s : State) (d : Dst) (v : Word) {c : Nat} (h : c ≠ s.iss.core) : (s.put d v).m.core c = s.m.core c := by
  cases d <;> first
    | rfl
    | exact Mach.core_updCtx_other _ h _ _
    | exact Mach.core_updCore_other _ h _
/-- Writing a destination leaves the other context of the core. -/
theorem State.put_ctx_other (s : State) (d : Dst) (v : Word) : (s.put d v).kc.ctx (!s.iss.fw) = s.kc.ctx (!s.iss.fw) := by
  cases d <;> simp [State.put_s, State.put_p, State.put_handle, State.put_m, State.put_latch, State.putLate]
  rfl

end Sys2Proof.Machine
end

