-- ==== Sys2Proof/Laws/Form.lean ====
section
/-!
SUPPORT. The shared operations keep every memory in canonical form (log 2): one lemma for each operation that writes memory, a v register,
an accumulator bank, a microword or a pulp pool, and for the operations built on them. An update of any other field keeps the form by rfl.
-/
namespace Sys2Proof.Machine

/-! ## Tables of memories -/

/-- Reading a table of memories in canonical form gives a memory in canonical form. -/
theorem wf_get {t : Tab Mem} (h : (t.l.all fun e => e.2.wf) = true) (k : Nat) : (t.get Mem.empty k).wf = true :=
  Tab.get_of_all (p := Mem.wf) h rfl k

/-- A table of memories in canonical form stays one when a memory in canonical form is put into it. -/
theorem wf_put_all {t : Tab Mem} (h : (t.l.all fun e => e.2.wf) = true) (k : Nat) {d : Mem} (hd : d.wf = true) :
    ((t.put k d).l.all fun e => e.2.wf) = true := Tab.all_put h hd

/-! ## The parts of the form -/

/-- The memories of a core are in canonical form. A proposition of its own, so that no proof evaluates the form. -/
structure Core.InForm (k : Core) : Prop where
  spad : k.spad.wf = true
  v : (k.v.l.all fun e => e.2.wf) = true
  acc : (k.mx.acc.l.all fun e => e.2.wf) = true
  store : k.mx.store.wf = true

/-- Every memory of the device is in canonical form. A proposition of its own, so that no proof evaluates the form. -/
structure Mach.InForm (m : Mach) : Prop where
  cores : m.cores.wf = true
  each : ∀ e ∈ m.cores.l, e.2.InForm
  hbm : m.hbm.wf = true
  stackMems : (m.hbm.l.all fun e => e.2.wf) = true
  pool : m.pool.wf = true
  pools : (m.pool.l.all fun e => e.2.wf) = true
  host : m.hostMem.wf = true
  cxl : m.cxlMem.wf = true

/-- The form of a core, as the statements say it. -/
theorem Core.memWf_iff {k : Core} : k.memWf = true ↔ k.InForm := by
  simp only [Core.memWf, Bool.and_eq_true, and_assoc]
  exact ⟨fun ⟨a, b, c, d⟩ => ⟨a, b, c, d⟩, fun ⟨a, b, c, d⟩ => ⟨a, b, c, d⟩⟩

/-- The form of the device, as the statements say it. -/
theorem Mach.memWf_iff {m : Mach} : m.memWf = true ↔ m.InForm := by
  have e : (m.cores.l.all fun e => e.2.memWf) = true ↔ ∀ e ∈ m.cores.l, e.2.InForm := by
    rw [List.all_eq_true]
    exact forall₂_congr fun _ _ => Core.memWf_iff
  simp only [Mach.memWf, Bool.and_eq_true, and_assoc, e]
  exact ⟨fun ⟨a, b, c, d, e, f, g, i⟩ => ⟨a, b, c, d, e, f, g, i⟩, fun ⟨a, b, c, d, e, f, g, i⟩ => ⟨a, b, c, d, e, f, g, i⟩⟩

/-- The form of the device depends on its cores and its memories alone: an update of another field keeps it. -/
theorem Mach.InForm.of_eq {m n : Mach} (h : m.InForm) (hc : n.cores = m.cores) (hh : n.hbm = m.hbm) (hp : n.pool = m.pool)
    (ho : n.hostMem = m.hostMem) (hx : n.cxlMem = m.cxlMem) : n.InForm := by
  obtain ⟨a, b, c, d, e, f, g, i⟩ := h
  constructor
  · rw [hc]; exact a
  · rw [hc]; exact b
  · rw [hh]; exact c
  · rw [hh]; exact d
  · rw [hp]; exact e
  · rw [hp]; exact f
  · rw [ho]; exact g
  · rw [hx]; exact i

/-- The form of a core depends on its scratchpad, its v registers and its matrix unit alone. -/
theorem Core.InForm.of_eq {k n : Core} (h : k.InForm) (hs : n.spad = k.spad) (hv : n.v = k.v) (hx : n.mx = k.mx) : n.InForm := by
  obtain ⟨a, b, c, d⟩ := h
  constructor
  · rw [hs]; exact a
  · rw [hv]; exact b
  · rw [hx]; exact c
  · rw [hx]; exact d

theorem Core.inForm_reset : Core.reset.InForm := ⟨rfl, rfl, rfl, rfl⟩

/-- Each core of a device in form is in form, listed or not. -/
theorem Mach.inForm_core {m : Mach} (h : m.InForm) (c : Nat) : (m.core c).InForm := by
  have e : ∀ l : List (Nat × Core), (∀ e ∈ l, e.2.InForm) → (assocGet Core.reset c l).InForm := by
    intro l
    induction l with
    | nil => exact fun _ => Core.inForm_reset
    | cons a r ih =>
      intro hl
      obtain ⟨i, k⟩ := a
      unfold assocGet
      split
      · exact hl (i, k) (List.mem_cons_self ..)
      · exact ih fun e he => hl e (List.mem_cons_of_mem _ he)
  exact e _ h.each

theorem Mach.inForm_stack {m : Mach} (h : m.InForm) (d : Nat) : (m.stack d).wf = true := wf_get h.stackMems d

/-! ## Updates of a core -/

/-- What a list of pairs holds after a put: what was put, or what it held. -/
theorem mem_assocPut {α : Type} {k : Nat} {v : α} {l : List (Nat × α)} {e : Nat × α} (h : e ∈ assocPut k v l) : e = (k, v) ∨ e ∈ l := by
  induction l with
  | nil => exact .inl (List.mem_singleton.mp h)
  | cons a r ih =>
    obtain ⟨i, w⟩ := a
    unfold assocPut at h
    split at h
    · exact List.mem_cons.mp h
    · split at h
      · exact (List.mem_cons.mp h).imp id (List.mem_cons_of_mem _)
      · rcases List.mem_cons.mp h with h | h
        · exact .inr (h ▸ List.mem_cons_self ..)
        · exact (ih h).imp id (List.mem_cons_of_mem _)

theorem Mach.inForm_setCore {m : Mach} (h : m.InForm) (c : Nat) {k : Core} (hk : k.InForm) : (m.setCore c k).InForm := by
  refine ⟨Tab.wf_put h.cores c k, fun e he => ?_, h.hbm, h.stackMems, h.pool, h.pools, h.host, h.cxl⟩
  rcases mem_assocPut he with rfl | he
  · exact hk
  · exact h.each e he

theorem Mach.inForm_updCore {m : Mach} (h : m.InForm) (c : Nat) {f : Core → Core} (hf : ∀ k, k.InForm → (f k).InForm) :
    (m.updCore c f).InForm := Mach.inForm_setCore h c (hf _ (Mach.inForm_core h c))

theorem Core.inForm_setCtx {k : Core} (h : k.InForm) (fw : Bool) (x : Ctx) : (k.setCtx fw x).InForm := by
  cases fw <;> exact h.of_eq rfl rfl rfl

theorem Mach.inForm_updCtx {m : Mach} (h : m.InForm) (c : Nat) (fw : Bool) (f : Ctx → Ctx) : (m.updCtx c fw f).InForm :=
  Mach.inForm_updCore h c fun _ hk => Core.inForm_setCtx hk fw _

theorem assocWf_map {α β : Type} (f : α → β) {lo : Nat} {l : List (Nat × α)} :
    assocWf lo (l.map fun e => (e.1, f e.2)) = assocWf lo l := by
  induction l generalizing lo with
  | nil => rfl
  | cons e r ih => obtain ⟨i, v⟩ := e; simp only [List.map_cons, assocWf, ih]

theorem Mach.inForm_mapCores {m : Mach} (h : m.InForm) {f : Core → Core} (hf : ∀ k, k.InForm → (f k).InForm) : (m.mapCores f).InForm := by
  refine ⟨by simpa [Mach.mapCores, Tab.wf, assocWf_map] using h.cores, fun e he => ?_, h.hbm, h.stackMems, h.pool, h.pools, h.host, h.cxl⟩
  obtain ⟨a, ha, rfl⟩ := List.mem_map.mp he
  exact hf _ (h.each a ha)

/-- A fold keeps the form when each of its steps does. -/
theorem Mach.inForm_foldl {α : Type} {f : Mach → α → Mach} (hf : ∀ n a, n.InForm → (f n a).InForm) (l : List α) {m : Mach}
    (h : m.InForm) : (l.foldl f m).InForm := by
  induction l generalizing m with
  | nil => exact h
  | cons a r ih => exact ih (hf m a h)

/-! ## Writes to a memory -/

theorem Mach.inForm_hbmPut {m : Mach} (h : m.InForm) (d : Nat) {x : Mem} (hx : x.wf = true) : ({ m with hbm := m.hbm.put d x } : Mach).InForm :=
  { h with hbm := Tab.wf_put h.hbm d x, stackMems := wf_put_all h.stackMems d hx }

theorem Mach.inForm_hbmWrite {m : Mach} (h : m.InForm) (d off : Nat) (bs : List Byte) : (m.hbmWrite d off bs).InForm :=
  Mach.inForm_hbmPut h d (Mem.wf_write (wf_get h.stackMems d) off bs)

theorem Mach.inForm_spadWrite {m : Mach} (h : m.InForm) (c off : Nat) (bs : List Byte) : (m.spadWrite c off bs).InForm :=
  Mach.inForm_updCore h c fun _ hk => { hk with spad := Mem.wf_write hk.spad off bs }

theorem Mach.inForm_poolWrite {m : Mach} (h : m.InForm) (d off : Nat) (bs : List Byte) : (m.poolWrite d off bs).InForm :=
  { h with pool := Tab.wf_put h.pool d _, pools := wf_put_all h.pools d (Mem.wf_write (wf_get h.pools d) off bs) }

theorem Mach.inForm_hostWrite {m : Mach} (h : m.InForm) (a : Nat) (bs : List Byte) :
    ({ m with hostMem := m.hostMem.write a bs } : Mach).InForm := { h with host := Mem.wf_write h.host a bs }

theorem Mach.inForm_cxlWrite {m : Mach} (h : m.InForm) (a : Nat) (bs : List Byte) :
    ({ m with cxlMem := m.cxlMem.write a bs } : Mach).InForm := { h with cxl := Mem.wf_write h.cxl a bs }

theorem Mach.inForm_msix {m : Mach} (h : m.InForm) (v : Nat) : (m.msix v).InForm := by
  unfold Mach.msix
  repeat' split
  all_goals exact h.of_eq rfl rfl rfl rfl rfl

theorem Mach.inForm_peerRow {m : Mach} (h : m.InForm) (i a : Nat) (bs : List Byte) (fo : PeerFor) : (m.peerRow i a bs fo).InForm :=
  h.of_eq rfl rfl rfl rfl rfl

/-- A write at any home keeps the form. -/
theorem Mach.inForm_writePlace {m : Mach} (h : m.InForm) (p : Place) (bs : List Byte) : (m.writePlace p bs).InForm := by
  cases p with
  | spad c off => exact Mach.inForm_spadWrite h c off bs
  | hbm d off => exact Mach.inForm_hbmWrite h d off bs
  | host a => exact (Mach.inForm_hostWrite h a bs).of_eq rfl rfl rfl rfl rfl
  | cxl a => exact (Mach.inForm_cxlWrite h a bs).of_eq rfl rfl rfl rfl rfl
  | peer i a => exact Mach.inForm_peerRow h i a bs .store

theorem Mach.inForm_readPlace {m : Mach} (h : m.InForm) (p : Place) (n : Nat) : (m.readPlace p n).1.InForm := by
  cases p <;> exact h.of_eq rfl rfl rfl rfl rfl

theorem Mach.inForm_cachedRead {m : Mach} (h : m.InForm) (c : Nat) (p : Place) (n : Nat) : (m.cachedRead c p n).1.InForm := by
  unfold Mach.cachedRead
  split
  · dsimp only
    split
    · exact h
    · split
      · exact h.of_eq rfl rfl rfl rfl rfl
      · dsimp only
        refine Mach.inForm_updCore (f := fun k => { k with dcache := _ }) ?_ c fun k hk => hk.of_eq rfl rfl rfl
        split
        · exact h.of_eq rfl rfl rfl rfl rfl
        · exact h
  · exact Mach.inForm_readPlace h _ n

theorem Mach.inForm_cachedWrite {m : Mach} (h : m.InForm) (c : Nat) (p : Place) (bs : List Byte) : (m.cachedWrite c p bs).InForm := by
  unfold Mach.cachedWrite
  dsimp only
  split
  · refine Mach.inForm_updCore (Mach.inForm_writePlace h _ bs) c fun k hk => ?_
    split
    · exact hk.of_eq rfl rfl rfl
    · exact hk
  · exact Mach.inForm_writePlace h _ bs

/-! ## Translation -/

theorem Mach.inForm_tickNonce {m : Mach} (h : m.InForm) : m.tickNonce.InForm := h.of_eq rfl rfl rfl rfl rfl
theorem Mach.inForm_tlbAdd {m : Mach} (h : m.InForm) (t : TlbEnt) : (m.tlbAdd t).InForm := h.of_eq rfl rfl rfl rfl rfl
theorem Mach.inForm_tlbDrop {m : Mach} (h : m.InForm) (t : TlbEnt) : (m.tlbDrop t).InForm := h.of_eq rfl rfl rfl rfl rfl
theorem Mach.inForm_tabPut {m : Mach} (h : m.InForm) (asid ia lvl e : Nat) : (m.tabPut asid ia lvl e).InForm := h.of_eq rfl rfl rfl rfl rfl

theorem Mach.inForm_noteLine {m : Mach} (h : m.InForm) (asid : Nat) (lf : Leaf) : (m.noteLine asid lf).InForm := by
  unfold Mach.noteLine
  split
  · exact h
  · exact h.of_eq rfl rfl rfl rfl rfl

theorem Mach.inForm_noteTabs {m : Mach} (h : m.InForm) (asid ia : Nat) : (m.noteTabs asid ia).InForm := by
  unfold Mach.noteTabs
  split
  · exact h
  · dsimp only
    split
    · exact Mach.inForm_tabPut (Mach.inForm_tabPut h _ _ _ _) _ _ _ _
    · exact Mach.inForm_tabPut h _ _ _ _

theorem Mach.inForm_keepLeaf {m : Mach} (h : m.InForm) (held : Option TlbEnt) (set : Bool) (asid ia : Nat) (lf : Leaf) :
    (m.keepLeaf held set asid ia lf).InForm := by
  unfold Mach.keepLeaf
  split
  · split
    · exact Mach.inForm_tlbAdd h _
    · exact h
  · exact Mach.inForm_tlbAdd h _

theorem Mach.inForm_useLeaf {m : Mach} (h : m.InForm) (held : Option TlbEnt) (asid ia : Nat) (acc : Acc) (lf : Leaf) :
    (m.useLeaf held asid ia acc lf).1.InForm := by
  unfold Mach.useLeaf
  split
  · exact h
  · have h1 : (if leafTouched acc lf.val = lf.val then m
        else m.hbmWrite lf.die lf.off (bytesOfNat 8 (leafTouched acc lf.val))).InForm := by
      split
      · exact h
      · exact Mach.inForm_hbmWrite h _ _ _
    dsimp only
    generalize (if leafTouched acc lf.val = lf.val then m else m.hbmWrite lf.die lf.off (bytesOfNat 8 (leafTouched acc lf.val))) = m1 at h1
    have h2 := Mach.inForm_keepLeaf h1 held (leafTouched acc lf.val != lf.val) asid ia { lf with val := leafTouched acc lf.val }
    revert h2
    generalize m1.keepLeaf held (leafTouched acc lf.val != lf.val) asid ia { lf with val := leafTouched acc lf.val } = m2
    intro h2
    split
    · split
      · exact h2
      · dsimp only
        split
        · exact Mach.inForm_noteLine h2 _ _
        · exact h2
    · split <;> exact h2
    · split
      · exact h2
      · split <;> exact h2

theorem Mach.inForm_walkAny {m : Mach} (h : m.InForm) (asid ia : Nat) : (m.walkAny asid ia).1.InForm := by
  unfold Mach.walkAny
  dsimp only
  repeat' split
  · exact Mach.inForm_noteTabs h _ _
  · exact Mach.inForm_tickNonce h
  · exact Mach.inForm_noteTabs (Mach.inForm_tickNonce h) _ _
  · exact Mach.inForm_tickNonce h
  · exact Mach.inForm_noteTabs (Mach.inForm_tickNonce h) _ _

theorem Mach.inForm_walkUse {m : Mach} (h : m.InForm) (asid ia : Nat) (acc : Acc) : (m.walkUse asid ia acc).1.InForm := by
  have h1 := Mach.inForm_walkAny h asid ia
  unfold Mach.walkUse
  split
  · next e => rw [e] at h1; exact h1
  · next e => rw [e] at h1; exact Mach.inForm_useLeaf h1 _ _ _ _ _

/-- A translation keeps the form. -/
theorem Mach.inForm_translate {m : Mach} (h : m.InForm) (asid ia : Nat) (acc : Acc) : (m.translate asid ia acc).1.InForm := by
  unfold Mach.translate
  split
  · exact h
  · split
    · exact Mach.inForm_walkUse h _ _ _
    · dsimp only
      repeat' split
      · exact Mach.inForm_walkUse (Mach.inForm_tlbDrop h _) _ _ _
      · exact Mach.inForm_useLeaf h _ _ _ _ _
      · exact Mach.inForm_walkUse (Mach.inForm_tlbDrop h _) _ _ _
      · exact Mach.inForm_useLeaf (Mach.inForm_tickNonce h) _ _ _ _ _
      · exact Mach.inForm_walkUse (Mach.inForm_tlbDrop (Mach.inForm_tickNonce h) _) _ _ _

/-! ## Logs and the firmware's address space -/

theorem Mach.inForm_logPut {m : Mach} (h : m.InForm) (lg : Log) (ws : List Word) : (m.logPut lg ws).1.InForm := by
  unfold Mach.logPut
  dsimp only
  split
  · exact h
  · exact Mach.inForm_hbmWrite h _ _ _

theorem Mach.inForm_logViol {m : Mach} (h : m.InForm) (v : Viol) : (m.logViol v).InForm := by
  unfold Mach.logViol
  have h1 := Mach.inForm_logPut h m.vl
  refine Mach.inForm_msix ?_ 1
  exact (h1 _).of_eq rfl rfl rfl rfl rfl

theorem Mach.inForm_logErr {m : Mach} (h : m.InForm) (code kind : Nat) (e : ErrAt) : (m.logErr code kind e).InForm := by
  unfold Mach.logErr
  have h1 := Mach.inForm_logPut h m.el
  refine Mach.inForm_msix ?_ 0
  exact (h1 _).of_eq rfl rfl rfl rfl rfl

theorem Mach.inForm_fwWriteRows {m : Mach} (h : m.InForm) (ia : Nat) (rows : List (List Byte)) : (m.fwWriteRows ia rows).InForm := by
  induction rows generalizing m ia with
  | nil => exact h
  | cons row r ih =>
    unfold Mach.fwWriteRows
    refine ih ?_ _
    have ht := Mach.inForm_translate h 0 ia .store
    split
    · next e => rw [e] at ht; exact Mach.inForm_writePlace ht _ _
    · next e => rw [e] at ht; exact ht

theorem Mach.inForm_fwWrite {m : Mach} (h : m.InForm) (ia : Nat) (bs : List Byte) : (m.fwWrite ia bs).InForm :=
  Mach.inForm_fwWriteRows h _ _

/-! ## Waits -/

theorem Mach.inForm_updOwner {m : Mach} (h : m.InForm) (o : Owner) (f : Ctx → Ctx) : (m.updOwner o f).InForm := by
  unfold Mach.updOwner
  split
  · exact Mach.inForm_updCtx h _ _ _
  · split
    · exact h.of_eq rfl rfl rfl rfl rfl
    · exact h

theorem Mach.inForm_serveAway {m : Mach} (h : m.InForm) (x : SuspMember) (rs : List (Nat × Word)) : (m.serveAway x rs).InForm :=
  Mach.inForm_fwWrite (Mach.inForm_foldl (fun _ _ hn => Mach.inForm_fwWrite hn _ _) rs h) _ _

theorem Mach.inForm_unqueue {m : Mach} (h : m.InForm) (o : Owner) (kept : Bool) : (m.unqueue o kept).InForm := h.of_eq rfl rfl rfl rfl rfl
theorem Mach.inForm_markKept {m : Mach} (h : m.InForm) (o : Owner) (kept : Bool) : (m.markKept o kept).InForm := h.of_eq rfl rfl rfl rfl rfl

theorem Mach.inForm_serveWait {m : Mach} (h : m.InForm) (w : Waiter) (vs : List Word) : (m.serveWait w vs).InForm := by
  have h1 := Mach.inForm_unqueue (Mach.inForm_updOwner h w.who fun x => x.updWait w.kept fun y => { y with served := some vs }) w.who w.kept
  unfold Mach.serveWait
  dsimp only
  split
  · split
    · exact h1
    · exact Mach.inForm_serveAway (Mach.inForm_updOwner h1 _ _) _ _
  · exact h1

theorem Mach.inForm_arriveBytes {m : Mach} (h : m.InForm) (thread c e off : Nat) (bs : List Byte) : (m.arriveBytes thread c e off bs).InForm :=
  h.of_eq rfl rfl rfl rfl rfl

theorem Mach.inForm_alsoFelt {m : Mach} (h : m.InForm) (fw : Bool) (c off : Nat) (bs : List Byte) : (m.alsoFelt fw c off bs).InForm := by
  unfold Mach.alsoFelt
  dsimp only
  split
  · exact Mach.inForm_arriveBytes h _ _ _ _ _
  · exact h

theorem Mach.inForm_objFelt {m : Mach} (h : m.InForm) (fw : Bool) (p : Place) (bs : List Byte) : (m.objFelt fw p bs).InForm := by
  cases p
  · exact Mach.inForm_alsoFelt h _ _ _ _
  all_goals exact h

theorem Mach.inForm_wakeOne {p : Mach × List Place} (h : p.1.InForm) (w : Waiter) : (Mach.wakeOne p w).1.InForm := by
  unfold Mach.wakeOne
  repeat' (first | split | dsimp only)
  all_goals first
    | with_reducible exact h
    | with_reducible exact Mach.inForm_serveWait h _ _
    | with_reducible exact Mach.inForm_serveWait (Mach.inForm_objFelt (Mach.inForm_writePlace h _ _) _ _ _) _ _

theorem Mach.inForm_wakePass (n : Nat) {m : Mach} (h : m.InForm) : (Mach.wakePass n m).InForm := by
  induction n generalizing m with
  | zero => exact h
  | succ n ih =>
    refine ih ?_
    have : ∀ (l : List Waiter) (p : Mach × List Place), p.1.InForm → (l.foldl Mach.wakeOne p).1.InForm := by
      intro l
      induction l with
      | nil => exact fun _ hp => hp
      | cons w r ihl => exact fun p hp => ihl _ (Mach.inForm_wakeOne hp w)
    exact this _ _ h

theorem Mach.inForm_wakeObjs {m : Mach} (h : m.InForm) : m.wakeObjs.InForm := by
  unfold Mach.wakeObjs
  split
  · exact h
  · exact Mach.inForm_wakePass _ h

/-! ## Results and stores of a context -/

theorem Mach.inForm_putDst {m : Mach} (h : m.InForm) (c : Nat) (fw : Bool) (d : Dst) (v : Word) : (m.putDst c fw d v).InForm := by
  cases d <;> simp only [Mach.putDst]
  · exact Mach.inForm_updCtx h c fw _
  · exact Mach.inForm_updCtx h c fw _
  · exact Mach.inForm_updCtx h c fw _
  · exact Mach.inForm_updCore h c fun _ hk => hk.of_eq rfl rfl rfl
  · exact h
  · exact Mach.inForm_updCtx h c fw _

theorem Mach.inForm_finishPend {m : Mach} (h : m.InForm) (c : Nat) (fw : Bool) (p : Pend) : (m.finishPend c fw p).InForm := by
  unfold Mach.finishPend Mach.orFlags
  exact Mach.inForm_updCtx (Mach.inForm_putDst h c fw _ _) c fw _

theorem Mach.inForm_drainPend {m : Mach} (h : m.InForm) (c : Nat) (fw : Bool) : (m.drainPend c fw).InForm := by
  unfold Mach.drainPend
  exact Mach.inForm_updCtx (Mach.inForm_foldl (fun _ _ hn => Mach.inForm_finishPend hn c fw _) _ h) c fw _

theorem Mach.inForm_drainEpu {m : Mach} (h : m.InForm) (c : Nat) (fw : Bool) : (m.drainEpu c fw).InForm := by
  unfold Mach.drainEpu
  split
  · split
    · exact Mach.inForm_updCore (Mach.inForm_putDst h c fw _ _) c fun _ hk => hk.of_eq rfl rfl rfl
    · exact h
  · exact h

theorem Mach.inForm_drainScalars {m : Mach} (h : m.InForm) (c : Nat) (fw : Bool) : (m.drainScalars c fw).InForm :=
  Mach.inForm_drainEpu (Mach.inForm_drainPend h c fw) c fw

theorem Mach.inForm_rowEnd {m : Mach} (h : m.InForm) (c : Nat) (fw : Bool) : (m.rowEnd c fw).InForm :=
  Mach.inForm_updCore h c fun _ hk => hk.of_eq rfl rfl rfl

theorem Mach.inForm_performStore {m : Mach} (h : m.InForm) (c : Nat) (fw : Bool) : (m.performStore c fw).InForm := by
  unfold Mach.performStore
  split
  · exact h
  · exact Mach.inForm_alsoFelt (Mach.inForm_spadWrite (Mach.inForm_updCtx h c fw _) _ _ _) _ _ _ _

theorem Mach.inForm_performStores (n : Nat) {m : Mach} (h : m.InForm) (c : Nat) (fw : Bool) : (m.performStores c fw n).InForm := by
  induction n generalizing m with
  | zero => exact h
  | succ n ih => exact ih (Mach.inForm_wakeObjs (Mach.inForm_performStore h c fw))

theorem Mach.inForm_drainStores {m : Mach} (h : m.InForm) (c : Nat) (fw : Bool) : (m.drainStores c fw).InForm :=
  Mach.inForm_performStores _ h c fw

/-! ## Held faults and tasks -/

theorem Mach.inForm_logLost {m : Mach} (h : m.InForm) (c : Nat) (fw : Bool) (code val : Word) : (m.logLost c fw code val).InForm :=
  Mach.inForm_logErr h _ _ _

theorem Mach.inForm_countFault {m : Mach} (h : m.InForm) (o : Owner) : (m.countFault o).InForm := by
  cases o <;> simp only [Mach.countFault]
  all_goals first | exact h | exact h.of_eq rfl rfl rfl rfl rfl

theorem Mach.inForm_holdAt {m : Mach} (h : m.InForm) (c : Nat) (fw : Bool) (code : Nat) (val : Word) : (m.holdAt c fw code val).InForm := by
  unfold Mach.holdAt
  dsimp only
  split
  · split
    · exact Mach.inForm_updCtx h c fw _
    · exact Mach.inForm_logLost (Mach.inForm_updCtx h c fw _) _ _ _ _
  · exact Mach.inForm_countFault (Mach.inForm_logLost h _ _ _ _) _
  · exact Mach.inForm_countFault (Mach.inForm_logLost h _ _ _ _) _
  · split
    · exact Mach.inForm_updCtx h c fw _
    · exact Mach.inForm_logLost (Mach.inForm_updCtx h c fw _) _ _ _ _

theorem Mach.inForm_holdAbsent {m : Mach} (h : m.InForm) (mem : SuspMember) (code : Nat) (val : Word) : (m.holdAbsent mem code val).InForm := by
  unfold Mach.holdAbsent
  dsimp only
  split
  · refine Mach.inForm_fwWrite (Mach.inForm_fwWrite ?_ _ _) _ _
    exact h.of_eq rfl rfl rfl rfl rfl
  · refine Mach.inForm_logLost (Mach.inForm_fwWrite ?_ _ _) _ _ _ _
    exact h.of_eq rfl rfl rfl rfl rfl

/-- A fault held against its owner keeps the form, wherever the owner is. -/
theorem Mach.inForm_holdFault {m : Mach} (h : m.InForm) (o : Owner) (code : Nat) (val : Word) : (m.holdFault o code val).InForm := by
  unfold Mach.holdFault
  split
  · exact Mach.inForm_holdAt h _ _ _ _
  · split
    · split
      · split
        · exact Mach.inForm_countFault (Mach.inForm_logLost h _ _ _ _) _
        · exact Mach.inForm_holdAbsent h _ _ _
      · exact Mach.inForm_countFault (Mach.inForm_logLost h _ _ _ _) _
    · exact Mach.inForm_logLost h _ _ _ _
    · exact Mach.inForm_logLost h _ _ _ _
    · exact Mach.inForm_logLost h _ _ _ _

theorem Mach.inForm_dropEnt {m : Mach} (h : m.InForm) (e : Option Nat) : (m.dropEnt e).InForm := by
  cases e
  · exact h
  · exact h.of_eq rfl rfl rfl rfl rfl

theorem Mach.inForm_updWq {m : Mach} (h : m.InForm) (q : Nat) (f : WQ → WQ) : (m.updWq q f).InForm := h.of_eq rfl rfl rfl rfl rfl

theorem Mach.inForm_wqUnshift {m : Mach} (h : m.InForm) (q : Nat) (it : QItem) : (m.wqUnshift q it).InForm :=
  Mach.inForm_poolWrite (Mach.inForm_updWq h q _) _ _ _

theorem Mach.inForm_wqSettle {m : Mach} (h : m.InForm) (q : Nat) : (m.wqSettle q).InForm := by
  unfold Mach.wqSettle
  dsimp only
  split
  · exact h
  · split
    · exact Mach.inForm_wqUnshift (Mach.inForm_updWq h q _) _ _
    · exact h

theorem Mach.inForm_requeue {m : Mach} (h : m.InForm) (t : TaskRef) (hold : Option (Nat × Nat)) : (m.requeue t hold).1.InForm := by
  unfold Mach.requeue
  dsimp only
  split
  · exact Mach.inForm_dropEnt h _
  · refine Mach.inForm_wqSettle (Mach.inForm_updWq ?_ _ _) _
    exact h.of_eq rfl rfl rfl rfl rfl

theorem Mach.inForm_endTask {m : Mach} (h : m.InForm) (c : Nat) (fw : Bool) (t : TaskRef) (again : Bool) (hold : Option (Nat × Nat)) :
    (m.endTask c fw t again hold).InForm := by
  unfold Mach.endTask
  cases again
  · exact Mach.inForm_updCtx (Mach.inForm_dropEnt h _) _ _ _
  · exact Mach.inForm_updCtx (Mach.inForm_requeue h t hold) _ _ _

theorem Mach.inForm_endRegionTask {m : Mach} (h : m.InForm) (c : Nat) (fw again : Bool) (hold : Option (Nat × Nat)) :
    (m.endRegionTask c fw again hold).InForm := by
  unfold Mach.endRegionTask
  split
  · exact h
  · exact Mach.inForm_endTask h _ _ _ _ _

theorem Mach.inForm_endTasks {m : Mach} (h : m.InForm) (c : Nat) (fw : Bool) : (m.endTasks c fw).InForm :=
  Mach.inForm_foldl (fun _ _ hn => Mach.inForm_endTask hn _ _ _ _ _) _ h

theorem Mach.inForm_dropRegionCopies {m : Mach} (h : m.InForm) (r : Option Region) : (m.dropRegionCopies r).InForm := by
  unfold Mach.dropRegionCopies
  split
  · exact h
  · exact h.of_eq rfl rfl rfl rfl rfl

theorem Mach.inForm_discardRegion {m : Mach} (h : m.InForm) (c : Nat) (fw : Bool) : (m.discardRegion c fw).InForm := by
  unfold Mach.discardRegion
  split
  · exact h
  · exact Mach.inForm_dropRegionCopies (Mach.inForm_updCtx h c fw _) _

/-! ## Killing a context and taking a trap -/

theorem Mach.inForm_updLaunch {m : Mach} (h : m.InForm) (l : Nat) (f : Launch → Launch) : (m.updLaunch l f).InForm := h.of_eq rfl rfl rfl rfl rfl

theorem Mach.inForm_withdraw {m : Mach} (h : m.InForm) (o : Owner) : (m.withdraw o).InForm := h.of_eq rfl rfl rfl rfl rfl

theorem Mach.inForm_logQueued {m : Mach} (h : m.InForm) (c : Nat) (fw : Bool) : (m.logQueued c fw).InForm := by
  unfold Mach.logQueued
  dsimp only
  refine Mach.inForm_updCtx (Mach.inForm_updCore ?_ _ fun k hk => ?_) _ _ _
  · exact Mach.inForm_foldl (fun _ _ hn => Mach.inForm_logLost hn _ _ _ _) _
      (Mach.inForm_foldl (fun _ _ hn => Mach.inForm_logLost hn _ _ _ _) _ h)
  · exact ⟨hk.spad, hk.v, hk.acc, hk.store⟩

theorem Mach.inForm_takeBack {m : Mach} (h : m.InForm) (l : Launch) : (m.takeBack l).InForm := by
  have h1 : (m.mapCores fun k =>
      { k with shadow := k.shadow.filter fun s => s.launch != l.key,
               cands := k.cands.filter fun x => match x.what with
                 | .launch s => s.launch != l.key
                 | .team _ _ => true }).InForm := Mach.inForm_mapCores h fun _ hk => hk.of_eq rfl rfl rfl
  exact h1.of_eq rfl rfl rfl rfl rfl

theorem Mach.inForm_disown {m : Mach} (h : m.InForm) (c : Nat) : (m.disown c).InForm := by
  unfold Mach.disown
  dsimp only
  refine Mach.inForm_updCore ?_ c ?_
  · exact h.of_eq rfl rfl rfl rfl rfl
  · exact fun k hk => ⟨hk.spad, hk.v, hk.acc, hk.store⟩

theorem Mach.inForm_restartFw {m : Mach} (h : m.InForm) (c : Nat) : (m.restartFw c).InForm := by
  unfold Mach.restartFw
  dsimp only
  exact Mach.inForm_foldl (fun _ _ hn => Mach.inForm_takeBack hn _) _
    (Mach.inForm_updCore (Mach.inForm_rowEnd (Mach.inForm_disown (Mach.inForm_withdraw (Mach.inForm_logQueued h _ _) _) _) _ _) _
      fun _ hk => hk.of_eq rfl rfl rfl)

theorem Mach.inForm_deadTeam {m : Mach} (h : m.InForm) (l t reason : Nat) : (m.deadTeam l t reason).InForm := by
  have h1 : (m.mapCores fun k => { k with cands := k.cands.filter fun x => x.what != .team l t }).InForm :=
    Mach.inForm_mapCores h fun _ hk => hk.of_eq rfl rfl rfl
  unfold Mach.deadTeam
  dsimp only
  split
  · exact h1
  · split
    · refine Mach.InForm.of_eq (Mach.inForm_foldl (fun n x hn => Mach.inForm_withdraw hn _) _ (Mach.inForm_foldl (fun n x hn => ?_) _ h1))
        rfl rfl rfl rfl rfl
      exact Mach.inForm_foldl (fun _ _ hn => Mach.inForm_logLost hn _ _ _ _) _ (Mach.inForm_dropRegionCopies
        (Mach.inForm_foldl (fun _ _ hn => Mach.inForm_requeue hn _ _) _ (Mach.inForm_logErr hn _ _ _)) _)
    · exact h1.of_eq rfl rfl rfl rfl rfl

/-- Killing a context keeps the form. -/
theorem Mach.inForm_kill {m : Mach} (h : m.InForm) (c : Nat) (fw : Bool) (reason third : Nat) : (m.kill c fw reason third).InForm := by
  unfold Mach.kill
  dsimp only
  have h0 := Mach.inForm_rowEnd (Mach.inForm_drainStores (Mach.inForm_drainScalars h c fw) c fw) c fw
  generalize ((m.drainScalars c fw).drainStores c fw).rowEnd c fw = m0 at h0
  have h3 := Mach.inForm_logQueued (Mach.inForm_discardRegion (Mach.inForm_endTasks (Mach.inForm_withdraw
    (Mach.inForm_logErr h0 reason kKilled { fw := fw, loc := c, info := killRecOf (m0.ctx c fw) reason third }) (m0.ownerOf c fw)) c fw) c fw)
    c fw
  generalize Mach.logQueued _ c fw = m3 at h3
  have h4 := fun f => Mach.inForm_updCtx h3 c fw f
  have h5 : ∀ (l i : Nat) (f g : Launch → Launch) (o : Option Launch) (n : Mach) (k : Launch → Nat), n.InForm →
      (((match o with
        | some la => (n.updLaunch l f).deadTeam l (k la) (Cause.code .ctxTeamKilled)
        | none => n.updLaunch l f).updCore c fun k => { k with switchTo := false, stop := none }).updLaunch l g).InForm := by
    intro l i f g o n k hn
    refine Mach.inForm_updLaunch (Mach.inForm_updCore ?_ _ ?_) _ _
    · split
      · exact Mach.inForm_deadTeam (Mach.inForm_updLaunch hn _ _) _ _ _
      · exact Mach.inForm_updLaunch hn _ _
    · exact fun k hk => hk.of_eq rfl rfl rfl
  split
  · refine Mach.inForm_restartFw ?_ _
    split
    · next l i _ => exact h5 l i _ _ _ _ (fun la => la.teamOf i) (h4 _)
    · exact h4 _
  · split
    · next l i _ => exact h5 l i _ _ _ _ (fun la => la.teamOf i) (h4 _)
    · exact h4 _

/-- Taking a trap keeps the form, whether the handler runs or the context is killed. -/
theorem Mach.inForm_takeTrap {m : Mach} (h : m.InForm) (c : Nat) (fw : Bool) (flags : Word) (code : Nat) (epc val : Word) :
    (m.takeTrap c fw flags code epc val).InForm := by
  have h1 := Mach.inForm_updCtx (Mach.inForm_rowEnd (Mach.inForm_drainScalars h c fw) c fw) c fw fun x =>
    { x.leaveWait with resp := none, peerSt := none }
  unfold Mach.takeTrap
  dsimp only
  split
  · exact Mach.inForm_kill h1 _ _ _ _
  · split
    · exact Mach.inForm_kill h1 _ _ _ _
    · exact Mach.inForm_updCtx h1 _ _ _

theorem Mach.inForm_abortRegion {m : Mach} (h : m.InForm) (c : Nat) (fw : Bool) (t : Trp) (ia : Nat) : (m.abortRegion c fw t ia).InForm := by
  unfold Mach.abortRegion
  dsimp only
  split
  · exact h
  · have h2 := fun again hold => Mach.inForm_discardRegion (Mach.inForm_endRegionTask h c fw again hold) c fw
    split
    · exact Mach.inForm_updCtx (h2 _ _) c fw _
    · refine Mach.inForm_takeTrap (Mach.inForm_updCtx (Mach.inForm_updCore (h2 _ _) c ?_) c fw _) c fw _ _ _ _
      exact fun _ hk => hk.of_eq rfl rfl rfl

theorem Mach.inForm_rewait {m : Mach} (h : m.InForm) (c : Nat) (fw : Bool) : (m.rewait c fw).InForm := by
  unfold Mach.rewait
  dsimp only
  split
  · exact h
  · split
    · exact Mach.inForm_markKept (Mach.inForm_updCtx h c fw _) _ _
    · exact Mach.inForm_unqueue (Mach.inForm_updCtx h c fw _) _ _

theorem Mach.inForm_keepWait {m : Mach} (h : m.InForm) (c : Nat) (fw : Bool) : (m.keepWait c fw).InForm := by
  unfold Mach.keepWait
  dsimp only
  split
  · exact h
  · exact Mach.inForm_markKept (Mach.inForm_updCtx h c fw _) _ _

theorem Mach.inForm_closeLevel {m : Mach} (h : m.InForm) (c : Nat) (fw : Bool) : (m.closeLevel c fw).InForm := by
  unfold Mach.closeLevel
  dsimp only
  have h1 := fun f => Mach.inForm_updCtx h c fw f
  split
  · exact Mach.inForm_takeTrap (h1 _) c fw _ _ _ _
  · split
    · exact Mach.inForm_rewait (h1 _) c fw
    · exact h1 _

/-! ## How a bundle ends, and its operands

Each operation keeps the form of both states of the device that a bundle in issue holds. -/

/-- Both states of the device, before the bundle and with its effects so far, are in canonical form. -/
structure State.InForm (s : State) : Prop where
  pre : s.pre.InForm
  m : s.m.InForm

theorem State.inForm_updK {s : State} (h : s.InForm) {f : Core → Core} (hf : ∀ k, k.InForm → (f k).InForm) : (s.updK f).InForm :=
  ⟨h.pre, Mach.inForm_updCore h.m _ hf⟩

theorem State.inForm_updX {s : State} (h : s.InForm) (f : Ctx → Ctx) : (s.updX f).InForm := ⟨h.pre, Mach.inForm_updCtx h.m _ _ f⟩

theorem State.inForm_upd {s : State} (h : s.InForm) {f : Mach → Mach} (hf : (f s.m).InForm) : (s.upd f).InForm := ⟨h.pre, hf⟩

theorem State.inForm_stall {s : State} (h : s.InForm) : s.stall.InForm := ⟨h.pre, h.pre⟩

theorem State.inForm_trap {s : State} (h : s.InForm) (c : Cause) (v : Word) : (s.trap c v).InForm :=
  ⟨h.pre, Mach.inForm_takeTrap h.pre _ _ _ _ _ _⟩

theorem State.inForm_illegal {s : State} (h : s.InForm) (c : Cause) : (s.illegal c).InForm := State.inForm_trap h c _

theorem State.inForm_faultFrom {s : State} (h : s.InForm) {b : Mach} (hb : b.InForm) (t : Trp) (ia : Nat) : (s.faultFrom b t ia).InForm := by
  unfold State.faultFrom
  split
  · refine ⟨h.pre, Mach.inForm_abortRegion ?_ _ _ _ _⟩
    split
    · exact Mach.inForm_logViol hb _
    · exact hb
  · refine ⟨h.pre, ?_⟩
    dsimp only
    exact Mach.inForm_updCtx hb _ _ _

theorem State.inForm_memFault {s : State} (h : s.InForm) (t : Trp) (ia : Nat) : (s.memFault t ia).InForm :=
  State.inForm_faultFrom h h.pre t ia

/-- A fault of an access leaves what its walk has done, and nothing else of the bundle. -/
theorem State.inForm_accFault {s : State} (h : s.InForm) (va ia : Nat) (acc : Acc) (c : Cause) : (s.accFault va ia acc c).InForm :=
  State.inForm_faultFrom h (Mach.inForm_translate h.pre _ _ _) _ _

theorem State.inForm_after {s : State} (h : s.InForm) (c : Cause) (v : Word) : (s.after c v).InForm := ⟨h.pre, h.m⟩

theorem State.inForm_srcStop {s t : State} (h : s.InForm) {a : Src} (ht : s.srcStop a = some t) : t.InForm := by
  unfold State.srcStop at ht
  repeat' split at ht
  all_goals cases ht
  · exact State.inForm_trap h _ _
  · exact State.inForm_trap h _ _
  · exact State.inForm_stall h
  · exact State.inForm_illegal h _

theorem State.inForm_firstStop {s t : State} (h : s.InForm) {l : List Src} (ht : s.firstStop l = some t) : t.InForm := by
  induction l with
  | nil => cases ht
  | cons a r ih =>
    unfold State.firstStop at ht
    split at ht
    · next e => exact State.inForm_srcStop h (e.trans ht)
    · exact ih ht

theorem State.inForm_take1 {s : State} (h : s.InForm) (a : Src) : (s.take1 a).InForm := by
  obtain e | ⟨n, rfl, e⟩ := s.take1_eq a <;> rw [e]
  · exact h
  · exact State.inForm_updX h _

theorem State.inForm_reads {s : State} (h : s.InForm) (l : List Src) : (l.foldl State.take1 s).InForm := by
  induction l generalizing s with
  | nil => exact h
  | cons a r ih => exact ih (State.inForm_take1 h a)

/-- A meaning over sources keeps the form when what it does with them keeps it. -/
theorem State.inForm_withSrcs {s t : State} (h : s.InForm) {l : List Src} {k : State → Out} (ht : s.withSrcs l k = .next t)
    (hk : ∀ u, u.InForm → k u = .next t → t.InForm) : t.InForm := by
  rcases State.withSrcs_cases s l k with ⟨_, e⟩ | ⟨u, hu, e⟩
  · exact hk _ (State.inForm_reads h l) (e ▸ ht)
  · rw [e] at ht
    cases ht
    exact State.inForm_firstStop h hu

/-- A meaning over vector destinations keeps the form when what it does with them keeps it. -/
theorem State.inForm_withDests {s t : State} (h : s.InForm) {vd n : Nat} {k : State → Out} (ht : s.withDests vd n k = .next t)
    (hk : k s = .next t → t.InForm) : t.InForm := by
  unfold State.withDests at ht
  split at ht
  · cases ht
    exact State.inForm_trap h _ _
  · exact hk ht

theorem State.inForm_putLate {s : State} (h : s.InForm) (kind : PendKind) (d : Dst) (v : Word) (f : BitVec 5) : (s.putLate kind d v f).InForm :=
  State.inForm_updX h _

theorem State.inForm_put {s : State} (h : s.InForm) (d : Dst) (v : Word) : (s.put d v).InForm := by
  unfold State.put
  split
  · exact State.inForm_putLate h _ _ _ _
  · exact ⟨h.pre, Mach.inForm_putDst h.m _ _ _ _⟩

theorem State.inForm_latchAB {s : State} (h : s.InForm) (u : Nat) (a b : Word) : (s.latchAB u a b).InForm :=
  State.inForm_updX (State.inForm_updX h _) _

theorem State.inForm_jump {s : State} (h : s.InForm) (t : Word) (loops : List LoopEnt) : (s.jump t loops).InForm :=
  let h1 := State.inForm_updX h fun x => { x with pc := t, loops := loops }
  ⟨h1.pre, h1.m⟩

/-! ## Accesses of a sequencer -/

theorem State.inForm_regionStore {s : State} (h : s.InForm) (va ia : Nat) (bs : List Byte) : (s.regionStore va ia bs).InForm := by
  unfold State.regionStore
  repeat' split
  · exact h
  · exact State.inForm_memFault h _ _
  · exact State.inForm_accFault h _ _ _ _
  · exact ⟨h.pre, Mach.inForm_fwWrite (Mach.inForm_updCtx h.m _ _ _) _ _⟩
  · exact State.inForm_accFault h _ _ _ _

theorem State.inForm_drained {s : State} (h : s.InForm) : s.drained.InForm := ⟨h.pre, Mach.inForm_drainStores h.m _ _⟩

end Sys2Proof.Machine
end

