-- ==== Sys2Proof/Tests/Slice0.lean ====
section
/-!
SUPPORT. Tests of the model on fixed values: ill-formed terms that WellFormed refuses, words written out from the encoding tables of 03, one
step of each family of instructions with results taken from the spec's examples and tables or computed by hand, and a witness for the
hypotheses of each statement of Certificates/Slice0/Obligations.lean.
-/
namespace Sys2Proof.Tests
open Sys2Proof Sys2Proof.Machine
set_option Elab.async false

/-! ## Decoding: words written out field by field from the layouts of 03 -/

/-- Every word of a slot decodes to the instruction beside it. -/
def decodeAll (slot : Nat) (l : List (BitVec 32 × Instr)) : Bool :=
  l.all fun p => match decodeSlot true 5 slot p.1 with
    | .ok j => j == p.2
    | .error _ => false

/-- Every word is refused by the cause beside it: context, slot, word, cause. -/
def refuseAll (l : List (Bool × Nat × BitVec 32 × Cause)) : Bool :=
  l.all fun p => match decodeSlot p.1 5 p.2.1 p.2.2.1 with
    | .ok _ => false
    | .error c => c == p.2.2.2

/-- Every microword decodes to the instruction beside it. -/
def microAll (l : List (BitVec 64 × Instr)) : Bool :=
  l.all fun p => match decodeMicro p.1 with
    | .ok j => j == p.2
    | .error _ => false

/-- Layouts C-B to C-Z of the control slot (03 R77, R78). -/
theorem decode_control :
    decodeAll 0
      [(0x00#6 ++ 0#26, .nop),
       (0x01#6 ++ 1#1 ++ 3#4 ++ (-64 : BitVec 21), .bc true 3 (-64)),
       (0x02#6 ++ (-8 : BitVec 26), .call (-8)),
       (0x03#6 ++ 0#9 ++ 0x3F#8 ++ 0#9, .callr (.s 63)),
       (0x04#6 ++ 0#9 ++ 0x8E#8 ++ 0#9, .jr .zero),
       (0x05#6 ++ 0#9 ++ 0x64#8 ++ 0#9, .ret (.handle 1 0)),
       (0x06#6 ++ 1#1 ++ 0x005#9 ++ 10#16, .loop true (.src (.s 5)) 10),
       (0x07#6 ++ 0#2 ++ 0#6 ++ 0#6 ++ 3#3 ++ 1#3 ++ 0#3 ++ 2#3, .adv ⟨0, 2⟩ ⟨3, 1⟩ ⟨0, 0⟩ ⟨0, 0⟩),
       (0x08#6 ++ 1023#10 ++ 7#16, .yield 1023 7),
       (0x09#6 ++ 0x1234567#26, .hint 0x1234567),
       (0x0A#6 ++ 0#18 ++ 0x5A#8, .trap 0x5A),
       (0x0B#6 ++ 0#26, .eret),
       (0x0C#6 ++ 0#26, .halt),
       (0x0D#6 ++ 0#18 ++ 1#8, .bkpt 1)] = true := by decide

/-- Opcodes 0x00 to 0x20 of S1 in layout S: OP, D, A, B (03 R73, R74). -/
theorem decode_integer :
    decodeAll 1
      [(0x00#7 ++ 3#8 ++ 1#8 ++ 0#1 ++ 2#8, .add .alu0 (.s 3) (.s 1) (.src (.s 2))),
       (0x01#7 ++ 3#8 ++ 1#8 ++ 0#1 ++ 2#8, .sub .alu0 (.s 3) (.s 1) (.src (.s 2))),
       (0x02#7 ++ 3#8 ++ 1#8 ++ 0#1 ++ 2#8, .mul .alu0 (.s 3) (.s 1) (.src (.s 2))),
       (0x03#7 ++ 3#8 ++ 1#8 ++ 0#1 ++ 2#8, .mulh .alu0 (.s 3) (.s 1) (.src (.s 2))),
       (0x04#7 ++ 3#8 ++ 1#8 ++ 0#1 ++ 2#8, .mulhu .alu0 (.s 3) (.s 1) (.src (.s 2))),
       (0x05#7 ++ 3#8 ++ 1#8 ++ 0#1 ++ 2#8, .div .alu0 (.s 3) (.s 1) (.src (.s 2))),
       (0x06#7 ++ 3#8 ++ 1#8 ++ 0#1 ++ 2#8, .divu .alu0 (.s 3) (.s 1) (.src (.s 2))),
       (0x07#7 ++ 3#8 ++ 1#8 ++ 0#1 ++ 2#8, .rem .alu0 (.s 3) (.s 1) (.src (.s 2))),
       (0x08#7 ++ 3#8 ++ 1#8 ++ 0#1 ++ 2#8, .remu .alu0 (.s 3) (.s 1) (.src (.s 2))),
       (0x09#7 ++ 3#8 ++ 1#8 ++ 0#1 ++ 2#8, .and .alu0 (.s 3) (.s 1) (.src (.s 2))),
       (0x0A#7 ++ 3#8 ++ 1#8 ++ 0#1 ++ 2#8, .or .alu0 (.s 3) (.s 1) (.src (.s 2))),
       (0x0B#7 ++ 3#8 ++ 1#8 ++ 0#1 ++ 2#8, .xor .alu0 (.s 3) (.s 1) (.src (.s 2))),
       (0x0C#7 ++ 3#8 ++ 1#8 ++ 0#1 ++ 2#8, .andn .alu0 (.s 3) (.s 1) (.src (.s 2))),
       (0x0D#7 ++ 3#8 ++ 1#8 ++ 0#1 ++ 2#8, .shl .alu0 (.s 3) (.s 1) (.src (.s 2))),
       (0x0E#7 ++ 3#8 ++ 1#8 ++ 0#1 ++ 2#8, .shr .alu0 (.s 3) (.s 1) (.src (.s 2))),
       (0x0F#7 ++ 3#8 ++ 1#8 ++ 0#1 ++ 2#8, .sra .alu0 (.s 3) (.s 1) (.src (.s 2))),
       (0x10#7 ++ 3#8 ++ 1#8 ++ 0#1 ++ 2#8, .rol .alu0 (.s 3) (.s 1) (.src (.s 2))),
       (0x11#7 ++ 3#8 ++ 1#8 ++ 0#1 ++ 2#8, .ror .alu0 (.s 3) (.s 1) (.src (.s 2))),
       (0x12#7 ++ 3#8 ++ 1#8 ++ 0#1 ++ 2#8, .min .alu0 (.s 3) (.s 1) (.src (.s 2))),
       (0x13#7 ++ 3#8 ++ 1#8 ++ 0#1 ++ 2#8, .minu .alu0 (.s 3) (.s 1) (.src (.s 2))),
       (0x14#7 ++ 3#8 ++ 1#8 ++ 0#1 ++ 2#8, .max .alu0 (.s 3) (.s 1) (.src (.s 2))),
       (0x15#7 ++ 3#8 ++ 1#8 ++ 0#1 ++ 2#8, .maxu .alu0 (.s 3) (.s 1) (.src (.s 2))),
       (0x16#7 ++ 3#8 ++ 1#8 ++ 0#1 ++ 2#8, .ceq .alu0 (.s 3) (.s 1) (.src (.s 2))),
       (0x17#7 ++ 3#8 ++ 1#8 ++ 0#1 ++ 2#8, .cne .alu0 (.s 3) (.s 1) (.src (.s 2))),
       (0x18#7 ++ 3#8 ++ 1#8 ++ 0#1 ++ 2#8, .clt .alu0 (.s 3) (.s 1) (.src (.s 2))),
       (0x19#7 ++ 3#8 ++ 1#8 ++ 0#1 ++ 2#8, .cltu .alu0 (.s 3) (.s 1) (.src (.s 2))),
       (0x1A#7 ++ 3#8 ++ 1#8 ++ 0#1 ++ 2#8, .cle .alu0 (.s 3) (.s 1) (.src (.s 2))),
       (0x1B#7 ++ 3#8 ++ 1#8 ++ 0#1 ++ 2#8, .cleu .alu0 (.s 3) (.s 1) (.src (.s 2))),
       (0x1C#7 ++ 3#8 ++ 1#8 ++ 0#1 ++ 2#8, .cmov .alu0 (.s 3) (.s 1) (.src (.s 2))),
       (0x1D#7 ++ 3#8 ++ 1#8 ++ 0#1 ++ 2#8, .cmovz .alu0 (.s 3) (.s 1) (.src (.s 2))),
       (0x1E#7 ++ 3#8 ++ 1#8 ++ 0#1 ++ 2#8, .bext .alu0 (.s 3) (.s 1) (.src (.s 2))),
       (0x1F#7 ++ 3#8 ++ 1#8 ++ 0#1 ++ 2#8, .bextu .alu0 (.s 3) (.s 1) (.src (.s 2))),
       (0x20#7 ++ 3#8 ++ 1#8 ++ 0#1 ++ 2#8, .bins .alu0 (.s 3) (.s 1) (.src (.s 2)))] = true := by decide

/-- Opcodes 0x21 to 0x26 of S2, of which the unary ones hold zero in B (03 R74). -/
theorem decode_integer_rest :
    decodeAll 2
      [(0x21#7 ++ 0x81#8 ++ 0x42#8 ++ 0#1 ++ 0x8E#8, .clz .alu1 (.m 1) (.p 2)),
       (0x22#7 ++ 0x81#8 ++ 0x42#8 ++ 0#1 ++ 0x8E#8, .ctz .alu1 (.m 1) (.p 2)),
       (0x23#7 ++ 0x81#8 ++ 0x42#8 ++ 0#1 ++ 0x8E#8, .popc .alu1 (.m 1) (.p 2)),
       (0x24#7 ++ 0x8F#8 ++ 0x8D#8 ++ 1#1 ++ 0x7F#8, .sext .alu1 .discard (.li 5) (.imm 127)),
       (0x25#7 ++ 0x8F#8 ++ 0x8D#8 ++ 1#1 ++ 0x81#8, .zext .alu1 .discard (.li 5) (.imm (-127))),
       (0x26#7 ++ 0x8F#8 ++ 0x8D#8 ++ 1#1 ++ 0x80#8, .lih .alu1 .discard (.li 5) .lit)] = true := by decide

/-- The scalar floating-point opcodes, and FCVT with its selector as immediate (03 R74, R75). -/
theorem decode_scalar_float :
    decodeAll 1
      [(0x30#7 ++ 7#8 ++ 8#8 ++ 0#1 ++ 9#8, .faddF32 .alu0 (.s 7) (.s 8) (.src (.s 9))),
       (0x31#7 ++ 7#8 ++ 8#8 ++ 0#1 ++ 9#8, .fsubF32 .alu0 (.s 7) (.s 8) (.src (.s 9))),
       (0x32#7 ++ 7#8 ++ 8#8 ++ 0#1 ++ 9#8, .fmulF32 .alu0 (.s 7) (.s 8) (.src (.s 9))),
       (0x33#7 ++ 7#8 ++ 8#8 ++ 0#1 ++ 9#8, .fmaF32 .alu0 (.s 7) (.s 8) (.src (.s 9))),
       (0x34#7 ++ 7#8 ++ 8#8 ++ 0#1 ++ 9#8, .fdivF32 .alu0 (.s 7) (.s 8) (.src (.s 9))),
       (0x35#7 ++ 7#8 ++ 8#8 ++ 0#1 ++ 0x8E#8, .fsqrtF32 .alu0 (.s 7) (.s 8)),
       (0x36#7 ++ 7#8 ++ 8#8 ++ 0#1 ++ 9#8, .fminF32 .alu0 (.s 7) (.s 8) (.src (.s 9))),
       (0x37#7 ++ 7#8 ++ 8#8 ++ 0#1 ++ 9#8, .fmaxF32 .alu0 (.s 7) (.s 8) (.src (.s 9))),
       (0x38#7 ++ 7#8 ++ 8#8 ++ 0#1 ++ 9#8, .fceqF32 .alu0 (.s 7) (.s 8) (.src (.s 9))),
       (0x39#7 ++ 7#8 ++ 8#8 ++ 0#1 ++ 9#8, .fcltF32 .alu0 (.s 7) (.s 8) (.src (.s 9))),
       (0x3A#7 ++ 7#8 ++ 8#8 ++ 0#1 ++ 9#8, .fcleF32 .alu0 (.s 7) (.s 8) (.src (.s 9))),
       (0x40#7 ++ 7#8 ++ 8#8 ++ 0#1 ++ 9#8, .faddF64 .alu0 (.s 7) (.s 8) (.src (.s 9))),
       (0x41#7 ++ 7#8 ++ 8#8 ++ 0#1 ++ 9#8, .fsubF64 .alu0 (.s 7) (.s 8) (.src (.s 9))),
       (0x42#7 ++ 7#8 ++ 8#8 ++ 0#1 ++ 9#8, .fmulF64 .alu0 (.s 7) (.s 8) (.src (.s 9))),
       (0x43#7 ++ 7#8 ++ 8#8 ++ 0#1 ++ 9#8, .fmaF64 .alu0 (.s 7) (.s 8) (.src (.s 9))),
       (0x44#7 ++ 7#8 ++ 8#8 ++ 0#1 ++ 9#8, .fdivF64 .alu0 (.s 7) (.s 8) (.src (.s 9))),
       (0x45#7 ++ 7#8 ++ 8#8 ++ 0#1 ++ 0x8E#8, .fsqrtF64 .alu0 (.s 7) (.s 8)),
       (0x46#7 ++ 7#8 ++ 8#8 ++ 0#1 ++ 9#8, .fminF64 .alu0 (.s 7) (.s 8) (.src (.s 9))),
       (0x47#7 ++ 7#8 ++ 8#8 ++ 0#1 ++ 9#8, .fmaxF64 .alu0 (.s 7) (.s 8) (.src (.s 9))),
       (0x48#7 ++ 7#8 ++ 8#8 ++ 0#1 ++ 9#8, .fceqF64 .alu0 (.s 7) (.s 8) (.src (.s 9))),
       (0x49#7 ++ 7#8 ++ 8#8 ++ 0#1 ++ 9#8, .fcltF64 .alu0 (.s 7) (.s 8) (.src (.s 9))),
       (0x4A#7 ++ 7#8 ++ 8#8 ++ 0#1 ++ 9#8, .fcleF64 .alu0 (.s 7) (.s 8) (.src (.s 9))),
       (0x50#7 ++ 7#8 ++ 8#8 ++ 1#1 ++ 13#8, .fcvt .alu0 (.s 7) (.s 8) 13)] = true := by decide

/-- The address and load opcodes of S3 (03 R76). -/
theorem decode_address :
    decodeAll 3
      [(0x00#7 ++ 4#8 ++ 5#8 ++ 1#1 ++ 0xFF#8, .lea (.s 4) (.s 5) (.imm (-1))),
       (0x01#7 ++ 4#8 ++ 5#8 ++ 1#1 ++ 0xFF#8, .leah (.s 4) (.s 5) (.imm (-1))),
       (0x02#7 ++ 4#8 ++ 5#8 ++ 1#1 ++ 0xFF#8, .leaw (.s 4) (.s 5) (.imm (-1))),
       (0x03#7 ++ 4#8 ++ 5#8 ++ 1#1 ++ 0xFF#8, .lead (.s 4) (.s 5) (.imm (-1))),
       (0x08#7 ++ 4#8 ++ 5#8 ++ 1#1 ++ 0xFF#8, .ldI8 (.s 4) (.s 5) (.imm (-1))),
       (0x09#7 ++ 4#8 ++ 5#8 ++ 1#1 ++ 0xFF#8, .ldN8 (.s 4) (.s 5) (.imm (-1))),
       (0x0A#7 ++ 4#8 ++ 5#8 ++ 1#1 ++ 0xFF#8, .ldI16 (.s 4) (.s 5) (.imm (-1))),
       (0x0B#7 ++ 4#8 ++ 5#8 ++ 1#1 ++ 0xFF#8, .ldN16 (.s 4) (.s 5) (.imm (-1))),
       (0x0C#7 ++ 4#8 ++ 5#8 ++ 1#1 ++ 0xFF#8, .ldI32 (.s 4) (.s 5) (.imm (-1))),
       (0x0D#7 ++ 4#8 ++ 5#8 ++ 1#1 ++ 0xFF#8, .ldN32 (.s 4) (.s 5) (.imm (-1))),
       (0x0E#7 ++ 4#8 ++ 5#8 ++ 1#1 ++ 0xFF#8, .ld64 (.s 4) (.s 5) (.imm (-1))),
       (0x10#7 ++ 4#8 ++ 5#8 ++ 1#1 ++ 0xFF#8, .ldxI8 (.s 4) (.s 5) (.imm (-1))),
       (0x11#7 ++ 4#8 ++ 5#8 ++ 1#1 ++ 0xFF#8, .ldxN8 (.s 4) (.s 5) (.imm (-1))),
       (0x12#7 ++ 4#8 ++ 5#8 ++ 1#1 ++ 0xFF#8, .ldxI16 (.s 4) (.s 5) (.imm (-1))),
       (0x13#7 ++ 4#8 ++ 5#8 ++ 1#1 ++ 0xFF#8, .ldxN16 (.s 4) (.s 5) (.imm (-1))),
       (0x14#7 ++ 4#8 ++ 5#8 ++ 1#1 ++ 0xFF#8, .ldxI32 (.s 4) (.s 5) (.imm (-1))),
       (0x15#7 ++ 4#8 ++ 5#8 ++ 1#1 ++ 0xFF#8, .ldxN32 (.s 4) (.s 5) (.imm (-1))),
       (0x16#7 ++ 4#8 ++ 5#8 ++ 1#1 ++ 0xFF#8, .ldx64 (.s 4) (.s 5) (.imm (-1)))] = true := by decide

/-- The store opcodes of S3: their D field is the data, read as a source (03 R73, R76). -/
theorem decode_store :
    decodeAll 3
      [(0x18#7 ++ 0x8E#8 ++ 5#8 ++ 0#1 ++ 6#8, .st8 .zero (.s 5) (.src (.s 6))),
       (0x19#7 ++ 0x8E#8 ++ 5#8 ++ 0#1 ++ 6#8, .st16 .zero (.s 5) (.src (.s 6))),
       (0x1A#7 ++ 0x8E#8 ++ 5#8 ++ 0#1 ++ 6#8, .st32 .zero (.s 5) (.src (.s 6))),
       (0x1B#7 ++ 0x8E#8 ++ 5#8 ++ 0#1 ++ 6#8, .st64 .zero (.s 5) (.src (.s 6))),
       (0x1C#7 ++ 0x8E#8 ++ 5#8 ++ 0#1 ++ 6#8, .stx8 .zero (.s 5) (.src (.s 6))),
       (0x1D#7 ++ 0x8E#8 ++ 5#8 ++ 0#1 ++ 6#8, .stx16 .zero (.s 5) (.src (.s 6))),
       (0x1E#7 ++ 0x8E#8 ++ 5#8 ++ 0#1 ++ 6#8, .stx32 .zero (.s 5) (.src (.s 6))),
       (0x1F#7 ++ 0x8E#8 ++ 5#8 ++ 0#1 ++ 6#8, .stx64 .zero (.s 5) (.src (.s 6)))] = true := by decide

/-- Layout VR: VOP, VT, VD, VA, VB (03 R79, R80). -/
theorem decode_vector_typed :
    decodeAll 4
      [(0#4 ++ 2#4 ++ 200#8 ++ 7#8 ++ 8#8, .vadd .i32 200 7 8),
       (1#4 ++ 2#4 ++ 200#8 ++ 7#8 ++ 8#8, .vsub .i32 200 7 8),
       (2#4 ++ 2#4 ++ 200#8 ++ 7#8 ++ 8#8, .vmul .i32 200 7 8),
       (3#4 ++ 10#4 ++ 200#8 ++ 7#8 ++ 8#8, .vfma .f32 200 7 8),
       (4#4 ++ 10#4 ++ 200#8 ++ 7#8 ++ 8#8, .vdiv .f32 200 7 8),
       (5#4 ++ 2#4 ++ 200#8 ++ 7#8 ++ 8#8, .vmin .i32 200 7 8),
       (6#4 ++ 2#4 ++ 200#8 ++ 7#8 ++ 8#8, .vmax .i32 200 7 8),
       (7#4 ++ 2#4 ++ 200#8 ++ 7#8 ++ 8#8, .vadds .i32 200 7 8),
       (8#4 ++ 2#4 ++ 200#8 ++ 7#8 ++ 8#8, .vsubs .i32 200 7 8),
       (9#4 ++ 2#4 ++ 200#8 ++ 7#8 ++ 8#8, .vceq .i32 200 7 8),
       (10#4 ++ 2#4 ++ 200#8 ++ 7#8 ++ 8#8, .vclt .i32 200 7 8),
       (11#4 ++ 2#4 ++ 200#8 ++ 7#8 ++ 8#8, .vcle .i32 200 7 8)] = true := by decide

/-- Group 0xC (03 R81). -/
theorem decode_vector_bits :
    decodeAll 4
      [(0xC#4 ++ 0#4 ++ 9#8 ++ 10#8 ++ 11#8, .vand 9 10 11),
       (0xC#4 ++ 1#4 ++ 9#8 ++ 10#8 ++ 11#8, .vor 9 10 11),
       (0xC#4 ++ 2#4 ++ 9#8 ++ 10#8 ++ 11#8, .vxor 9 10 11),
       (0xC#4 ++ 3#4 ++ 9#8 ++ 10#8 ++ 11#8, .vandn 9 10 11),
       (0xC#4 ++ 4#4 ++ 9#8 ++ 10#8 ++ 11#8, .vsel 9 10 11),
       (0xC#4 ++ 5#4 ++ 9#8 ++ 10#8 ++ 11#8, .vperm8 9 10 11),
       (0xC#4 ++ 6#4 ++ 9#8 ++ 10#8 ++ 11#8, .vperm16 9 10 11),
       (0xC#4 ++ 7#4 ++ 9#8 ++ 10#8 ++ 11#8, .vperm32 9 10 11),
       (0xC#4 ++ 8#4 ++ 9#8 ++ 10#8 ++ 11#8, .vperm64 9 10 11),
       (0xC#4 ++ 9#4 ++ 9#8 ++ 10#8 ++ 2#2 ++ 31#6, .vshl .w32 31 9 10),
       (0xC#4 ++ 10#4 ++ 9#8 ++ 10#8 ++ 3#2 ++ 63#6, .vsrl .w64 63 9 10),
       (0xC#4 ++ 11#4 ++ 9#8 ++ 10#8 ++ 0#2 ++ 7#6, .vsra .w8 7 9 10),
       (0xC#4 ++ 12#4 ++ 9#8 ++ 10#8 ++ 1#2 ++ 15#6, .vtrans .w16 15 9 10),
       (0xC#4 ++ 13#4 ++ 9#8 ++ 10#8 ++ 0#8, .vmov 9 10)] = true := by decide

/-- Group 0xD (03 R82). -/
theorem decode_vector_memory :
    decodeAll 4
      [(0xD#4 ++ 0#2 ++ 2#2 ++ 9#8 ++ 4#8 ++ 0x8E#8, .vld .w32 9 (.s 4) .zero),
       (0xD#4 ++ 1#2 ++ 3#2 ++ 9#8 ++ 4#8 ++ 5#8, .vst .w64 9 (.s 4) (.s 5)),
       (0xD#4 ++ 2#2 ++ 0#2 ++ 9#8 ++ 4#8 ++ 255#8, .vgather .w8 9 (.s 4) 255),
       (0xD#4 ++ 3#2 ++ 1#2 ++ 9#8 ++ 4#8 ++ 3#8, .vscatter .w16 9 (.s 4) 3)] = true := by decide

/-- Groups 0xE and 0xF: VCVT, .rz sources, VCVTB, the unary operations, reductions and the rest; i32.sat is 0x82, f8p4.inf 0x54 (03 R83, R84, 02 R34). -/
theorem decode_vector_rest :
    decodeAll 4
      [(0xE#4 ++ 0xA#4 ++ 1#8 ++ 2#8 ++ 0x82#8, .vcvt .f32 false ⟨.vt .i32, false, true⟩ 1 2),
       (0xE#4 ++ 0xF#4 ++ 1#8 ++ 2#8 ++ 0x82#8, .vcvt .f64 true ⟨.vt .i32, false, true⟩ 1 2),
       (0xF#4 ++ 2#4 ++ 1#8 ++ 2#8 ++ 0x54#8, .vcvtb .f32 ⟨.f8 3, true, false⟩ 1 2),
       (0xF#4 ++ 4#4 ++ 1#8 ++ 2#8 ++ 0#4 ++ 9#4, .vabs .bf16 1 2),
       (0xF#4 ++ 4#4 ++ 1#8 ++ 2#8 ++ 1#4 ++ 9#4, .vneg .bf16 1 2),
       (0xF#4 ++ 4#4 ++ 1#8 ++ 2#8 ++ 2#4 ++ 9#4, .vexp2 .bf16 1 2),
       (0xF#4 ++ 4#4 ++ 1#8 ++ 2#8 ++ 3#4 ++ 9#4, .vlog2 .bf16 1 2),
       (0xF#4 ++ 4#4 ++ 1#8 ++ 2#8 ++ 4#4 ++ 9#4, .vrcp .bf16 1 2),
       (0xF#4 ++ 4#4 ++ 1#8 ++ 2#8 ++ 5#4 ++ 9#4, .vrsqrt .bf16 1 2),
       (0xF#4 ++ 5#4 ++ 0x41#8 ++ 2#8 ++ 5#4 ++ 4#4, .vred .xor .n8 (.p 1) 2),
       (0xF#4 ++ 6#4 ++ 1#8 ++ 2#8 ++ 1#4 ++ 0xB#4, .vscan .min .f64 1 2),
       (0xF#4 ++ 7#4 ++ 1#8 ++ 2#8 ++ 0#4 ++ 8#4, .vscanx .add .f16 1 2),
       (0xF#4 ++ 8#4 ++ 1#8 ++ 0x80#8 ++ 0#4 ++ 7#4, .vbcast .n64 1 (.m 0)),
       (0xF#4 ++ 9#4 ++ 254#8 ++ 2#8 ++ 0x54#8, .vqnt ⟨.f8 3, true, false⟩ 254 2),
       (0xF#4 ++ 0xA#4 ++ 1#8 ++ 254#8 ++ 0x54#8, .vdqnt ⟨.f8 3, true, false⟩ 1 254),
       (0xF#4 ++ 0xB#4 ++ 1#8 ++ 3#8 ++ 0#4 ++ 6#4, .vrand .n32 1 (.s 3)),
       (0xF#4 ++ 0xC#4 ++ 1#8 ++ 0x5F#8 ++ 0#4 ++ 3#4, .vstrm .i64 1 15),
       (0xF#4 ++ 0xD#4 ++ 0x3F#8 ++ 3#8 ++ 0#4 ++ 1#4, .vsetvl .i16 (.s 63) (.s 3))] = true := by decide

/-- Layout X of mx (03 R85, 06 R150). -/
theorem decode_matrix :
    decodeAll 5
      [(0#5 ++ 7#3 ++ 0x13#6 ++ 1#1 ++ 0x80#8 ++ 0#9, .mxset 7 0x13 .lit),
       (1#5 ++ 6#3 ++ 255#8 ++ 3#3 ++ 0#5 ++ 0x8F#8, .mxcall .discard 255 3 6),
       (2#5 ++ 0#3 ++ 0#8 ++ 4#8 ++ 0#8, .mxwait (.s 4)),
       (3#5 ++ 1#3 ++ 32#8 ++ 0x08#8 ++ 0#7 ++ 1#1, .mxacc 1 32 ⟨.vt .f16, false, false⟩ true),
       (4#5 ++ 2#3 ++ 1#1 ++ 0#23, .mxclr 2 true),
       (5#5 ++ 0#7 ++ 1#4 ++ 0x0A#8 ++ 0x08#8, .mxsr .minPlus ⟨.vt .f32, false, false⟩ ⟨.vt .f16, false, false⟩),
       (6#5 ++ 0#3 ++ 9#8 ++ 4#8 ++ 0#8, .mxload 9 (.s 4) 0),
       (7#5 ++ 0#11 ++ 4#8 ++ 0#8, .mxpark (.s 4)),
       (8#5 ++ 0#11 ++ 4#8 ++ 0#8, .mxunpark (.s 4))] = true := by decide

/-- Layout X of epu (03 R85). -/
theorem decode_predicates :
    decodeAll 5
      [(16#5 ++ 0#3 ++ 1#8 ++ 16#8 ++ 0x41#8, .gorient2 .f32 1 16 (.p 1)),
       (17#5 ++ 1#3 ++ 1#8 ++ 16#8 ++ 0x41#8, .gorient3 .f64 1 16 (.p 1)),
       (18#5 ++ 2#3 ++ 1#8 ++ 16#8 ++ 0x41#8, .gincirc .i32 1 16 (.p 1)),
       (19#5 ++ 3#3 ++ 1#8 ++ 16#8 ++ 0x41#8, .ginsph .i64 1 16 (.p 1)),
       (20#5 ++ 0#3 ++ 1#8 ++ 16#8 ++ 0x41#8, .gsegx .f32 1 16 (.p 1)),
       (21#5 ++ 0#11 ++ 0x80#8 ++ 0#8, .gtie (.m 0))] = true := by decide

/-- Layout E of the copies, streams and monitors (03 R86, R87). -/
theorem decode_engines :
    decodeAll 6
      [(0x00#6 ++ 0#2 ++ 0x8F#8 ++ 16#8 ++ 0x8E#8, .cpy .discard 2),
       (0x01#6 ++ 0#2 ++ 1#8 ++ 56#8 ++ 2#8, .cpyt (.s 1) 7 (.s 2)),
       (0x02#6 ++ 0#2 ++ 0x53#8 ++ 8#8 ++ 0x8E#8, .sbind 3 1),
       (0x03#6 ++ 0#2 ++ 0x8F#8 ++ 0x53#8 ++ 4#8, .sadv 3 (.s 4)),
       (0x04#6 ++ 0#2 ++ 0x8F#8 ++ 4#8 ++ 0x8E#8, .mon (.s 4)),
       (0x05#6 ++ 0#2 ++ 4#8 ++ 0x8E#8 ++ 5#8, .mwait (.s 4) (.s 5))] = true := by decide

/-- Layout E of synchronisation, queues, tasks and fences (03 R87, R88). -/
theorem decode_sync :
    decodeAll 6
      [(0x06#6 ++ 0#2 ++ 0x8F#8 ++ 4#8 ++ 5#8, .sempost (.s 4) (.s 5)),
       (0x07#6 ++ 0#2 ++ 3#8 ++ 4#8 ++ 5#8, .semwait (.s 3) (.s 4) (.s 5)),
       (0x08#6 ++ 0#2 ++ 3#8 ++ 4#8 ++ 0x8E#8, .bararr (.s 3) (.s 4)),
       (0x09#6 ++ 0#2 ++ 0x8F#8 ++ 4#8 ++ 5#8, .barwait (.s 4) (.s 5)),
       (0x0A#6 ++ 0#2 ++ 0x8F#8 ++ 0x8E#8 ++ 0x8E#8, .tbar),
       (0x0B#6 ++ 0#2 ++ 24#8 ++ 4#8 ++ 0x8E#8, .deq 3 (.s 4)),
       (0x0C#6 ++ 0#2 ++ 0x8F#8 ++ 4#8 ++ 24#8, .enq (.s 4) 3),
       (0x17#6 ++ 3#2 ++ 0x8F#8 ++ 0x02#8 ++ 0x81#8, .fence .system 2 0x81),
       (0x18#6 ++ 0#2 ++ 0x8F#8 ++ 0x8E#8 ++ 0x8E#8, .qmark),
       (0x19#6 ++ 0#2 ++ 0x8F#8 ++ 60#8 ++ 0x8E#8, .tbegin 15),
       (0x1A#6 ++ 0#2 ++ 0x8F#8 ++ 0x8E#8 ++ 0x8E#8, .tend),
       (0x1B#6 ++ 0#2 ++ 0x8F#8 ++ 4#8 ++ 5#8, .tladd (.s 4) (.s 5)),
       (0x1C#6 ++ 0#2 ++ 0x8F#8 ++ 4#8 ++ 5#8, .tlset (.s 4) (.s 5)),
       (0x1D#6 ++ 0#2 ++ 0x8F#8 ++ 4#8 ++ 5#8, .tlwait (.s 4) (.s 5))] = true := by decide

/-- The atomics, with the operand type in MOD, and the fixed-point cells (03 R87). -/
theorem decode_atomics :
    decodeAll 6
      [(0x0D#6 ++ 0#2 ++ 3#8 ++ 4#8 ++ 5#8, .aadd .i32 (.s 3) (.s 4) (.s 5)),
       (0x0E#6 ++ 1#2 ++ 3#8 ++ 4#8 ++ 5#8, .amin .i64 (.s 3) (.s 4) (.s 5)),
       (0x0F#6 ++ 2#2 ++ 3#8 ++ 4#8 ++ 5#8, .amax .n32 (.s 3) (.s 4) (.s 5)),
       (0x10#6 ++ 3#2 ++ 3#8 ++ 4#8 ++ 5#8, .aand .n64 (.s 3) (.s 4) (.s 5)),
       (0x11#6 ++ 0#2 ++ 3#8 ++ 4#8 ++ 5#8, .aor .i32 (.s 3) (.s 4) (.s 5)),
       (0x12#6 ++ 1#2 ++ 3#8 ++ 4#8 ++ 5#8, .axor .i64 (.s 3) (.s 4) (.s 5)),
       (0x13#6 ++ 2#2 ++ 3#8 ++ 4#8 ++ 5#8, .aswap .n32 (.s 3) (.s 4) (.s 5)),
       (0x14#6 ++ 3#2 ++ 3#8 ++ 4#8 ++ 5#8, .acas .n64 3 (.s 4) (.s 5)),
       (0x15#6 ++ 1#2 ++ 0x8F#8 ++ 4#8 ++ 5#8, .fxadd true (.s 4) (.s 5)),
       (0x16#6 ++ 0#2 ++ 3#8 ++ 4#8 ++ 0x8E#8, .fxread false (.s 3) (.s 4))] = true := by decide

/-- Layout Y, and the privileged forms of layout E (03 R86, R87). -/
theorem decode_system :
    decodeAll 6
      [(0x20#6 ++ 0#2 ++ 0x80#8 ++ 0#4 ++ 0x060#12, .csrr (.m 0) 0x060),
       (0x21#6 ++ 0#2 ++ 0x8E#8 ++ 0#4 ++ 0x060#12, .csrw 0x060 .zero),
       (0x22#6 ++ 0#2 ++ 12#8 ++ 0#12 ++ 1#1 ++ 5#3, .rrw true 5 3),
       (0x23#6 ++ 0#2 ++ 3#8 ++ 4#8 ++ 0x8E#8, .xlatinv (.s 3) (.s 4) .zero),
       (0x24#6 ++ 0#2 ++ 0x8F#8 ++ 4#8 ++ 0x8E#8, .mxsave (.s 4))] = true := by decide

/-- The microwords (06 R155). -/
theorem decode_microwords :
    microAll
      [(0#4 ++ 0#60, .uend),
       (1#4 ++ 2#4 ++ 3#4 ++ 1#1 ++ 0#1 ++ 0#50, .umma 2 3 true false),
       (2#4 ++ 1#1 ++ 5#3 ++ 0x21#6 ++ 255#8 ++ 0#10 ++ 0#32, .uloop true 5 0x21 255 0),
       (2#4 ++ 0#1 ++ 0#3 ++ 0#6 ++ 1#8 ++ 0#10 ++ 0xFFFFFFFF#32, .uloop false 0 0 1 0xFFFFFFFF),
       (3#4 ++ 15#4 ++ 255#8 ++ 0#48, .upop 15 255),
       (4#4 ++ 1#4 ++ 0x0A#8 ++ 1#1 ++ 0#47, .uout 1 ⟨.vt .f32, false, false⟩ true)] = true := by decide

/-- Words the tables refuse, each by its cause: a reserved opcode, a bit marked zero, an immediate -128 that is the literal's code, a stream as destination, a queue handle of another unit, an unused field, a type code, a shift count, a predicate format, an odd pair, a FENCE mask, a CSR number, a MOD, and a privileged word of context 0 (03 R68 to R88). -/
theorem decode_refuses :
    refuseAll
      [(true, 0, 0x0E#6 ++ 0#26, .illegalOpcode),
       (true, 0, 0x00#6 ++ 1#26, .illegalOpcode),
       (true, 1, 0x27#7 ++ 3#8 ++ 1#8 ++ 0#9, .illegalOpcode),
       (true, 1, 0#7 ++ 0x50#8 ++ 1#8 ++ 0#9, .illegalOperand),
       (true, 1, 0#7 ++ 0x64#8 ++ 1#8 ++ 0#9, .illegalOperand),
       (true, 1, 0#7 ++ 3#8 ++ 0xC0#8 ++ 0#9, .illegalOperand),
       (true, 1, 0x21#7 ++ 3#8 ++ 1#8 ++ 0#9, .illegalOperand),
       (true, 1, 0x50#7 ++ 3#8 ++ 1#8 ++ 1#1 ++ 14#8, .illegalOperand),
       (true, 0, 0x07#6 ++ 0#20 ++ 0#3 ++ 5#3, .illegalOperand),
       (true, 0, 0x06#6 ++ 0#1 ++ 0x101#9 ++ 4#16, .illegalOperand),
       (true, 4, 0#4 ++ 0xC#4 ++ 1#8 ++ 2#8 ++ 3#8, .illegalFormat),
       (true, 4, 7#4 ++ 0xA#4 ++ 1#8 ++ 2#8 ++ 3#8, .illegalFormat),
       (true, 4, 0xC#4 ++ 9#4 ++ 1#8 ++ 2#8 ++ 0#2 ++ 8#6, .illegalOperand),
       (true, 4, 0xF#4 ++ 5#4 ++ 1#8 ++ 2#8 ++ 3#4 ++ 0xA#4, .illegalFormat),
       (true, 4, 0xF#4 ++ 9#4 ++ 255#8 ++ 2#8 ++ 0x54#8, .illegalOperand),
       (true, 5, 4#5 ++ 3#3 ++ 1#1 ++ 0#23, .illegalOperand),
       (true, 5, 16#5 ++ 4#3 ++ 1#8 ++ 16#8 ++ 0x8F#8, .illegalFormat),
       (true, 5, 19#5 ++ 0#3 ++ 1#8 ++ 242#8 ++ 0x8F#8, .illegalOperand),
       (true, 6, 0x17#6 ++ 0#2 ++ 0x8F#8 ++ 0#8 ++ 1#8, .illegalOperand),
       (true, 6, 0x20#6 ++ 0#2 ++ 3#8 ++ 0#4 ++ 0xFFF#12, .illegalOperand),
       (true, 6, 0x06#6 ++ 1#2 ++ 0x8F#8 ++ 4#8 ++ 5#8, .illegalOpcode),
       (true, 6, 0x15#6 ++ 2#2 ++ 0x8F#8 ++ 4#8 ++ 5#8, .illegalFormat),
       (true, 6, 0x00#6 ++ 0#2 ++ 0x8F#8 ++ 12#8 ++ 0x8E#8, .illegalOperand),
       (false, 6, 0x24#6 ++ 0#2 ++ 0x8F#8 ++ 4#8 ++ 0x8E#8, .privInstruction)] = true := by decide

/-! ## WellFormed: an ill-formed term for each of its checks -/

/-- A destination that is another unit's queue, or, where only some registers are taken, none of them (01 R21, 04 R115, R117). -/
theorem wf_destinations :
    ([.add .alu0 (.handle 1) .zero .lit, .sub .alu1 (.handle 0) .zero .lit, .clz .alu0 (.handle 2) .zero, .fsqrtF32 .alu0 (.handle 1) .zero,
      .fcvt .alu1 (.handle 0) .zero 0, .cmov .alu0 .discard .zero .lit, .cmovz .alu0 (.handle 0) .zero .lit, .bins .alu0 (.latch 0 false) .zero .lit,
      .fmaF32 .alu0 (.p 1) .zero .lit, .fmaF64 .alu0 (.m 1) .zero .lit, .lea (.handle 0) .zero .lit, .ld64 (.handle 3) .zero .lit,
      .vred .add .f32 (.handle 2) 0, .vsetvl .i8 (.handle 2) .zero, .mxcall (.handle 5) 0 0 0, .gorient2 .f32 0 16 (.handle 4),
      .cpy (.handle 5) 0, .cpyt (.handle 0) 0 .zero, .mwait (.handle 0) .zero, .semwait (.handle 0) .zero .zero, .bararr (.handle 0) .zero,
      .aadd .i32 (.handle 0) .zero .zero, .fxread false (.handle 0) .zero, .csrr (.handle 0) 0x060, .xlatinv (.handle 0) .zero .zero
      ] : List Instr).all (fun i => !i.wf) = true := by decide

/-- An immediate -128, whose code is the literal's (03 R70). -/
theorem wf_immediates :
    ([.add .alu0 .discard .zero (.imm 0x80), .cmov .alu0 (.s 1) .zero (.imm 0x80), .fmaF32 .alu0 (.s 1) .zero (.imm 0x80),
      .lea .discard .zero (.imm 0x80), .ldI8 .discard .zero (.imm 0x80), .st8 .zero .zero (.imm 0x80), .loop false (.imm 0x80) 10,
      .mxset 0 0 (.imm 0x80)] : List Instr).all (fun i => !i.wf) = true := by decide

/-- ADV: a count above 4, unit 7, one unit twice; LOOP: an END below the shortest bundle; FENCE: an empty mask; CSRs no chapter assigns
(03 R78, R87, R88). -/
theorem wf_control_system :
    ([.adv ⟨0, 5⟩ ⟨0, 0⟩ ⟨0, 0⟩ ⟨0, 0⟩, .adv ⟨0, 0⟩ ⟨7, 1⟩ ⟨0, 0⟩ ⟨0, 0⟩, .adv ⟨1, 1⟩ ⟨0, 0⟩ ⟨0, 0⟩ ⟨1, 2⟩, .loop false .lit 4,
      .fence .core 0 1, .fence .core 1 0, .csrr .discard 0xFFF, .csrw 0x000 .zero] : List Instr).all (fun i => !i.wf) = true := by decide

/-- Types that an operation does not take, shift counts not below the width, reserved format codes, register runs past v255
(03 R80 to R84, 02 R35). -/
theorem wf_vectors :
    ([.vfma .i32 0 0 0, .vdiv .n8 0 0 0, .vadds .f32 0 0 0, .vsubs .f64 0 0 0, .vshl .w8 8 0 0, .vsrl .w16 16 0 0, .vsra .w32 32 0 0,
      .vcvt .f32 false ⟨.raw, false, false⟩ 0 0, .vcvt .f32 false ⟨.vt .f32, true, false⟩ 0 0, .vcvt .f32 true ⟨.vt .f16, false, false⟩ 0 0,
      .vcvt .i32 true ⟨.vt .i8, false, false⟩ 0 0, .vcvtb .i8 ⟨.f8 0, false, false⟩ 0 0, .vcvtb .f32 ⟨.vt .f16, false, false⟩ 0 0,
      .vexp2 .i8 0 0, .vlog2 .i8 0 0, .vrcp .n64 0 0, .vrsqrt .n64 0 0, .vred .and .f32 .discard 0, .vscan .or .f32 0 0, .vscanx .xor .f64 0 0,
      .vqnt ⟨.vt .f16, false, false⟩ 0 0, .vqnt ⟨.f8 0, false, false⟩ 255 0, .vdqnt ⟨.g8 0, false, false⟩ 0 255, .vdqnt ⟨.raw, false, true⟩ 0 0,
      .vrand .i32 0 .zero] : List Instr).all (fun i => !i.wf) = true := by decide

/-- A part that an m register does not have, a run past v255, an odd pair, modes that MXSR does not take, predicate operands past v255 or over
the destination, and microwords that MXLOAD refuses (06 R150 to R163, R169). -/
theorem wf_matrix :
    ([.mxset 0 8 .lit, .mxset 0 0x31 .lit, .mxacc 0 249 ⟨.vt .f32, false, false⟩ false, .mxacc 0 0 ⟨.raw, false, true⟩ false, .mxclr 1 true,
      .mxsr .plusTimes ⟨.vt .f64, false, false⟩ ⟨.f8 0, false, false⟩, .mxsr .minPlus ⟨.vt .i32, false, false⟩ ⟨.vt .n16, false, false⟩,
      .mxsr .orAnd ⟨.raw, false, false⟩ ⟨.vt .f16, false, false⟩, .gorient2 .f32 0 251 .discard, .gorient3 .f32 27 16 .discard,
      .gincirc .i32 16 16 .discard, .ginsph .i64 0 242 .discard, .gsegx .f64 23 16 .discard, .uloop false 0 0 0 1, .uloop false 1 0 1 1,
      .uloop false 0 1 1 1, .uloop true 0 0 1 1, .uloop true 0 8 1 0, .upop 0 0, .umma 3 3 false false, .uout 0 ⟨.raw, true, false⟩ false
      ] : List Instr).all (fun i => !i.wf) = true := by decide

/-- Terms at the limits of the same checks are well-formed. -/
theorem wf_accepts :
    ([.add .alu0 (.handle 0) .zero (.imm 0x81), .cmov .alu1 (.m 7) .zero .lit, .fmaF64 .alu0 (.s 63) .zero .lit, .adv ⟨6, 4⟩ ⟨7, 0⟩ ⟨0, 4⟩ ⟨7, 0⟩,
      .loop false .lit 5, .vshl .w64 63 0 0, .vqnt ⟨.f8 6, true, true⟩ 254 255, .vdqnt ⟨.g8 0, false, false⟩ 0 254, .vcvt .f64 true ⟨.vt .n64, false, true⟩ 0 0,
      .mxset 7 7 .lit, .mxset 7 0x30 .lit, .mxacc 7 248 ⟨.vt .f32, false, false⟩ true, .mxclr 6 true, .mxsr .orAnd ⟨.raw, false, false⟩ ⟨.raw, false, false⟩,
      .gorient2 .f32 22 16 .discard, .ginsph .i64 240 241 (.handle 5), .uloop true 7 0x30 255 0, .upop 15 255, .fence .core 128 1,
      .csrr .discard 0x1BF] : List Instr).all (fun i => i.wf) = true := by decide

/-! ## Small states -/

/-- Core 0's context 0 about to issue, its own scratchpad through range 0 (log 3), a handler installed at 0x400 with its save area at 0x800
(14 R319), in a machine that f changes. -/
def at0 (f : Mach → Mach) : State :=
  let m := f ((State.reset.m.awake.updCore 0 fun k => k.placeBundle false []).updCtx 0 false fun x => { x with tvec := 0x401, tsave := 0x800 })
  { State.reset with m := m, pre := m, iss := { Issue.idle with addr := 0x100, next := 0x105 } }

/-- The same, with core 0 changed. -/
def core0 (f : Core → Core) : State := at0 fun m => m.updCore 0 f

/-- The same, with its context changed. -/
def ctx0 (f : Ctx → Ctx) : State := at0 fun m => m.updCtx 0 false f

/-- The same, with s registers. -/
def sregs (l : List (Nat × Word)) : State := ctx0 fun x => l.foldl (fun y p => y.setS p.1 p.2) x

/-- The same, with s registers and bytes of the scratchpad. -/
def spads (l : List (Nat × Word)) (a : Nat) (bs : List Byte) : State :=
  at0 fun m => (m.updCtx 0 false fun x => l.foldl (fun y p => y.setS p.1 p.2) x).updCore 0 fun k => { k with spad := k.spad.write a bs }

/-- What an instruction leaves, where it leads on. -/
def after {α : Type} (i : Instr) (s : State) (p : State → α) : Option α :=
  match exec i s with
  | .next t => some (p t)
  | _ => none

/-- What a step leaves. -/
def stepped {α : Type} (s : State) (p : State → α) : Option α :=
  match step s with
  | .next t => some (p t)
  | _ => none

/-- The value of D of an operation on s1 and s2. -/
def alu (op : Alu → Dst → Src → Src9 → Instr) (x y : Word) : Option Word :=
  after (op .alu0 (.s 3) (.s 1) (.src (.s 2))) (sregs [(1, x), (2, y)]) fun t => t.xc.sreg 3

/-- The pending value and flags of an operation of several cycles on s1 and s2. -/
def late (op : Alu → Dst → Src → Src9 → Instr) (x y : Word) : Option (List (Word × BitVec 5)) :=
  after (op .alu0 (.s 3) (.s 1) (.src (.s 2))) (sregs [(1, x), (2, y)]) fun t => t.xc.pend.map fun e => (e.val, e.flags)

/-- The cause and the trap value that context 0 has taken at level 1, with its level. -/
def trapOf (t : State) : Nat × Word × Word := (t.xc.level, t.xc.l1.cause, t.xc.l1.tval)

/-- The entries 0x2001 at 0, 0x10001 at 0x2000 and 0x20000379 at 0x10000. -/
def pages : Mem := ⟨[(0, 1), (1, 0x20), (0x2000, 1), (0x2002, 1), (0x10000, 0x79), (0x10001, 3), (0x10003, 0x20)]⟩

/-- The range registers of the next states. -/
def memRanges : Tab Word :=
  ⟨[(1, 0x17FFFF), (2, W iaOwn), (3, 0xF), (4, 0x400000), (5, 0x4FFFFF), (7, 0xF), (8, 0x600000), (9, 0x6FFFFF), (10, 0x20000000), (11, 0xF),
    (12, 0x800000), (13, 0xBFFFFF), (14, W iaTeam), (15, 0xF)]⟩

/-- Page tables in stack 0 (13 R299 to R302): the root of address space 0, a table, and one block that maps IA 0 to 2^29 - 1 to 0x20000000 of
stack 0, readable, writable and executable; ranges 1 and 2 of the context reach IA 0 at 0x400000 and the unmapped IA 2^29 at 0x600000, range 3 the team
window at 0x800000. -/
def mem0 (f : Mach → Mach) : State :=
  at0 fun m => f (({ m with hbm := ⟨[(0, pages)]⟩ } : Mach).updCtx 0 false fun x => { x with ranges := memRanges })

/-- The same, with s registers. -/
def memRegs (l : List (Nat × Word)) : State := mem0 fun m => m.updCtx 0 false fun x => l.foldl (fun y p => y.setS p.1 p.2) x

/-- A launch with two workers, on cores 0 and 1 (12 R289). -/
def launch0 : Launch :=
  { key := 1, sq := 0, idx := 0, nrec := 1, head := [], asid := 0, rank := 0, seed := 0, ctr := 0, start := none, faults := 0, killed := false,
    killedTeams := [], cancelled := false, graphCancelled := false, ahead := false, fallback := false,
    workers := ⟨[(0, .on 0), (1, .on 1)]⟩, dies := Tab.empty, ranOn := [], retired := false, recorded := false, digest := [] }

/-- Cores 0 and 1 as a team of two, with the ranges of the states above. -/
def team0 (f : Mach → Mach) : State :=
  mem0 fun m => f { (((m.updCtx 0 false fun x => { x with owner := some (1, 0) }).updCore 0 fun k => { k with teamCfg := 0x20 }).updCore 1
    fun k => { k with c0 := { k.c0 with owner := some (1, 1), run := .running }, teamCfg := 0x21 }) with launches := [launch0] }

/-- An open region that declares the granule at IA 0 and has v32 as live-in register (10 R269, R271). -/
def region0 : Region :=
  { task := { tid := 1, queue := 0, item := [], ent := none }, beginPc := 0xC0, live := 0x100000000,
    chk := { s := Tab.empty, p := 1, loops := [], rq := Tab.empty, lat := Tab.empty }, reads := [], writes := [0], ren := 0x10000, slots := Tab.empty,
    masks := Tab.empty, log := [], ops := [], copies := [], aborted := none }

/-- The context inside a region. -/
def inside (x : Ctx) : Ctx := { x with region := some region0 }

/-- Whether a translation succeeds. -/
def ran {α : Type} (p : Mach × Except Cause α) : Bool := match p.2 with | .ok _ => true | .error _ => false

/-- A translation that succeeds has a machine and a place. -/
theorem okPair {α : Type} {p : Mach × Except Cause α} (h : ran p = true) : ∃ m q, p = (m, .ok q) := by
  obtain ⟨m, q | q⟩ := p
  · simp [ran] at h
  · exact ⟨m, q, rfl⟩

/-- One that fails has a machine and a cause. -/
theorem errPair {α : Type} {p : Mach × Except Cause α} (h : ran p = false) : ∃ m c, p = (m, .error c) := by
  obtain ⟨m, q | q⟩ := p
  · exact ⟨m, q, rfl⟩
  · simp [ran] at h

/-- The line that a fetch answers with. -/
def lineIn (p : Mach × Except Trp (List Byte)) : List Byte := match p.2 with | .ok l => l | .error _ => []

/-- A fetch that succeeds answers with its line. -/
theorem okLine {p : Mach × Except Trp (List Byte)} (h : (match p.2 with | .ok _ => true | .error _ => false) = true) : p = (p.1, .ok (lineIn p)) := by
  obtain ⟨m, q | q⟩ := p
  · simp at h
  · rfl

/-- What exec leads on to, it leads on to. -/
theorem goesOn {o : Out} (h : (match o with | .next _ => true | _ => false) = true) : ∃ t, o = .next t := by
  cases o with
  | next t => exact ⟨t, rfl⟩
  | fault _ => simp at h
  | refused _ => simp at h

/-- The context with a VL word, v registers and s registers: a register number with its first elements of w bytes. -/
def vecs (vl : Word) (w : Nat) (l : List (Nat × List Nat)) (rs : List (Nat × Word)) : State :=
  at0 fun m => (m.updCtx 0 false fun x => rs.foldl (fun y p => y.setS p.1 p.2) { x with vl := vl }).updCore 0
    fun k => l.foldl (fun k p => k.vwrite p.1 0 (elemBytes w p.2)) k

/-- The first n elements of w bytes of v3 that an instruction leaves. -/
def v3 (i : Instr) (s : State) (w n : Nat) : Option (List Nat) := after i s fun t => elemsOf (t.kc.vreg 3) 0 w n

/-- A translation that ends at a place in HBM. -/
theorem okHbm {p : Mach × Except Cause Place} {d o : Nat}
    (h : (match p.2 with | .ok (.hbm a b) => a == d && b == o | _ => false) = true) : ∃ m, p = (m, .ok (.hbm d o)) := by
  obtain ⟨m, q | q⟩ := p
  · simp at h
  · cases q <;> simp at h
    obtain ⟨rfl, rfl⟩ := h
    exact ⟨m, rfl⟩

/-- An object in HBM, at IA 0x40 of the states above, is reached by an operation whose sources are read. -/
theorem homedHbm (s t : State) (n : Nat) (acc : Acc) {o : Nat} (hs : t.spadOf (.mem o) = none)
    (h : (match ((t.drained.upd Mach.wakeObjs).m.translate s.xp.asid o acc).2 with
      | .ok (.hbm a b) => a == 0 && b == 0x20000000 + o | _ => false) = true) :
    ∃ u, Claims.homed s t n acc (.mem o) u (.hbm 0 (0x20000000 + o)) := by
  obtain ⟨m, hm⟩ := okHbm h
  exact ⟨_, .inr ⟨o, m, 0, _, hs, rfl, hm, rfl, rfl⟩⟩

/-! ## The scalar slots: results by hand from 04 R112 to R118 -/

theorem test_add_sub : alu .add 0xFFFFFFFFFFFFFFFF 2 = some 1 ∧ alu .sub 1 2 = some 0xFFFFFFFFFFFFFFFF := by decide
theorem test_mul : late .mul 0x100000001 0x100000001 = some [(0x200000001, 0)] ∧ late .mulh (-1) 2 = some [(-1, 0)] ∧
    late .mulhu (-1) 2 = some [(1, 0)] := by decide
theorem test_div : late .div (-7) 2 = some [(-3, 0)] ∧ late .rem (-7) 2 = some [(-1, 0)] ∧ late .divu (-1) 16 = some [(0x0FFFFFFFFFFFFFFF, 0)] ∧
    late .remu 7 4 = some [(3, 0)] := by decide
/-- The one overflow of a signed division gives -2^63 and 0 (04 R113). -/
theorem test_div_overflow : late .div 0x8000000000000000 (-1) = some [(0x8000000000000000, 0)] ∧ late .rem 0x8000000000000000 (-1) = some [(0, 0)] := by
  decide
/-- A divisor 0 raises ARITH_DIV_ZERO with the slot number above the word (04 R113, 14 R326). -/
theorem test_div_zero :
    after (.divu .alu1 (.s 3) (.s 1) (.src .zero)) ((sregs [(1, 7)]).onSlot ⟨2, 0x0C06028E, .nop⟩) trapOf =
      some (1, 0x40, 0x20C06028E) := by decide
theorem test_logic : alu .and 0xF0 0x3C = some 0x30 ∧ alu .or 0xF0 0x0F = some 0xFF ∧ alu .xor 0xFF 0x0F = some 0xF0 ∧ alu .andn 0xFF 0x0F = some 0xF0 := by
  decide
theorem test_shifts : alu .shl 1 65 = some 2 ∧ alu .shr (-1) 63 = some 1 ∧ alu .sra (-8) 1 = some (-4) ∧ alu .rol 0x8000000000000000 1 = some 1 ∧
    alu .ror 1 1 = some 0x8000000000000000 := by decide
theorem test_min_max : alu .min (-1) 1 = some (-1) ∧ alu .minu (-1) 1 = some 1 ∧ alu .max (-1) 1 = some 1 ∧ alu .maxu (-1) 1 = some (-1) := by decide
theorem test_compares : alu .ceq 5 5 = some 1 ∧ alu .cne 5 5 = some 0 ∧ alu .clt (-1) 0 = some 1 ∧ alu .cltu (-1) 0 = some 0 ∧ alu .cle 3 3 = some 1 ∧
    alu .cleu 4 3 = some 0 := by decide
/-- A conditional move that does not move keeps D; here D is s3, which holds 0 (04 R115). -/
theorem test_cmov : alu .cmov 1 9 = some 9 ∧ alu .cmov 0 9 = some 0 ∧ alu .cmovz 0 9 = some 9 ∧ alu .cmovz 2 9 = some 0 := by decide
/-- Position 4, length 8: 4 + 8 × 64 (04 R114). -/
theorem test_fields : alu .bextu 0xABCD 0x204 = some 0xBC ∧ alu .bext 0xABCD 0x204 = some (-0x44) ∧ alu .bins 0xFF 0x204 = some 0xFF0 ∧
    alu .sext 0x80 8 = some (-0x80) ∧ alu .zext 0x1FF 8 = some 0xFF ∧ alu .zext (-1) 0 = some (-1) := by decide
theorem test_counts :
    after (.clz .alu0 (.s 3) (.s 1)) (sregs [(1, 1)]) (fun t => t.xc.sreg 3) = some 63 ∧
    after (.ctz .alu0 (.s 3) .zero) (sregs []) (fun t => t.xc.sreg 3) = some 64 ∧
    after (.popc .alu1 (.s 3) (.s 1)) (sregs [(1, 0xF0F)]) (fun t => t.xc.sreg 3) = some 8 := by decide
theorem test_lih : alu .lih 0x11111111 0x22222222 = some 0x2222222211111111 := by decide

/-- 1.5 + 2.25 = 3.75, and 2^24 + 1 rounds to 2^24 with NX (02 R38, 04 R117). -/
theorem test_fadd_f32 : late .faddF32 0x3FC00000 0x40100000 = some [(0x40700000, 0)] ∧ late .faddF32 0x4B800000 0x3F800000 = some [(0x4B800000, 1)] := by
  decide
theorem test_fsub_fmul_f32 : late .fsubF32 0x3F800000 0x3F800000 = some [(0, 0)] ∧ late .fmulF32 0x40400000 0x40400000 = some [(0x41100000, 0)] := by decide
/-- 1 / 0 is +infinity with DZ; 3 × 3 + 0 is 9 (D holds 0) (02 R38). -/
theorem test_fdiv_fma_f32 : late .fdivF32 0x3F800000 0 = some [(0x7F800000, 8)] ∧ late .fmaF32 0x40400000 0x40400000 = some [(0x41100000, 0)] := by decide +kernel
theorem test_fsqrt_f32 : after (.fsqrtF32 .alu0 (.s 3) (.s 1)) (sregs [(1, 0x40800000)]) (fun t => t.xc.pend.map fun e => e.val) = some [0x40000000] := by
  decide +kernel
theorem test_compare_f32 : alu .fminF32 0x3F800000 0xBF800000 = some 0xBF800000 ∧ alu .fmaxF32 0x3F800000 0xBF800000 = some 0x3F800000 ∧
    alu .fceqF32 0 0x80000000 = some 1 ∧ alu .fcltF32 0xBF800000 0 = some 1 ∧ alu .fcleF32 0x7FC00000 0 = some 0 := by decide
theorem test_fadd_f64 : late .faddF64 0x3FF8000000000000 0x4002000000000000 = some [(0x400E000000000000, 0)] ∧
    late .fsubF64 0x3FF0000000000000 0x3FF0000000000000 = some [(0, 0)] ∧ late .fmulF64 0x4008000000000000 0x4008000000000000 = some [(0x4022000000000000, 0)] := by
  decide +kernel
theorem test_fdiv_f64 : late .fdivF64 0x4022000000000000 0x4008000000000000 = some [(0x4008000000000000, 0)] ∧
    late .fmaF64 0x4008000000000000 0x4008000000000000 = some [(0x4022000000000000, 0)] := by decide +kernel
theorem test_fsqrt_f64 : after (.fsqrtF64 .alu0 (.s 3) (.s 1)) (sregs [(1, 0x4010000000000000)]) (fun t => t.xc.pend.map fun e => e.val) = some [0x4000000000000000] := by
  decide +kernel
theorem test_compare_f64 : alu .fminF64 0x3FF0000000000000 0xBFF0000000000000 = some 0xBFF0000000000000 ∧
    alu .fmaxF64 0x3FF0000000000000 0xBFF0000000000000 = some 0x3FF0000000000000 ∧ alu .fceqF64 0 0x8000000000000000 = some 1 ∧
    alu .fcltF64 0xBFF0000000000000 0 = some 1 ∧ alu .fcleF64 0x7FF8000000000000 0 = some 0 := by decide +kernel
/-- Selector 8 truncates -1.5 to -1 with NX; selector 12 widens 1.0 (04 R118, 03 R75). -/
theorem test_fcvt :
    after (.fcvt .alu0 (.s 3) (.s 1) 8) (sregs [(1, 0xBFC00000)]) (fun t => t.xc.pend.map fun e => (e.val, e.flags)) = some [(-1, 1)] ∧
    after (.fcvt .alu0 (.s 3) (.s 1) 12) (sregs [(1, 0x3F800000)]) (fun t => t.xc.pend.map fun e => e.val) = some [0x3FF0000000000000] := by decide +kernel

/-! ## Addresses, loads and stores: 04 R119 to R124 -/

theorem test_lea :
    after (.lea (.s 3) (.s 1) (.imm (-1))) (sregs [(1, 0)]) (fun t => t.xc.sreg 3) = some 0xFFFFFFFFFFFFFFFF ∧
    after (.leah (.s 3) (.s 1) (.imm 3)) (sregs [(1, 8)]) (fun t => t.xc.sreg 3) = some 14 ∧
    after (.leaw (.s 3) (.s 1) (.imm 3)) (sregs [(1, 8)]) (fun t => t.xc.sreg 3) = some 20 ∧
    after (.lead (.s 3) (.s 1) (.imm 3)) (sregs [(1, 8)]) (fun t => t.xc.sreg 3) = some 32 := by decide

/-- The pending value of a load from bytes 0x80 to 0x87 at offset 64, its base in s1. -/
def loadOf (op : Dst → Src → Src9 → Instr) (b : BitVec 8) : Option (List Word) :=
  after (op (.s 3) (.s 1) (.imm b)) (spads [(1, 64)] 64 [0x80, 0x81, 0x82, 0x83, 0x84, 0x85, 0x86, 0x87]) fun t => t.xc.pend.map fun e => e.val
theorem test_loads : loadOf .ldI8 1 = some [-127] ∧ loadOf .ldN8 1 = some [0x81] ∧ loadOf .ldI16 2 = some [-31870] ∧ loadOf .ldN16 2 = some [0x8382] ∧
    loadOf .ldI32 4 = some [-2021227132] ∧ loadOf .ldN32 4 = some [0x87868584] ∧ loadOf .ld64 0 = some [0x8786858483828180] := by decide
theorem test_indexed_loads : loadOf .ldxI8 1 = some [-127] ∧ loadOf .ldxN8 1 = some [0x81] ∧ loadOf .ldxI16 1 = some [-31870] ∧
    loadOf .ldxN16 1 = some [0x8382] ∧ loadOf .ldxI32 1 = some [-2021227132] ∧ loadOf .ldxN32 1 = some [0x87868584] ∧
    loadOf .ldx64 0 = some [0x8786858483828180] := by decide
/-- The store queue entries that a store leaves (09 R243): offset and bytes. -/
def storeOf (op : Src → Src → Src9 → Instr) (b : BitVec 8) : Option (List (Nat × List Byte)) :=
  after (op (.s 2) (.s 1) (.imm b)) (sregs [(1, 64), (2, 0x1122334455667788)]) fun t => t.xc.storeq.map fun e => (e.off, e.data)
theorem test_stores : storeOf .st8 1 = some [(65, [0x88])] ∧ storeOf .st16 2 = some [(66, [0x88, 0x77])] ∧
    storeOf .st32 4 = some [(68, [0x88, 0x77, 0x66, 0x55])] ∧ storeOf .st64 8 = some [(72, [0x88, 0x77, 0x66, 0x55, 0x44, 0x33, 0x22, 0x11])] := by decide
theorem test_indexed_stores : storeOf .stx8 3 = some [(67, [0x88])] ∧ storeOf .stx16 3 = some [(70, [0x88, 0x77])] ∧
    storeOf .stx32 3 = some [(76, [0x88, 0x77, 0x66, 0x55])] ∧ storeOf .stx64 3 = some [(88, [0x88, 0x77, 0x66, 0x55, 0x44, 0x33, 0x22, 0x11])] := by decide
/-- ALIGN_SCALAR is precise and its trap value is the address (04 R121, 14 R326). -/
theorem test_misaligned : after (.ld64 (.s 3) (.s 1) (.imm 4)) (sregs [(1, 64)]) trapOf = some (1, 0x14, 68) := by decide

/-! ## Control: 04 R100 to R111, 14 R317 to R322 -/

/-- The pc, the loop stack and the trap after an instruction of the control slot at address 0x100. -/
def ctl (i : Instr) (s : State) : Option (Word × Bool) := after i s fun t => (t.xc.pc, t.iss.xfer)
theorem test_transfers :
    ctl (.bc true 3 (-64)) (sregs []) = some (0xC0, true) ∧ ctl (.bc false 3 (-64)) (sregs []) = some (0, false) ∧
    ctl (.call 0x40) (sregs []) = some (0x140, true) ∧ ctl (.jr (.s 1)) (sregs [(1, 0x80)]) = some (0x80, true) ∧
    ctl (.ret (.s 63)) (sregs [(63, 0x200)]) = some (0x200, true) ∧
    after (.callr (.s 1)) (sregs [(1, 0x80)]) (fun t => (t.xc.pc, t.xc.sreg 63)) = some (0x80, 0x105) := by decide
/-- LOOP pushes its body, from the next bundle to the bundle at END; a count of 0 leaves it out (04 R102). -/
theorem test_loop :
    after (.loop false (.imm 3) 0x20) (sregs []) (fun t => t.xc.loops) =
      some [⟨0x105, 0x120, 3, 0, false⟩] ∧
    after (.loop false (.imm 0) 0x20) (sregs []) (fun t => (t.xc.loops, t.iss.xfer)) = some ([], true) := by decide
theorem test_adv :
    after (.adv ⟨0, 2⟩ ⟨0, 0⟩ ⟨0, 0⟩ ⟨0, 0⟩) (ctx0 fun x => { x with rq := ⟨[(0, [1, 2, 3])]⟩ }) (fun t => t.xc.rqOf 0) = some [3] := by decide
theorem test_yield_hint_nop :
    after .nop (sregs []) (fun t => t.m == (sregs []).m) = some true ∧ after (.hint 5) (sregs []) (fun t => t.m == (sregs []).m) = some true ∧
    after (.yield 7 2) (ctx0 fun x => { x with loops := [⟨0xC0, 0x200, 3, 0, false⟩] }) (fun t => (t.xc.yieldSkip, t.iss.offer)) = some (1, none) ∧
    after (.yield 7 2) (ctx0 fun x => { x with liveBase := 8, loops := [⟨0xC0, 0x100, 3, 0, false⟩] })
      (fun t => (t.xc.yieldSkip, t.iss.offer)) = some (0, some (7, 2)) := by decide
/-- TRAP is taken after its bundle retires: cause CTX_TRAP, the code as trap value (04 R108). BKPT stands before it (04 R109). -/
theorem test_trap_bkpt :
    after (.trap 0x5A) (sregs []) (fun t => t.iss.after.map fun e => (e.cause, e.val)) = some (some (.ctxTrap, 0x5A)) ∧
    after (.bkpt 7) (sregs []) trapOf = some (1, 0xA1, 7) := by decide
theorem test_eret :
    after .eret (ctx0 fun x => { x with level := 1, l1 := { x.l1 with epc := 0x40 } }) (fun t => (t.xc.level, t.xc.pc)) = some (0, 0x40) := by decide
theorem test_halt : after .halt (sregs []) (fun t => t.xc.run) = some .halting := by decide

/-! ## The vector slot: results by hand from chapter 05 -/

/-- Four f32 elements: 1, 2, 3, 4 in v1 and 1, 0, 3, 8 in v2. -/
def vf : State := vecs 0xA0004 4 [(1, [0x3F800000, 0x40000000, 0x40400000, 0x40800000]), (2, [0x3F800000, 0, 0x40400000, 0x41000000])] []
/-- Four i8 elements: 127, -128, 5, 0 in v1 and 1, 255, 3, 8 in v2. -/
def vi : State := vecs 0x00004 1 [(1, [127, 128, 5, 0]), (2, [1, 255, 3, 8])] []

theorem test_vadd : v3 (.vadd .f32 3 1 2) vf 4 4 = some [0x40000000, 0x40000000, 0x40C00000, 0x41400000] ∧ v3 (.vadd .i8 3 1 2) vi 1 4 = some [128, 127, 8, 8] := by
  decide +kernel
theorem test_vsub_vmul : v3 (.vsub .i8 3 1 2) vi 1 4 = some [126, 129, 2, 248] ∧ v3 (.vmul .f32 3 1 2) vf 4 4 = some [0x3F800000, 0, 0x41100000, 0x42000000] := by
  decide +kernel
/-- VD holds zeros, so VFMA gives the products; 2 / 0 is infinity. -/
theorem test_vfma_vdiv : v3 (.vfma .f32 3 1 2) vf 4 3 = some [0x3F800000, 0, 0x41100000] ∧ v3 (.vdiv .f32 3 1 2) vf 4 2 = some [0x3F800000, 0x7F800000] := by
  decide +kernel
theorem test_vmin_vmax : v3 (.vmin .i8 3 1 2) vi 1 4 = some [1, 128, 3, 0] ∧ v3 (.vmax .n8 3 1 2) vi 1 4 = some [127, 255, 5, 8] := by decide +kernel
theorem test_saturating : v3 (.vadds .i8 3 1 2) vi 1 4 = some [127, 128, 8, 8] ∧ v3 (.vsubs .n8 3 1 2) vi 1 4 = some [126, 0, 2, 0] := by decide +kernel
theorem test_vcompares : v3 (.vceq .f32 3 1 2) vf 4 4 = some [0xFFFFFFFF, 0, 0xFFFFFFFF, 0] ∧ v3 (.vclt .i8 3 1 2) vi 1 4 = some [0, 255, 0, 255] ∧
    v3 (.vcle .n8 3 1 2) vi 1 4 = some [0, 255, 0, 255] := by decide +kernel
theorem test_vlogic : v3 (.vand 3 1 2) vi 1 4 = some [1, 128, 1, 0] ∧ v3 (.vor 3 1 2) vi 1 4 = some [127, 255, 7, 8] ∧
    v3 (.vxor 3 1 2) vi 1 4 = some [126, 127, 6, 8] ∧ v3 (.vandn 3 1 2) vi 1 4 = some [126, 0, 4, 0] := by decide +kernel
/-- VD holds zeros, so VSEL gives VB. -/
theorem test_vsel_vmov : v3 (.vsel 3 1 2) vi 1 4 = some [1, 255, 3, 8] ∧ v3 (.vmov 3 1) vi 1 4 = some [127, 128, 5, 0] := by decide +kernel
/-- Indices 3, 0, 0x2000 (past the register) as n16. -/
def vp (w : Nat) : State := vecs 0x50003 w [(1, [10, 11, 12, 13]), (2, [])] [] |>.updK (fun k => k.vwrite 2 0 (elemBytes 2 [3, 0, 0x2000]))
theorem test_vperm :
    v3 (.vperm8 3 1 2) { vp 1 with pre := (vp 1).m } 1 3 = some [13, 10, 0] ∧ v3 (.vperm16 3 1 2) { vp 2 with pre := (vp 2).m } 2 3 = some [13, 10, 0] ∧
    v3 (.vperm32 3 1 2) { vp 4 with pre := (vp 4).m } 4 3 = some [13, 10, 0] ∧ v3 (.vperm64 3 1 2) { vp 8 with pre := (vp 8).m } 8 3 = some [13, 10, 0] := by
  decide +kernel
theorem test_vshifts : v3 (.vshl .w8 1 3 1) vi 1 4 = some [254, 0, 10, 0] ∧ v3 (.vsrl .w8 1 3 1) vi 1 4 = some [63, 64, 2, 0] ∧
    v3 (.vsra .w8 1 3 1) vi 1 4 = some [63, 192, 2, 0] := by decide +kernel
/-- Six elements as two rows of three: VD[j × 2 + i] = VA[i × 3 + j]. -/
theorem test_vtrans : v3 (.vtrans .w8 1 3 1) (vecs 6 1 [(1, [0, 1, 2, 3, 4, 5])] []) 1 6 = some [0, 3, 1, 4, 2, 5] := by decide +kernel
/-- Two n16 elements with stride 4, and offsets 6 and 0. -/
def vm : State := at0 fun m => (m.updCtx 0 false fun x => ({ x with vl := 0x50002 }.setS 1 64).setS 2 4).updCore 0
  fun k => ({ k with spad := k.spad.write 64 [1, 0, 2, 0, 3, 0, 4, 0] }.vwrite 1 0 (elemBytes 4 [6, 0])).vwrite 3 0 (elemBytes 2 [0xAAAA, 0xBBBB])
theorem test_vld_vgather : v3 (.vld .w16 3 (.s 1) (.s 2)) vm 2 2 = some [1, 3] ∧ v3 (.vgather .w16 3 (.s 1) 1) vm 2 2 = some [4, 1] := by decide +kernel
theorem test_vst_vscatter :
    after (.vst .w16 3 (.s 1) .zero) vm (fun t => t.m.spadRead 0 64 6) = some [0xAA, 0xAA, 0xBB, 0xBB, 3, 0] ∧
    after (.vscatter .w16 3 (.s 1) 1) vm (fun t => t.m.spadRead 0 64 8) = some [0xBB, 0xBB, 2, 0, 3, 0, 0xAA, 0xAA] := by decide +kernel
/-- -1.5 and 2.5 to i32, to nearest even and toward zero; 300 saturates in i8 (05 R140, 02 R43). -/
def vc : State := vecs 0xA0003 4 [(1, [0xBFC00000, 0x40200000, 0x43960000])] []
theorem test_vcvt : v3 (.vcvt .f32 false ⟨.vt .i32, false, false⟩ 3 1) vc 4 3 = some [0xFFFFFFFE, 2, 300] ∧
    v3 (.vcvt .f32 true ⟨.vt .i32, false, false⟩ 3 1) vc 4 3 = some [0xFFFFFFFF, 2, 300] ∧
    v3 (.vcvt .f32 false ⟨.vt .i8, false, true⟩ 3 1) vc 1 3 = some [0xFE, 2, 127] := by decide +kernel
/-- The f8p4 code 0x40 is 1 (02 R39 to R41). -/
theorem test_vcvtb : v3 (.vcvtb .f32 ⟨.f8 3, false, false⟩ 3 1) (vecs 0xA0002 1 [(1, [0x40, 0xC0])] []) 4 2 = some [0x3F800000, 0xBF800000] := by decide +kernel
theorem test_vabs_vneg : v3 (.vabs .i8 3 1) vi 1 4 = some [127, 128, 5, 0] ∧ v3 (.vneg .f32 3 1) vf 4 2 = some [0xBF800000, 0xC0000000] := by decide +kernel
theorem test_vexp2_vlog2 : v3 (.vexp2 .f32 3 1) vf 4 3 = some [0x40000000, 0x40800000, 0x41000000] ∧ v3 (.vlog2 .f32 3 1) vf 4 4 =
    some [0, 0x3F800000, 0x3FCAE00D, 0x40000000] := by decide +kernel
theorem test_vrcp_vrsqrt : v3 (.vrcp .f32 3 1) vf 4 2 = some [0x3F800000, 0x3F000000] ∧ v3 (.vrsqrt .f32 3 1) vf 4 4 =
    some [0x3F800000, 0x3F3504F3, 0x3F13CD3A, 0x3F000000] := by decide +kernel
/-- 127 - 128 + 5 + 0 = 4, minimum -128, exclusive-or 0x7F ^ 0x80 ^ 5 (05 R143, 02 R55). -/
theorem test_vred : after (.vred .add .i8 (.s 3) 1) vi (fun t => t.xc.pend.map fun e => e.val) = some [4] ∧
    after (.vred .min .i8 (.s 3) 1) vi (fun t => t.xc.pend.map fun e => e.val) = some [-128] ∧
    after (.vred .xor .n8 (.s 3) 1) vi (fun t => t.xc.pend.map fun e => e.val) = some [0xFA] := by decide +kernel
theorem test_vscan : v3 (.vscan .add .i8 3 1) vi 1 4 = some [127, 255, 4, 4] ∧ v3 (.vscanx .max .i8 3 1) vi 1 4 = some [128, 127, 127, 127] := by decide +kernel
theorem test_vbcast : v3 (.vbcast .n16 3 (.s 1)) (vecs 0x50002 1 [] [(1, 0x12345)]) 2 3 = some [0x2345, 0x2345, 0] := by decide +kernel
/-- One block of 1.0: the scale makes the largest magnitude fit, and decoding gives 1.0 back (05 R145). -/
theorem test_vqnt_vdqnt :
    (after (.vqnt ⟨.f8 3, false, false⟩ 3 1) (vecs 0xA0001 4 [(1, [0x3F800000])] []) fun t =>
      v3 (.vdqnt ⟨.f8 3, false, false⟩ 3 3) { t with pre := t.m } 4 1) = some (some [0x3F800000]) := by decide +kernel
/-- Philox-4x32-10 with key and counter zero: the published first word 0x6627E8D5. -/
theorem test_vrand : v3 (.vrand .n32 3 .zero) (vecs 0x60002 1 [] []) 4 2 = some [0x6627E8D5, 0xE169C58D] := by decide +kernel
theorem test_vsetvl : after (.vsetvl .f32 (.s 3) (.s 1)) (sregs [(1, 5000)]) (fun t => (t.xc.vl, t.xc.sreg 3)) = some (0xA0800, 2048) := by decide +kernel
theorem test_vstrm : after (.vstrm .n16 3 2) (ctx0 fun x => { x with q := ⟨[(2, { Stream.reset with bound := true })]⟩ })
    (fun t => t.kc.vops.map fun v => v.drain.isSome) = some [true] := by decide

/-! ## The matrix unit and the predicates: results by hand from chapter 06 -/

/-- Part 1 of 16 bits of m2 becomes 0xBEEF (06 R150). -/
theorem test_mxset : after (.mxset 2 0x11 (.src (.s 1))) (at0 fun m => (m.updCtx 0 false fun x => x.setS 1 0x1BEEF).updCore 0
    fun k => { k with m := k.m.put 2 0x1111222233334444 }) (fun t => t.kc.m.get 0 2) = some 0x11112222BEEF4444 := by decide
/-- SEMI 1, accumulator f32 (0x0A), operand f16 (0x08) (06 R151). -/
theorem test_mxsr : after (.mxsr .minPlus ⟨.vt .f32, false, false⟩ ⟨.vt .f16, false, false⟩) (sregs []) (fun t => t.kc.mx.mode) = some 0x10A08 := by decide
/-- MXMODE is context 1's to write (06 R151). -/
theorem test_mxmode_write : after (.mxmodeWrite 0x10A08) (sregs []) trapOf = some (1, 0x11, 0) := by decide
/-- A unit with routine 4 loaded, and a raw tile in bank 1. -/
def mx0 (f : MxUnit → MxUnit) : State :=
  core0 fun k => { k with mx := f { k.mx with dir := ⟨[(4, { valid := true, start := 0, len := 2 })]⟩, tags := ⟨[(1, 6)]⟩, acc := ⟨[(1, ⟨[(5, 9)]⟩)]⟩ } }
theorem test_mxcall : after (.mxcall (.s 3) 4 2 0) (mx0 id) (fun t => (t.xc.sreg 3, t.kc.mx.seq, t.kc.mx.rt.isSome)) = some (1, 1, true) ∧
    after (.mxcall (.s 3) 5 2 0) (mx0 id) trapOf = some (1, 0x49, 0) := by decide
theorem test_mxwait : after (.mxwait (.s 1)) (mx0 id) (fun t => t.iss.dead) = some false ∧
    after (.mxwait (.s 1)) (mx0 fun x => { x with seq := 0, rt := some (placedRoutine Core.reset) }) (fun t => t.iss.dead && t.m == t.pre) = some true := by
  decide
theorem test_mxacc : after (.mxacc 1 3 ⟨.raw, false, false⟩ true) (mx0 id) (fun t => ((t.kc.vreg 3).cells, t.kc.mx.tag 1)) = some ([(5, 9)], 0) ∧
    after (.mxacc 1 3 ⟨.vt .f32, false, false⟩ true) (mx0 id) trapOf = some (1, 0x4C, 0) := by decide +kernel
theorem test_mxclr : after (.mxclr 1 false) (mx0 id) (fun t => t.kc.mx.tag 1) = some 0 := by decide
/-- UPOP of ring 1, then UEND: two microwords are placed at 0 (06 R154). -/
theorem test_mxload : after (.mxload 7 (.s 1) 2) (spads [(1, 64)] 64 ([0, 0, 0, 0, 0, 0, 0x02, 0x31] ++ List.replicate 8 0))
    (fun t => (t.kc.mx.dir.get DirEnt.reset 7, t.kc.mx.store.get 0 0)) = some (⟨true, 0, 2⟩, 0x3102000000000000) ∧
    after (.mxload 7 (.s 1) 2) (sregs [(1, 4)]) trapOf = some (1, 0x1A, 0) := by decide +kernel
/-- The image holds the mode at 0x4_0000; the unit is held until the writes are done (06 R165, R166). -/
theorem test_mxpark : after (.mxpark (.s 1)) (sregs [(1, 0x10000)]) (fun t => (t.m.spadRead 0 0x50000 3, t.kc.mx.parkBusy)) =
    some ([0x14, 0x0A, 0], some (false, 0)) := by decide +kernel
theorem test_mxsave : after (.mxsave (.s 1)) (sregs [(1, 0x10000)]) (fun t => (t.m.spadRead 0 0x50000 3, t.kc.mx.parkBusy)) =
    some ([0x14, 0x0A, 0], some (false, 0)) := by decide +kernel
theorem test_park_done : after (.parkImageWriteDone 0 false) (at0 fun m => (m.updCtx 0 false fun x => { x with level := 1 }).updCore 0
    fun k => { k with mx := { k.mx with parkBusy := some (false, 1), mode := 0x10A08 } }) (fun t => (t.xc.park1, t.kc.mx.mode, t.kc.mx.parkBusy)) =
    some (true, 0xA14, none) := by decide
/-- An image of reset state but for the mode comes back; a word marked zero that is not raises MX_BAD_IMAGE (06 R167). -/
def unpark (extra : List Byte) : State :=
  at0 fun m => (m.updCtx 0 false fun x => ({ x with level := 1, park1 := true }.setS 1 0x10000)).updCore 0
    fun k => { k with spad := (k.spad.write 0x50000 [0x08, 0x0A, 1]).write 0x50180 extra }
theorem test_mxunpark : after (.mxunpark (.s 1)) (unpark []) (fun t => (t.xc.park1, t.kc.mx.mode)) = some (false, 0x10A08) ∧
    after (.mxunpark (.s 1)) (unpark [1]) (fun t => (t.xc.level, t.xc.l2.cause)) = some (2, 0x4F) := by decide +kernel
/-- A cell of a plus-times step: 1 + 2 × 3; of a min-plus step: min(10, 2 + 3, 4 + 9) (02 R52, R54). -/
theorem test_cells : plusCell .f32 false true 0x3F800000 (blockVal [.ofInt 2] [.ofInt 3]) = 0x40E00000 ∧
    semCell .minPlus .i32 false true 10 [.ofInt 2, .ofInt 4] [.ofInt 3, .ofInt 9] = 5 ∧ semIdent .minPlus .i32 = 0x7FFFFFFF := by decide +kernel

/-- A routine open at microword 0, with ring 1 defined: eight slots of 8,320 bytes that the MXU consumes, two of them full. -/
def uopen (rings : List (Nat × Word)) (full : BitVec 32) : State :=
  (mx0 fun x => { x with rt := some { placedRoutine Core.reset with bank := 1, routine := 4 }, dir := ⟨[(4, { valid := true, start := 0, len := 8 })]⟩ }).updK fun k =>
    { k with ringCfg := ⟨rings⟩, ring := ⟨[(1, { RingSt.reset with w := full })]⟩ }
theorem test_uend_uloop :
    after .uend (uopen [] 0) (fun t => t.kc.mx.rt.isNone) = some true ∧
    after (.uloop false 0 0 3 2) (uopen [] 0) (fun t => t.kc.mx.rt.map fun r => (r.pc, r.loops)) = some (some (1, [⟨1, 3, 2, 0⟩])) ∧
    after (.uloop false 0 0 3 0) (uopen [] 0) (fun t => t.kc.mx.rt.map fun r => r.pc) = some (some 4) := by decide
theorem test_upop : after (.upop 1 2) (uopen [(1, 0x8400000000002088)] 2) (fun t => ((t.kc.ringOf 1).r, t.kc.mx.rt.map fun r => r.pc)) = some (2, some 1) ∧
    after (.upop 1 2) (uopen [] 2) (fun t => (t.kc.mx.rt.isNone, t.kc.mx.held.map fun h => h.2.2)) = some (true, [0x4E]) := by decide
/-- No slot is full: the step waits. -/
theorem test_umma : after (.umma 1 2 true true) (uopen [(1, 0x8400000000002088), (2, 0x8400000000002088)] 0) (fun t => t.kc.mx.rt.map fun r => r.pc) =
    some (some 0) := by decide
/-- The raw tile of bank 1 goes to slot 0 of ring 3, which the unit produces. -/
theorem test_uout : after (.uout 3 ⟨.raw, false, false⟩ true) (uopen [(3, 0xA000000000200802)] 0)
    (fun t => ((t.kc.ringOf 3).w, t.m.spadRead 0 (64 * 0x20 + 5) 1, t.kc.mx.tag 1)) = some (1, [9], 0) := by decide +kernel

/-- Lane 0: (0, 0), (1, 0), (0, 1) turn left; lane 1: three equal points (06 R170). -/
def geo : State := vecs 0x20002 4 [(16, [0, 7]), (17, [0, 7]), (18, [1, 7]), (19, [0, 7]), (20, [0, 7]), (21, [1, 7])] []
theorem test_gorient2 : after (.gorient2 .i32 3 16 (.s 3)) geo (fun t => t.kc.epu.map fun e => (e.res, e.count)) = some (some ([1, 0], 1)) := by
  decide +kernel
/-- The tetrahedron (0,0,0), (1,0,0), (0,1,0) seen from (0,0,1): rows a-d, b-d, c-d have determinant -1. -/
theorem test_gorient3 : after (.gorient3 .i32 3 16 (.s 3)) (vecs 0x20001 4 [(19, [1]), (23, [1]), (27, [1])] [])
    (fun t => t.kc.epu.map fun e => (e.res, e.count)) = some (some ([0xFF], 0)) := by decide +kernel
/-- (1, 1) lies on the circle through (0, 0), (1, 0), (0, 1); the origin's sphere test has five points at 0, the axes and (1, 1, 1). -/
theorem test_gincirc_ginsph :
    after (.gincirc .i32 3 16 (.s 3)) (vecs 0x20001 4 [(18, [1]), (21, [1]), (22, [1]), (23, [1])] []) (fun t => t.kc.epu.map fun e => (e.res, e.count)) =
      some (some ([0], 1)) ∧
    after (.ginsph .i32 3 16 (.s 3)) (vecs 0x20001 4 [(19, [1]), (23, [1]), (27, [1]), (28, [1]), (29, [1]), (30, [1])] [])
      (fun t => t.kc.epu.map fun e => (e.res, e.count)) = some (some ([0], 1)) := by decide +kernel
/-- The segments (0, 0)-(2, 2) and (0, 2)-(2, 0) cross: class 1 (06 R171). -/
theorem test_gsegx : after (.gsegx .i32 3 16 (.s 3)) (vecs 0x20001 4 [(18, [2]), (19, [2]), (21, [2]), (22, [2])] [])
    (fun t => t.kc.epu.map fun e => (e.res, e.count)) = some (some ([1], 0)) := by decide +kernel
theorem test_gtie : after (.gtie (.s 1)) (sregs [(1, 1)]) (fun t => t.xc.geocfg) = some true ∧ after (.gtie (.s 1)) (sregs [(1, 2)]) trapOf = some (1, 4, 0) := by
  decide
theorem test_predicate_complete :
    after (.predicateComplete 0) (core0 fun k => { k with epu := some { fw := false, vd := 3, res := [1, 0], dst := .s 3, count := 1 } })
      (fun t => (t.xc.sreg 3, (t.kc.vreg 3).cells, t.kc.epu.isNone)) = some (1, [(0, 1)], true) := by decide

/-! ## Witnesses for the hypotheses of the statements: sections A to C -/

open Sys2Proof.Claims

theorem witness_DecodeEncode : (Instr.add .alu0 (.s 3) (.s 1) (.src (.s 2))).wf = true ∧
    encode (.add .alu0 (.s 3) (.s 1) (.src (.s 2))) = some (.slot 1 0x00060202) ∧ encode (.upop 1 2) = some (.micro 0x3102000000000000) := by decide
theorem witness_EncodeDecode : decodeSlot true 5 1 0x00060202 = .ok (.add .alu0 (.s 3) (.s 1) (.src (.s 2))) ∧
    decodeMicro 0x3102000000000000 = .ok (.upop 1 2) := ⟨rfl, rfl⟩

/-- SUB s4, s3, 2 alone in a bundle of context 0. -/
def wSub : State := State.reset.withFetchWord 32 0x02080702
/-- The machine after the fetch of its line, and the line. -/
def wSubM : Mach := (wSub.m.fetchLine 0 false 0).1
def wSubLine : List Byte := lineIn (wSub.m.fetchLine 0 false 0)
def wSubSlot : Slot := { n := 1, w := 0x02080702, i := .sub .alu0 (.s 4) (.s 3) (.imm 2) }
def wSubBegin : State := State.begin { { wSub.fresh with agenda := [] } with m := wSubM } 0 false (bundleLen 2) 0
theorem witness_StepRunsDecoded_bundle :
    wSub.agenda = .issue 0 false :: [] ∧ (wSub.m.settleFences 0 false).teamDoomed 0 = false ∧ (wSub.m.settleFences 0 false).haltAsked 0 false = false ∧
    (wSub.m.settleFences 0 false).arbiter 0 = some false ∧ ((wSub.m.settleFences 0 false).deliverAbsent 0 false).isNone = true ∧
    wSubLine.take 6 = [2, 0x02, 0x07, 0x08, 0x02, 0] ∧ wSubM.mustFreeze 0 (lineWords wSubLine 0) = false ∧ (wSubM.deliver 0 false (lineWords wSubLine 0)).isNone = true ∧
    (wSubBegin.step5 [wSubSlot]).isNone = true ∧ (wSubBegin.streamsInRegion [wSubSlot]).isNone = true := by decide
theorem witness_StepRunsDecoded_line :
    (wSub.m.settleFences 0 false).fetchLine 0 false ((wSub.m.settleFences 0 false).ctx 0 false).pc = (wSubM, .ok wSubLine) := okLine (by decide)
theorem witness_StepRunsDecoded_checks : checkBundle false 0 2 (wSubLine.drop 1) = .ok ([wSubSlot], 0) := rfl
theorem witness_StepRunsDecoded_event : ({ State.reset with agenda := [.event .powerOff] } : State).agenda = .event .powerOff :: [] ∧
    isEvent .powerOff = true := by decide
theorem witness_StepRunsDecoded_micro : (State.reset.withFetchWord 64 0x3102000000000000).agenda = .micro 0 :: [] ∧
    ((State.reset.withFetchWord 64 0x3102000000000000).m.core 0).microword = some 0x3102000000000000 := by decide
theorem witness_StepAtRest : ∃ t, step wSub = .next t := goesOn (by decide)

/-- A bound stream with one element, an empty one, a result queue with two entries, and a loop. -/
def wForms : State :=
  ctx0 fun x => { x with p := 3, rq := ⟨[(1, [7, 8])]⟩, loops := [⟨0, 0x80, 5, 4, false⟩],
                         q := ⟨[(2, { Stream.reset with bound := true, fifo := [9] }), (3, { Stream.reset with bound := true })]⟩ }
/-- The element of q4 was taken when the bundle began to wait. -/
def wKept : State :=
  let w : Wait := { kind := .tl 0, va := 0, obj := none, word := 0, deadline := none, arrived := false, served := none, granted := false,
                    seq := 0, qs := [(4, 0, 6)], fault := none, done := false }
  ctx0 fun x => { x with wait := some w }
theorem witness_OperandForms_kept : wKept.xp.keptElem 4 = some 6 ∧ readable wKept (.q 4) = true := by decide
theorem witness_OperandForms : wForms.xp.p.getLsbD 1 = true ∧ wForms.xp.keptElem 2 = none ∧ (wForms.xp.stream 2).fifo = 9 :: [] ∧ (wForms.xp.rqOf 1)[1]? = some 8 ∧
    wForms.xp.loops[0]? = some ⟨0, 0x80, 5, 4, false⟩ ∧ wForms.xp.loops.length ≤ 1 := by decide
theorem witness_SourceStops :
    readsOf (.add .alu0 (.s 3) (.s 1) (.src (.q 3))) = some ([.s 1] ++ [.q 3]) ∧ readableAll wForms [.s 1] = true ∧ readable wForms (.q 3) = false ∧
    readable wForms (.q 0) = false ∧ readable wForms (.handle 1 2) = false ∧
    readsOf (.callr (.handle 1 2)) = some ([] ++ [.handle 1 2]) ∧ readable (wForms.updX inside) (.q 2) = true ∧
    readable { wForms with pre := (wForms.updX inside).m, iss := { wForms.iss with slot := 1 } } (.q 2) = false := by decide
theorem witness_readable : readableAll wForms [.q 2, .handle 1 1, .s 0, .zero] = true := by decide
theorem witness_IntegerOps : readableAll (sregs [(1, 1)]) [.s 1, .s 2] = true ∧ (sregs [(1, 1)]).src (.s 1) ≠ 0 ∧ (sregs [(1, 1)]).src (.s 2) = 0 ∧
    (sregs [(1, 1)]).src9 (.src (.s 1)) ≠ 0 := by decide
theorem witness_BitFields : readableAll (sregs []) [.s 1, .s 2] = true ∧ readable (sregs []) (.s 1) = true := by decide
theorem witness_ProductsAndDivision : readableAll (sregs []) [.s 1, .s 2] = true ∧ (sregs []).src9 (.src (.s 2)) = 0 ∧ (sregs []).src9 (.imm 1) ≠ 0 := by
  decide
theorem witness_ScalarFloat : readableAll (sregs []) (.s 1 :: srcs9 .lit) = true ∧ readable (sregs []) (.latch 0 true) = true := by decide
theorem witness_FrameScalar : aluOf (.add .alu0 (.s 3) (.s 1) (.src (.s 2))) = some (.alu0, .s 3, [.s 1, .s 2]) ∧ (sregs []).iss.dead = false ∧
    ∃ t, exec (.add .alu0 (.s 3) (.s 1) (.src (.s 2))) (sregs []) = .next t := ⟨by decide, by decide, goesOn (by decide)⟩

/-! ## Witnesses: sections D and E -/

theorem witness_AddressArithmetic : leaForm (.lead (.s 3) (.s 1) (.src (.s 2))) = some (.s 3, .s 1, .src (.s 2), 3) ∧
    readableAll (sregs []) [.s 1, .s 2] = true := by decide
/-- Own scratchpad, at the last eight bytes; the team window, own and remote; memory. -/
theorem witness_LoadScratchpad :
    loadForm (.ld64 (.s 3) (.s 1) (.imm 0)) = some (.s 3, .s 1, .imm 0, 8, 1, false) ∧
    accessVa (sregs [(1, 0x17FFF8)]) (.s 1) (.imm 0) 1 % 8 = 0 ∧
    (match reach (sregs [(1, 0x17FFF8)]) 0x17FFF8 8 true false with | .ok (.own off) => off == 0x17FFF8 | _ => false) = true ∧
    (sregs []).pre.badSpad 0 0x17FFF8 8 = false := by decide
theorem witness_LoadScratchpad_team :
    (match reach (team0 id) 0x800008 8 true false with | .ok (.team j off) => j == 0 && off == 8 | _ => false) = true ∧
    (team0 id).spadOf (.team 0 8) = some (0, 8) ∧ (team0 id).pre.badSpad 0 8 8 = false ∧
    (match reach (team0 id) 0xA00008 8 true false with | .ok (.team j off) => j == 1 && off == 8 | _ => false) = true ∧
    (team0 id).spadOf (.team 1 8) = some (1, 8) ∧ (team0 id).pre.badSpad 1 8 8 = false := by decide
theorem witness_LoadMemory_reach :
    (match reach (memRegs []) 0x400008 8 true false with | .ok (.mem ia) => ia == 8 | _ => false) = true ∧
    (match reach (memRegs []) 0x600000 8 true false with | .ok (.mem ia) => ia == 0x20000000 | _ => false) = true ∧
    (memRegs []).inRegion = false ∧ (mem0 fun m => m.updCtx 0 false inside).inRegion = true := by decide
/-- A load whose line is not present is answered by its home. -/
theorem homeAnswers {u : State} {ia n : Nat} (h : u.m.cacheHit u.iss.core u.xp.asid ia n = none)
    (ht : ran (u.m.translate u.xp.asid ia .load) = true) : ∃ t bs, loadGives u ia n t (.ok bs) := by
  obtain ⟨m1, p, hp⟩ := okPair ht
  simp only [loadGives, h]
  exact ⟨_, _, m1, .inl ⟨p, hp, rfl, rfl⟩⟩
/-- A load whose line is not present and whose home does not serve it gets a fault. -/
theorem homeFaults {u : State} {ia n : Nat} (h : u.m.cacheHit u.iss.core u.xp.asid ia n = none)
    (ht : ran (u.m.translate u.xp.asid ia .load) = false) : ∃ t c, loadGives u ia n t (.error c) := by
  obtain ⟨m1, c, hp⟩ := errPair ht
  simp only [loadGives, h]
  exact ⟨_, _, m1, .inr ⟨c, hp, rfl, rfl⟩⟩
/-- A load whose line is present and whose home does not serve it: the line serves it, or the fault is raised, by a free choice. -/
theorem lineOrFault {u : State} {ia n : Nat} {line : List Byte} (h : u.m.cacheHit u.iss.core u.xp.asid ia n = some line)
    (ht : ran (u.m.translate u.xp.asid ia .load) = false)
    (hk : ran ((u.upd Mach.tickNonce).m.translate u.xp.asid ia .load) = false)
    (ha : (u.upd Mach.tickNonce).xp.asid = u.xp.asid) :
    (∃ t, loadGives u ia n t (.ok line)) ∨ ∃ t c, loadGives u ia n t (.error c) := by
  obtain ⟨m1, c, hp⟩ := errPair ht
  obtain ⟨m2, d, hq⟩ := errPair hk
  have no : ∀ z, ¬homeGives u ia n z (.ok line) := by
    rintro z ⟨m3, ⟨p, h3, _⟩ | ⟨c3, _, _, h4⟩⟩
    · rw [hp] at h3; simp at h3
    · simp at h4
  by_cases hf : Config.freeBool u.m.nonce = true
  · simp only [loadGives, h, hf, if_true]
    exact .inl ⟨_, .inr ⟨no, rfl, trivial⟩⟩
  · simp only [loadGives, h, hf]
    exact .inr ⟨_, d, .inr ⟨no, m2, .inr ⟨d, by rw [ha]; exact hq, rfl, rfl⟩⟩⟩
def wLoad : State := aguRead (memRegs []) [] (.s 1) (.imm 0)
def wLoadIn : State := aguRead (mem0 fun m => m.updCtx 0 false inside) [] (.s 1) (.imm 0)
/-- The line of IA 0 is present; its home is off since. -/
def wLineOff : State :=
  let m := (((memRegs []).m.translate 0 8 .load).1.cachedRead 0 (.hbm 0 0x20000008) 8).1
  { wLoad with m := { m with dieReset := 1 } }
theorem witness_LoadMemory_ok : ∃ t bs, loadGives wLoad 8 8 t (.ok bs) := homeAnswers (by decide +kernel) (by decide +kernel)
theorem witness_LoadMemory_ok_region : ∃ t bs, loadGives wLoadIn 8 8 t (.ok bs) := homeAnswers (by decide +kernel) (by decide +kernel)
theorem witness_LoadMemory_error : ∃ t c, loadGives wLoad 0x20000000 8 t (.error c) := homeFaults (by decide +kernel) (by decide +kernel)
theorem witness_LoadMemory_error_region : ∃ t c, loadGives wLoadIn 0x20000000 8 t (.error c) := homeFaults (by decide +kernel) (by decide +kernel)
theorem witness_LoadMemory_line : (∃ t, loadGives wLineOff 8 8 t (.ok (List.replicate 8 0))) ∨ ∃ t c, loadGives wLineOff 8 8 t (.error c) :=
  lineOrFault (by decide +kernel) (by decide +kernel) (by decide +kernel) (by decide +kernel)
theorem witness_StoreAccess :
    storeForm (.st32 (.s 2) (.s 1) (.imm 0)) = some (.s 2, .s 1, .imm 0, 4, 1) ∧ readableAll (sregs []) [.s 2, .s 1] = true ∧
    (match reach (sregs []) 0x17FFFC 4 false true with | .ok (.own off) => off == 0x17FFFC | _ => false) = true ∧
    (match reach (team0 id) 0xA00008 4 false true with | .ok (.team j off) => j == 1 && off == 8 | _ => false) = true ∧
    (match reach (memRegs []) 0x400FFC 4 false true with | .ok (.mem ia) => ia == 0xFFC | _ => false) = true ∧
    region0.slotOf 0xFFC = some 0 ∧ region0.slotOf 0x1000 = none := by decide
theorem witness_StoreAccess_ok : ∃ m1, (aguRead (memRegs []) [.s 2] (.s 1) (.imm 0)).drained.m.translate 0 0xFFC .store = (m1, .ok (.hbm 0 0x20000FFC)) :=
  okHbm (by decide +kernel)
theorem witness_StoreAccess_error :
    ∃ m1 c, (aguRead (memRegs []) [.s 2] (.s 1) (.imm 0)).drained.m.translate 0 0x20000000 .store = (m1, .error c) := errPair (by decide +kernel)
/-- The page tables above with a block of class peer, at the peer of index 0, whose entry of PEERMAP is valid. -/
def wPeerPage (st : Option (Option Nat)) : State :=
  at0 fun m => ({ m with hbm := ⟨[(0, ⟨pages.cells ++ [(0x10006, 0xC0)]⟩)]⟩, peerMap := ⟨[(0, 0x8000000000000007)]⟩ } : Mach).updCtx 0 false
    fun x => { x.setS 1 0x400FFC with ranges := memRanges, peerSt := st }
theorem witness_StoreAccess_peer :
    (∀ st ∈ [none, some (some 1), some none], (match ((aguRead (wPeerPage st) [.s 2] (.s 1) (.imm 0)).drained.m.translate 0 0xFFC .store).2 with
      | .ok (.peer k o) => k == 0 && o == 0x20000FFC | _ => false) = true) ∧
    after (.st32 (.s 2) (.s 1) (.imm 0)) (wPeerPage none) (fun t => (t.m.out.length, t.iss.dead)) = some (1, true) := by
  decide +kernel
theorem witness_StoreAccess_region :
    (match ((aguRead (mem0 fun m => m.updCtx 0 false inside) [.s 2] (.s 1) (.imm 0)).m.translate 0 0xFFC .store).2 with
      | .ok (.hbm die off) => die == 0 && off == 0x20000FFC | _ => false) = true := by decide +kernel
theorem witness_AccessFaults :
    accessVa (sregs [(1, 4)]) (.s 1) (.imm 0) 1 % 8 ≠ 0 ∧
    (match reach (sregs []) 0x17FFF8 8 true false with | .error c => c == .memRange | _ => false) = false ∧
    (match reach (sregs []) 0x200000 8 true false with | .error c => c == .memRange | _ => false) = true ∧
    (match reach (team0 id) 0x97FFFC 8 true false with | .error c => c == .memTeamWindow | _ => false) = true ∧
    covering memRanges 0x300000 8 = none ∧ covering memRanges 0x400000 8 = some 1 ∧ covering memRanges 0x4FFFF8 8 = some 1 ∧
    rangeAllows memRanges 1 true false false = true ∧ rangeAllows Ctx.reset.ranges 0 true false false = false ∧
    iaTarget (rangeIa memRanges 1 0x400000) = .mem (rangeIa memRanges 1 0x400000) := by decide
/-- Pending results of each kind, a fault that the memory side answered with, and a store queue. -/
def wPend : State :=
  ctx0 fun x => { x with pend := [⟨.scalar, .s 1, 5, 0, none⟩, ⟨.load, .s 2, 6, 0, none⟩, ⟨.load, .discard, 7, 0, some (noted .memPermission 8)⟩, ⟨.held, .s 3, 9, 0, none⟩],
                         storeq := [⟨0, 8, [1]⟩] }
/-- A member that has stopped for a switch. -/
def wAway : State := core0 fun k => { k with closed := true, c0 := { k.c0 with run := .switching } }
theorem witness_PendingResults :
    (wPend.m.ctx 0 false).pend = [] ++ ⟨.scalar, .s 1, 5, 0, none⟩ :: (wPend.m.ctx 0 false).pend.drop 1 ∧
    (wPend.m.ctx 0 false).pend = (wPend.m.ctx 0 false).pend.take 3 ++ ⟨.held, .s 3, 9, 0, none⟩ :: [] ∧
    (∀ y ∈ (wPend.m.ctx 0 false).pend.take 3, y.kind ≠ .held) ∧ (wPend.m.ctx 0 false).resp = none ∧
    (wPend.m.ctx 0 false).storeq = ⟨0, 8, [1]⟩ :: [] ∧ ((sregs []).m.ctx 0 false).storeq = [] ∧
    ((ctx0 fun x => { x with resp := some (noted .memPermission 8) }).m.ctx 0 false).resp = some (noted .memPermission 8) ∧
    ((sregs []).m.core 0).closed = false ∧ (wAway.m.core 0).closed = true ∧ (wAway.m.core 0).c0.run = .switching := by decide
/-- The load's fault stands first among the loads of a region. -/
theorem witness_PendingResults_error : ∃ p rest, (wPend.m.ctx 0 false).pend.drop 2 = [] ++ p :: rest ∧ p.kind = .load ∧ p.err = some (noted .memPermission 8) :=
  ⟨_, _, rfl, rfl, rfl⟩
theorem witness_FrameAccess : (memRegs []).m.memWf = true ∧ (memRegs []).iss.dead = false ∧ (memRegs []).xc.storeq = [] := by decide +kernel
theorem witness_FrameAccess_load :
    ∃ t, exec (.ld64 (.s 3) (.s 1) (.imm 0)) (memRegs [(1, 0x400008)]) = .next t := goesOn (by decide +kernel)
theorem witness_FrameAccess_issues :
    after (.ld64 (.s 3) (.s 1) (.imm 0)) (memRegs [(1, 0x400008)]) (fun t => t.iss.dead) = some false ∧
    after (.st64 (.s 2) (.s 1) (.imm 0)) (memRegs [(1, 0x400008)]) (fun t => t.iss.dead) = some false ∧
    after (.lea (.s 3) (.s 1) (.imm 0)) (memRegs [(1, 0x400008)]) (fun t => t.iss.dead) = some false := by decide +kernel
theorem witness_Transfers : (sregs []).xp.preg 3 ≠ true ∧ (sregs []).xp.preg 3 = false ∧ readable (sregs []) (.s 1) = true := by decide
/-- Six loops; a loop that ends here; none. -/
theorem witness_Loops :
    ¬(ctx0 fun x => { x with loops := List.replicate 6 ⟨0, 0x200, 2, 0, false⟩ }).xp.loops.length < 6 ∧ (sregs []).xp.loops.length < 6 ∧
    (ctx0 fun x => { x with loops := [⟨0, 0x100, 2, 0, false⟩] }).xp.loops = ⟨0, 0x100, 2, 0, false⟩ :: [] ∧ (sregs []).iss.addr = 0x100 ∧
    ((sregs []).src9 (.imm 1)).setWidth 32 ≠ 0 ∧ ((sregs []).src9 (.imm 0)).setWidth 32 = 0 ∧ (sregs []).iss.xfer = false ∧
    ((sregs []).jump 0 []).iss.xfer = true ∧ (0 : BitVec 32).toNat + 1 < (2 : BitVec 32).toNat := by decide
theorem witness_QueuePops :
    (∃ e ∈ [(⟨0, 1⟩ : AdvEnt), ⟨0, 0⟩], e.count ≠ 0 ∧ ((sregs []).xp.rqOf e.unit.toNat).length < e.count.toNat) ∧
    ¬∃ e ∈ [(⟨1, 2⟩ : AdvEnt), ⟨7, 0⟩], e.count ≠ 0 ∧ (wForms.xp.rqOf e.unit.toNat).length < e.count.toNat := by
  constructor
  · exact ⟨⟨0, 1⟩, by decide, by decide, by decide⟩
  · decide
theorem witness_TrapEntry :
    ((ctx0 fun x => { x with tvec := 0 }).m.ctx 0 false).tvec.getLsbD 0 = false ∧ ((sregs []).m.ctx 0 false).tvec.getLsbD 0 = true ∧
    ((sregs []).m.ctx 0 false).level < 2 ∧ ((sregs []).m.ctx 0 false).loops.length ≤ 6 ∧
    ((ctx0 fun x => { x with level := 2 }).m.ctx 0 false).level = 2 := by decide
/-- The context at level 1, with a region whose abort is pending. -/
def wLevel : State := ctx0 fun x => { x with level := 1, regSusp := true, abortPend := true, region := some region0 }
theorem witness_TrapEretHalt :
    (sregs []).iss.after = none ∧ (sregs []).xp.level = 0 ∧ wLevel.xp.level ≠ 0 ∧ wLevel.xp.park 1 = false ∧
    (ctx0 fun x => { x with level := 1, park1 := true }).xp.park 1 = true ∧
    (core0 fun k => { k with mx := { k.mx with parkBusy := some (false, 1) } }).kc.mx.parkBusy = some (false, 1) ∧ wLevel.kc.mx.parkBusy = none ∧
    ((wLevel.m.drainScalars 0 false).ctx 0 false).level = 1 ∧ wLevel.xp.abortPend = true ∧ wLevel.xp.region = some region0 ∧ wLevel.xp.waitKept = none ∧
    (ctx0 inside).inRegion = true ∧ (sregs []).inRegion = false ∧ (sregs []).teamExit = false ∧ (team0 fun m => m.updCtx 0 false fun x => { x with remoteSince := true }).teamExit = true ∧
    (ctx0 fun x => { x with run := .halting }).xc.run = .halting ∧ (sregs []).xc.run ≠ .halting ∧
    (sregs []).kp.dbg.attach = false ∧ (core0 fun k => { k with dbg := { k.dbg with attach := true } }).kp.dbg.attach = true := by decide
theorem witness_TrapEretHalt_yield :
    (sregs []).xp.loops = [] ∧ (ctx0 fun x => { x with loops := [⟨0xC0, 0x200, 3, 0, false⟩] }).xp.loops = ⟨0xC0, 0x200, 3, 0, false⟩ :: [] ∧
    (0x200 : Word) ≠ (sregs []).iss.addr ∧ wLevel.xp.level ≠ 0 ∧ (sregs []).xp.region = none ∧ (sregs []).xp.liveCount ≤ 0 ∧
    7 < (ctx0 fun x => { x with liveBase := 8 }).xp.liveCount ∧ ¬(wLevel.xp.region = none ∧ wLevel.xp.level = 0) := by decide

/-! ## Witnesses: section F -/

theorem witness_VectorArith : vf.clobbered 3 1 = none ∧ VT.f32.isFloat = true ∧ VT.i8.isFloat = false ∧ vf.xp.vlCount = 4 := by decide
theorem witness_VectorBitsMoves : vi.clobbered 255 1 = none ∧ (7 : BitVec 6).toNat < 8 * Width.bytes .w8 := by decide
theorem witness_Broadcast : readable vi (.s 1) = true ∧ vi.clobbered 3 1 = none ∧ (0x10#8).extractLsb' 4 4 ≠ 0 ∧ (vi.kc.vreg 1).wf = true := by decide
/-- The row at 64 holds uncorrectable data. -/
def wBadVm : State := { vm with m := { vm.m with bad := [.spad 0 64] }, pre := { vm.m with bad := [.spad 0 64] } }
/-- Offsets 64 and 68 for the stride 4; a misaligned base; a base that no range covers. -/
theorem witness_VectorMemory :
    readableAll vm [.s 1, .s 2] = true ∧ (vm.src (.s 1)).toNat % 2 = 0 ∧ (vm.src (.s 2)).toNat % 2 = 0 ∧ (vm.src (.s 1)).toNat % 2 = 0 ∧
    mapVa vm.xp.ranges 64 2 true false false = some (iaOwn + 64) ∧ iaTarget (iaOwn + 64) = .own 64 ∧
    mapVa vm.xp.ranges 68 2 false true false = some (iaOwn + 68) ∧ iaTarget (iaOwn + 68) = .own 68 ∧
    mapVa vm.xp.ranges 70 2 false true false = some (iaOwn + 70) ∧ iaTarget (iaOwn + 70) = .own 70 ∧
    (∀ o ∈ [64, 68], vm.pre.badSpad 0 o 2 = false) ∧ (wBadVm.pre.badSpad 0 68 2 = true ∧ wBadVm.clobbered 3 1 = none) ∧
    vm.velems 1 4 2 = [6, 0] ∧ vm.clobbered 3 1 = none ∧ (∀ va ∈ [64, 68, 70], va % 2 = 0 ∧
      mapVa vm.xp.ranges va 2 true false false = some (iaOwn + va) ∧ mapVa vm.xp.ranges va 2 false true false = some (iaOwn + va) ∧
      iaTarget (iaOwn + va) = .own va) ∧ ((vecs 0x50002 1 [] [(1, 65)]).src (.s 1)).toNat % 2 ≠ 0 := by decide
theorem witness_VectorMemory_errors :
    (match vm.velemAddrs 2 true [0x200000] with | .error e => e.1 == .memRange | _ => false) = true ∧
    (match vm.velemAddrs 2 false [64, 0x200000] with | .error e => e.1 == .memRange | _ => false) = true := by decide
theorem witness_VectorFunctions : vi.clobbered 3 1 = none ∧ vi.clobbered 3 2 = none ∧ readable vi .zero = true ∧ VT.f64.isFloat = true := by decide
theorem witness_VectorReduceLength :
    min (vecs 0 1 [] []).xp.vlCount (8192 / 1) = 0 ∧ min vi.xp.vlCount (8192 / 1) ≠ 0 ∧ vi.clobbered 3 1 = none ∧ readable vi (.s 1) = true ∧
    12 ≤ (0xC0000 : Word).toNat / 2 ^ 16 % 16 ∧ (0xBFFFF : Word).toNat / 2 ^ 16 % 16 = VT.f64.enc.toNat ∧ (ctx0 inside).inRegion = true ∧
    vi.inRegion = false ∧ (vi.xp.stream 2).isBound = false ∧ (wForms.xp.stream 2).isBound = true ∧ wForms.kp.strmBusy false 2 = false := by decide
/-- Core 0 with an operation that has ended, after one that is queued for an assist. -/
def wVops (assist : Bool) : State :=
  core0 fun k => { k with vops := [⟨false, 1, true, true, [], none, [], false⟩, ⟨false, 2, assist, false, [], none, [], false⟩], assistQ := [3] }
theorem witness_VectorCompletion :
    ((wVops false).m.core 0).vops = [⟨false, 1, true, true, [], none, [], false⟩] ++ ⟨false, 2, false, false, [], none, [], false⟩ :: [] ∧
    (∀ y ∈ [(⟨false, 1, true, true, [], none, [], false⟩ : VOp)], y.queued = true ∨ y.last = false) ∧ (⟨false, 2, false, false, [], none, [], false⟩ : VOp).last = true ∧
    (⟨false, 2, false, false, [], none, [], false⟩ : VOp) ∉ [(⟨false, 1, true, true, [], none, [], false⟩ : VOp)] ∧
    ((wVops true).m.core 0).vops = [⟨false, 1, true, true, [], none, [], false⟩] ++ ⟨false, 2, true, false, [], none, [], false⟩ :: [] ∧
    (∀ y ∈ ((sregs []).m.core 0).vops, y.queued = true ∨ y.last = false) ∧ ((wVops true).m.core 0).assistQ = 3 :: [] ∧
    (wVops true).m.powered 0 = true := by decide
theorem witness_LiveInRegisters :
    vecDest (.vqnt ⟨.f8 3, false, false⟩ 31 1) = some (31, 2, []) ∧ (ctx0 inside).inRegion = true ∧ (ctx0 inside).xp.region = some region0 ∧
    bitAt region0.live.toNat 32 = true ∧ (∀ j, 31 ≤ j → j < 32 → bitAt region0.live.toNat j = false) := by
  refine ⟨by decide, by decide, by decide, by decide, fun j h1 h2 => ?_⟩
  have : j = 31 := by omega
  subst this; decide
theorem witness_FrameVector : vecDest (.vadd .i8 3 1 2) = some (3, 1, []) ∧ (Instr.vadd .i8 3 1 2).wf = true ∧ vi.xc.storeq = [] ∧ vi.iss.dead = false ∧
    vi.iss.doom = none ∧ after (.vadd .i8 3 1 2) vi (fun t => t.iss.dead) = some false := by decide

/-! ## Witnesses: sections G and H -/

/-- A context 1 that issues. -/
def fw0 (f : Mach → Mach) : State :=
  { at0 fun m => f ((m.updCore 0 fun k => k.placeBundle true []).updCtx 0 true fun x => { x with tvec := 0x401, tsave := 0x800 }) with
    iss := { Issue.idle with fw := true, addr := 0x100, next := 0x105 } }
/-- The unit occupied, by a routine and by an image. -/
def wBusy : State := mx0 fun x => { x with rt := some { placedRoutine Core.reset with call := 1 }, seq := 1 }
theorem witness_MatrixUnit_modes :
    (mx0 id).xp.level = 0 ∧ readableAll (mx0 id) (srcs9 .lit) = true ∧ (fw0 id).iss.fw = true ∧ mxModeLegal (BitVec.ofNat 64 (0x10A08 % 2 ^ 20)) = true ∧
    mxModeLegal (BitVec.ofNat 64 (0x10A % 2 ^ 20)) = false ∧ ¬(wLevel.xp.level = 0 ∨ wLevel.xp.park 1 = true) ∧ wLevel.kp.mx.rt = none ∧
    wLevel.kp.mx.parkBusy = none ∧ wBusy.kp.mx.rt ≠ none := by decide
theorem witness_MatrixUnit_calls :
    ((mx0 id).kp.mx.dir.get DirEnt.reset 5).valid = false ∧ ((mx0 id).kp.mx.dir.get DirEnt.reset 4).valid = true ∧
    accPair (mxAcc (mx0 id).kp.mx.mode) = true ∧ (2 : BitVec 3).toNat % 2 = 0 ∧ (mx0 id).kp.mx.tag 2 = 0 ∧ (1 : BitVec 3).toNat % 2 = 1 ∧
    accPair (mxAcc 0x10808) = false ∧ (mx0 id).kp.mx.tag 1 = 6 ∧ accTag (mxAcc 0x10808) ≠ 6 ∧
    0 < ((1 : Word) - (mx0 id).kp.mx.seq).toInt ∧ ¬0 < ((1 : Word) - wBusy.kp.mx.seq).toInt ∧
    (∀ r, wBusy.kp.mx.rt = some r → 0 ≤ ((1 : Word) - r.call).toInt) ∧ (∀ r, wBusy.kp.mx.rt = some r → ((0 : Word) - r.call).toInt < 0) ∧
    tagPairs 6 ⟨.raw, false, false⟩ = true ∧ tagPairs 6 ⟨.vt .f32, false, false⟩ = false ∧ (mx0 id).clobbered 3 1 = none ∧
    (mx0 fun x => { x with tags := ⟨[(2, 3), (3, 7)]⟩ }).kp.mx.tag 3 = 7 := by
  refine ⟨by decide, by decide, by decide, by decide, by decide, by decide, by decide, by decide, by decide, by decide, by decide, ?_, ?_, by decide,
    by decide, by decide, by decide⟩
  · intro r h
    have : r = { placedRoutine Core.reset with call := 1 } := by injection h with h; exact h.symm
    subst this; decide
  · intro r h
    have : r = { placedRoutine Core.reset with call := 1 } := by injection h with h; exact h.symm
    subst this; decide
theorem witness_MatrixImages_load :
    readable (sregs [(1, 64)]) (.s 1) = true ∧ ((sregs [(1, 64)]).src (.s 1)).toNat % 8 = 0 ∧ ((sregs [(1, 4)]).src (.s 1)).toNat % 8 ≠ 0 ∧
    (match (sregs []).mxTargets (piecesFrom 64 8 2) 8 false Target.isOwn with | .ok ts => ts == [.own 64, .own 72] | _ => false) = true ∧
    (match (memRegs []).mxTargets (piecesFrom 0x400000 8 2) 8 false Target.isOwn with | .error e => e.1 == .memMxTarget | _ => false) = true ∧
    badMicro 1 0 [] [0] = none ∧ badMicro 1 0 [] [0xF000000000000000] = some 0 ∧ ((sregs []).kp.mx.place 7 [0]).isSome = true ∧
    (({ MxUnit.reset with dir := ⟨[(1, ⟨true, 0, 8192⟩)]⟩ } : MxUnit).place 7 [0]).isNone = true := by decide
theorem witness_MatrixImages_pages :
    (0x10000 : Word).toNat % 4096 = 0 ∧ (0x10001 : Word).toNat % 4096 ≠ 0 ∧
    (match (sregs []).mxTargets (piecesFrom 0x10000 4096 65) 4096 true Target.notTeam with | .ok ts => ts.length == 65 | _ => false) = true ∧
    (match (sregs []).mxTargets (piecesFrom 0x1FF000 4096 65) 4096 true Target.notTeam with | .error e => e == (.memRange, 0x1FF000) | _ => false) = true ∧
    (match (team0 id).mxTargets (piecesFrom 0x800000 4096 65) 4096 true Target.notTeam with | .error e => e == (.memMxTarget, 0x800000) | _ => false) = true := by
  decide +kernel
/-- MXPARK, MXSAVE and MXUNPARK complete on these states: test_mxpark, test_mxsave and test_mxunpark show what they leave. -/
theorem witness_MatrixImages_levels :
    (sregs []).xp.level = 0 ∧ wLevel.xp.level ≠ 0 ∧ wLevel.xp.park 1 = false ∧ (unpark []).xp.park 1 = true ∧ (sregs []).inRegion = false ∧
    (unpark []).kp.mx.parkBusy = none ∧ (unpark []).kp.mx.rt = none := by decide
theorem witness_MatrixImages_done :
    ((core0 fun k => { k with mx := { k.mx with parkBusy := some (false, 1) } }).m.core 0).mx.parkBusy = some (false, 1) ∧
    ((sregs []).m.core 0).mx.parkBusy = none ∧ ((unpark []).m.ctx 0 false).level = 1 := by decide
/-- Ring 1 ready and large enough, ring 2 empty, ring 3 the unit's own. -/
def wRings : State := uopen [(1, 0x8400000000002088), (2, 0x8400000000002088), (3, 0xA000000000200802), (4, 0x8400000000000048)] 2
theorem witness_Microwords :
    wRings.kc.mx.rt.isSome = true ∧ wRings.kc.mx.parkBusy = none ∧ ringReadFault (wRings.kc.ringCfgOf 1) 8320 = none ∧
    ringReadFault (wRings.kc.ringCfgOf 0) 8320 = some .mxRingUndefined ∧ ringReadFault (wRings.kc.ringCfgOf 4) 8320 = some .mxRingSlot ∧
    ((wRings.kc.ringOf 1).ready && (wRings.kc.ringOf 2).ready) = false ∧ ((wRings.kc.ringOf 1).ready && (wRings.kc.ringOf 1).ready) = true ∧
    wRings.m.badSpad 0 (ringItemAt (wRings.kc.ringCfgOf 1) 0) 8320 = false ∧ (wRings.kc.ringOf 1).full < 3 ∧ 2 ≤ (wRings.kc.ringOf 1).full ∧
    ringV (wRings.kc.ringCfgOf 3) = true ∧ ringProd (wRings.kc.ringCfgOf 3) = 2 ∧ ¬ringProd (wRings.kc.ringCfgOf 1) = 2 ∧
    drainBytes ⟨.raw, false, false⟩ ≤ ringBytes (wRings.kc.ringCfgOf 3) ∧ ringBytes (wRings.kc.ringCfgOf 3) < drainBytes ⟨.vt .f16, false, false⟩ ∧
    tagPairs (wRings.kc.mx.tag 1) ⟨.raw, false, false⟩ = true ∧ (wRings.m.ringPut 0 3 []).isSome = true ∧
    ((wRings.updK fun k => { k with ring := ⟨[(3, { RingSt.reset with w := 2 })]⟩ }).m.ringPut 0 3 []).isNone = true := by decide +kernel
theorem witness_Microwords_bad : ({ wRings.m with bad := [.spad 0 0] } : Mach).badSpad 0 (ringItemAt (wRings.kc.ringCfgOf 1) 0) 8320 = true ∧
    tagPairs 1 ⟨.raw, false, false⟩ = false := by decide
theorem witness_Predicates :
    geo.clobbered 3 1 = none ∧ (ctx0 inside).clobbered 32 1 = some 32 ∧ GF.f32.isFloat = true ∧ geo.geoBad .f32 16 6 2 = none ∧
    (vecs 0xA0001 4 [(17, [0x7F800000])] []).geoBad .f32 16 6 1 = some 0x10000 ∧ readable geo (.s 1) = true ∧
    ((sregs [(1, 1)]).src (.s 1)).toNat ≤ 1 ∧ 1 < ((sregs [(1, 2)]).src (.s 1)).toNat ∧ (geo.m.core 0).epu = none := by decide +kernel

/-- An object in the own scratchpad at 64, in HBM at IA 64, and two addresses that are none. -/
theorem witness_objects : objOf (sregs []) 64 8 true true (iaOwn + 64) (.own 64) ∧ objOf (memRegs []) 0x400040 8 true true 0x40 (.mem 0x40) ∧
    objOf (memRegs []) 0x400040 64 true false 0x40 (.mem 0x40) ∧ objOf (memRegs []) 0x400040 16 true true 0x40 (.mem 0x40) ∧
    objOf (memRegs []) 0x400040 64 true true 0x40 (.mem 0x40) ∧ objOf (memRegs []) 64 64 true true (iaOwn + 64) (.own 64) :=
  ⟨⟨by decide, by decide, rfl⟩, ⟨by decide, by decide, rfl⟩, ⟨by decide, by decide, rfl⟩, ⟨by decide, by decide, rfl⟩, ⟨by decide, by decide, rfl⟩,
    ⟨by decide, by decide, rfl⟩⟩
theorem witness_homed_scratchpad : ∃ u, homed (sregs []) (sregs []) 8 .atomic (.own 64) u (.spad 0 64) :=
  ⟨_, .inl ⟨0, 64, by decide, by decide, rfl, rfl⟩⟩
theorem witness_homed_hbm : ∃ u, homed (memRegs []) ((reads (memRegs []) [.s 1, .s 2]).latchAB 5 0x400040 0) 64 .atomic (.mem 0x40) u (.hbm 0 0x20000040) :=
  homedHbm _ _ _ _ (by decide) (by decide +kernel)
theorem witness_homed_mon : ∃ u, homed (memRegs []) ((reads (memRegs []) [.s 1]).latch 5 false 0x400040) 8 .mon (.mem 0x40) u (.hbm 0 0x20000040) :=
  homedHbm _ _ _ _ (by decide) (by decide +kernel)
theorem witness_SyncPosts :
    readableAll (sregs []) [.s 1, .s 2] = true ∧ (65 : Word).toNat % 8 ≠ 0 ∧ mapVa (sregs []).xp.ranges 0x200000 8 true true false = none ∧
    (ctx0 inside).inRegion = true ∧ (sregs []).inRegion = false ∧ ((sregs []).m.objWord (.spad 0 64)).toNat + (5 : Word).toNat < 2 ^ 64 ∧
    2 ^ 64 ≤ ((spads [] 64 [255, 255, 255, 255, 255, 255, 255, 255]).m.objWord (.spad 0 64)).toNat + (1 : Word).toNat := by decide
/-- Barrier records: not initialised; two expected and one arrived; all arrived (07 R193). -/
theorem witness_SyncPosts_barriers :
    (Bar.ofBytes (List.replicate 16 0)).init = false ∧ (Bar.ofBytes [1, 0, 0, 0, 0, 0, 1, 0, 0, 2, 0, 0, 7, 0, 0, 0]).init = true ∧
    (Bar.ofBytes [1, 0, 0, 0, 0, 0, 1, 0, 0, 2, 0, 0, 7, 0, 0, 0]).arrived ≠ (Bar.ofBytes [1, 0, 0, 0, 0, 0, 1, 0, 0, 2, 0, 0, 7, 0, 0, 0]).expected ∧
    (Bar.ofBytes [1, 0, 0, 0, 0, 0, 2, 0, 0, 2, 0, 0, 7, 0, 0, 0]).arrived = 2 ∧ (Bar.ofBytes [1, 0, 0, 0, 0, 0, 2, 0, 0, 2, 0, 0, 7, 0, 0, 0]).expected = 2 ∧
    0 < (BitVec.ofNat 32 7 - BitVec.ofNat 32 6).toInt ∧ ¬0 < (BitVec.ofNat 32 7 - BitVec.ofNat 32 7).toInt := by decide
/-- A monitor armed at 64 with the value 3 taken, and a wait that its home has served. -/
def wMon : State := ctx0 fun x => { x with monStat := 67, monVal := 3 }
def served0 : Wait :=
  { kind := .sem 1, va := 64, obj := some (.hbm 0 64), word := 0, deadline := none, arrived := true, served := some [5], granted := true, seq := 0,
    qs := [], fault := none, done := false }
def wServed : State := ctx0 fun x => { x with monStat := 67, wait := some served0 }
theorem witness_SyncWaits :
    (sregs []).granted = none ∧ bitAt (sregs []).xp.monStat.toNat 0 = false ∧ bitAt wMon.xp.monStat.toNat 0 = true ∧ bitAt wMon.xp.monStat.toNat 1 = true ∧
    bitAt (0x41 : Word).toNat 1 = false ∧ wMon.m.objWord (.spad 0 64) ≠ wMon.xp.monVal ∧
    (spads [] 64 [3]).m.objWord (.spad 0 64) = wMon.xp.monVal ∧ (1 : Word) ≤ (spads [] 64 [3]).m.objWord (.spad 0 64) ∧
    (sregs []).pre.semBusy (.spad 0 64) = false ∧ (sregs []).m.objWord (.spad 0 64) < (1 : Word) ∧ ((5 : Word) - 3).toNat < 2 ^ 63 ∧
    2 ^ 63 ≤ ((3 : Word) - 5).toNat ∧ wServed.xp.wait.map (fun w => (w.granted, w.served, w.obj)) = some (true, some [5], some (.hbm 0 64)) := by decide
theorem witness_AtomicOps :
    readableAll (sregs []) [.s 1, .s 2] = true ∧ bitAt (ctx0 fun x => { x with detStat := 1 }).xp.detStat.toNat 0 = true ∧
    bitAt (sregs []).xp.detStat.toNat 0 = false ∧ (ctx0 inside).inRegion = true ∧ (66 : Word).toNat % 4 ≠ 0 ∧ (68 : Word).toNat % 8 ≠ 0 := by decide
theorem witness_AtomicOps_object : objOf (ctx0 inside) 68 4 true true (iaOwn + 68) (.own 68) := ⟨by decide, by decide, rfl⟩
/-- Cells: not initialised, empty, with an overflow, with a non-finite addend, and at the largest value (02 R57). -/
theorem witness_FixedPointCells :
    bitAt (cellSt (List.replicate 64 0)) 0 = false ∧ bitAt (cellSt (1 :: List.replicate 63 0)) 0 = true ∧ bitAt (cellSt (1 :: List.replicate 63 0)) 1 = false ∧
    bitAt (cellSt (3 :: List.replicate 63 0)) 1 = true ∧ bitAt (cellSt (1 :: List.replicate 63 0)) 2 = false ∧ bitAt (cellSt (5 :: List.replicate 63 0)) 2 = true ∧
    flt32.num 0x3F800000 = .fin false 0x800000 (-23) ∧ flt32.num 0x7F800000 = .inf false ∧
    (cellVal (cellPut (1 :: List.replicate 63 0) 1 (2 ^ 447 - 1)) : Int) = 2 ^ 447 - 1 ∧ (2 ^ 447 : Int) ≤ 2 ^ 447 - 1 + 1 := by decide +kernel
/-- A copy, a wait with a deadline, and its request. -/
def copy0 : Copy :=
  { id := 1, kind := .cpy, st := .active, owner := .worker 1 0, core := 0, fw := false, asid := 0, seq := 1, desc := [1, 0x400000, 64, 0, 0, 0, 0, 0],
    srcDelta := 0, dstDelta := 0, stampIa := none, barIa := none, res := { self := (0, 0), team := [] }, moved := 0, beatsDone := 0, inRegion := false, waitTags := 0 }
def wait0 (served : Option (List Word)) : Wait :=
  { kind := .mon 3, va := 64, obj := some (.hbm 0 64), word := 0, deadline := some (0, 5), arrived := true, served := served, granted := false, seq := 0,
    qs := [], fault := none, done := false }
def wWaits (served : Option (List Word)) : State :=
  team0 fun m => { (m.updCtx 0 false fun x => { x with wait := some (wait0 served) }) with
    time := 5, copies := [copy0], requests := [{ who := .worker 1 0, obj := some (.spad 0 64), kind := .sem 1, asid := 0, det := false, kept := false }] }
theorem witness_BarrierFenceWaits :
    (ctx0 inside).inRegion = true ∧ (sregs []).kp.teamSize = 0 ∧ (fw0 id).iss.fw = true ∧ (team0 id).kp.teamSize ≠ 0 ∧ (team0 id).granted = none ∧
    (sregs []).m.copies = [] ∧ (sregs []).m.commits = [] ∧ (sregs []).pre.commits = [] ∧ (sregs []).kp.mx.rt = none ∧ (sregs []).xc.fences = [] ∧
    copy0 ∈ (wWaits none).m.copies ∧ copy0.owner = (wWaits none).owner ∧ (wWaits none).m = (wWaits none).pre ∧ bitAt (8 : BitVec 8).toNat 3 = true ∧
    (wWaits none).m.homeOf (.worker 1 0) = some (0, false) ∧ ((wWaits none).m.ctx 0 false).wait = some (wait0 none) ∧
    (wait0 (some [3])).served.isSome = true ∧ ((wWaits none).m.ctx 0 false).run = .running ∧ (wWaits none).m.waiters = [] ∧
    (5 : Word) ≤ (wWaits none).m.time - 0 ∧ (sregs []).m.subs = [] ∧ (sregs []).m.peerReqs = [] ∧ (sregs []).kp.xlatReqs = [] ∧ (sregs []).xc.storeq = [] ∧ (sregs []).m.requests = [] := by decide +kernel
/-- Member 0 arrives last: member 1 has sent its TBAR (07 R196). -/
theorem witness_BarrierFenceWaits_last :
    (∀ j, j < 2 → j ≠ 0 → (team0 fun m => { m with requests := [{ who := .worker 1 1, obj := none, kind := .tbar, asid := 0, det := false, kept := false }] }).pre.hasTbar 0 1 j = true ∨
      (team0 fun m => m.updCtx 1 false fun x => { x with tbarIssued := 1 }).pre.hasTbar 0 1 j = true) ∧ (team0 id).pre.teamCopies (.worker 1 0) = false ∧
    (team0 id).pre.hasTbar 0 1 1 = false := by decide


/-! ## Witnesses: section H (copies, queues, regions) and section I -/

/-- A layout record of one f32 element from 64 to 128 of the own scratchpad, in s8 to s15; f changes it. -/
def recCpy (l : List (Nat × Word)) : State :=
  sregs ([(8, 64), (9, 128), (10, 1)] ++ l)
/-- Words of a record, checked. -/
def recAt (s : State) : List Word := (List.range 8).map fun i => s.xp.sreg (8 * (1 : BitVec 3).toNat + i)
def mapOk (s : State) (stream : Bool) : Bool := match s.copyMap (recAt s) stream with | .ok _ => true | .error _ => false
theorem witness_CopyIssue :
    (recCpy []).inRegion = false ∧ readable (recCpy []) (.s 1) = true ∧ alignCopy (recAt (recCpy [])) = none ∧
    alignCopy (recAt (recCpy [(8, 64), (15, 0x0202), (9, 66)])) = some 66 ∧ mapOk (recCpy [(8, 0x200000)]) false = false ∧
    mapOk (recCpy []) false = true ∧ mapOk (recCpy [(9, 0)]) true = true ∧
    Fmt.dec (BitVec.ofNat 8 (cSfmt (recAt (recCpy [(15, 0x10)])))) = none ∧ ¬(Fmt.dec (BitVec.ofNat 8 (cSfmt (recAt (recCpy [])))) = none) ∧
    ¬(Fmt.dec (BitVec.ofNat 8 (cDfmt (recAt (recCpy [])))) = none) ∧ badRecord (recAt (recCpy [])) false = false ∧
    badRecord (recAt (recCpy [(15, 0x10000)])) false = true ∧ badRecord (recAt (recCpy [(9, 0)])) true = false ∧
    ((recCpy []).xp.stream 3).isBound = false ∧ (recCpy []).pre.copyFull (recCpy []).owner false 0 = false ∧ cTotal (recAt (recCpy [])) = 1 := by
  decide +kernel
/-- Sixty-four copies that have not begun, and a stream that a copy feeds. -/
def wFull : State := at0 fun m =>
  ({ m with copies := List.replicate 64 { copy0 with st := .queued, owner := (at0 id).owner } }).updCtx 0 false fun x =>
    { x with q := ⟨[(3, { bound := true, copy := 1, complete := false, fifo := [7, 8] }), (4, { bound := true, copy := 2, complete := true, fifo := [9] })]⟩ }
theorem witness_CopyIssue_full : wFull.pre.copyFull wFull.owner false 0 = true ∧ (wFull.xp.stream 3).isBound = true := by decide +kernel
/-- A record that names a barrier record gains the copy's beats there. -/
theorem witness_CopyIssue_barrier :
    (match (recCpy [(14, 0x200)]).copyMap (recAt (recCpy [(14, 0x200)])) false with | .ok cm => cm.bar == some (iaOwn + 0x200) | _ => false) = true ∧
    (match ((recCpy [(14, 0x200)]).m.raiseBeats ((recCpy [(14, 0x200)]).pre.agent 0 false) 0x200 (iaOwn + 0x200) 1).2 with
      | .ok _ => true | _ => false) = true := by decide +kernel

/-- A machine with one copy of an f32 element within core 0's scratchpad, in the middle of others; c changes it. -/
def copyOwn : Copy := { copy0 with desc := [64, 128, 1, 0, 0, 0, 0, 0], srcDelta := W iaOwn, dstDelta := W iaOwn }
def wCopy (c : Copy) : State := at0 fun m =>
  { m with copies := [{ copy0 with id := 7, st := .queued }, c, { copy0 with id := 9, st := .queued }] }
theorem witness_CopyLife_order (c : Copy) : (wCopy c).m.copies = [{ copy0 with id := 7, st := .queued }] ++ c :: [{ copy0 with id := 9, st := .queued }] := rfl
theorem witness_CopyLife :
    (∀ j ∈ [{ copy0 with id := 7, st := CopySt.queued }], j.id ≠ copyOwn.id) ∧ (∀ j ∈ [{ copy0 with id := 9, st := CopySt.queued }], j.id ≠ copyOwn.id) ∧
    (∃ j ∈ [{ copy0 with id := 7, st := CopySt.queued }], j.owner = copyOwn.owner ∧ j.st = .queued) ∧
    (∀ j ∈ [{ copy0 with id := 7, st := CopySt.queued }], j.owner = Owner.bare 5 → j.st ≠ .queued) ∧
    (∀ j ∈ [{ copy0 with id := 7, st := CopySt.queued }] ++ [{ copy0 with id := 9, st := CopySt.queued }], j.st ≠ .timed) ∧
    (({ copyOwn with kind := .cpyt 0 } : Copy).tick - (wCopy copyOwn).m.time).toInt ≤ 0 ∧
    0 < (({ copyOwn with kind := .cpyt 5 } : Copy).tick - (wCopy copyOwn).m.time).toInt ∧ cTotal copyOwn.desc = 1 ∧ cTotal (copyOwn.desc.set 2 0) = 0 ∧
    copyOwn.res.of (iaTarget (wordAt copyOwn.desc 0 + copyOwn.srcDelta).toNat) = some (0, 0, 64) ∧
    copyOwn.res.of (iaTarget (wordAt copyOwn.desc 1 + copyOwn.dstDelta).toNat) = some (0, 0, 128) ∧ (wCopy copyOwn).m.accepts 0 0 = true ∧
    (wCopy copyOwn).m.badSpad 0 64 (cWs copyOwn.desc) = false ∧ (wCopy copyOwn).m.waiters = [] ∧ copyOwn.inRegion = false ∧
    copyOwn.res.of (iaTarget (iaOwn + 256)) = some (0, 0, 256) ∧ (∀ j ∈ (wCopy copyOwn).m.copies, j.id ≠ 8) := by
  decide +kernel
theorem witness_CopyLife_stop : ∃ t, ({ copyOwn with st := .failed (noted .memRange 0) } : Copy).st = .failed t ∧ t.viol = none := ⟨_, rfl, rfl⟩
/-- A VSTRM that takes elements of stream 3. -/
def wDrain : State := { wFull with pre := wFull.m.updCore 0 fun k =>
  { k with vops := [⟨false, 0, false, false, [], some { q := 3, vd := 5, w := 4, want := 4, got := 2 }, [5], false⟩] } }
/-- Streams: unbound, with two elements of a copy under way, with one of a copy that is done, and full. -/
theorem witness_CopyLife_streams :
    (wFull.xp.stream 0).isBound = false ∧ (wFull.xp.stream 3).isBound = true ∧ wFull.kp.strmBusy false 3 = false ∧ wDrain.kp.strmBusy false 3 = true ∧ wFull.granted = none ∧
    (wFull.xc.stream 3).fifo.length = 2 ∧ (wFull.xc.stream 3).complete = false ∧ (wFull.xc.stream 4).complete = true ∧
    (wFull.xc.stream 4).fifo.length < 2 ∧ wFull.iss.after = none ∧ (ctx0 inside).inRegion = true ∧
    (team0 id).m.homeOf (.worker 1 0) = some (0, false) ∧
    ((team0 fun m => m.updCtx 0 false fun x => { x with q := ⟨[(3, { bound := true, copy := 1, complete := false, fifo := List.replicate 64 0 })]⟩ }).m.streamOf
      copyOwn 3).fifo.length = 64 ∧ (wCopy copyOwn).m.inFlight 1 = false ∧
    ({ (wCopy copyOwn).m with arrivals := [{ core := 0, epoch := 0, kind := .beats 64 1 false, thread := 1 }] } : Mach).inFlight 1 = true := by decide +kernel

/-- Queue 5 of address space 0 in a state, with items. -/
def wQueue (st : Nat) (items : List QItem) : State :=
  at0 fun m => (m.updWq 5 fun w => { w with state := st, prev := 1, tail := BitVec.ofNat 32 items.length, items := items }).updCore 0 fun k => { k with wqSel := 5 }
def item0 : QItem := { words := [0x11000, 1, 2, 3, 4, 5, 6, 7], ent := none, bad := false, hold := none }
theorem witness_WorkQueues :
    readable (wQueue 1 []) .zero = true ∧ (wQueue 1 []).granted = none ∧ (wQueue 1 []).inRegion = false ∧ (ctx0 inside).inRegion = true ∧
    ((wQueue 1 []).pre.wqAt 5).cfg.toNat / 2 ^ 50 = (wQueue 1 []).xp.asid ∧
    ((wQueue 1 []).pre.wqAt 5).cfg.toNat / 2 ^ 50 ≠ (ctx0 fun x => { x with asid := 3 }).xp.asid ∧ ((wQueue 0 []).pre.wqAt 5).state = 0 ∧
    ((wQueue 3 []).pre.wqAt 5).state = 3 ∧ ((wQueue 2 []).pre.wqAt 5).state = 2 ∧ (wQueue 1 []).pre.deqBusy 5 = false ∧ (wQueue 1 []).pre.enqBusy 5 = false ∧
    ((wQueue 1 []).m.deqServe (wQueue 1 []).owner 5 false).isNone = true ∧ ((wQueue 1 [item0]).m.deqServe (wQueue 1 [item0]).owner 5 false).isSome = true ∧
    (wQueue 1 []).m.enqRoom 5 item0.words = true ∧ (wQueue 1 (List.replicate 64 item0)).m.enqRoom 5 item0.words = false ∧
    (match ((wQueue 1 []).m.enqGranules ((wQueue 1 []).pre.agent 0 false) item0.words).2 with | .ok _ => true | _ => false) = true ∧
    itemType item0.words = 1 ∧ ((wQueue 1 [item0]).m.wqAt 5).items = item0 :: [] ∧ (wQueue 1 []).m.waiters = [] := by decide +kernel
theorem witness_WorkQueues_busy : ({ (wQueue 1 []).pre with waiters := [{ who := .bare 3, obj := none, kind := .deq 5, asid := 0, det := false, kept := false },
    { who := .bare 4, obj := none, kind := .enq 5 item0.words [], asid := 0, det := false, kept := false }] } : Mach).deqBusy 5 = true ∧
    ({ (wQueue 1 []).pre with waiters := [{ who := .bare 3, obj := none, kind := .deq 5, asid := 0, det := false, kept := false },
    { who := .bare 4, obj := none, kind := .enq 5 item0.words [], asid := 0, det := false, kept := false }] } : Mach).enqBusy 5 = true := by decide +kernel
theorem witness_WorkQueueCommands :
    (wQueue 3 [item0]).m.wq = (wQueue 3 [item0]).pre.wq ∧ ((wQueue 3 [item0]).pre.wqAt ((wQueue 3 [item0]).kp.wqSel.toNat % 1024)).state = 3 ∧
    (∀ it ∈ ((wQueue 3 [item0]).pre.wqAt 5).items, it.ent = none ∧ it.bad = false) ∧ ((wQueue 3 [item0]).pre.wqAt 5).requeue = [] ∧
    (((wQueue 3 [item0]).pre.wqAt 5).tail - ((wQueue 3 [item0]).pre.wqAt 5).head).toNat = 1 ∧ 1 ≤ ((wQueue 3 [item0]).pre.wqAt 5).cap := by decide +kernel

/-- A context that holds a task of the dependence table, on a core that renames, and the same inside its region. -/
def ent0 : TdtEnt := { id := 4, die := 0, queue := 5, tid := 1, reads := [], writes := [0], asid := 0, size := 1, st := 1, noEdges := false }
def task0 : TaskRef := { tid := 1, queue := 5, item := [0x11004], ent := some 4 }
def wTask (ren : Word) (commits : List Commit) (f : Ctx → Ctx) : State := at0 fun m =>
  { ((m.updCtx 0 false fun x => f { x with tasks := [task0] }).updCore 0 fun k => { k with taskRen := ren }) with tdt := [ent0], commits := commits }
def wRegion : State := wTask 1 [] fun x => { x with region := some { region0 with task := task0 } }
def commit0 : Commit := { id := 8, owner := .bare 0, core := 0, fw := false, asid := 0, ent := some 4, queue := 5, stores := [], ops := [], ranges := Tab.empty, res := { self := (0, 0), team := [] }, det := false }
theorem witness_TaskRegions :
    (ctx0 inside).xp.region ≠ none ∧ (sregs []).xp.region = none ∧ (sregs []).xp.tasks = [] ∧ (wTask 1 [] id).xp.region = none ∧ (wTask 1 [] id).iss.fw = false ∧
    (wTask 1 [] id).xp.tasks = task0 :: [] ∧ itemNw task0.item ≠ 0 ∧ bitAt (wTask 0 [] id).kp.taskRen.toNat 0 = false ∧
    bitAt (wTask 1 [] id).kp.taskRen.toNat 0 = true ∧ (wTask 1 [] id).pre.entOf task0.ent = some ent0 ∧ wRegion.inRegion = true ∧
    wRegion.xc.region = some { region0 with task := task0 } ∧ (∀ p ∈ wRegion.xc.pend, p.err = none) ∧ wRegion.m.copies = [] ∧ wRegion.det = false ∧
    (wTask 1 [commit0] id).m.commits = [] ++ commit0 :: [] ∧ (wTask 1 [commit0] id).m.entOf commit0.ent = some ent0 ∧ commit0.ops = [] ∧
    (wTask 1 [commit0] id).m.tdtCommit ent0 = true := by decide +kernel
/-- A copy of the open region, an earlier task that holds a commit back, and an address that translates for a commit. -/
theorem witness_TaskRegions_wait :
    (∃ k ∈ (wCopy copyOwn).m.copies, k.id ∈ ({ region0 with copies := [1] } : Region).copies) ∧
    ({ (wTask 1 [commit0] id).m with tdt := [{ ent0 with id := 3, tid := 0, st := 0 }, ent0] } : Mach).tdtCommit ent0 = false := by decide +kernel
theorem witness_TaskRegions_store : ∃ m p, (memRegs []).m.translate 0 0x40 .commitWr = (m, .ok p) ∧ m.homeOf (.bare 0) = some (0, false) ∧
    m.homeOf (.worker 9 9) = none := by
  obtain ⟨m, p, h⟩ := okPair (p := (memRegs []).m.translate 0 0x40 .commitWr) (by decide +kernel)
  refine ⟨m, p, h, ?_⟩
  rw [show m = ((memRegs []).m.translate 0 0x40 .commitWr).1 by rw [h]]
  decide +kernel
/-- TEND of a region that its own bundle is to abort. -/
theorem witness_TaskRegions_doomed : ({ wRegion with iss := { wRegion.iss with doom := some (noted .memUncorrectable 0) } } : State).iss.doom ≠ none ∧
    ({ wRegion with iss := { wRegion.iss with doom := some (noted .memUncorrectable 0) } } : State).inRegion = true ∧ wRegion.iss.doom = none := by decide
def phase0 : Phase :=
  { sq := 3, begun := true, hdr := 0, launches := [], log := [], logBytes := 0, traffic := [], overflow := false, cancelled := false, run := 1, digest1 := [],
    sentAt := none, start := 0, stopped := none, report := none, starts := [], queues := Tab.empty, tdt := [], outside := [] }
/-- TEND in a deterministic phase, whose log has room or has none. -/
def wDetEnd (f : Phase → Phase) : State :=
  let s := wTask 1 [] fun x => { x with region := some { region0 with task := task0 }, detStat := 1 }
  let m : Mach := { s.m with phase := some (f phase0) }
  { s with m := m, pre := m }
theorem witness_TaskRegions_det :
    (wDetEnd id).inRegion = true ∧ (wDetEnd id).det = true ∧ (wDetEnd id).iss.doom = none ∧ (wDetEnd id).m.copies = [] ∧
    ({ region0 with task := task0 } : Region).ops = [] ∧ (wDetEnd id).m.phase = some phase0 ∧ phase0.overflow = false ∧
    phase0.logBytes + logSize ({ region0 with task := task0 } : Region).grans [] ≤ 2 ^ ((wDetEnd id).m.detBuf.toNat % 32) * 65536 ∧
    (wDetEnd fun p => { p with overflow := true }).m.phase = some { phase0 with overflow := true } := by decide +kernel
/-- An operation of a commit on memory, and one on a scratchpad that is closed. -/
def opOn (i : Instr) (ia : Nat) (v : Word) : BufOp :=
  { word := match encode i with | some (.slot _ w) => w | _ => 0, va := 0, ia := ia, opnd := v, queue := 0, item := [], grans := none }
def wLater : State :=
  let s := wTask 1 [{ commit0 with ops := [opOn (.tladd (.s 1) (.s 2)) iaOwn 1] }] id
  { s with m := s.m.updCore 0 fun k => { k with closed := true } }
theorem witness_TaskRegions_ops :
    (opOn (.tladd (.s 1) (.s 2)) 0x40 1).instr = .tladd (.s 1) (.s 2) ∧ (opOn (.tlset (.s 1) (.s 2)) 0x40 1).instr = .tlset (.s 1) (.s 2) ∧
    (opOn (.sempost (.s 1) (.s 2)) 0x40 1).instr = .sempost (.s 1) (.s 2) ∧ commit0.res.of (iaTarget 0x40) = none ∧
    (match (memRegs []).m.translate 0 0x40 .atomic with | (_, .ok (.hbm _ _)) => true | _ => false) = true ∧
    (wLater.m.tdtCommit ent0 = true ∧ wLater.m.entOf commit0.ent = some ent0) ∧
    (Mach.commitOps (.bare 0) commit0.agent false [opOn (.tladd (.s 1) (.s 2)) iaOwn 1] wLater.m).1 ≠ [] := by decide +kernel
theorem witness_CsrAccess :
    readable (sregs []) (.s 1) = true ∧ (sregs []).iss.fw = false ∧ (fw0 id).iss.fw = true ∧ (∀ o ∈ (sregs []).kp.vops, o.fw = (sregs []).iss.fw → o.drain ≠ none) ∧
    (∀ o ∈ wDrain.kp.vops, o.fw = wDrain.iss.fw → o.drain ≠ none) ∧ ¬(∀ o ∈ (wVops false).kp.vops, o.fw = (wVops false).iss.fw → o.drain ≠ none) ∧ rangeWordsOk 0 0x17FFFF (W iaOwn) 0xF = true ∧ rangeWordsOk 0 0x17FFFF (W iaOwn) 0x10 = false := by
  decide +kernel

/-- A core whose ring 1 holds one of eight items and whose ring 2 is a Mould's; a machine with a stopped phase. -/
def cfgOwn : Word := 0x8000000000002088
def wRing : State := core0 fun k => { k with ringCfg := ⟨[(1, cfgOwn), (2, 0x9400000000002088)]⟩, ring := ⟨[(1, { RingSt.reset with w := 1 })]⟩ }
theorem witness_CsrCommands_rings :
    ((0x0101 : Word).toNat / 2 ^ 16 = 0 ∧ (0x0101 : Word).toNat / 16 % 16 = 0 ∧ (0x0101 : Word).toNat / 256 % 256 ≠ 0) ∧ ringV (wRing.kp.ringCfgOf 1) = true ∧
    ringV (wRing.kp.ringCfgOf 0) = false ∧ ringProd (wRing.kp.ringCfgOf 1) = 0 ∧ ringProd (wRing.kp.ringCfgOf 2) ≠ 0 ∧ ringCons (wRing.kp.ringCfgOf 1) = 0 ∧
    ringCons (wRing.kp.ringCfgOf 2) ≠ 0 ∧ (wRing.kp.ringOf 1).free (wRing.kp.ringCfgOf 1) = 7 ∧ (wRing.kp.ringOf 1).full = 1 ∧ (wRing.kc.ringOf 1).lent = [] ∧
    ringCfgBad (cfgOwn.toNat) = false ∧ ringCfgBad 1 = false ∧ ringCfgBad (2 ^ 63) = true ∧ ¬((∃ x ∈ wRing.pre.subs, wRing.pre.serves x 0 1 = true) ∨ wRing.kp.mx.rt ≠ none) ∧
    wBusy.kp.mx.rt ≠ none ∧ (wRing.kp.ringOf 1).lentCount = 0 ∧ wRing.m.genBusy = false ∧ (at0 fun m => { m with genBusy := true }).m.genBusy = true := by
  decide +kernel
def wPhase (f : Phase → Phase) : State := at0 fun m => { m with phase := some (f phase0) }
theorem witness_CsrCommands_phase : (∀ p, (wPhase id).pre.phase = some p → p.stopped = none) ∧
    (wPhase fun p => { p with stopped := some 3 }).pre.phase = some { phase0 with stopped := some 3 } := by
  refine ⟨fun p h => ?_, by decide⟩
  cases show some phase0 = some p from h
  rfl
/-- A record of words at 0x400 of a core whose ring 2 a Mould produces. -/
def wRec (l : List Nat) : State := at0 fun m => m.updCore 0 fun k =>
  { k with spad := k.spad.write 0x400 (l.flatMap fun w => bytesOfNat 8 w), ringCfg := ⟨[(2, 0x9400000000002088)]⟩ }
def recMould : List Nat := [64, 0, 0, 0, 1, 0x100000004, 0, 0, 0, 0, 2]
def recAop : List Nat := [64, 0, 0, 0, 0, 0x0D00]
theorem witness_CsrCommands_records :
    (0x400 : Word).toNat % 128 = 0 ∧ (0x410 : Word).toNat % 64 ≠ 0 ∧
    (match reach (wRec recMould) 0x400 128 true false with | .ok t => t == .own 0x400 | _ => false) = true ∧
    (match reach (wRec recMould) 0x200000 128 true false with | .ok _ => false | _ => true) = true ∧
    (match reach (memRegs []) 0x400000 128 true false with | .ok (.own _) => false | .ok _ => true | _ => false) = true ∧
    (wRec recMould).pre.badSpad 0 0x400 128 = false ∧
    (let r := wordsOfBytes 16 ((wRec recMould).drained.m.spadRead 0 0x400 128)
     alignSub r = none ∧ (match (wRec recMould).subMaps r true with | .ok (_, cm) => cm.bar == none | _ => false) = true ∧ badSub (wRec recMould).kp r = false ∧ badBank (wRec recMould).kp r = false ∧
     (Fmt.dec (BitVec.ofNat 8 (uMfmt r))).isSome = true ∧ (wRec recMould).subRing r true = none ∧ uTiles r ≠ 0) ∧ (wRec recMould).drained.m.subs = [] ∧
    (let r := wordsOfBytes 8 ((wRec recAop).drained.m.spadRead 0 0x400 64)
     (wRec recAop).det = false ∧ (wordAt r 0).toNat % modBytes ((wordAt r 5).toNat % 4) = 0 ∧
     mapVa (wRec recAop).xp.ranges (wordAt r 0).toNat (modBytes ((wordAt r 5).toNat % 4)) true true false = some (iaOwn + 64) ∧
     (match (wRec recAop).spotMap (wordAt r 3) 8 with | .ok x => x == none | _ => false) = true ∧ badAop r = false) := by decide +kernel
/-- A record in HBM, at IA 0x400, whose rows lie from 64 on of the own scratchpad, or where no range reaches. -/
def wFar (data : Nat) : State :=
  mem0 fun m => { m with hbm := ⟨[(0, pages.write 0x20000400 ((recMould.set 0 data).flatMap fun w => bytesOfNat 8 w))]⟩ }
def farRec (s : State) : List Word := (s.recordAt s.drained 0x400400 16).getD []
theorem witness_CsrCommands_far :
    (match reach (wFar 64) 0x400400 128 true false with | .ok t => t == .mem 0x400 | _ => false) = true ∧
    ((wFar 64).recordAt (wFar 64).drained 0x400400 16).isSome = true ∧ alignSub (farRec (wFar 64)) = none ∧
    alignSub ((farRec (wFar 64)).set 8 4) = some 4 ∧ (match (wFar 64).subMaps (farRec (wFar 64)) true with | .ok _ => true | _ => false) = true ∧
    (match (wFar 0x300000).subMaps (farRec (wFar 0x300000)) true with | .error e => e.1 == .memRange | _ => false) = true ∧
    ((wFar 64).recordAt (wFar 64).drained 0x600000 16).isNone = true := by decide +kernel
/-- A remote atomic that exchanges, in a deterministic phase. -/
def wAopDet : State := (wRec (recAop.set 5 0x1300)).updX (fun x => { x with detStat := 1 })
theorem witness_CsrCommands_det :
    (let s : State := { wAopDet with pre := wAopDet.m }
     s.inRegion = false ∧ s.det = true ∧ (s.recordAt s.drained 0x400 8).map (fun d => (wordAt d 5).toNat / 2 ^ 8 % 2 ^ 8) = some 0x13) := by decide +kernel
theorem witness_TranslationInvalidate :
    readableAll (sregs []) [.s 1, .s 2] = true ∧ ¬((2 ^ 14 : Word)).toNat < 2 ^ 14 ∧ (0x10000 : Word).toNat % 2 ^ 16 = 0 ∧ (sregs []).m.waiters = [] ∧ (8 : Word).toNat % 2 ^ 16 ≠ 0 ∧
    ((core0 fun k => { k with xlatReqs := [{ num := BitVec.ofNat 64 1, asid := 0, page := 0 }] }).m.core 0).xlatReqs =
      [{ num := BitVec.ofNat 64 1, asid := 0, page := 0 }] ∧ (core0 fun k => { k with xlatSeq := 1 }).m.waiters = [] := by decide +kernel

/-! ## Witnesses: sections J and K -/

/-- A Mould of two tiles of four bytes from 64 of the own scratchpad into ring 2, and a Press from ring 3; f changes the core. -/
def sub0 : Sub :=
  { id := 1, mould := true, owner := .bare 0, core := 0, fw := false, asid := 0, desc := (recMould.set 4 2).map W ++ List.replicate 5 0, addrDelta := W iaOwn,
    scaleDelta := 0, stampIa := none, barIa := none, res := { self := (0, 0), team := [] }, tile := 0, whole := 0, err := none, stopped := false, beatsLeft := 0,
    owed := 0, waitTags := 0 }
def wUnit (x : Sub) (f : Core → Core) : State := at0 fun m => { m.updCore 0 (fun k => f { k with
  ringCfg := ⟨[(2, 0x9402000000002088), (3, 0x8800000001042088)]⟩, ring := ⟨[(3, { RingSt.reset with w := 1 })]⟩ }) with subs := [x] }
def press0 : Sub := { sub0 with mould := false, desc := sub0.desc.set 10 3 }
theorem witness_EngineEvents_mould :
    (wUnit sub0 id).m.subOf 0 = none ∧ (wUnit sub0 id).m.subOf 1 = some sub0 ∧ (wUnit sub0 id).m.ringAtOf sub0 = .core 0 ∧
    sub0.tile < uTiles sub0.desc ∧ (((wUnit sub0 id).m.core 0).ringOf 2).free (((wUnit sub0 id).m.core 0).ringCfgOf 2) ≠ 0 ∧
    (match Mach.tileRows sub0 0x0F (uRows sub0.desc) 0 (wUnit sub0 id).m with | (m1, .ok bs) => (m1.ringPut 0 sub0.ring bs).isSome | _ => false) = true ∧
    (match Mach.tileRows { sub0 with addrDelta := 0 } 0x0F (uRows sub0.desc) 0 (wUnit sub0 id).m with | (_, .error _) => true | _ => false) = true ∧
    (((wUnit sub0 fun k => { k with ring := ⟨[(2, { RingSt.reset with w := 8 })]⟩ }).m.core 0).ringOf 2).free
      (((wUnit sub0 fun k => { k with ring := ⟨[(2, { RingSt.reset with w := 8 })]⟩ }).m.core 0).ringCfgOf 2) = 0 ∧
    (wUnit sub0 id).m.inFlight 1 = false ∧ sub0.err = none ∧ sub0.stopped = false ∧ uTiles ({ sub0 with tile := 2 } : Sub).desc ≤ 2 := by decide +kernel
theorem witness_EngineEvents_press :
    (wUnit press0 id).m.subOf 1 = some press0 ∧ press0.owed = 0 ∧ press0.waitTags = 0 ∧ (wUnit press0 id).m.inFlight 1 = false ∧ (wUnit press0 id).m.ringAtOf press0 = .core 0 ∧ press0.tile < uTiles press0.desc ∧
    (((wUnit press0 id).m.core 0).ringOf 3).full ≠ 0 ∧ (∀ e ∈ (((wUnit press0 id).m.core 0).ringOf 3).lent, e.1 ≠ 0) ∧
    (wUnit press0 id).m.badSpad 0 (ringItemAt (((wUnit press0 id).m.core 0).ringCfgOf 3) 0) (uSlotBytes press0.desc 0x0F) = false ∧
    (match Mach.pressRows press0 0x0F (uRows press0.desc) 0 ((wUnit press0 id).m.spadRead 0 (ringItemAt (((wUnit press0 id).m.core 0).ringCfgOf 3) 0)
        (uSlotBytes press0.desc 0x0F)) (wUnit press0 id).m with
      | (m1, .ok n) => n == 0 && ((m1.updSub 1 fun y => { y with tile := y.tile + 1, owed := y.owed + 1 }).subOf 1).isSome | _ => false) = true := by
  decide +kernel
theorem witness_EngineEvents_stop : ∃ t, (wUnit { sub0 with err := some (noted .memRange 0) } id).m.subOf 1 = some { sub0 with err := some t } ∧ t.viol = none ∧
    (wUnit { sub0 with err := some (noted .memRange 0) } id).m.ringAtOf { sub0 with err := some t } = .core 0 :=
  ⟨noted .memRange 0, by decide, rfl, by decide⟩
/-- A full ring 2 whose Mould waits; the same ring with a lent item whose slot is free. -/
def wLent (r : RingSt) : State := wUnit sub0 fun k => { k with ring := ⟨[(2, r)]⟩ }
def full2 : RingSt := { RingSt.reset with w := 8 }
theorem witness_EngineEvents_lent :
    ((wLent full2).m.wantsLent 0 2 = true ∧ ((((wLent full2).m.core 0).ringOf 2).lent.length + 0 < ((wLent full2).m.core 0).ringCfgOf 2 / 2 ^ 48 % 256 ∧
      (wLent full2).m.lentNext (0, 0, 2) = true ∧ (wLent full2).m.poolRoom 0 (ringBytes (((wLent full2).m.core 0).ringCfgOf 2)) = true)) ∧
    ({ (wLent full2).m with lentQ := [(0, 0, 2)] } : Mach).lentNext (0, 0, 2) = true ∧ ({ (wLent full2).m with lentQ := [(0, 0, 2)] } : Mach).lentNext (0, 0, 3) = false ∧
    (wLent RingSt.reset).m.wantsLent 0 2 = false ∧ (((wLent full2).m.core 0).ringOf 2).lent = [] ∧
    (((wLent { full2 with w := 9, r := 1, lent := [(8, [1])] }).m.core 0).ringOf 2).lent = (8, [1]) :: [] ∧ (BitVec.ofNat 32 8 - 1).toNat < ringSlots (((wLent full2).m.core 0).ringCfgOf 2) := by
  decide +kernel
def arrival0 : Arrival := { core := 0, epoch := 0, kind := .beats 64 1 false, thread := 1 }
theorem witness_EngineEvents_arrivals : (wUnit sub0 id).m.arrivals = [] ∧
    (at0 fun m => { m with arrivals := [arrival0] }).m.arrivals = arrival0 :: [] ∧ (at0 fun m => { m with arrivals := [arrival0] }).m.accepts arrival0.core arrival0.epoch = true := by
  decide

/-- Queue 3, served by core 0, with one record of a kind at IA 0x1000, and a block that maps the counter at IA 0x20000040; f changes the core. -/
def wSq (st : Nat) (ws : List Nat) (f : Core → Core) : State :=
  mem0 fun m => (({ m with hbm := ⟨[(0, ((pages.write 0x10008 [0x79, 3, 0, 0x40]).write 0x20001000 (ws.flatMap fun w => bytesOfNat 8 w)).write 0x40000040 [3])]⟩ } : Mach).updSq 3 fun x =>
    { x with base := 0x1000, cfg := sqCfgWord 0x8000000000000004, tail := 1, state := st }).updCore 0 f
def fed (k : Core) : Core := { k with wdogFed := true }
def wNop : State := wSq 1 [0x300000000000000] fed
def wWait (st v : Nat) : State := wSq st [0x200000000000000, 0x20000040, v] fed
def servedOk (s : State) (kind : Nat) : Bool := match s.m.serve 3 with | some (r, _) => recKind r == kind | none => false
def turn3 (s : State) : Bool :=
  (s.m.sqAt 3).cp == some 0 && s.m.powered 0 && (s.m.core 0).wdogFed && s.m.sqPick true ((s.m.sqsOf 0).filter fun p => (s.m.serve p).isSome) == some 3
theorem witness_QueueEvents_records : turn3 wNop = true ∧ servedOk wNop 3 = true ∧ turn3 (wWait 1 2) = true ∧ servedOk (wWait 1 2) 2 = true ∧
    turn3 (wSq 1 [0x100000000000000] fed) = true ∧ servedOk (wSq 1 [0x100000000000000] fed) 1 = true := by decide +kernel
theorem witness_QueueEvents_nop : (wNop.m.sqAt 3).en = true ∧ (wNop.m.sqAt 3).state = 1 ∧ 0 < (wNop.m.sqAt 3).avail ∧ wNop.m.aheadAt 3 (wNop.m.sqAt 3).next = none ∧ (wSq 1 [0x100000000000000] id).m.aheadAt 3 0 = none ∧
    (match wNop.m.sqRec 3 (wNop.m.sqAt 3).next with | (_, .ok r) => recKind r == 3 | _ => false) = true ∧
    ((sregs []).m.sqAt 3).cp = some 0 ∧ ((at0 fun m => m.updSq 3 fun x => { x with cfg := 0x3800 }).m.sqAt 3).cp = none := by decide +kernel
theorem witness_QueueEvents_fallback : ((wSq 1 [0x300000000000000] id).m.core 0).wdogFed = false ∧ (wSq 1 [0x300000000000000] id).m.powered 0 = true ∧
    (wSq 1 [0x300000000000000] id).m.sqsOf 0 = [3] ∧
    (match (wSq 1 [0x100000000000000] id).m.sqRec 3 0 with | (m1, .ok r) => (m1.tryHead 3 r true).isSome | _ => false) = true := by decide +kernel
def waitMet (s : State) : Option Bool :=
  match s.m.sqRec 3 (s.m.sqAt 3).next with
  | (m1, .ok r) =>
    if m1.waitCancelled 3 then none
    else match m1.cpRead (m1.cpOf 3) (m1.sqAt 3).asid (wordAt r 1).toNat 8 with
      | (_, .ok bs) => some (decide ((wordOfBytes bs - wordAt r 2).toNat < 2 ^ 63))
      | _ => none
  | _ => none
theorem witness_QueueEvents_waits : (((wWait 3 2).m.sqAt 3).state = 3 ∧ waitMet (wWait 3 2) = some true) ∧ waitMet (wWait 3 5) = some false := by decide +kernel
theorem witness_QueueEvents_tail :
    (2 ^ ((wNop.m.sqAt 3).cfg.toNat % 32) < ((17 : BitVec 32) - (wNop.m.sqAt 3).head).toNat ∧ ((16 : BitVec 32) - (wNop.m.sqAt 3).head).toNat ≤ 16) ∧
    ((sregs []).m.sqAt 3).state = 0 ∧ wNop.m.launches = [] ∧ ((wSq 2 [] fed).m.sqAt 3).state = 2 ∧ (wSq 2 [] fed).m.phaseRec = [] ∧
    ((1 : BitVec 32) - ((wSq 2 [] fed).m.sqAt 3).head).toNat ≤ (((wSq 2 [] fed).m.sqAt 3).tail - ((wSq 2 [] fed).m.sqAt 3).head).toNat ∧
    (sqCfgWord ((0x500000004 : Word) ||| BitVec.ofNat 64 (2 ^ 63))).toNat / 2 ^ 32 % 2 ^ 14 ≠ 0 := by decide +kernel
theorem witness_QueueEvents_cancel :
    (State.reset.m.launches = [] ∧ State.reset.m.phase = none ∧ State.reset.m.sq = Tab.empty ∧ State.reset.m.cores = Tab.empty) ∧
    ((team0 id).m.launches = [launch0] ∧ (team0 id).m.sq = Tab.empty ∧ launch0.recorded = false ∧ launch0.retired = false ∧ launch0.ahead = false) ∧
    (∀ p ∈ [0, 1, 2, 3], cancelHits p 0 launch0.head = true) ∧
    (∀ p ∈ [0, 1, 2, 3], (Mach.cancelTaken { (team0 id).m with phase := (team0 id).m.phase.map fun y => y.onCancel p 0 [launch0] } launch0 p).sq = Tab.empty) := by decide +kernel
theorem witness_QueueEvents_late :
    ((wNop.m.core 0).wdogFed = true ∧ wNop.m.powered 0 = true ∧ ¬(wNop.m.core 0).wdt < (wNop.m.time - (wNop.m.core 0).wdogTick).toNat) ∧
    ((at0 fun m => { m.updCore 0 fed with time := 10000001 }).m.core 0).wdt <
      ((at0 fun m => { m.updCore 0 fed with time := 10000001 }).m.time - ((at0 fun m => { m.updCore 0 fed with time := 10000001 }).m.core 0).wdogTick).toNat ∧
    (core0 fun k => { k with c1 := { k.c1 with run := .halted } }).m.powered 0 = true ∧
    ((core0 fun k => { k with c1 := { k.c1 with run := .halted } }).m.core 0).c1.run = .halted ∧ (wNop.m.core 0).c1.run ≠ .halted := by
  decide +kernel

/-- A switch of the team of launch 1 that no member has left yet; the same with member 0 away and picked for core 0. -/
def susp0 : Susp := { launch := 1, team := 0, rank := 0, away := false, dead := false, pick := none, targets := [], members := [], back := [] }
def member0 : SuspMember :=
  { launch := 1, lcid := 0, swimg := 0, core := 0, epoch := 0, kept := Ctx.reset, ringCfg := Tab.empty, ringLent := Tab.empty, pushed := Tab.empty, bfmt := Tab.empty }
def wSwitch (y : Susp) (f : Core → Core) : State :=
  team0 fun m => { (m.updCtx 0 false fun x => { x with wait := some (wait0 none) }).updCore 0 f with susp := [y] }
def doomed : State := team0 fun m => { m with launches := [{ launch0 with killedTeams := [0] }] }
def wDone : State := team0 fun m => { m.updCtx 0 false (fun x => { x with run := .halted }) with launches := [{ launch0 with retired := true }] }
theorem witness_LaunchAndSwitchEvents_workers :
    (wDone.m.ctx 0 false).owner = some (1, 0) ∧ wDone.m.partDone 0 = true ∧ (team0 id).m.partDone 0 = false ∧ (team0 id).m.susp = [] ∧
    doomed.m.teamDoomed 0 = true ∧ (team0 id).m.teamDoomed 0 = false ∧ ((team0 id).m.core 0).cands = [] ∧
    wDone.m.recReady { launch0 with retired := true } = true ∧ wDone.m.launchOf 1 = some { launch0 with retired := true } ∧
    (team0 id).m.recReady launch0 = false ∧ (team0 id).m.launchOf 2 = none := by decide +kernel
/-- The team on its way back. -/
def wBack : State := wSwitch { susp0 with away := true, targets := [(0, 0)], members := [member0] } id
theorem witness_LaunchAndSwitchEvents_switch :
    (wSwitch susp0 fun k => { k with switchTo := true }).m.teamAt 0 = some (launch0, 0) ∧ (wSwitch susp0 id).m.switching launch0 0 = some susp0 ∧
    ((wSwitch susp0 fun k => { k with switchTo := true }).m.core 0).switchTo = true ∧ ((wSwitch susp0 id).m.core 0).stop = none ∧
    ((wSwitch susp0 id).m.ctx 0 false).holdsWait = true ∧ ¬((wSwitch susp0 id).m.teamCores launch0 0 = [] ∧ susp0.members ≠ []) ∧
    wBack.m.resuming 0 = some ({ susp0 with away := true, targets := [(0, 0)], members := [member0] }, member0) ∧
    ((wSwitch susp0 id).m.core 0).mx.busy = false ∧ (wSwitch susp0 id).m.lentRoom member0 0 = true := by decide +kernel
theorem witness_LaunchAndSwitchEvents_back :
    ((wBack.m.restoreMember member0 0).susp.find? fun z => z.launch == susp0.launch && z.team == susp0.team).isSome = true := by decide +kernel
theorem witness_LaunchAndSwitchEvents_handover :
    (team0 fun m => { (m.updCtx 0 false fun x => { x with run := .halted }).updCtx 1 false (fun x => { x with run := .halted }) with
      susp := [{ susp0 with members := [member0] }] }).m.teamCores launch0 0 = [] := by decide +kernel
/-- A phase whose one launch has retired, on queue 3, whose LASTP record has been taken. -/
def wBound (f : Phase → Phase) (cfg : Word) : State := at0 fun m =>
  { m with phase := some (f { phase0 with launches := [1] }), launches := [{ launch0 with retired := true, recorded := true }], phaseRec := [{ sq := 3, last := some [], det := true }],
           replCfg := cfg, time := 100 }
def frame0 (ty dst : Nat) : Frame := { port := 0, hdr := [W (ty * 2 ^ 56 + 7 * 2 ^ 16 + dst), 0, 0xD00, 0, 0, 0, 0, 0], payload := [] }
def wPeer (f : Mach → Mach) : State := at0 fun m => f { m with peerMap := ⟨[(0, 0x8000000000000007)]⟩ }
theorem witness_LaunchAndSwitchEvents_phase :
    (at0 id).m.phase = none ∧ (wBound id 0).m.atBoundary { phase0 with launches := [1] } = true ∧ (wPhase id).m.atBoundary phase0 = false ∧
    ((wBound id 0).m.replCfg.getLsbD 63 = false) ∧ ({ phase0 with sentAt := some 1 } : Phase).report = none ∧
    ((wBound id 98).m.replCfg.toNat % 2 ^ 48 ≠ 0 ∧ (wBound id 98).m.replCfg.toNat % 2 ^ 48 < ((wBound id 98).m.time - 1).toNat) ∧
    (wBound id 0).m.replCfg.toNat % 2 ^ 48 = 0 ∧ bitAt (wBound id 0).m.portDown.toNat 0 = false ∧
    (wPeer id).m.knows (frame0 4 0) = true ∧ (wPeer id).m.knows (frame0 4 1) = false ∧ frTy (frame0 4 0) = 4 ∧
    (wPeer fun m => { m with replCfg := 0x8000000000000000 }).m.replCfg.getLsbD 63 = true := by decide +kernel
theorem witness_MarginAndPowerEvents_core :
    (State.reset.m.powered 0 = true ∧ (at0 fun m => { m with power := { m.power with off := true } }).m.powered 0 = false) ∧
    ((at0 fun m => (m.updCtx 0 false fun x => { x with run := .halted }).updCore 0 fun k => { k with ilimit := 0, weights := [1] }).m.arbiter 0 = none ∧
      (at0 fun m => (m.updCtx 0 false fun x => { x with run := .halted }).updCore 0 fun k => { k with ilimit := 0, weights := [1] }).m.mustFreeze 0 [] = true) ∧
    ((sregs []).m.arbiter 0 = some false ∧ (sregs []).m.mustFreeze 0 ((sregs []).m.nextWords 0 false) = false ∧
      (core0 fun k => { k with ilimit := 0, weights := [1] }).m.mustFreeze 0 ((core0 fun k => { k with ilimit := 0, weights := [1] }).m.nextWords 0 false) = true) ∧
    (((sregs []).m.ctx 0 false).run = .running ∧ ((sregs []).m.core 0).margin.four0 = false ∧ ((sregs []).m.core 0).margin.four1 = false ∧
      (((sregs []).m.core 0).margin.row false + 1) % 8 ≠ 0 ∧ ((sregs []).m.core 0).margin.wrep + 1 ≤ (sregs []).m.dkcfg.toNat / 2 ^ 24 % 256) ∧
    ((sregs []).m.core 0).margin.settle = none ∧ ((sregs []).m.core 0).margin.state = 0 ∧ ((sregs []).m.core 0).holds = true ∧
    (State.reset.m.core 0).holds = false := by decide +kernel
/-- A core with a settling regulator, a full window, an entry to write and a fence commanded. -/
def wMargin : State :=
  { State.reset with m := (State.reset.m.awake.updCore 0 fun k => { k with margin := { k.margin with settle := some 5, retired := 2 ^ 20, dirty := true, state := 1 } }) }
theorem witness_MarginAndPowerEvents_due :
    (wMargin.m.core 0).margin.settle = some 5 ∧ 0 ≤ (({ wMargin.m with time := 6 } : Mach).time - 5).toInt ∧ 2 ^ 20 ≤ (wMargin.m.core 0).margin.retired ∧
    ((wMargin.m.core 0).margin.dirty = true ∧ wMargin.m.power.off = false ∧ 86400000000000 ≤ (({ wMargin.m with time := 86400000000000 } : Mach).time - (wMargin.m.core 0).margin.lastWrite).toNat) ∧
    ((wMargin.m.core 0).margin.state = 1 ∧ (wMargin.m.core 0).holds = false) := by decide +kernel
/-- A link that trains, one that has failed twice, and a machine that gates die 0, scrubs and tests itself. -/
def wPower : State := { State.reset with m := { State.reset.m.awake with
  links := ⟨[(0, { rate := 2, training := true, fails := 0, down := false }), (11, { rate := 2, training := true, fails := 2, down := false })]⟩,
  power := { State.reset.m.awake.power with dieGate := 1, hbmSr := 1, pstate := 1 }, scrub := 0x118, stStatus := 3 } }
def wGated : State := { wPower with m := { wPower.m with power := { wPower.m.power with gated := 1 } } }
theorem witness_MarginAndPowerEvents_power :
    ((0x40 : Word).toNat / 256 % 128 < (0x40 : Word).toNat % 128 ∧ (0x6040 : Word).toNat % 128 ≤ (0x6040 : Word).toNat / 256 % 128) ∧
    (wPower.m.power.pstate ≤ 2 ∧ (0 : BitVec 2) < wPower.m.power.pstate) ∧
    ((wPower.m.linkAt 0).training = true ∧ (wPower.m.linkAt 0).fails < 2 ∧ 2 ≤ (wPower.m.linkAt 11).fails ∧ (wPower.m.linkAt 1).training = false ∧
      (wPower.m.linkAt 1).down = false ∧ 0 < (wPower.m.linkAt 1).rate ∧ ({ wPower.m with links := ⟨[(1, { rate := 2, training := false, fails := 0, down := false })]⟩ } : Mach).linkAt 1 =
        { rate := 2, training := false, fails := 0, down := false }) ∧
    (wPower.m.power.dieGate.getLsbD 0 = true ∧ wPower.m.power.gated.getLsbD 0 = false ∧ wPower.m.power.dieGate.getLsbD 1 = false ∧ wGated.m.power.gated.getLsbD 0 = true) ∧
    (wPower.m.power.hbmSr.getLsbD 0 = true ∧ wPower.m.power.hbmSr.getLsbD 1 = false ∧ (∀ w ∈ wPower.m.waiters, w.inStack 0 = false)) ∧
    (wPower.m.scrub.getLsbD 8 = true ∧ wPower.m.power.off = false ∧ (0 : Word).getLsbD 8 = false) ∧ wPower.m.stStatus = 3 ∧ State.reset.m.stStatus ≠ 3 ∧
    (wGated.m.power.dieGate.getLsbD 0 = true ∧ wGated.m.power.gated.getLsbD 0 = true) := by
  decide +kernel
theorem witness_MarginAndPowerEvents_empty : ∀ c, 48 * 0 ≤ c → c < 48 * 0 + 48 → (wPower.m.core c).holds = false := by
  intro c _ _
  simp only [show wPower.m.core c = Core.reset from rfl]
  decide
/-- Snowdrop running on a device whose owner slot 1 is enrolled, and a main image of the vendor's key; whether it verifies is its signature's matter (log 8). -/
def img0 : List Byte := [0x44, 0x54, 0x48, 0x5A] ++ List.replicate (imgBytes 0 - 4) 0
def wSnow : State := { State.reset with m := { State.reset.m with trust := { State.reset.m.trust with
  image := 1, status := 2, main := img0, vendor := sha256 (imgKey img0), slots := ⟨[(1, { hash := [], enrolled := true, revoked := false })]⟩ } } }
theorem img0_verifies : wSnow.m.trust.verify img0 = imgSigned img0 := by
  have h : imgFormed img0 = true := by decide +kernel
  have h1 : imgSlot img0 = 0 := by decide +kernel
  have h2 : imgSvn img0 = 0 := by decide +kernel
  simp [Trust.verify, h, h1, h2, wSnow, State.reset, Mach.reset, Trust.reset]
theorem witness_BootHostPeerEvents_boot :
    (wSnow.m.trust.image = 1 ∧ wSnow.m.trust.status = 2) ∧ ¬(State.reset.m.trust.image = 1 ∧ State.reset.m.trust.status = 2) ∧
    (wSnow.m.trust.slots.get KeySlot.reset 2).enrolled = false ∧
    (∃ i, 1 ≤ i ∧ i ≤ 4 ∧ (wSnow.m.trust.slots.get KeySlot.reset i).enrolled = true ∧ (wSnow.m.trust.slots.get KeySlot.reset i).revoked = false) ∧
    wSnow.m.trust.verify (wSnow.m.staging 0) = false :=
  ⟨by decide, by decide, by decide, ⟨1, by decide, by decide, by decide, by decide⟩,
    by have : imgFormed (wSnow.m.staging 0) = false := by decide +kernel
       simp [Trust.verify, this]⟩
theorem witness_BootHostPeerEvents_host :
    ((core0 fun k => { k with dbg := { k.dbg with attach := true } }).m.core 0).dbg.attach = true ∧
    ((ctx0 fun x => { x with run := .debug }).m.core 0).c0.run = .debug ∧ bitAt (at0 fun m => { m with msixPend := 1 }).m.msixPend.toNat 0 = true ∧
    bitAt (at0 fun m => { m with msixPend := 1, msixSent := 1 }).m.msixSent.toNat 0 = true ∧ bitAt (at0 fun m => { m with msixPend := 1 }).m.msixSent.toNat 0 = false ∧
    (at0 id).m.homeFault ((at0 id).m.trust.attDst.toNat / 2 ^ 36 % 16) = none ∧
    bitAt (at0 id).m.msixPend.toNat 0 = false ∧ (at0 id).m.power.off = false ∧ (at0 id).m.homeFault 0 = none := by decide +kernel
def tagged (f : Frame) : PeerReq := { tag := frTag f, port := f.port, for_ := .store }
/-- A scalar store of core 0 to a peer whose answer is still out. -/
def wScalar : State := wPeer fun m => { (m.updCtx 0 false fun x => { x with peerSt := some (some (frTag (frame0 3 0))) }) with
  peerReqs := [{ tag := frTag (frame0 3 0), port := 0, for_ := .scalar (.bare 0) 0x400FFC }] }
theorem witness_BootHostPeerEvents_peers :
    (wPeer id).m.knows (frame0 1 1) = false ∧ (wPeer id).m.knows (frame0 1 0) = true ∧ frTy (frame0 1 0) = 1 ∧ (wPeer id).m.homeFault (frAt (frame0 1 0)).1 = none ∧
    (wPeer id).m.knows (frame0 2 0) = true ∧ frTy (frame0 2 0) = 2 ∧ (wordAt (frame0 2 0).hdr 2).toNat / 256 % 4 = 1 ∧ frTy (frame0 3 0) = 3 ∧
    (wordAt (frame0 3 0).hdr 6).toNat % 256 = 0 ∧ bitAt (at0 fun m => { m with portDown := 1 }).m.portDown.toNat 0 = true ∧ (at0 id).m.peerReqs = [] ∧
    bitAt (at0 id).m.portDown.toNat 0 = false ∧
    (wScalar.m.homeOf (.bare 0) = some (0, false) ∧ (wScalar.m.ctx 0 false).peerSt = some (some (frTag (frame0 3 0))) ∧
      wScalar.m.peerReqs.map (fun r => (r.tag, r.port)) = [(frTag (frame0 3 0), 0)]) := by decide +kernel
theorem witness_StepKeepsForm : (mem0 id).pre = (mem0 id).m ∧ (stepped (mem0 id) fun _ => ()) = some () := by decide +kernel

/-! ## Engines, synchronisation, atomics and system: results by hand from chapters 07, 10 and 12 -/

/-- The first copy of a context is number 1 (07 R184). -/
theorem test_cpy : after (.cpy (.s 3) 1) (recCpy []) (fun t => (t.xc.sreg 3, t.xc.cpySeq, t.m.copies.map Copy.seq)) = some (1, 1, [1]) ∧
    after (.cpy (.s 3) 1) (recCpy [(13, 4)]) trapOf = some (1, 0x18, 4) := by decide +kernel
/-- Its tick has come: it does not wait in the timed buffer (07 R184). -/
theorem test_cpyt : after (.cpyt (.s 3) 1 (.s 1)) (recCpy []) (fun t => t.m.copies.map Copy.st) = some [.active] ∧
    after (.cpyt (.s 3) 1 (.s 1)) (recCpy [(1, 9)]) (fun t => t.m.copies.map Copy.st) = some [.timed] := by decide +kernel
theorem test_sbind : after (.sbind 5 1) (recCpy [(9, 0)]) (fun t => (t.xc.stream 5).isBound) = some true := by decide +kernel
theorem test_sadv : after (.sadv 3 (.s 1)) { wFull with m := wFull.m.updCtx 0 false fun x => x.setS 1 1, pre := wFull.pre.updCtx 0 false fun x => x.setS 1 1 }
    (fun t => (t.xc.stream 3).fifo) = some [8] := by decide +kernel
/-- A byte of 0x5A lands at 128; the copy is gone (07 R186). -/
theorem test_copyComplete : after (.copyComplete 1) { wCopy copyOwn with m := (wCopy copyOwn).m.spadWrite 0 64 [0x5A] }
    (fun t => (t.m.spadRead 0 128 1, t.m.copies.length)) = some ([0x5A], 2) := by decide +kernel
theorem test_copyStart : after (.copyStart 7) (wCopy copyOwn) (fun t => t.m.copies.map Copy.st) = some [.active, .active, .queued] ∧
    after (.copyStart 9) (wCopy copyOwn) (fun t => t.m.copies.map Copy.st) = some [.queued, .active, .queued] := by decide +kernel
/-- The third element of a stream, widened (07 R188). -/
theorem test_streamAppend : after (.streamAppend 1) (at0 fun m => { ((m.updCtx 0 false fun x =>
      { x with q := ⟨[(3, { bound := true, copy := 1, complete := false, fifo := [7, 8] })]⟩ }).updCore 0 fun k => { k with spad := k.spad.write 64 [9] }) with
      copies := [{ copyOwn with kind := .sbind 3, owner := .bare 0, desc := [64, 0, 4, 0, 0, 0, 0, 0] }] })
    (fun t => (t.m.ctx 0 false).stream 3 |>.fifo) = some [7, 8, 9] := by decide +kernel
/-- The address and ARMED; no value is held (07 R190, R191). -/
theorem test_mon : after (.mon (.s 1)) (sregs [(1, 64)]) (fun t => t.xc.monStat) = some 65 ∧ after (.mon (.s 1)) (sregs [(1, 68)]) trapOf = some (1, 0x17, 68) := by
  decide +kernel
/-- The value on its way to D, and the cause of an answer that is a fault. -/
def due (t : State) : List Word := t.xc.pend.map Pend.val
def answer (t : State) : Option Cause := t.xc.resp.map Trp.cause
theorem test_mwait : after (.mwait (.s 3) .zero) (spads [] 64 [5]) trapOf = some (1, 0x78, 0) ∧
    after (.mwait (.s 3) .zero) { at0 fun m => (m.updCore 0 fun k => { k with spad := k.spad.write 64 [5] }).updCtx 0 false fun x => { x with monStat := 65 } with agenda := [] }
      (fun t => (due t, t.xc.monVal, t.xc.monStat)) = some ([5], 5, 67) := by decide +kernel
/-- 7 + 5; 2^64 - 1 + 1 overflows and changes nothing (07 R192). -/
theorem test_sempost : after (.sempost (.s 1) (.s 2)) (spads [(1, 64), (2, 5)] 64 [7]) (fun t => t.m.spadRead 0 64 8) = some [12, 0, 0, 0, 0, 0, 0, 0] ∧
    after (.sempost (.s 1) (.s 2)) (spads [(1, 64), (2, 1)] 64 (List.replicate 8 0xFF)) (fun t => (answer t, t.m.spadRead 0 64 1)) =
      some (some .syncSemOverflow, [0xFF]) := by decide +kernel
theorem test_semwait : after (.semwait (.s 3) (.s 1) (.s 2)) (spads [(1, 64), (2, 5)] 64 [7]) (fun t => (due t, t.m.spadRead 0 64 1)) = some ([2], [2]) ∧
    after (.semwait (.s 3) (.s 1) (.s 2)) (spads [(1, 64), (2, 8)] 64 [7]) (fun t => (t.iss.dead, t.m.spadRead 0 64 1)) = some (true, [7]) := by decide +kernel
/-- The last of two arrivals: generation 7 is returned and becomes 8, ARRIVED becomes 0 (07 R193, R194). -/
theorem test_bararr : after (.bararr (.s 3) (.s 1)) (spads [(1, 64)] 64 [1, 0, 0, 0, 0, 0, 1, 0, 0, 2, 0, 0, 7, 0, 0, 0])
    (fun t => (due t, t.m.spadRead 0 64 16)) = some ([7], [1, 0, 0, 0, 0, 0, 0, 0, 0, 2, 0, 0, 8, 0, 0, 0]) ∧
    after (.bararr (.s 3) (.s 1)) (sregs [(1, 64)]) answer = some (some .syncBarrierUninit) := by decide +kernel
theorem test_barwait : after (.barwait (.s 1) (.s 2)) (spads [(1, 64), (2, 6)] 64 [1, 0, 0, 0, 0, 0, 1, 0, 0, 2, 0, 0, 7, 0, 0, 0]) (fun t => t.iss.dead) = some false ∧
    after (.barwait (.s 1) (.s 2)) (spads [(1, 64), (2, 7)] 64 [1, 0, 0, 0, 0, 0, 1, 0, 0, 2, 0, 0, 7, 0, 0, 0]) (fun t => t.iss.dead) = some true := by decide +kernel
/-- A core in no team passes at once (07 R196). -/
theorem test_tbar : after .tbar (sregs []) (fun t => t.iss.dead) = some false := by decide
theorem test_tladd : after (.tladd (.s 1) (.s 2)) (spads [(1, 64), (2, 3)] 64 (List.replicate 8 0xFF)) (fun t => t.m.spadRead 0 64 8) = some [2, 0, 0, 0, 0, 0, 0, 0] := by
  decide +kernel
theorem test_tlset : after (.tlset (.s 1) (.s 2)) (spads [(1, 64), (2, 3)] 64 [9]) (fun t => t.m.spadRead 0 64 1) = some [3] := by decide +kernel
theorem test_tlwait : after (.tlwait (.s 1) (.s 2)) (spads [(1, 64), (2, 3)] 64 [3]) (fun t => t.iss.dead) = some false ∧
    after (.tlwait (.s 1) (.s 2)) (spads [(1, 64), (2, 4)] 64 [3]) (fun t => t.iss.dead) = some true := by decide +kernel
/-- An atomic of type t on the four bytes 0xFFFFFFFE at 64 and the value 3: the old value, the new bytes (07 R201). -/
def atom (op : AtomT → Dst → Src → Src → Instr) (t : AtomT) : Option (List Word × List Byte) :=
  after (op t (.s 3) (.s 1) (.s 2)) (spads [(1, 64), (2, 3)] 64 [0xFE, 0xFF, 0xFF, 0xFF]) fun u => (due u, u.m.spadRead 0 64 4)
theorem test_aadd : atom .aadd .i32 = some ([0xFFFFFFFFFFFFFFFE], [1, 0, 0, 0]) := by decide +kernel
theorem test_amin : atom .amin .i32 = some ([0xFFFFFFFFFFFFFFFE], [0xFE, 0xFF, 0xFF, 0xFF]) ∧ atom .amin .n32 = some ([0xFFFFFFFE], [3, 0, 0, 0]) := by decide +kernel
theorem test_amax : atom .amax .i32 = some ([0xFFFFFFFFFFFFFFFE], [3, 0, 0, 0]) := by decide +kernel
theorem test_aand : atom .aand .n32 = some ([0xFFFFFFFE], [2, 0, 0, 0]) := by decide +kernel
theorem test_aor : atom .aor .n64 = some ([0xFFFFFFFE], [0xFF, 0xFF, 0xFF, 0xFF]) := by decide +kernel
theorem test_axor : atom .axor .n32 = some ([0xFFFFFFFE], [0xFD, 0xFF, 0xFF, 0xFF]) := by decide +kernel
theorem test_aswap : atom .aswap .n32 = some ([0xFFFFFFFE], [3, 0, 0, 0]) := by decide +kernel
theorem test_acas : after (.acas .n32 3 (.s 1) (.s 2)) (spads [(1, 64), (2, 3), (3, 5)] 64 [5]) (fun u => (due u, u.m.spadRead 0 64 1)) = some ([5], [3]) ∧
    after (.acas .n32 3 (.s 1) (.s 2)) (spads [(1, 64), (2, 3), (3, 6)] 64 [5]) (fun u => (due u, u.m.spadRead 0 64 1)) = some ([5], [5]) := by decide +kernel
/-- A cell in a scratchpad is no target; one that is misaligned is none (07 R202, 02 R58). -/
theorem test_fxadd : after (.fxadd false (.s 1) (.s 2)) (sregs [(1, 64)]) trapOf = some (1, 0x25, 64) := by decide +kernel
theorem test_fxread : after (.fxread false (.s 3) (.s 1)) (sregs [(1, 68)]) trapOf = some (1, 0x19, 68) := by decide +kernel
theorem test_fence : after (.fence .device 0x12 0x01) (sregs []) (fun t => t.iss.dead) = some false := by decide
theorem test_qmark : after .qmark (sregs []) (fun t => t.iss.dead) = some false := by decide
/-- An item of queue 5 comes into s8 to s15; the number is out of range (07 R199, R200). -/
theorem test_deq : after (.deq 1 (.s 1)) { wQueue 1 [item0] with m := (wQueue 1 [item0]).m.updCtx 0 false fun x => x.setS 1 5, pre := (wQueue 1 [item0]).pre.updCtx 0 false fun x => x.setS 1 5 }
    (fun t => (due t, (t.m.wqAt 5).items.length)) = some ([0x11000, 1, 2, 3, 4, 5, 6, 7], 0) ∧
    after (.deq 1 (.s 1)) (sregs [(1, 1024)]) trapOf = some (1, 0x7D, 0) := by decide +kernel
theorem test_enq : after (.enq (.s 1) 1) (at0 fun m => (m.updWq 5 fun w => { w with state := 1 }).updCtx 0 false fun x => (x.setS 1 5).setS 8 0x11000)
    (fun t => ((t.m.wqAt 5).items.map QItem.words, (t.m.wqAt 5).tail)) = some ([[0x11000, 0, 0, 0, 0, 0, 0, 0]], 1) := by decide +kernel
theorem test_tbegin : after (.tbegin 2) (wTask 1 [] id) (fun t => t.xc.region.map Region.beginPc) = some (some 0x100) ∧
    after (.tbegin 2) (sregs []) trapOf = some (1, 0x68, 0) := by decide +kernel
theorem test_tend : after .tend wRegion (fun t => (t.xc.region.isNone, t.m.commits.length, t.m.tdt.map TdtEnt.st)) = some (true, 1, [2]) ∧
    after .tend (sregs []) trapOf = some (1, 0x62, 0) := by decide +kernel
theorem test_commitComplete : after (.commitComplete 8) (wTask 1 [commit0] id) (fun t => (t.m.commits.length, t.m.tdt.length)) = some (0, 0) := by decide +kernel
/-- CYCLES is read by context 0; ASID only by context 1; TVEC keeps no bits [5:1] (06 R152, 14 R319). -/
theorem test_csrr : after (.csrr (.s 3) 0x046) (core0 fun k => { k with cycles := 9 }) (fun t => t.xc.sreg 3) = some 9 ∧
    after (.csrr (.s 3) 0x101) (sregs []) trapOf = some (1, 0x11, 0) := by decide +kernel
theorem test_csrw : after (.csrw 0x110 (.s 1)) (sregs [(1, 0x43F)]) (fun t => t.xc.tvec) = some 0x401 ∧
    after (.csrw 0x047 (.s 1)) (sregs []) trapOf = some (1, 0x11, 0) := by decide +kernel
theorem test_rrw : after (.rrw false 1 2) { fw0 id with m := (fw0 id).m.updCtx 0 true (fun x => ((x.setS 8 0x1000).setS 9 0x1FFF).setS 11 0xB), pre := (fw0 id).pre.updCtx 0 true (fun x => ((x.setS 8 0x1000).setS 9 0x1FFF).setS 11 0xB) }
    (fun t => (List.range 4).map fun j => (t.m.ctx 0 false).ranges.get 0 (4 + j)) = some [0x1000, 0x1FFF, 0, 0xB] := by decide +kernel
theorem test_xlatinv : after (.xlatinv (.s 3) (.s 1) (.s 2)) { fw0 id with agenda := [] } (fun t => (t.xc.sreg 3, t.kc.xlatSeq)) = some (1, 1) := by decide +kernel
theorem test_xlatinvComplete : after (.xlatinvComplete 0 1) (core0 fun k => { k with xlatSeq := 1, xlatReqs := [{ num := 1, asid := 0, page := 0 }] })
    (fun t => (t.kc.xlatDone, t.kc.xlatReqs.length)) = some (1, 0) := by decide +kernel

/-! ## The machine's own events and the host's: results by hand from chapters 08, 12, 15 and 18 to 20 -/

theorem test_ringpush : after (.ringpush 0x0201) wRing (fun t => ((t.kc.ringOf 1).w, (t.kc.ringOf 1).r)) = some (3, 0) ∧
    after (.ringpush 0x0801) wRing trapOf = some (1, 0x96, 0) := by decide +kernel
theorem test_ringpop : after (.ringpop 0x0101) wRing (fun t => ((t.kc.ringOf 1).w, (t.kc.ringOf 1).r)) = some (1, 1) ∧
    after (.ringpop 0x0201) wRing trapOf = some (1, 0x96, 0) := by decide +kernel
theorem test_ringcfg : after (.ringcfgWrite 1 cfgOwn) wRing (fun t => (t.kc.ringOf 1).w) = some 0 := by decide +kernel
/-- A row of four bytes of the scratchpad becomes item 0 of ring 2, whose slots begin at 0; ring 2 counts it (08 R230). -/
theorem test_mouldTilePush : after (.mouldTilePush 1) { wUnit sub0 id with m := (wUnit sub0 id).m.spadWrite 0 64 [1, 2, 3, 4] }
    (fun t => (t.m.spadRead 0 0 4, ((t.m.core 0).ringOf 2).w, t.m.subs.map Sub.tile)) = some ([1, 2, 3, 4], 1, [1]) := by decide +kernel
/-- Ring 3's slots begin at 64 times 0x104. -/
theorem test_pressSlotPop : after (.pressSlotPop 1) { wUnit press0 id with m := (wUnit press0 id).m.spadWrite 0 (64 * 0x104) [1, 2, 3, 4] }
    (fun t => (t.m.spadRead 0 64 4, ((t.m.core 0).ringOf 3).r, t.m.subs.map Sub.tile)) = some ([1, 2, 3, 4], 1, [1]) := by decide +kernel
theorem test_mouldgo : after (.mouldgo 0x400) (wRec recMould) (fun t => t.m.subs.map fun x => (x.mould, uTiles x.desc)) = some [(true, 1)] ∧
    after (.mouldgo 0x401) (wRec recMould) trapOf = some (1, 0x18, 0x401) := by decide +kernel
theorem test_peeraop : after (.peeraop 0x401) (wRec recAop) trapOf = some (1, 0x18, 0x401) := by decide +kernel
theorem test_lentSlotGrant : after (.lentSlotGrant 0 2) (wLent full2) (fun t => ((t.m.core 0).ringOf 2).granted) = some true := by decide +kernel
theorem test_lentItemMove : after (.lentItemMove 0 2) (wLent { full2 with w := 9, r := 1, lent := [(8, [1])] })
    (fun t => (((t.m.core 0).ringOf 2).lent.length, t.m.spadRead 0 0 1)) = some (0, [1]) := by decide +kernel
theorem test_wqOpen : after .wqOpen (wQueue 0 []) (fun t => (t.m.wqAt 5).state) = some 1 ∧ after .wqOpen (wQueue 1 []) trapOf = some (1, 0x82, 0) := by decide +kernel
theorem test_wqClose : after .wqClose (wQueue 1 []) (fun t => (t.m.wqAt 5).state) = some 2 := by decide +kernel
theorem test_wqReset : after .wqReset (wQueue 1 [item0]) (fun t => ((t.m.wqAt 5).state, (t.m.wqAt 5).items)) = some (0, []) := by decide +kernel
theorem test_wqRestart : after (.wqRestart 1) (wQueue 3 [item0]) (fun t => ((t.m.wqAt 5).state, (t.m.wqAt 5).head, (t.m.wqAt 5).items)) = some (1, 1, []) := by decide +kernel
theorem test_sqTailWrite : after (.sqTailWrite 3 16) wNop (fun t => (t.m.sqAt 3).tail) = some 16 ∧
    after (.sqTailWrite 3 17) wNop (fun t => ((t.m.sqAt 3).tail, (t.m.sqAt 3).tailErr)) = some (1, true) := by decide +kernel
theorem test_sqNopRecord : after (.sqNopRecord 3) wNop (fun t => (t.m.sqAt 3).next) = some 1 := by decide +kernel
theorem test_sqWaitRecord : after (.sqWaitRecord 3) (wWait 1 5) (fun t => ((t.m.sqAt 3).next, (t.m.sqAt 3).state)) = some (0, 3) := by decide +kernel
theorem test_sqWaitSatisfied : after (.sqWaitSatisfied 3) (wWait 3 2) (fun t => ((t.m.sqAt 3).next, (t.m.sqAt 3).state)) = some (1, 1) := by decide +kernel
/-- A HEAD of zeros is refused: ERROR with SYNC_SQ_RECORD at index 0 (12 R284). -/
theorem test_sqHeadRecord : after (.sqHeadRecord 3) (wSq 1 [0x500000000000000] fed) (fun t => ((t.m.sqAt 3).state, (t.m.sqAt 3).cause, (t.m.sqAt 3).badIdx)) = some (2, 0x84, 0) := by
  decide +kernel
theorem test_cancelLaunch : after (.cancelLaunch 0) (team0 id) (fun t => ((t.m.ctx 0 false).run, (t.m.ctx 0 false).killRec.toNat % 256)) = some (.killed, 0xA5) := by decide +kernel
theorem test_workerRetire : after (.workerRetire 0) wDone (fun t => ((t.m.ctx 0 false).owner, t.m.launches.map fun l => l.worker 0)) = some (none, [.retired (some (0, 0))]) := by decide +kernel
theorem test_teamMemberKill : after (.teamMemberKill 0) doomed (fun t => (t.m.ctx 0 false).killRec.toNat % 256) = some 0xA3 := by decide +kernel
theorem test_watchdogExpiry : after (.watchdogExpiry 0) (at0 fun m => { m.updCore 0 fed with time := 10000001 }) (fun t => (t.m.core 0).wdogFed) = some false := by decide +kernel
theorem test_freezeCycle : after (.freezeCycle 0) (at0 fun m => (m.updCtx 0 false fun x => { x with run := .halted }).updCore 0 fun k => { k with ilimit := 0, weights := [1] })
    (fun t => (t.m.core 0).freezeCnt) = some 1 := by decide +kernel
/-- MIN above MAX: nothing is written (19 R384). -/
theorem test_dkcfgWrite : after (.dkcfgWrite 0x2030) (sregs []) (fun t => (t.m.dkMin, t.m.dkMax)) = some (0, 96) := by decide +kernel
theorem test_coreFenceCmd : after (.coreFenceCmd 0) (sregs []) (fun t => (t.m.core 0).margin.state) = some 1 := by decide
theorem test_coreFenced : after (.coreFenced 0) wMargin (fun t => (t.m.core 0).margin.state) = some 2 := by decide +kernel
theorem test_linkRateStep : after (.linkRateStep 1 false) wPower (fun t => ((t.m.linkAt 1).rate, (t.m.linkAt 1).training)) = some (2, true) := by decide
theorem test_linkRetrainDone : after (.linkRetrainDone 0 true) wPower (fun t => (t.m.linkAt 0).training) = some false ∧
    after (.linkRetrainDone 11 false) wPower (fun t => (t.m.linkAt 11).down) = some true := by decide +kernel
theorem test_hbmSelfRefreshEntry : after (.hbmSelfRefreshEntry 0) wPower (fun t => t.m.power.inSr) = some 1 := by decide
theorem test_diegateClear : after (.diegateClear 0) wPower (fun t => t.m.power.dieGate) = some 0 := by decide
theorem test_pstateWrite : after (.pstateWrite 2) wPower (fun t => t.m.power.pstate) = some 2 := by decide
theorem test_hostMemory : after (.hostMemoryWrite 0x1000000040 [1, 2]) (at0 id) (fun t => (t.m.stack 1).read 0x40 2) = some [1, 2] ∧
    after (.hostMemoryRead 0x40 2) (at0 fun m => m.hbmWrite 0 0x40 [3, 4]) (fun t => t.m.out) = some [.readData [3, 4]] := by decide +kernel
/-- SQTAIL of queue 3 lies at 64 times 3 plus 0x10 of BAR0 (12 R279, 18 R368). -/
theorem test_hostRegisterWrite : after (.hostRegisterWrite (64 * 3 + 0x10) 9) wNop (fun t => (t.m.sqAt 3).tail) = some 9 := by decide +kernel
theorem test_peerDropped : after (.peerWriteFrame (frame0 1 1)) (wPeer id) (fun t => t.m.out) = some [] := by decide +kernel
theorem test_powerLoss : after .powerLoss (at0 fun m => m.hbmWrite 0 0x40 [3, 4]) (fun t => (t.m.power.off, t.m.stack 0)) = some (true, Mem.empty) := by decide +kernel
theorem test_bootRefused : after .bootOwneronly (at0 id) (fun t => (t.m.trust.refused, t.m.trust.ownerOnly)) = some (true, false) := by decide
theorem test_bootRevoke : after (.bootRevoke 1) wSnow (fun t => (t.m.trust.slots.get KeySlot.reset 1).revoked) = some true := by decide
theorem test_debugResume : after (.debugResume 0) (ctx0 fun x => { x with run := .debug }) (fun t => (t.m.ctx 0 false).run) = some .running := by decide
theorem test_msixVectorUnmask : after (.msixVectorUnmask 2) (at0 fun m => { m with msixPend := 4 }) (fun t => t.m.out) = some [.msix 2] ∧
    after (.msixVectorUnmask 2) (at0 fun m => { m with msixPend := 4, msixSent := 4 }) (fun t => t.m.out) = some [] := by decide
/-- SQTAIL as the host reads it, and a reserved register (18 R368). -/
theorem test_barRead : wNop.m.barRead (64 * 3 + 0x10) = 1 ∧ wNop.m.barRead (64 * 3 + 0x38) = 0 := by decide +kernel
/-- The port goes down: its store is answered with RAS_LINK_DOWN, which its bundle meets (18 R374, 09 R242). -/
theorem test_peerPortDown : after (.peerPortDown 0) wScalar (fun t => (t.m.peerReqs.length, bitAt t.m.portDown.toNat 0, (t.m.ctx 0 false).resp.map Trp.cause)) =
    some (0, true, some .rasLinkDown) := by decide +kernel
/-- A step at rest takes the event at the head of its agenda. -/
theorem test_step_event : stepped { at0 id with agenda := [.event (.pstateWrite 1)] } (fun t => (t.m.power.pstate, t.agenda)) = some (1, []) := by decide +kernel
/-- The word 0x02080702 placed by withFetchWord runs: s4 = s3 - 2 (05 R112). -/
theorem test_step_sub : stepped (State.reset.withFetchWord 32 0x02080702) (fun t => (t.m.ctx 0 false).sreg 4) = some 0xFFFFFFFFFFFFFFFE := by
  decide +kernel
end Sys2Proof.Tests
end

section
/-!
PROOFS. What a word decodes to under the layouts of 03, from what its fields hold; the samples of O3 are instances of these rules.
-/
namespace Sys2Proof.Decoding

/-! ## Each slot has its own decoder (03 R67) -/

section Slots
variable (fw : Bool) (len : Nat) (w : BitVec 32)

theorem decodeSlot_one : decodeSlot fw len 1 w = decodeAlu .alu0 w := rfl
theorem decodeSlot_two : decodeSlot fw len 2 w = decodeAlu .alu1 w := rfl
theorem decodeSlot_three : decodeSlot fw len 3 w = decodeAgu w := rfl
theorem decodeSlot_four : decodeSlot fw len 4 w = decodeVu w := rfl
theorem decodeSlot_five : decodeSlot fw len 5 w = decodeMx w := rfl
theorem decodeSlot_six : decodeSlot fw len 6 w = decodeEng fw w := rfl

end Slots

/-! ## Slot S0: layouts C-Z, C-B, C-LOOP and C-ADV (03 R77, R78) -/

section Control
variable {fw : Bool} {len : Nat} {w : BitVec 32}

theorem decodeSlot_nop (hop : (fld w 26 6).toNat = 0x00) (hz : fld w 0 26 = 0) : decodeSlot fw len 0 w = .ok .nop := by
  simp [decodeSlot, decodeCtl, need, hop, hz]

theorem decodeSlot_bc (hop : (fld w 26 6).toNat = 0x01) :
    decodeSlot fw len 0 w = .ok (.bc (fld w 25 1 == 1) (fld w 21 4) (fld w 0 21)) := by
  simp [decodeSlot, decodeCtl, hop]

/-- The END of a LOOP reaches at least past its own bundle. -/
theorem decodeSlot_loop {cnt : Src9} (hop : (fld w 26 6).toNat = 0x06) (hc : Src9.dec (fld w 16 9) = some cnt)
    (he : len ≤ (fld w 0 16).toNat) : decodeSlot fw len 0 w = .ok (.loop (fld w 25 1 == 1) cnt (fld w 0 16)) := by
  have hctl : decodeCtl w = .ok (.loop (fld w 25 1 == 1) cnt (fld w 0 16)) := by
    simp only [decodeCtl, hop, hc, oper, want]
  simp only [decodeSlot, hctl, need, decide_eq_true he, if_true]

/-- Entry j of an ADV lies at bits [6j+5:6j] (04 R105). -/
theorem decodeSlot_adv {e₀ e₁ e₂ e₃ : AdvEnt} (hop : (fld w 26 6).toNat = 0x07) (hz : fld w 24 2 = 0)
    (h₀ : AdvEnt.dec (fld w 0 6) = e₀) (h₁ : AdvEnt.dec (fld w 6 6) = e₁) (h₂ : AdvEnt.dec (fld w 12 6) = e₂)
    (h₃ : AdvEnt.dec (fld w 18 6) = e₃) (hok : advOk e₀ e₁ e₂ e₃ = true) :
    decodeSlot fw len 0 w = .ok (.adv e₀ e₁ e₂ e₃) := by
  simp [decodeSlot, decodeCtl, need, hop, hz, h₀, h₁, h₂, h₃, hok]

theorem decodeSlot_control_reserved (hop : 0x0E ≤ (fld w 26 6).toNat) : decodeSlot fw len 0 w = .error .illegalOpcode := by
  have hctl : decodeCtl w = .error .illegalOpcode := by
    unfold decodeCtl
    split
    case h_15 => rfl
    all_goals omega
  simp only [decodeSlot, hctl]

end Control

/-! ## Slots S1 to S3: layout S (03 R73 to R76) -/

section LayoutS
variable {u : Alu} {n : Fin 7} {w : BitVec 32} {d : Dst} {x a : Src} {b : Src9}

theorem layS_of_fields {f : Dst → Src → Src9 → Instr} (hd : Dst.decFor n (fld w 17 8) = some d)
    (ha : Src.dec (fld w 9 8) = some a) (hb : Src9.dec (fld w 0 9) = some b) : layS n w f = .ok (f d a b) := by
  simp only [layS, oper, want, hd, ha, hb]

theorem laySt_of_fields {f : Src → Src → Src9 → Instr} (hx : Src.dec (fld w 17 8) = some x)
    (ha : Src.dec (fld w 9 8) = some a) (hb : Src9.dec (fld w 0 9) = some b) : laySt w f = .ok (f x a b) := by
  simp only [laySt, oper, want, hx, ha, hb]

theorem decodeAlu_add (hop : opS w = 0x00) (hd : Dst.decFor u.unit (fld w 17 8) = some d)
    (ha : Src.dec (fld w 9 8) = some a) (hb : Src9.dec (fld w 0 9) = some b) : decodeAlu u w = .ok (.add u d a b) := by
  simp only [decodeAlu, hop, layS_of_fields hd ha hb]

theorem decodeAlu_sub (hop : opS w = 0x01) (hd : Dst.decFor u.unit (fld w 17 8) = some d)
    (ha : Src.dec (fld w 9 8) = some a) (hb : Src9.dec (fld w 0 9) = some b) : decodeAlu u w = .ok (.sub u d a b) := by
  simp only [decodeAlu, hop, layS_of_fields hd ha hb]

theorem decodeAlu_shl (hop : opS w = 0x0D) (hd : Dst.decFor u.unit (fld w 17 8) = some d)
    (ha : Src.dec (fld w 9 8) = some a) (hb : Src9.dec (fld w 0 9) = some b) : decodeAlu u w = .ok (.shl u d a b) := by
  simp only [decodeAlu, hop, layS_of_fields hd ha hb]

theorem decodeAgu_ld64 (hop : opS w = 0x0E) (hd : Dst.decFor uAGU (fld w 17 8) = some d)
    (ha : Src.dec (fld w 9 8) = some a) (hb : Src9.dec (fld w 0 9) = some b) : decodeAgu w = .ok (.ld64 d a b) := by
  simp only [decodeAgu, hop, layS_of_fields hd ha hb]

theorem decodeAgu_st8 (hop : opS w = 0x18) (hx : Src.dec (fld w 17 8) = some x)
    (ha : Src.dec (fld w 9 8) = some a) (hb : Src9.dec (fld w 0 9) = some b) : decodeAgu w = .ok (.st8 x a b) := by
  simp only [decodeAgu, hop, laySt_of_fields hx ha hb]

end LayoutS

/-! ## Slots S4 and S5 (03 R79, R80, R85) -/

section VectorMatrix
variable {w : BitVec 32}

theorem decodeVu_vadd {t : VT} (hop : (fld w 28 4).toNat = 0x0) (ht : VT.dec (fld w 24 4) = some t) :
    decodeVu w = .ok (.vadd t (fld w 16 8) (fld w 8 8) (fld w 0 8)) := by
  simp [decodeVu, layVR, form, want, need, hop, ht]

/-- The MXCLR of a pair names an even accumulator. -/
theorem decodeMx_mxclr_pair (hop : (fld w 27 5).toNat = 0x04) (hz : fld w 0 23 = 0) (hp : fld w 23 1 = 1)
    (heven : (fld w 24 3).toNat % 2 = 0) : decodeMx w = .ok (.mxclr (fld w 24 3) true) := by
  simp only [decodeMx, need, hop, hz, hp, heven]
  rfl

theorem decodeMx_gtie {a : Src} (hop : (fld w 27 5).toNat = 0x15) (hz : fld w 16 11 = 0) (hz' : fld w 0 8 = 0)
    (ha : Src.dec (fld w 8 8) = some a) : decodeMx w = .ok (.gtie a) := by
  simp [decodeMx, layXA, oper, want, need, hop, hz, hz', ha]

end VectorMatrix

/-! ## Slot S6: layouts E and Y (03 R86 to R88) -/

section Engines
variable {fw : Bool} {w : BitVec 32} {d : Dst}

theorem decodeEng_cpy {k : BitVec 3} (hop : (fld w 26 6).toNat = 0x00) (hmod : fld w 24 2 = 0) (hd : eD w = some d)
    (hk : grp8 (fld w 8 8) = some k) (hb : fld w 0 8 = 0x8E) : decodeEng fw w = .ok (.cpy d k) := by
  simp [decodeEng, mod0, noB, oper, want, need, hop, hmod, hd, hk, hb]

/-- Both masks of a FENCE name an access. -/
theorem decodeEng_fence (hop : (fld w 26 6).toNat = 0x17) (hd : fld w 16 8 = 0x8F) (ha : fld w 8 8 ≠ 0) (hb : fld w 0 8 ≠ 0) :
    decodeEng fw w = .ok (.fence (.dec (fld w 24 2)) (fld w 8 8) (fld w 0 8)) := by
  simpa [decodeEng, noD, need, hop, hd] using ⟨ha, hb⟩

theorem decodeEng_csrr (hop : (fld w 26 6).toNat = 0x20) (hmod : fld w 24 2 = 0) (hz : fld w 12 4 = 0)
    (hd : Dst.decFor uENG (fld w 16 8) = some d) (hcsr : csrAssigned (fld w 0 12) = true) :
    decodeEng fw w = .ok (.csrr d (fld w 0 12)) := by
  simp [decodeEng, oper, want, need, hop, hmod, hz, hd, hcsr]

end Engines

/-- Settles O3: each word's fields, by the rule of its layout. -/
theorem decodeSamples : Obligations.DecodeSamples := by
  unfold Obligations.DecodeSamples
  simp only [decodeSlot_one, decodeSlot_two, decodeSlot_three, decodeSlot_four, decodeSlot_five, decodeSlot_six]
  refine ⟨?nop, ?bc, ?loop, ?adv, ?add, ?sub, ?shl, ?subToP, ?ld64, ?st8, ?vadd, ?mxclr, ?gtie, ?cpy, ?fence, ?csrr, ?reserved⟩
  case nop => exact decodeSlot_nop rfl rfl
  case bc => exact decodeSlot_bc rfl
  case loop => exact decodeSlot_loop rfl rfl (by decide)
  case adv => exact decodeSlot_adv rfl rfl rfl rfl rfl rfl rfl
  case add => exact decodeAlu_add rfl rfl rfl rfl
  case sub => exact decodeAlu_sub rfl rfl rfl rfl
  case shl => exact decodeAlu_shl rfl rfl rfl rfl
  case subToP => exact decodeAlu_sub rfl rfl rfl rfl
  case ld64 => exact decodeAgu_ld64 rfl rfl rfl rfl
  case st8 => exact decodeAgu_st8 rfl rfl rfl rfl
  case vadd => exact decodeVu_vadd rfl rfl
  case mxclr => exact decodeMx_mxclr_pair rfl rfl rfl rfl
  case gtie => exact decodeMx_gtie rfl rfl rfl rfl
  case cpy => exact decodeEng_cpy rfl rfl rfl rfl rfl
  case fence => exact decodeEng_fence rfl rfl (by decide) (by decide)
  case csrr => exact decodeEng_csrr rfl rfl rfl rfl rfl
  case reserved => exact decodeSlot_control_reserved (by decide)

end Sys2Proof.Decoding
end
